-- ==== Sys2Proof/Word.lean ====
section
/-! DEFINITION. Word types of the FJ4 and their plainest arithmetic (R7 to R12, R62, R78, R148). -/

namespace Sys2Proof

/-- A byte of any memory (R8). -/
abbrev Byte := BitVec 8

/-- An instruction word (R62). -/
abbrev Word := BitVec 32

/-- A scalar register, address or counter (R148). -/
abbrev DWord := BitVec 64

/-- The whole value of a vector register: element `e` of width `w` is bits `w*e+w-1 : w*e` (R79). -/
abbrev VecBits := BitVec 16384

/-- The whole value of a weight register: the code of position `p` is bits `16*p+15 : 16*p` (R84). -/
abbrev WeightBits := BitVec 32768

/-- One bit for each weight position: an arm mask or a live mask (R199, R206). -/
abbrev MaskBits := BitVec 2048

/-- The whole value of a tile register: element `(m, n)` is bits `32*(128*m+n)+31 : 32*(128*m+n)` (R228). -/
abbrev TileBits := BitVec 524288

/-- Bits `hi : lo` of a number (R7), given by the low bit and the width. -/
def field (x lo width : Nat) : Nat := (x >>> lo) % 2 ^ width

/-- The smallest multiple count: `ceilDiv a b` is the ceiling of `a / b`. -/
def ceilDiv (a b : Nat) : Nat := (a + b - 1) / b

end Sys2Proof
end

