-- ==== Sys2Proof/Syntax.lean ====
section
/-! DEFINITION. The steps of the FJ4: one constructor of `Instr` for each row of spec/opcode_table.json.
The first 166 are the instruction words (R73); the others are the events that have no word of their own. -/

namespace Sys2Proof

/-- Element types (R70, R78). -/
inductive ETy where
  | fp32 | fp16 | bf16 | e5m2 | e4m3 | e3m2 | e2m3 | e2m1
  | int8 | int16 | int32 | n8 | n16 | n32
  deriving DecidableEq, Repr

/-- Rounding modes (R70, R85). -/
inductive Rnd where
  | rne | rna | rtz | rup | rdn
  deriving DecidableEq, Repr

/-- A scalar register number (R39). -/
abbrev SReg := Fin 32
/-- A vector register number. -/
abbrev VReg := Fin 32
/-- A weight register number. -/
abbrev WReg := Fin 8
/-- A tile register number. -/
abbrev TReg := Fin 4
/-- A mode register number. -/
abbrev MReg := Fin 4
/-- A layout register number. -/
abbrev LReg := Fin 8
/-- An interpolation table number. -/
abbrev TblReg := Fin 4

/-- The vb operand of a word with the three forms of R65. -/
inductive VB where
  | vv (r : VReg)
  | vs (r : SReg)
  | vi (imm : BitVec 5)
  deriving DecidableEq, Repr

/-- The amount of `vslide`: form 01 or form 10 (R136). -/
inductive SlideAmt where
  | vs (r : SReg)
  | vi (imm : BitVec 5)
  deriving DecidableEq, Repr

/-- The addressing of `vstw` (R221). -/
inductive WAddr where
  | unit
  | strided (r : SReg)
  | indexed (r : VReg)
  deriving DecidableEq, Repr

/-- The system registers of R188. -/
inductive SysReg where
  | scc | tick | vl | step | stage | coord | oob | period | fs
  | fx (k : Fin 7)
  | th (k : Fin 4)
  | m (k : Fin 4)
  | tcause | tepc | tval | tvec | tstate
  deriving DecidableEq, Repr

/-- A link direction pair offered to formation (R338): the two ends, as package and die, with the
latency measured in each direction and whether training succeeds (log 12). -/
structure LinkSpec where
  pkgA : Nat
  dieA : Fin 4
  pkgB : Nat
  dieB : Fin 4
  latAB : Nat
  latBA : Nat
  trained : Bool
  deriving DecidableEq, Repr

/-- Where a corrected error was met: each is counted (R326). The links are the Brobor links, the bridge between two dies and the link
to the host (log 139). -/
inductive ErrSite where
  | stack (s : Fin 8)
  | core (d : Fin 4) (c : Fin 12) (k : Fin 12)
  | link (l : Fin 48)
  | bridge (a b : Fin 4)
  | host
  deriving DecidableEq, Repr

/-- A core of the package: its logical coordinate and the folio it is bound to (R5). -/
structure CoreId where
  folio : Nat
  pkg : Nat
  die : Nat
  cluster : Nat
  core : Nat
  deriving DecidableEq, Repr

/-- The readings of a die's 16 junction sensors, in eighths of a degree (R389). -/
abbrev DieSensors := Vector (BitVec 16) 16

/-- The readings of the four dies. -/
abbrev Sensors := Vector DieSensors 4

/-- What a machine check meets: a core itself (R326), or a group of a cluster access that it receives, by the access's issue
number and the group (R258). -/
structure CheckSite where
  core : CoreId
  group : Option (Nat × Nat)
  deriving DecidableEq, Repr

/-- A byte that the host addresses: of the cellar, or of HBM by VA (R316, R331). -/
structure HostAddr where
  cellar : Bool
  va : DWord
  deriving DecidableEq, Repr

/-- The steps of the part, in the order of the table. Words first name their mode register, then their
registers in word order; events name the work, folio, package or command they concern. -/
inductive Instr where
  | addw (d a b : SReg)
  | subw (d a b : SReg)
  | andw (d a b : SReg)
  | orw (d a b : SReg)
  | xorw (d a b : SReg)
  | sll (d a b : SReg)
  | srl (d a b : SReg)
  | sra (d a b : SReg)
  | slt (d a b : SReg)
  | sltu (d a b : SReg)
  | mulw (d a b : SReg)
  | mulh (d a b : SReg)
  | mulhu (d a b : SReg)
  | divw (d a b : SReg)
  | divu (d a b : SReg)
  | remw (d a b : SReg)
  | minw (d a b : SReg)
  | maxw (d a b : SReg)
  | addi (d a : SReg) (i : BitVec 15)
  | andi (d a : SReg) (i : BitVec 15)
  | ori (d a : SReg) (i : BitVec 15)
  | xori (d a : SReg) (i : BitVec 15)
  | slti (d a : SReg) (i : BitVec 15)
  | slli (d a : SReg) (h : Fin 64)
  | srli (d a : SReg) (h : Fin 64)
  | srai (d a : SReg) (h : Fin 64)
  | lui (d : SReg) (i : BitVec 20)
  | beq (a b : SReg) (o : BitVec 15)
  | bne (a b : SReg) (o : BitVec 15)
  | blt (a b : SReg) (o : BitVec 15)
  | bge (a b : SReg) (o : BitVec 15)
  | bltu (a b : SReg) (o : BitVec 15)
  | bgeu (a b : SReg) (o : BitVec 15)
  | jal (d : SReg) (o : BitVec 20)
  | jalr (d a : SReg) (i : BitVec 15)
  | loopw (a : SReg) (o : BitVec 15)
  | loopi (n : BitVec 10) (o : BitVec 15)
  | nop
  | fend
  | rstp
  | tret
  | trap (i : BitVec 15)
  | mode (k : MReg) (body : BitVec 23)
  | modeScalar (k : MReg) (a : SReg)
  | idle (n : BitVec 15)
  | sysr (d : SReg) (r : SysReg)
  | sysw (r : SysReg) (a : SReg)
  | ldd (d a : SReg) (i : BitVec 15)
  | ldw (d a : SReg) (i : BitVec 15)
  | ldh (d a : SReg) (i : BitVec 15)
  | ldb (d a : SReg) (i : BitVec 15)
  | std (d a : SReg) (i : BitVec 15)
  | stw (d a : SReg) (i : BitVec 15)
  | sth (d a : SReg) (i : BitVec 15)
  | stb (d a : SReg) (i : BitVec 15)
  | tlook (d a : SReg)
  | tset (a b : SReg)
  | tclr (a : SReg)
  | mbr (d : SReg) (n : Fin 16)
  | vadd (m : MReg) (d a : VReg) (b : VB)
  | vsub (m : MReg) (d a : VReg) (b : VB)
  | vmul (m : MReg) (d a : VReg) (b : VB)
  | vfma (m : MReg) (d a : VReg) (b : VB)
  | vfms (m : MReg) (d a : VReg) (b : VB)
  | vnfma (m : MReg) (d a : VReg) (b : VB)
  | vmin (m : MReg) (d a : VReg) (b : VB)
  | vmax (m : MReg) (d a : VReg) (b : VB)
  | vabs (m : MReg) (d a : VReg)
  | vneg (m : MReg) (d a : VReg)
  | vrcp (m : MReg) (d a : VReg)
  | vrsq (m : MReg) (d a : VReg)
  | vsqrt (m : MReg) (d a : VReg)
  | vpopc (m : MReg) (d a : VReg)
  | vclz (m : MReg) (d a : VReg)
  | vand (m : MReg) (d a : VReg) (b : VB)
  | vor (m : MReg) (d a : VReg) (b : VB)
  | vxor (m : MReg) (d a : VReg) (b : VB)
  | vshl (m : MReg) (d a : VReg) (b : VB)
  | vshr (m : MReg) (d a : VReg) (b : VB)
  | vsra (m : MReg) (d a : VReg) (b : VB)
  | vmulh (m : MReg) (d a : VReg) (b : VB)
  | vceq (m : MReg) (d : WReg) (a : VReg) (b : VB)
  | vclt (m : MReg) (d : WReg) (a : VReg) (b : VB)
  | vcle (m : MReg) (d : WReg) (a : VReg) (b : VB)
  | vcvt (m : MReg) (d a : VReg) (u : ETy)
  | vredsum (m : MReg) (d a : VReg)
  | vredmax (m : MReg) (d a : VReg)
  | vredmin (m : MReg) (d a : VReg)
  | vsegsum (m : MReg) (d a : VReg) (b : WReg)
  | vsegredMax (m : MReg) (d a : VReg) (b : WReg)
  | vsegredMin (m : MReg) (d a : VReg) (b : WReg)
  | vperm (m : MReg) (d a b : VReg)
  | vslide (m : MReg) (d a : VReg) (k : SlideAmt)
  | vins (m : MReg) (d : VReg) (a b : SReg)
  | vext (m : MReg) (d : SReg) (a : VReg) (b : SReg)
  | vmov (m : MReg) (d a : VReg)
  | vmovScalar (m : MReg) (d : VReg) (b : SReg)
  | vrng (m : MReg) (d a b : VReg)
  | vpfx (m : MReg) (d a b : VReg)
  | vxsect (m : MReg) (d a b : VReg)
  | vcomp (m : MReg) (d a b : VReg)
  | vexpd (m : MReg) (d a b : VReg)
  | vtbl (m : MReg) (d a : VReg) (t : TblReg)
  | vtld (m : MReg) (a : SReg) (t : TblReg)
  | wsoft (m : MReg) (d : WReg) (a : VReg) (b : VB)
  | wsoftg (m : MReg) (d a : VReg) (b : WReg)
  | wfromv (m : MReg) (d : WReg) (a : VReg)
  | wtov (m : MReg) (d : VReg) (a : WReg)
  | wnot (m : MReg) (d a : WReg)
  | wmul (m : MReg) (d a b : WReg)
  | wmov (m : MReg) (d a : WReg)
  | wdrop (m : MReg) (d : WReg) (a : VReg) (b : SReg)
  | arm (m : MReg) (w : WReg) (o : BitVec 15)
  | blend (m : MReg) (d a b : VReg) (k : WReg)
  | bacc (m : MReg) (d a b : VReg) (k : WReg)
  | bnorm (m : MReg) (d a b : VReg)
  | bgrad (m : MReg) (d a b : VReg) (k : WReg)
  | wloop (m : MReg) (w : WReg) (a : SReg) (o : BitVec 15)
  | setvl (d a : SReg) (k : MReg)
  | vld (m : MReg) (d : VReg) (a : SReg)
  | vlds (m : MReg) (d : VReg) (a b : SReg)
  | vldx (m : MReg) (d : VReg) (a : SReg) (b : VReg)
  | vst (m : MReg) (d : VReg) (a : SReg)
  | vsts (m : MReg) (d : VReg) (a b : SReg)
  | vstx (m : MReg) (d : VReg) (a : SReg) (b : VReg)
  | vstw (m : MReg) (d : VReg) (a : SReg) (x : WAddr) (k : WReg)
  | vqst (m : MReg) (d : VReg) (a : SReg) (l : LReg)
  | vldq (m : MReg) (d : VReg) (a : SReg) (l : LReg)
  | vlrec (d : LReg) (a : SReg)
  | mshape (kb : Bool) (n m : Fin 128)
  | mzero (m : MReg) (d : TReg)
  | mtrn (m : MReg) (d : TReg)
  | mopa (m : MReg) (d : TReg) (a b : VReg)
  | mopaq (m : MReg) (d : TReg) (a b : VReg)
  | mgath (m : MReg) (d : TReg) (a b : VReg) (lb la : LReg)
  | mscale (m : MReg) (d : TReg) (a b : VReg)
  | mcolr (m : MReg) (d : VReg) (a : TReg) (b : SReg)
  | mcolw (m : MReg) (d : TReg) (a : VReg) (b : SReg)
  | mrowr (m : MReg) (d : VReg) (a : TReg) (b : SReg)
  | mroww (m : MReg) (d : TReg) (a : VReg) (b : SReg)
  | matrixStep (job k : Nat)
  | vldc (m : MReg) (d : VReg) (a : SReg)
  | vstc (m : MReg) (d : VReg) (a : SReg)
  | vstm (m : MReg) (d : VReg) (a b : SReg)
  | amoadd (d a b : SReg)
  | amomin (d a b : SReg)
  | amomax (d a b : SReg)
  | amoor (d a b : SReg)
  | amoxchg (d a b : SReg)
  | amocas (d a b : SReg)
  | vamoadd (m : MReg) (d : VReg) (a : SReg) (b : VReg)
  | rmwSlot (job : Nat)
  | rkset (r : Fin 8) (a : SReg)
  | rkgo (d a : SReg)
  | rackerBeat (job k : Nat)
  | statusWord (job : Nat)
  | pcard (a b : SReg)
  | pcardClear (job k : Nat)
  | psel (a b : SReg)
  | selectionRecord (job k : Nat)
  | pdisp (a b : SReg)
  | dispatchLanding (job q b : Nat)
  | pcomb (a b : SReg)
  | combinedRow (job t b : Nat)
  | flaunch (a b : SReg)
  | bgath (a b : SReg)
  | bscat (a b : SReg)
  | bstride (a b : SReg)
  | preq (a : SReg)
  | streamWindow (job k : Nat)
  | streamStatus (job : Nat)
  | tsend (a b : SReg)
  | tsendv (m : MReg) (d : VReg) (a : SReg)
  | sendLanding (job g : Nat)
  | drift (a : SReg)
  | stepinc
  | stepVote (folio : Nat)
  | rel (k : Fin 64)
  | resultLanding (job k : Nat)
  | storeLanding (job k : Nat)
  | remoteLanding (job k : Nat)
  | preciseTimingTrap (job : Nat)
  | baseDieRetry (job k : Nat) (ok : Bool)
  | reRead (job k : Nat)
  | fecSecondDecode (job g : Nat) (ok : Bool)
  | machineCheck (core : CheckSite)
  | replay (folio : Nat)
  | replayResume (folio : Nat)
  | folioStop (folio : Nat)
  | driftFault (pkg : Nat)
  | phaseEstimate (pkg : Nat) (link : Nat) (stamp : Nat)
  | dispatchRound (pkg : Nat)
  | folioStart (folio : Nat)
  | startAgreement (folio : Nat)
  | folioEnd (folio : Nat)
  | preEmption (folio : Nat)
  | translationChange (pkg : Nat) (stack : Fin 8) (index : Fin 32768)
  | restAgreement (pkg : Nat) (start length : Nat)
  | restRequest (pkg : Nat) (power : BitVec 16) (t0 t1 t2 t3 : DieSensors)
  | rest (pkg : Nat)
  | restEnd (pkg : Nat)
  | hold (pkg : Nat)
  | holdEffect (pkg : Nat)
  | holdRelease (pkg : Nat)
  | thermalTrip (pkg : Nat)
  | powerUp (pkg : Nat)
  | fuses (pkg : Nat)
  | awaitingFirmware (pkg : Nat)
  | training (pkg : Nat) (ok : Bool)
  | powerLoss (pkg : Nat)
  | post (pkg : Nat) (record : BitVec 2048)
  | bind (pkg : Nat) (k : Fin 64) (cellar : Bool) (base length : Nat)
  | acquire (pkg : Nat) (k : Fin 64)
  | acquireComplete (pkg : Nat) (k : Fin 64)
  | release (pkg : Nat) (k : Fin 64)
  | map (pkg : Nat) (stack : Fin 8) (index : Fin 32768) (entry : DWord)
  | invalidate (pkg : Nat) (stack : Fin 8) (index : Fin 32768)
  | preEmpt (pkg : Nat) (folio : Nat) (va : DWord)
  | readEntry (pkg : Nat) (stack : Fin 8) (index : Fin 32768)
  | drain (pkg : Nat)
  | form (pkg : Nat) (members : List Nat) (links : List LinkSpec) (step0 : DWord)
  | dissolve (pkg : Nat)
  | dissolveComplete (pkg : Nat)
  | readTable (pkg : Nat) (formation : DWord)
  | readRegister (pkg : Nat) (number : Nat)
  | writeRegister (pkg : Nat) (number : Nat) (value : DWord)
  | fence (pkg : Nat) (die : Fin 4)
  | fenceEffect (pkg : Nat) (die : Fin 4)
  | unfence (pkg : Nat) (die : Fin 4)
  | loadFirmware (pkg : Nat) (bundle : List Byte)
  | firmwareSwitch (pkg : Nat) (die : Fin 4)
  | attest (pkg : Nat) (nonce : BitVec 256)
  | tick
  | hostAccess (pkg : Nat) (va : HostAddr) (length : Nat) (write : Option (List Byte))
  | recordDelivery (pkg : Nat)
  | correctedError (pkg : Nat) (site : ErrSite)
  deriving DecidableEq, Repr

end Sys2Proof
end

