-- ==== Sys2Proof/Config.lean ====
section
/-! DEFINITION. What an implementation fixes and what the spec leaves open: free values without a body, so that
nothing can be proved of their contents. -/

namespace Sys2Proof.Config

/-- A choice the spec leaves open (R366, R367), for the n-th choice made: an index into the values allowed (log 5). -/
opaque pick : Nat → Nat

/-- A byte of a group that crosses the cluster network with an uncorrectable error, which lands as received (R258): for
the n-th choice, by its place in the group (log 91). -/
opaque received : Nat → Nat → BitVec 8

/-- What a counter of `w` bits shows once more than it can hold has been counted (R397 gives no wrap; log 92). -/
opaque counterBeyond : Nat → Nat → Nat

/-- The ticks beyond the 4,096 of R298 that the lead Binders add to the common start of a folio (log 6). -/
opaque startDelay : Nat → Nat

/-- The byte that a saved context shows at an offset of its area (R308 gives no layout of its parts; log 9). -/
opaque contextByte : Nat → Nat → BitVec 8

/-- The digest in a vintage record of a region on which a write has landed after its release (R330 leaves it undetermined): by the
folio and the seal (log 107). -/
opaque lateDigest : Nat → Nat → BitVec 512

/-- ML-DSA-87 key generation from the fused seed: the 2,592 bytes of the public key (R382, R387; log 8). -/
opaque mldsaPublicKey : List (BitVec 8) → BitVec (8 * 2592)

/-- The 4,627 bytes of an ML-DSA-87 signature over a digest, made with the key of a seed (R382, R386; log 8). -/
opaque mldsaSign : List (BitVec 8) → List (BitVec 8) → BitVec (8 * 4627)

/-- Whether a signature verifies under a public key over a digest (R383; log 8). -/
opaque mldsaVerify : List (BitVec 8) → List (BitVec 8) → List (BitVec 8) → Bool

end Sys2Proof.Config
end

