-- ==== Sys2Proof/WellFormed.lean ====
section
/-! DEFINITION. Which terms of `Instr` are instructions: the checks that R68, R72, R202 and R356 make on the
fields themselves. A check that reads state (R75) is made when the word issues. -/

namespace Sys2Proof

/-- The type code of a mode register's bits 3:0 (R70); reserved codes have no type. -/
def ETy.ofCode : Nat → Option ETy
  | 0x0 => some .fp32 | 0x1 => some .fp16 | 0x2 => some .bf16 | 0x3 => some .e5m2
  | 0x4 => some .e4m3 | 0x5 => some .e3m2 | 0x6 => some .e2m3 | 0x7 => some .e2m1
  | 0x8 => some .int8 | 0x9 => some .int16 | 0xA => some .int32
  | 0xB => some .n8 | 0xC => some .n16 | 0xD => some .n32
  | _ => none

/-- The code of a type (R70). -/
def ETy.code : ETy → Nat
  | .fp32 => 0x0 | .fp16 => 0x1 | .bf16 => 0x2 | .e5m2 => 0x3
  | .e4m3 => 0x4 | .e3m2 => 0x5 | .e2m3 => 0x6 | .e2m1 => 0x7
  | .int8 => 0x8 | .int16 => 0x9 | .int32 => 0xA
  | .n8 => 0xB | .n16 => 0xC | .n32 => 0xD

/-- The rounding mode of a rnd field (R70); 5 to 7 are reserved. -/
def Rnd.ofCode : Nat → Option Rnd
  | 0 => some .rne | 1 => some .rna | 2 => some .rtz | 3 => some .rup | 4 => some .rdn
  | _ => none

/-- A tau field holds a value: e = 0 with m ≠ 0, and e = 255, are reserved (R71). -/
def tauOk (tau : Nat) : Bool :=
  let e := tau / 8
  let m := tau % 8
  !((e == 0 && m != 0) || e == 255)

/-- The new contents of a mode register hold no reserved code and zero in bits 31:23 (R72). -/
def modeContentsOk (x : Nat) : Bool :=
  decide (x < 2 ^ 23) && (ETy.ofCode (x % 16)).isSome && (Rnd.ofCode (field x 4 3)).isSome &&
    tauOk (field x 12 11)

/-- A conditional branch offset is 1 to 16,383 (R68). -/
def branchOffOk (o : BitVec 15) : Bool := decide (1 ≤ o.toNat) && decide (o.toNat ≤ 16383)

/-- A loop or arm offset is 2 to 16,383 (R68). -/
def bodyOffOk (o : BitVec 15) : Bool := decide (2 ≤ o.toNat) && decide (o.toNat ≤ 16383)

/-- The well-formed terms. -/
def Instr.wf : Instr → Bool
  | .beq _ _ o | .bne _ _ o | .blt _ _ o | .bge _ _ o | .bltu _ _ o | .bgeu _ _ o => branchOffOk o
  | .loopw _ o | .loopi _ o | .arm _ _ o | .wloop _ _ _ o => bodyOffOk o
  | .mode _ body => modeContentsOk body.toNat
  | .bacc _ d _ b _ => d != b
  | .restAgreement _ _ n => decide (1 ≤ n) && decide (n ≤ 2 ^ 24)
  | .form _ members _ _ => decide (1 ≤ members.length) && decide (members.length ≤ 256)
  | _ => true

end Sys2Proof
end

