-- ==== Sys2Proof/Machine/State.lean ====
section
/-! DEFINITION. The state of the FJ4 as plain data: cores, work in flight, folios, packages and the host's side
(R16 to R36, R148, R149, R228, R265, R280, R289 to R309, R315, R328 to R331, R336 to R357, R381 to R397). -/

namespace Sys2Proof.Machine

/-- A sparse memory: addresses strictly rising, no listed byte equal to what an unlisted address reads as, which is 0
(R149 for scratchpads; log 1 for HBM and the cellar). -/
abbrev Memory := List Host.Cell

/-- A sparse array of words in the same form: instruction memory (R149) and the translation arrays (R315). -/
abbrev Cells (w : Nat) := List (Nat × BitVec w)

/-- A flag raised: the bit of fs (R115) and the index it is attributed to (R116). -/
structure FlagHit where
  cls : Fin 7
  idx : Nat
  deriving DecidableEq, Repr

/-- What a flag index register holds: the folio cycle at which the instruction issued, its number in the order of issue, its
word index, the lowest index (R116). -/
structure FlagIndex where
  cycle : Nat
  seq : Nat
  word : BitVec 15
  idx : Nat
  deriving DecidableEq, Repr

/-- The matrix shape register (R228): M - 1, N - 1 and the k-step rule (true is kb). -/
structure Shape where
  m1 : Fin 128
  n1 : Fin 128
  kb : Bool
  deriving DecidableEq, Repr

/-- A layout register: the record, the storage record it leads to and the frame that names (R222, R224).
`first` all zero is the invalid record. -/
structure LayoutReg where
  first : BitVec 256
  store : BitVec 256
  frame : BitVec 128
  deriving DecidableEq, Repr

/-- The all-zero record (R222). -/
def LayoutReg.zero : LayoutReg := ⟨0, 0, 0⟩

/-- A valid interpolation table (R145). -/
structure Table where
  x0 : BitVec 32
  sexp : BitVec 8
  ends : BitVec 2
  ys : List (BitVec 32)
  deriving DecidableEq, Repr

/-- What a weighted loop adds to its entry (R205): K, θ, the live mask, and whether a later pass has begun whose
first word has not issued yet, so that the mask is still to be narrowed (R206). -/
structure Live where
  k : WReg
  theta : Nat
  mask : MaskBits
  refresh : Bool
  deriving DecidableEq, Repr

/-- An open construct: a hardware loop or weighted loop (R172, R205) or an arm (R199), the word indices as numbers. -/
inductive Construct where
  | loop (first last : Nat) (left : Nat) (live : Option Live)
  | arm (last : Nat) (mask : MaskBits)
  deriving DecidableEq, Repr

/-- A restart snapshot (R26, R177, R209), with the folio cycle of its line. -/
structure Snapshot where
  pc : BitVec 15
  s : Vector DWord 32
  cons : List Construct
  stage : BitVec 16
  line : Nat
  deriving DecidableEq, Repr

/-- One core of a bound quire (R148, R149, R215, R228, R265). -/
structure Core where
  /-- Logical coordinate and folio. -/
  id : CoreId
  /-- The package that holds it, as an index of `State.pkgs`. -/
  phys : Nat
  s : Vector DWord 32
  v : Vector VecBits 32
  w : Vector WeightBits 8
  t : Vector TileBits 4
  shape : Shape
  m : Vector Word 4
  th : Vector (BitVec 16) 4
  ly : Vector LayoutReg 8
  tbl : Vector (Option Table) 4
  mb : Vector DWord 16
  vl : BitVec 13
  /-- Open constructs, innermost first: the loop stack and the arm entries (R172, R200). -/
  cons : List Construct
  pc : BitVec 15
  stage : BitVec 16
  period : BitVec 32
  fs : BitVec 7
  fx : Vector (Option FlagIndex) 7
  /-- The flags that landed in cycle `flagAt`, with their index records (R117). -/
  flagNow : List (Fin 7 × FlagIndex)
  flagAt : Nat
  oob : DWord
  /-- The folio cycle of the offer that oob holds, the folio cycle of the issue, the element (R32, R214). -/
  oobFrom : Option (Nat × Nat × Nat)
  /-- oob holds an address accepted before a rollback, and takes no other (R214). -/
  oobKept : Bool
  tcause : DWord
  tepc : DWord
  tval : DWord
  tvec : DWord
  tstate : Bool
  shadowM : Vector Word 4
  shadowVl : BitVec 13
  fended : Bool
  /-- The first cycle (scc) at which the core issues no word, once a trap has stopped it (R76, R301). -/
  haltAt : Option Nat
  /-- The scc of the next word. -/
  issueAt : Nat
  /-- The scc of the last word issued or of the last line judged. -/
  lastIssue : Option Nat
  snap : Snapshot
  imem : Cells 32
  /-- Filled words that have landed and are not yet fetchable (R227). -/
  fill : List (Nat × Word)
  /-- Instruction memory as of the last line passed, while words committed since in a stop window stand to be undone
  (R227, R302). -/
  imemLine : Option (Cells 32)
  spad : Memory
  tags : Vector (Option (BitVec 48)) 256
  rk : Vector DWord 8
  deriving DecidableEq, Repr

/-- What a vector word captures at its issue cycle from its mode register, vl and the constructs (R118, R153, R190). -/
structure Cap where
  ty : ETy
  rnd : Rnd
  guard : WReg
  theta : Nat
  tau : Nat
  vl : Nat
  /-- Whether a construct was open, and the AND of the open masks (all ones when none was). -/
  inside : Bool
  mask : MaskBits
  deriving DecidableEq, Repr

/-- The lane, weight and join operations (R121, R192). -/
inductive LaneOp where
  | add | sub | mul | fma | fms | nfma | min | max | abs | neg | rcp | rsq | sqrt | popc | clz
  | and | or | xor | shl | shr | sra | mulh | ceq | clt | cle | cvt (u : ETy)
  | redsum | redmax | redmin | segsum | segmax | segmin
  | perm | slide | ins | ext | mov | movs | rng | pfx | xsect | comp | expd | tbl (t : Option Table)
  | wsoft | wsoftg | wfromv | wtov | wnot | wmul | wmov | wdrop | blend | bacc | bnorm | bgrad
  deriving DecidableEq, Repr

/-- A destination register. -/
inductive Dest where
  | v (r : VReg)
  | w (r : WReg)
  | s (r : SReg)
  deriving DecidableEq, Repr

/-- A lane word in flight: its operation, destination, sources, and the scalars it read at c (R66, R153). `imm` is the
code of a scalar or immediate vb operand (R66, R67). -/
structure Lane where
  op : LaneOp
  dst : Dest
  a : Option VReg := none
  b : Option VReg := none
  d : Option VReg := none
  wa : Option WReg := none
  wb : Option WReg := none
  imm : Option Nat := none
  sa : DWord := 0
  sb : DWord := 0
  deriving DecidableEq, Repr

/-- The kinds of own-scratchpad vector memory words (R218, R221, R225). -/
inductive VMemKind where
  | load | store | blend (k : WReg) | qstore (l : LayoutReg) | qload (l : LayoutReg)
  deriving DecidableEq, Repr

/-- Addressing with the scalars read at c (R218). -/
inductive VMode where
  | unit
  | strided (step : DWord)
  | indexed (r : VReg)
  deriving DecidableEq, Repr

/-- Matrix operations with what they read at c (R230, R234). -/
inductive MatOp where
  | mopa | mopaq (la lb : LayoutReg) | mgath (la lb : LayoutReg) | mscale | mzero | mtrn
  | mcolr (x : Nat) | mcolw (x : Nat) | mrowr (x : Nat) | mroww (x : Nat)
  deriving DecidableEq, Repr

/-- Scalar atomics (R256). -/
inductive AmoOp where
  | add | min | max | or | xchg | cas
  deriving DecidableEq, Repr

/-- Remote vector accesses (R253). -/
inductive RemoteOp where
  | load | store | multi (mask : Nat)
  deriving DecidableEq, Repr

/-- One element carried by a Racker beat: its code, the scale and spare of its block, whether its source was in shape,
and the error of R279 met at the source. -/
structure RElem where
  code : Nat
  scale : Nat
  spare : Nat
  shaped : Bool
  err : Nat
  deriving DecidableEq, Repr

/-- A Racker transfer (R268 to R279): what `rkgo` latched, the records read at c+1, the beats in flight, and the parts
of the status gathered so far. -/
structure Racker where
  status : SReg
  tid : Nat
  sh : Vector DWord 8
  vl : Nat
  src : LayoutReg := .zero
  dst : LayoutReg := .zero
  /-- The storage records whose type and mx fields time the transfer (R272). -/
  srcRaw : BitVec 256 := 0
  dstRaw : BitVec 256 := 0
  beats : List (Nat × List RElem) := []
  errs : List Nat := []
  valid : Nat := 0
  flags : List (Fin 7) := []
  deriving DecidableEq, Repr

/-- Press words (R281). -/
inductive PressOp where
  | card | sel | disp | comb
  deriving DecidableEq, Repr

/-- A Press word in flight: the card that governs it, and what it has read (R282 to R287, R399, R400). -/
structure Press where
  op : PressOp
  sa : DWord
  sb : DWord
  card : Option (BitVec 512)
  bytes : List (Nat × List Byte) := []
  entries : List (Nat × DWord) := []
  slots : List (Nat × Nat) := []
  hits : List FlagHit := []
  deriving DecidableEq, Repr

/-- Base-die streams (R321). -/
inductive StreamOp where
  | gath | scat | stride
  deriving DecidableEq, Repr

/-- A stream in flight: its block once read, its list, its data, its judgements (R323 to R325): element by element
0 good, 1 bad, 2 foreign, 3 non-resident. -/
structure Stream where
  op : StreamOp
  sa : DWord
  sb : DWord
  block : Option (BitVec 512) := none
  list : List (Nat × List Byte) := []
  data : List (Nat × List Byte) := []
  judged : List Nat := []
  deriving DecidableEq, Repr

/-- The work of an issued word that has not all landed (R151 to R153). -/
inductive Work where
  /-- A scalar result fixed at issue, landing `lat` cycles later (R158). -/
  | scalar (d : SReg) (val : DWord) (lat : Nat)
  /-- A scalar store of bytes from an address (R165). -/
  | sstore (addr : DWord) (bytes : List Byte)
  | lane (l : Lane)
  | vmem (k : VMemKind) (d : VReg) (base : DWord) (x : VMode)
  | vtld (t : TblReg) (addr : DWord)
  | vlrec (d : LReg) (addr : DWord) (val : Option LayoutReg)
  | matrix (op : MatOp) (d : Nat) (a b : Option VReg) (shape : Shape) (img : Option TileBits)
  | remote (op : RemoteOp) (d : VReg) (base : DWord)
  | amo (op : AmoOp) (d : SReg) (addr b expect : DWord) (old : Option DWord)
  | vamo (d : VReg) (base : DWord) (x : VReg)
  | racker (r : Racker)
  | press (p : Press)
  | flaunch (addr start : DWord)
  | stream (r : Stream)
  | preq (va : DWord)
  | send (addr val : DWord) (dist : Nat)
  | sendv (d : VReg) (addr : DWord) (dist : Nat)
  deriving DecidableEq, Repr

/-- Source values sampled at their read cycles (R153): three vector registers, the guard weights, two weight registers,
and the element codes read from memory, with the flags that reading raised by slot. -/
structure Samples where
  a : VecBits := 0
  b : VecBits := 0
  d : VecBits := 0
  g : WeightBits := 0
  wa : WeightBits := 0
  wb : WeightBits := 0
  mem : VecBits := 0
  hits : List (Nat × FlagHit) := []
  deriving DecidableEq, Repr

/-- One issued word with work in flight. `seq` numbers words in the order of R251; `cyc` is the scc of its issue;
`cut` is the cycle from which a calendar conflict suppresses it (R157); `late` lists the parts that land 64 cycles
late (R301), and `failed` those of them whose second read or decode fails (R326, R339); `bad` the groups that a core receives
with an uncorrectable error (R258). -/
structure Job where
  seq : Nat
  core : CoreId
  cyc : Nat
  word : BitVec 15
  cap : Cap
  work : Work
  smp : Samples
  cut : Option Nat
  late : List Nat
  failed : List Nat
  bad : List (Nat × CoreId)
  deriving DecidableEq, Repr

/-- Why a trap was raised: the classes of R182 and the drift fault of R345. -/
inductive TrapClass where
  | software | illegal | timing | machine | nested | drift
  deriving DecidableEq, Repr

/-- A trap reported to the Binder (R301 to R306). -/
structure TrapReport where
  cls : TrapClass
  /-- Folio cycle, logical coordinate, word index, `trap` code and tval. -/
  cycle : Nat
  coord : Nat
  word : Nat
  code : Nat
  tval : DWord
  deriving DecidableEq, Repr

/-- A stop in progress: the scc of the stop cycle y, and the traps that fall in its window (R302, R306). -/
structure Stop where
  y : Nat
  traps : List TrapReport
  deriving DecidableEq, Repr

/-- One physical die taken by a logical die, with the physical cluster of each logical cluster (R295). -/
structure DieBind where
  die : Nat
  clusters : List Nat
  deriving DecidableEq, Repr

/-- One package of a quire: the package as an index of `State.pkgs`, and its logical dies in order. -/
structure PkgBind where
  phys : Nat
  dies : List DieBind
  deriving DecidableEq, Repr

/-- The Press of one logical die as its folio uses it (R280, R282, R288): the card it holds and the window counters by
expert. A clear in progress stands with the `pcard` in `State.jobs`. -/
structure PressUnit where
  pkg : Nat
  die : Nat
  card : Option (BitVec 512)
  counters : List (Nat × Nat)
  deriving DecidableEq, Repr

/-- A `flaunch` record accepted and not yet committed (R290, R300): its identifier, the record, and the least scc at which
it may start. -/
structure PendingLaunch where
  id : Nat
  core : CoreId
  record : BitVec 2048
  notBefore : Nat
  deriving DecidableEq, Repr

/-- A release of the folio as the vintage record lists it (R32): seal, folio cycle, coordinate, digest. -/
structure RelRecord where
  sealNo : Nat
  cycle : Nat
  coord : Nat
  digest : List Byte
  deriving DecidableEq, Repr

/-- Where a folio stands. -/
inductive Phase where
  /-- Dispatched, waiting for its start scc (R298). -/
  | agreed
  | running
  /-- Between its stop cycle and its resume cycle (R303). -/
  | restoring
  deriving DecidableEq, Repr

/-- A folio that has been dispatched and has not ended (R289 to R309). `id` is the identifier that the lead Binder of the
package `owner` assigned, as `folioKey` numbers it over all packages. -/
structure Folio where
  id : Nat
  /-- The package whose lead Binder dispatched it. -/
  owner : Nat
  record : BitVec 2048
  /-- The image's bytes as the Binder read them at dispatch (R32, R398). -/
  image : List Byte
  /-- The image's restart table (first cycle, period, count), its calendar bit and its handler entry (R398). -/
  restarts : List (Nat × Nat × Nat)
  holds : Bool
  tvec : DWord
  bind : List PkgBind
  phase : Phase
  /-- The scc of folio cycle 0, rebased by replays and restores (R17, R303, R309), with `lead` added. -/
  start : Nat
  /-- How far the cycles of this folio, its cores and its work are counted ahead of the scc, so that a restored folio whose cycle 0
  comes to lie before scc 0 has a start that is a number (R309). 0 for every other. -/
  lead : Nat
  stop : Option Stop
  /-- The folio cycle of the last restart line, and whether an `rstp` marks it (R303). -/
  line : Nat
  marked : Bool
  replayInterval : Bool
  replays : Nat
  rejects : Nat
  rels : List RelRecord
  step0 : DWord
  stepAtLine : DWord
  press : List PressUnit
  pressAtLine : List PressUnit
  /-- `rkgo` counts by (package, die, cluster) (R268). -/
  rackers : List ((Nat × Nat × Nat) × Nat)
  rackersAtLine : List ((Nat × Nat × Nat) × Nat)
  launches : Nat
  launchesAtLine : Nat
  pending : List PendingLaunch
  /-- A pre-emption asked for: the context address, and the folio cycle of the line at which it takes effect (R307). -/
  preempt : Option (DWord × Option Nat)
  deriving DecidableEq, Repr

/-- A vote in flight: its folio, the package whose group it is for, the scc of its issue and the flag so far (R354). -/
structure Vote where
  folio : Nat
  pkg : Nat
  at_ : Nat
  flag : Bool
  deriving DecidableEq, Repr

/-- The state a pre-empted folio leaves (R308): where it was saved, and of each logical package the number of the free bytes
that its area holds, and how many they are (log 9). -/
structure Context where
  pkg : Nat
  va : DWord
  areas : List (Nat × Nat × Nat)
  folio : Folio
  cores : List Core
  /-- A Press clear in progress at the line (R288, R308). -/
  jobs : List Job
  deriving DecidableEq, Repr

/-- A record waiting in a queue (R289 to R294). -/
structure Waiting where
  id : Nat
  record : BitVec 2048
  /-- Whether it takes one of the 64 host entries of its queue, or an entry of the launch buffer. -/
  host : Bool
  prio : Nat
  passes : Nat
  notBefore : Nat
  extraDep : Nat
  deriving DecidableEq, Repr

/-- Seal states (R329). -/
inductive SealState where
  | host
  | opened
  | folio (id : Nat)
  deriving DecidableEq, Repr

/-- A seal's region: the cellar or HBM, base and length (R328). -/
structure Region where
  cellar : Bool
  base : Nat
  len : Nat
  deriving DecidableEq, Repr

/-- Who puts a byte in place (R308, R330, R366): the host, a folio's write, a folio's transfer to the cellar, by its issue number, the
save of a context, or a transfer to the cellar that has been discarded before its status. -/
inductive Writer where
  | host
  | device (folio : Nat)
  | transfer (folio seq : Nat)
  | context
  | discarded
  deriving DecidableEq, Repr

/-- The folio whose program makes a write. -/
def Writer.folio : Writer → Option Nat
  | .device f => some f
  | .transfer f _ => some f
  | _ => none

/-- A value that a byte has held, by the byte's place, and who put it there. -/
structure Held where
  place : Nat
  val : Byte
  by_ : Writer
  deriving DecidableEq, Repr

/-- A `rel` of a seal that no release, no Bind and no folio has followed (R330): the folio that made it, the scc up to which it
covers that folio's writes, the values that bytes may have for the host because writes came after it, by their place, and the
values that bytes had at the release and a replay has since written over. -/
structure Stray where
  folio : Nat
  upto : Nat
  held : List Held
  kept : List (Nat × Byte)
  deriving DecidableEq, Repr

/-- One seal: its state, its region, what its region's bytes have held since the host last released or acquired it, by their
place (R367), its last `rel`, and the folios whose digest of its region a later write has left undetermined (R330). -/
structure Seal where
  st : SealState
  region : Option Region
  held : List Held
  stray : Option Stray
  spoilt : List Nat
  deriving DecidableEq, Repr

/-- A seal that the host holds, bound to no region (R381). -/
def Seal.fresh : Seal := ⟨.host, none, [], none, []⟩

/-- A translation change asked for by the host (R317). -/
structure Change where
  stack : Fin 8
  index : Fin 32768
  entry : DWord
  invalidate : Bool
  /-- The folio cycle of the line at which it takes effect; none: at the holder's end. -/
  line : Option Nat
  deriving DecidableEq, Repr

/-- A completion record (R299), by its fields; `Completion.bytes` lays it out. -/
structure Completion where
  id : Nat
  start : Nat
  finish : Nat
  tick : Nat
  cause : Nat
  replays : Nat
  code : Nat
  coord : Nat
  word : Nat
  tval : DWord
  rejects : Nat
  vintage : List Byte
  deriving DecidableEq, Repr

/-- The host die's response to a command (R328, R337, R396): its code, 0 or the reason of a refusal, and its data. -/
structure Response where
  command : Nat
  reason : Nat
  data : List Byte
  deriving DecidableEq, Repr

/-- A hold asserted on the sideband: the ticks from which it holds and at which it ends (R357). -/
structure Hold where
  member : Nat
  from_ : Nat
  until_ : Option Nat
  deriving DecidableEq, Repr

/-- An agreed rest: the scc S and the ticks N (R356). -/
structure Rest where
  at_ : Nat
  len : Nat
  deriving DecidableEq, Repr

/-- The fuses (R381): serial, identity seed, root digests with revocation, least security version, harvest map (working
clusters by die, working cores by cluster). -/
structure Fuses where
  serial : List Byte
  seed : List Byte
  roots : List (List Byte × Bool)
  minSvn : Nat
  clusters : BitVec 48
  cores : Vector (BitVec 12) 48
  deriving DecidableEq, Repr

/-- The stages of R381. -/
inductive Boot where
  | rails | fuses | awaiting | verifying | loading | ready
  deriving DecidableEq, Repr

/-- A firmware bundle in use or waiting to be switched to (R382, R395): its signed part and security version. -/
structure Firmware where
  part : List Byte
  svn : Nat
  deriving DecidableEq, Repr

/-- A host write made without a release (R366): a byte that a device read may see instead of the byte in place, in the
cellar, or by stack and physical address. -/
structure OpenWrite where
  cellar : Bool
  stack : Nat
  addr : Nat
  va : Nat
  val : Byte
  /-- Whether a device write has landed on the byte since. -/
  covered : Bool
  /-- The folios bound on the package while it was open that have not ended. -/
  folios : List Nat
  deriving DecidableEq, Repr

/-- One package with its Binders, base dies and host die. -/
structure Package where
  powered : Bool
  tick : Nat
  scc : Nat
  /-- No word issues in the current tick: a rest or a hold is in force (R19, R351, R356, R357). -/
  stalled : Bool
  /-- Logical number and the group's members as indices of `State.pkgs` (R336). -/
  num : Nat
  group : List Nat
  formation : Nat
  links : List LinkSpec
  step : DWord
  phi : Int
  linkPhi : List (Nat × Int)
  slew : Int
  commitTick : Nat
  /-- The tick of the last commit since the package joined its group: the commits of one tick are one (R344). -/
  slewTick : Option Nat
  rests : List Rest
  /-- One more than the ticks left of the rest in force; 0 when none is (R356). -/
  restLeft : Nat
  holds : List Hold
  restWanted : Bool
  boot : Boot
  reason : Nat
  fuses : Fuses
  svn : Nat
  chain : List Byte
  ext : Nat
  idKey : List Byte
  /-- A bundle that is being verified (stage 3). -/
  bundle : Option (List Byte)
  /-- Binder firmware by die, and base-die firmware by stack. -/
  firmware : Vector (Option Firmware) 4
  stackFw : Vector (Option Firmware) 8
  /-- The Binder firmware in force, and the bundles that wait to replace it, oldest first, with the dies that the
  first of them has still to reach (R395). -/
  inForce : Option Firmware
  pendingFw : List Firmware
  switching : List (Fin 4)
  fenced : BitVec 4
  fencing : List (Fin 4)
  mpcap : Nat
  mpower : Nat
  /-- The last readings of the junction sensors (R389). -/
  sensors : Sensors
  mcorr : Nat
  corrected : List (ErrSite × Nat)
  mdrop : Nat
  requests : List (BitVec 27)
  lastId : Nat
  queue : List Waiting
  /-- Pre-empt commands that have not completed: the identifier, the context address, the scc of the request (R307). -/
  asks : List (Nat × DWord × Nat)
  /-- Round-robin pointer of each priority: the place in its queue from which a round scans (R293). -/
  rr : Vector Nat 4
  draining : List Nat
  seals : Vector Seal 64
  acquires : List (Fin 64)
  trans : Cells 64
  changes : List Change
  hbm : Vector Memory 8
  openWrites : List OpenWrite
  cellar : Memory
  trapLog : List TrapReport
  records : List Completion
  /-- Completion records as the host has them, 128 bytes each. -/
  delivered : List (List Byte)
  responses : List Response
  /-- Dissolve commands that have not completed (R337). -/
  dissolving : Nat
  /-- The package has left its group by a drift fault or a fence (R345, R391). -/
  left : Bool
  /-- A die has reached 115 °C: the rails fall once the folios have ended (R390). -/
  tripped : Bool
  deriving DecidableEq, Repr

/-- The machine. `core` is the core whose turn it is (before any folio is bound, one that belongs to none), `others`
the other cores of bound quires. -/
structure State where
  core : Core
  others : List Core
  pkgs : List Package
  folios : List Folio
  jobs : List Job
  votes : List Vote
  contexts : List Context
  /-- Commands of the host and occurrences outside the part, oldest first. -/
  inputs : List Instr
  /-- Events of the current cycle still to be taken, in order. -/
  due : List Instr
  /-- The next issue number. -/
  seq : Nat
  /-- How many free values have been taken: the model's own field (log 5). -/
  freeCtr : Nat
  deriving DecidableEq, Repr

/-- Why the machine stops. -/
inductive Fault where
  /-- Raised by a TICK when no package has power: no clock runs, so no step can be taken until power is applied
  (R381). Safe: nothing of the part happens then. -/
  | unpowered
  deriving DecidableEq, Repr

/-- Why a step has no meaning. -/
inductive Refusal where
  /-- Raised only by an arm of `exec` whose instruction has no meaning yet. Safe. -/
  | notModelled (mnemonic : String)
  deriving DecidableEq, Repr

/-! ### Reset -/

/-- The launch value of w0: 0x8000 at every position (R148). -/
def WeightBits.ones : WeightBits :=
  BitVec.ofNat 32768 (0x8000 * ((2 ^ 32768 - 1) / 0xFFFF))

/-- Weight registers at launch (R148). -/
def launchWeights : Vector WeightBits 8 := (Vector.replicate 8 0).set 0 WeightBits.ones

/-- A snapshot of the launch state: word 0, scalar registers zero, no construct (R25). -/
def Snapshot.launch (stage : BitVec 16) : Snapshot := ⟨0, Vector.replicate 32 0, [], stage, 0⟩

/-- A core at launch with empty memories (R148, R149, R228, R265). -/
def Core.launch (id : CoreId) (phys : Nat) (stage : BitVec 16) (period : BitVec 32) (start : Nat) : Core where
  id := id
  phys := phys
  s := Vector.replicate 32 0
  v := Vector.replicate 32 0
  w := launchWeights
  t := Vector.replicate 4 0
  shape := ⟨127, 127, false⟩
  m := Vector.replicate 4 0
  th := Vector.replicate 4 0
  ly := Vector.replicate 8 .zero
  tbl := Vector.replicate 4 none
  mb := Vector.replicate 16 0
  vl := 0
  cons := []
  pc := 0
  stage := stage
  period := period
  fs := 0
  fx := Vector.replicate 7 none
  flagNow := []
  flagAt := 0
  oob := -1
  oobFrom := none
  oobKept := false
  tcause := 0
  tepc := 0
  tval := 0
  tvec := -1
  tstate := false
  shadowM := Vector.replicate 4 0
  shadowVl := 0
  fended := false
  haltAt := none
  issueAt := start
  lastIssue := none
  snap := .launch stage
  imem := []
  fill := []
  imemLine := none
  spad := []
  tags := Vector.replicate 256 none
  rk := Vector.replicate 8 0

/-- Fuses of a part with every unit working and every other field zero (log 10). -/
def Fuses.default : Fuses where
  serial := List.replicate 16 0
  seed := List.replicate 32 0
  roots := List.replicate 4 (List.replicate 64 0, false)
  minSvn := 0
  clusters := -1
  cores := Vector.replicate 48 (-1)

/-- A package when power is applied (R16, R315, R329, R381, R397). Its scc and its copy of the group step counter are 0,
which is the model's choice: no rule gives either before a formation (log 17). -/
def Package.atPower (num : Nat) (phys : Nat) (f : Fuses) (hbm : Vector Memory 8) (cellar : Memory) : Package where
  powered := true
  tick := 0
  scc := 0
  stalled := false
  num := num
  group := [phys]
  formation := 0
  links := []
  step := 0
  phi := 0
  linkPhi := []
  slew := 0
  commitTick := 0
  slewTick := none
  rests := []
  restLeft := 0
  holds := []
  restWanted := false
  boot := .rails
  reason := 0
  fuses := f
  svn := 0
  chain := List.replicate 64 0
  ext := 0
  idKey := []
  bundle := none
  firmware := Vector.replicate 4 none
  stackFw := Vector.replicate 8 none
  inForce := none
  pendingFw := []
  switching := []
  fenced := 0
  fencing := []
  mpcap := 4500
  mpower := 0
  sensors := Vector.replicate 4 (Vector.replicate 16 0)
  mcorr := 0
  corrected := []
  mdrop := 0
  requests := []
  lastId := 0
  queue := []
  asks := []
  rr := Vector.replicate 4 0
  draining := []
  seals := Vector.replicate 64 .fresh
  acquires := []
  trans := []
  changes := []
  hbm := hbm
  openWrites := []
  cellar := cellar
  trapLog := []
  records := []
  delivered := []
  responses := []
  dissolving := 0
  left := false
  tripped := false

/-- The machine right after reset: one package to which power has just been applied (R381), nothing in its memories
(log 1), no folio, and a core record that belongs to no folio, at its launch values (log 4). -/
def State.reset : State where
  core := .launch ⟨0, 0, 0, 0, 0⟩ 0 0 0 0
  others := []
  pkgs := [.atPower 0 0 .default (Vector.replicate 8 []) []]
  folios := []
  jobs := []
  votes := []
  contexts := []
  inputs := []
  due := []
  seq := 0
  freeCtr := 0

end Sys2Proof.Machine
end

