-- ==== Sys2Proof/Machine/Ops.lean ====
section
/-! DEFINITION. The named operations over memories, registers and the state: sparse memories (R8, R149, R210), register
access (R148), finding cores, folios and packages, issue and the fixing of the next word (R150, R173, R200), traps and the
return from one (R182 to R186, R301, R306), restart lines (R25). -/

namespace Sys2Proof.Machine

/-! ### Bytes and sparse memories -/

/-- The value of bytes, the lowest address holding bits 7:0 (R8). -/
def leNat : List Byte → Nat
  | [] => 0
  | b :: bs => b.toNat + 256 * leNat bs

/-- The `k` bytes of a value, bits 7:0 first (R8). -/
def leBytes (x : Nat) : Nat → List Byte
  | 0 => []
  | k + 1 => BitVec.ofNat 8 x :: leBytes (x / 256) k

/-- Reads a sparse array; an unlisted address reads as 0. -/
def Cells.get {w : Nat} : List (Nat × BitVec w) → Nat → BitVec w
  | [], _ => 0
  | (k, v) :: r, a => if a = k then v else if a < k then 0 else Cells.get r a

/-- Writes a sparse array, keeping its form: rising addresses and no listed 0. -/
def Cells.set {w : Nat} : List (Nat × BitVec w) → Nat → BitVec w → List (Nat × BitVec w)
  | [], a, v => if v = 0 then [] else [(a, v)]
  | (k, u) :: r, a, v =>
    if a < k then (if v = 0 then (k, u) :: r else (a, v) :: (k, u) :: r)
    else if a = k then (if v = 0 then r else (a, v) :: r)
    else (k, u) :: Cells.set r a v

/-- Every listed address is at least `lo`, the addresses rise, and nothing listed is 0. -/
def Cells.wfFrom {w : Nat} : Nat → List (Nat × BitVec w) → Bool
  | _, [] => true
  | lo, (k, v) :: r => decide (lo ≤ k) && decide (v ≠ 0) && Cells.wfFrom (k + 1) r

/-- The canonical form of a sparse array. -/
def Cells.wf {w : Nat} (l : List (Nat × BitVec w)) : Bool := Cells.wfFrom 0 l

/-- The canonical form of a memory. -/
abbrev Memory.wf (m : Memory) : Bool := Cells.wf m

/-- One byte of a memory. -/
abbrev Memory.read (m : Memory) (a : Nat) : Byte := Cells.get m a

/-- A memory with one byte written. -/
abbrev Memory.write (m : Memory) (a : Nat) (b : Byte) : Memory := Cells.set m a b

/-- Scratchpad bytes (R210). -/
def spadSize : Nat := 2 ^ 20

/-- One scratchpad byte: out of range it reads as 0 (R213). -/
def spadRead (m : Memory) (a : Nat) : Byte := if a < spadSize then m.read a else 0

/-- One scratchpad byte written: out of range it is dropped (R213). -/
def spadWrite (m : Memory) (a : Nat) (b : Byte) : Memory := if a < spadSize then m.write a b else m

/-- `n` scratchpad bytes from an address on; addresses are modulo 2^64. -/
def spadBytes (m : Memory) (a : Nat) : Nat → List Byte
  | 0 => []
  | n + 1 => spadRead m (a % 2 ^ 64) :: spadBytes m (a + 1) n

/-- Writes bytes from an address on; addresses are modulo 2^64. -/
def spadStore (m : Memory) (a : Nat) : List Byte → Memory
  | [] => m
  | b :: bs => spadStore (spadWrite m (a % 2 ^ 64) b) (a + 1) bs

/-- Whether some of `n` bytes from an address on is out of range (R213). -/
def outOfRange (a : Nat) (n : Nat) : Bool := (List.range n).any fun i => spadSize ≤ (a + i) % 2 ^ 64

/-- The lowest out-of-range byte touched, among `n` from an address on (R214). -/
def firstOut (a : Nat) (n : Nat) : Option Nat :=
  ((List.range n).map fun i => (a + i) % 2 ^ 64).find? fun x => decide (spadSize ≤ x)

/-! ### Elements of wide registers -/

/-- Bits `w*e+w-1 : w*e` of a register. -/
def elem {n : Nat} (x : BitVec n) (w e : Nat) : Nat := (x.extractLsb' (w * e) w).toNat

/-- A register with one element written. -/
def setElem {n : Nat} (x : BitVec n) (w e c : Nat) : BitVec n :=
  let keep := x &&& ~~~(BitVec.ofNat n (2 ^ w - 1) <<< (w * e))
  keep ||| (BitVec.ofNat n (c % 2 ^ w) <<< (w * e))

/-- Copies elements `lo` to `lo+k-1` of width `w` from one register into another. -/
def copyElems {n : Nat} (dst src : BitVec n) (w lo k : Nat) : BitVec n :=
  let mask := BitVec.ofNat n (2 ^ (w * k) - 1) <<< (w * lo)
  (dst &&& ~~~mask) ||| (src &&& mask)

/-- Writes a list of elements, from element `lo` up; `none` leaves the element. -/
def setElems {n : Nat} (x : BitVec n) (w : Nat) : Nat → List (Option Nat) → BitVec n
  | _, [] => x
  | e, none :: r => setElems x w (e + 1) r
  | e, some c :: r => setElems (setElem x w e c) w (e + 1) r

/-! ### Register access (R148) -/

/-- A scalar register read; s0 reads as zero. -/
def Core.getS (c : Core) (r : SReg) : DWord := if r = 0 then 0 else c.s[r]

/-- A scalar register write; a write to s0 is discarded. -/
def Core.setS (c : Core) (r : SReg) (x : DWord) : Core := if r = 0 then c else { c with s := c.s.set r x }

/-- A weight register read; w0 reads as 1.0 everywhere. -/
def Core.getW (c : Core) (r : WReg) : WeightBits := if r = 0 then WeightBits.ones else c.w[r]

/-- A weight register write; a write to w0 is discarded. -/
def Core.setW (c : Core) (r : WReg) (x : WeightBits) : Core := if r = 0 then c else { c with w := c.w.set r x }

/-- A vector register write. -/
def Core.setV (c : Core) (r : VReg) (x : VecBits) : Core := { c with v := c.v.set r x }

/-- The weight code at a position. -/
def weightAt (w : WeightBits) (p : Nat) : Nat := elem w 16 p

/-! ### Fields of a mode register (R69 to R71) -/

/-- The element type a mode register holds; its contents hold no reserved code (R72). -/
def modeType (m : Word) : ETy := (ETy.ofCode (field m.toNat 0 4)).getD .fp32
/-- The rounding mode. -/
def modeRnd (m : Word) : Rnd := (Rnd.ofCode (field m.toNat 4 3)).getD .rne
/-- The guard weight register. -/
def modeGuard (m : Word) : WReg := ⟨field m.toNat 7 3, Nat.mod_lt _ (by decide)⟩
/-- The threshold register. -/
def modeTh (m : Word) : Fin 4 := ⟨field m.toNat 10 2, Nat.mod_lt _ (by decide)⟩
/-- The tau field. -/
def modeTau (m : Word) : Nat := field m.toNat 12 11

/-! ### Finding and changing parts of the state -/

/-- A list with the element at a place changed. -/
def updAt {α : Type} (f : α → α) : Nat → List α → List α
  | _, [] => []
  | 0, x :: r => f x :: r
  | n + 1, x :: r => x :: updAt f n r

/-- The cores, the focused one first. -/
def State.cores (s : State) : List Core := s.core :: s.others

/-- Bytes of a launch record (R289). -/
def recField (r : BitVec 2048) (byte len : Nat) : Nat := field r.toNat (8 * byte) (8 * len)

/-- A flag bit of a launch record. -/
def recFlag (r : BitVec 2048) (k : Nat) : Bool := (recField r 25 1).testBit k

/-- Timed. -/
def recTimed (r : BitVec 2048) : Bool := recFlag r 0

/-- Whether a folio is bound on a package. -/
def Folio.boundOn (f : Folio) (i : Nat) : Bool := f.bind.any fun b => b.phys == i

/-- Whether a package is in its group as the sideband has it: one that has left stays while a timed folio runs on (R345,
R391; log 47). -/
def State.inGroup (s : State) (i : Nat) (p : Package) : Bool :=
  !p.left || s.folios.any fun f => recTimed f.record && f.boundOn i

/-- The packages of a package's group that are still in it (R336, R345); a package that has left its group stands alone. -/
def State.members (s : State) (i : Nat) : List Nat :=
  match s.pkgs[i]? with
  | none => []
  | some p =>
    if s.inGroup i p then
      p.group.filter fun q => match s.pkgs[q]? with | some k => k.group == p.group && s.inGroup q k | none => false
    else [i]

/-- A core by its identity. -/
def State.core? (s : State) (id : CoreId) : Option Core := s.cores.find? fun c => c.id == id

/-- Changes one core. -/
def State.updCore (s : State) (id : CoreId) (f : Core → Core) : State :=
  if s.core.id = id then { s with core := f s.core }
  else { s with others := s.others.map fun c => if c.id = id then f c else c }

/-- A folio by its identifier. -/
def State.folio? (s : State) (id : Nat) : Option Folio := s.folios.find? fun f => f.id == id

/-- Changes one folio. -/
def State.updFolio (s : State) (id : Nat) (f : Folio → Folio) : State :=
  { s with folios := s.folios.map fun x => if x.id = id then f x else x }

/-- Changes one package. -/
def State.updPkg (s : State) (i : Nat) (f : Package → Package) : State := { s with pkgs := updAt f i s.pkgs }

/-- The work of one issued word. -/
def State.job? (s : State) (n : Nat) : Option Job := s.jobs.find? fun j => j.seq == n

/-- Changes one piece of work. -/
def State.updJob (s : State) (n : Nat) (f : Job → Job) : State :=
  { s with jobs := s.jobs.map fun j => if j.seq = n then f j else j }

/-- The schedule cycle count of a package (R17). -/
def State.sccOf (s : State) (i : Nat) : Nat := match s.pkgs[i]? with | some p => p.scc | none => 0

/-- The group step counter of a package (R353). -/
def State.stepOf (s : State) (i : Nat) : DWord := match s.pkgs[i]? with | some p => p.step | none => 0

/-- How far a folio counts its cycles ahead of the scc; 0 where there is no such folio. -/
def State.leadOf (s : State) (id : Nat) : Nat := match s.folio? id with | some f => f.lead | none => 0

/-- The scc at a core, as its folio counts. -/
def State.nowAt (s : State) (c : Core) : Nat := s.sccOf c.phys + s.leadOf c.id.folio

/-- The scc at the focused core, as its folio counts. -/
def State.now (s : State) : Nat := s.nowAt s.core

/-- The scc at a folio's lead Binder, as the folio counts. -/
def State.folioNow (s : State) (f : Folio) : Nat := s.sccOf f.owner + f.lead

/-- The scc of folio cycle 0 of a folio, as the folio counts; 0 where there is no such folio. -/
def State.startOf (s : State) (id : Nat) : Nat := match s.folio? id with | some f => f.start | none => 0

/-- The folio cycle at the focused core (R17). -/
def State.cycle (s : State) : Nat := s.now - s.startOf s.core.id.folio

/-- A scalar register of the focused core. -/
def State.sreg (s : State) (r : SReg) : DWord := s.core.getS r

/-! ### Quires -/

/-- The extents of a quire (R31). -/
structure Extents where
  p : Nat
  d : Nat
  c : Nat
  k : Nat
  stages : Nat
  period : Nat
  deriving DecidableEq, Repr

/-- The extents of a 16-byte shape record (R31). -/
def extents (x : Nat) : Extents :=
  ⟨field x 0 16, field x 16 8, field x 24 8, field x 32 8, field x 48 16, field x 64 32⟩

/-- The shape record within a launch record (R289). -/
def recShape (r : BitVec 2048) : Nat := recField r 8 16

/-- A folio's extents. -/
def Folio.ext (f : Folio) : Extents := extents (recShape f.record)

/-- The extents of the quire the focused core belongs to; a core of no folio stands alone. -/
def State.extOf (s : State) (id : Nat) : Extents :=
  match s.folio? id with
  | some f => f.ext
  | none => ⟨1, 1, 1, 1, 1, 0⟩

/-- The rank of a logical coordinate (R114). -/
def rankIn (e : Extents) (c : CoreId) : Nat := ((c.pkg * e.d + c.die) * e.c + c.cluster) * e.k + c.core

/-- The coordinate in the layout of coord (R188). -/
def coordOf (c : CoreId) : Nat := c.pkg * 2 ^ 10 + c.die * 2 ^ 8 + c.cluster * 2 ^ 4 + c.core

/-- Whether a coordinate lies in the quire. -/
def inQuire (e : Extents) (c : CoreId) : Bool :=
  decide (c.pkg < e.p) && decide (c.die < e.d) && decide (c.cluster < e.c) && decide (c.core < e.k)

/-- Whether the folio lists a restart line at a folio cycle (R25, R60). -/
def Folio.listed (f : Folio) (x : Nat) : Bool :=
  f.restarts.any fun (first, period, count) =>
    if period = 0 then x == first && decide (0 < count)
    else decide (first ≤ x) && (x - first) % period == 0 && decide ((x - first) / period < count)

/-! ### The next word (R150, R173, R200) -/

/-- Closes what ends at the next word: arms are popped; a loop's pass ends, and it repeats or is popped. The word that
issues next and the constructs still open. -/
def closeEnds (next : Nat) : List Construct → Nat × List Construct
  | [] => (next, [])
  | .arm last mask :: r => if last = next then closeEnds next r else (next, .arm last mask :: r)
  | .loop first last left live :: r =>
    if last = next then
      if 1 < left then (first, .loop first last (left - 1) (live.map fun l => { l with refresh := true }) :: r)
      else closeEnds next r
    else (next, .loop first last left live :: r)

/-- The core after its word of cycle `now`: the next word is fixed and issues `gap` cycles later. A word so fixed is
checked against the innermost end word (R173), the word of an entry to the handler too (log 85). -/
def Core.goto (c : Core) (now next gap : Nat) : Core :=
  let (n, cons) := closeEnds next c.cons
  { c with pc := BitVec.ofNat 15 n, cons := cons, issueAt := now + gap, lastIssue := some now }

/-- The focused core goes on to a word after `gap` cycles; the word issued takes its issue number. -/
def State.goto (s : State) (next gap : Nat) : State :=
  { s with core := s.core.goto s.now next gap, seq := s.seq + 1 }

/-- The core after a call of cycle `now`: the target issues three cycles later, and whatever word it is, every open entry stays
open (R174). -/
def Core.callTo (c : Core) (now target : Nat) : Core :=
  { c with pc := BitVec.ofNat 15 target, issueAt := now + 3, lastIssue := some now }

/-- The focused core calls a word. -/
def State.callTo (s : State) (target : Nat) : State := { s with core := s.core.callTo s.now target, seq := s.seq + 1 }

/-- The focused core goes on to the next word in the next cycle. -/
def State.advance (s : State) : State := s.goto (s.core.pc.toNat + 1) 1

/-- The end word of the innermost open construct. -/
def Construct.last : Construct → Nat
  | .loop _ l _ _ => l
  | .arm l _ => l

/-- Whether a word lies beyond the end word of the innermost open construct (R167, R174, R200). -/
def beyondInnermost (cons : List Construct) (x : Nat) : Bool :=
  match cons with
  | [] => false
  | k :: _ => decide (k.last < x)

/-- Open loops and open arms: four of each at most (R172, R200). -/
def loopCount (cons : List Construct) : Nat := (cons.filter fun k => match k with | .loop .. => true | .arm .. => false).length
/-- Open arms. -/
def armCount (cons : List Construct) : Nat := (cons.filter fun k => match k with | .loop .. => false | .arm .. => true).length

/-- Whether some construct is open. -/
def insideAny (cons : List Construct) : Bool := !cons.isEmpty

/-- The AND of the open masks (R190): hardware loops mask nothing. -/
def openMask : List Construct → MaskBits
  | [] => -1
  | .arm _ m :: r => m &&& openMask r
  | .loop _ _ _ (some l) :: r => l.mask &&& openMask r
  | .loop _ _ _ none :: r => openMask r

/-- Whether an open construct masks elements: an arm or a weighted loop (R190). -/
def insideMask (cons : List Construct) : Bool :=
  cons.any fun k => match k with | .arm .. => true | .loop _ _ _ live => live.isSome

/-- The positions of a weight register above a threshold (R199, R206). -/
def above (w : WeightBits) (theta : Nat) : MaskBits :=
  BitVec.ofNat 2048 ((List.range 2048).foldl (fun acc p => if theta < weightAt w p then acc + 2 ^ p else acc) 0)

/-- Narrows the live masks of weighted loops at the first word of a later pass (R206). -/
def Core.narrow (c : Core) : Core :=
  { c with cons := c.cons.map fun k =>
      match k with
      | .loop f l n (some v) =>
        if v.refresh then .loop f l n (some { v with mask := v.mask &&& above (c.getW v.k) v.theta, refresh := false })
        else k
      | _ => k }

/-- What a vector word captures (R118, R153). -/
def Core.capture (c : Core) (m : MReg) : Cap where
  ty := modeType c.m[m]
  rnd := modeRnd c.m[m]
  guard := modeGuard c.m[m]
  theta := (c.th[modeTh c.m[m]]).toNat
  tau := modeTau c.m[m]
  vl := c.vl.toNat
  inside := insideMask c.cons
  mask := openMask c.cons

/-- What a scalar word captures: nothing. -/
def Cap.none : Cap := ⟨.fp32, .rne, 0, 0, 0, 0, false, 0⟩

/-- Puts the work of the issuing word in flight. -/
def State.enqueue (s : State) (cap : Cap) (w : Work) : State :=
  { s with jobs := s.jobs ++ [⟨s.seq, s.core.id, s.now, s.core.pc, cap, w, {}, none, [], [], []⟩] }

/-- A scalar result `lat` cycles after issue, and on to the next word (R151, R158). -/
def State.result (s : State) (d : SReg) (x : DWord) (lat : Nat) : State :=
  (s.enqueue .none (.scalar d x lat)).advance

/-! ### Flags and oob (R115 to R117, R214) -/

/-- The record a flag index register keeps: the earliest issue, and within one instruction the lowest index (R116). -/
def FlagIndex.keep (old : Option FlagIndex) (new : FlagIndex) : FlagIndex :=
  match old with
  | none => new
  | some o =>
    if new.cycle < o.cycle then new
    else if new.seq = o.seq then { o with idx := min o.idx new.idx }
    else o

/-- ORs one flag into fs and its index register (R117). -/
def Core.setFlag (c : Core) (k : Fin 7) (x : FlagIndex) : Core :=
  { c with fs := c.fs ||| BitVec.ofNat 7 (2 ^ k.val), fx := c.fx.set k (some (FlagIndex.keep c.fx[k] x)) }

/-- Flags landing in cycle `now` from a word issued at a folio cycle (R115 to R117). -/
def Core.raise (c : Core) (now cycle seq : Nat) (word : BitVec 15) : List FlagHit → Core
  | [] => c
  | h :: r =>
    let x : FlagIndex := ⟨cycle, seq, word, h.idx % 2 ^ 16⟩
    let c := c.setFlag h.cls x
    let log := (if c.flagAt = now then c.flagNow else []) ++ [(h.cls, x)]
    Core.raise { c with flagNow := log, flagAt := now } now cycle seq word r

/-- Whether an offer comes before another (R214): by folio cycle, then by the issue of the instruction, then by element. -/
def offerBefore (a b : Nat × Nat × Nat) : Bool :=
  decide (a.1 < b.1) || (a.1 == b.1 && (decide (a.2.1 < b.2.1) || (a.2.1 == b.2.1 && decide (a.2.2 < b.2.2))))

/-- Whether oob takes an offer (R214): while it is all ones (an accepted address of all ones leaves it so), but for an offer
of the accepted one's cycle that comes after it; and in place of an offer that it comes before, but for one accepted before
a rollback. -/
def Core.takesOffer (c : Core) (o : Nat × Nat × Nat) : Bool :=
  !c.oobKept &&
    match c.oobFrom with
    | none => c.oob == -1
    | some p => offerBefore o p || (c.oob == -1 && decide (p.1 < o.1))

/-- An offer to oob at folio cycle `x` from the word issued at folio cycle `c0`, element `e` (R214). -/
def Core.offer (c : Core) (x c0 e : Nat) (addr : DWord) : Core :=
  if c.takesOffer (x, c0, e) then { c with oob := addr, oobFrom := some (x, c0, e) } else c

/-! ### Traps (R182 to R186, R301, R306) -/

/-- The class number of tcause (R182). -/
def TrapClass.code : TrapClass → Nat
  | .software => 1 | .illegal => 2 | .timing => 3 | .machine => 4 | .nested => 5 | .drift => 4

/-- Entering the handler (R183): tcause, tepc, tval, tstate and the shadow are written, and word tvec issues at c+3. A tvec above
32,767 that is not all ones is taken mod 2^15 (log 106). -/
def Core.enterHandler (c : Core) (now code : Nat) : Core :=
  let c := { c with
    tcause := BitVec.ofNat 64 (2 ^ 16 + code), tepc := BitVec.ofNat 64 ((c.pc.toNat + 1) % 2 ^ 15), tval := 0
    tstate := true, shadowM := c.m, shadowVl := c.vl }
  c.goto now c.tvec.toNat 3

/-- A trap that stops the core (R184, R186): the trap registers are written, and no word issues from `halt` on. A trap
inside a handler leaves tepc. -/
def Core.stopTrap (c : Core) (cls : TrapClass) (code : Nat) (epc : Nat) (tval : DWord) (halt : Nat) : Core :=
  { c with
    tcause := BitVec.ofNat 64 (cls.code * 2 ^ 16 + code)
    tepc := if cls = .nested then c.tepc else BitVec.ofNat 64 epc
    tval := tval
    haltAt := some (match c.haltAt with | some h => min h halt | none => halt) }

/-- A trap reaches the Binder: the first fixes the stop cycle, 320 cycles on, and later ones join it (R302, R306). -/
def Folio.report (f : Folio) (now : Nat) (r : TrapReport) : Folio :=
  match f.stop with
  | none => { f with stop := some ⟨now + 320, [r]⟩ }
  | some t => { f with stop := some { t with traps := t.traps ++ [r] } }

/-- Taking a trap on a core (R182 to R186, R301, R306). A software trap with a handler and outside one enters the handler;
every other trap stops the core and is reported. `word` is the word that traps; a timing trap or a machine check lets
the word of its own cycle issue. -/
def State.takeTrap (s : State) (id : CoreId) (cls : TrapClass) (code : Nat) (word : BitVec 15) (tval : DWord) : State :=
  match s.core? id with
  | none => s
  | some c =>
    let now := s.nowAt c
    if cls = .software ∧ c.tvec ≠ -1 ∧ c.tstate = false then s.updCore id fun c => c.enterHandler now code
    else
      let cls' := if cls = .software ∧ c.tstate = true then .nested else cls
      let epc := if cls = .software then (word.toNat + 1) % 2 ^ 15 else word.toNat
      let halt := if cls = .timing ∨ cls = .machine then now + 1 else now
      let s := s.updCore id fun c => c.stopTrap cls' code epc tval halt
      s.updFolio id.folio fun f => f.report now ⟨cls', now - f.start, coordOf id, word.toNat, code, tval⟩

/-- The word at the focused core's program counter. -/
def State.fetch (s : State) : Word := Cells.get s.core.imem s.core.pc.toNat

/-- The word at the program counter of the focused core traps as illegal: no effect of it takes place (R76). -/
def State.trapIllegal (s : State) : State :=
  let s' := s.takeTrap s.core.id .illegal 0 s.core.pc (s.fetch.setWidth 64)
  { s' with core := { s'.core with lastIssue := some s.now }, seq := s.seq + 1 }

/-- Return from the handler (R185): m0 to m3 and vl from the shadow, tstate clear, word tepc at c+3. -/
def Core.leaveHandler (c : Core) (now : Nat) : Core :=
  let c := { c with m := c.shadowM, vl := c.shadowVl, tstate := false }
  c.goto now (c.tepc.toNat % 2 ^ 15) 3

/-- A word legal in its bits that state makes illegal (R75): the trap where the check fails, the effect otherwise. -/
def State.guarded (s : State) (ok : Bool) (k : State → State) : State := if ok then k s else s.trapIllegal

end Sys2Proof.Machine
end

