-- ==== Sys2Proof/Machine/Hbm.lean ====
section
/-! DEFINITION. HBM behind its translation arrays: addresses, translation, device reads and writes, host writes without a
release, and what a region has held (R310, R315, R316, R364, R366, R367). -/

namespace Sys2Proof.Machine

/-- The stack a VA selects (R310). -/
def vaStack (va : Nat) : Nat := field va 21 3

/-- The channel of a VA (R310). -/
def vaChannel (va : Nat) : Nat := field va 8 4

/-- The place of a translation entry in the arrays. -/
def transKey (stack index : Nat) : Nat := stack * 32768 + index

/-- The matching entry of lowest index (R316); a VA has 48 bits (R310), and a fenced die's
stacks are unreachable (R391). -/
def Package.lookup (p : Package) (va : Nat) : Option (Nat × DWord) :=
  if decide (2 ^ 48 ≤ va) || p.fenced.getLsbD (vaStack va / 2) then none
  else p.trans.find? fun e => e.1 / 32768 == vaStack va && e.2.getLsbD 0 && field e.2.toNat 40 24 == field va 24 24

/-- Translation of an access: the entry, the stack and the physical address; none when the page is non-resident, also for a
write whose entry is not writable (R316), which then sets no bit of it (log 104). -/
def Package.translate (p : Package) (va : Nat) (write : Bool) : Option (Nat × Nat × Nat) :=
  match p.lookup va with
  | none => none
  | some (key, e) =>
    if write && !e.getLsbD 1 then none
    else some (key, vaStack va, field e.toNat 25 15 * 2 ^ 21 + field va 0 21)

/-- Translation sets accessed, and dirty for a write, in the entry (R316). -/
def Package.touch (p : Package) (key : Nat) (write : Bool) : Package :=
  { p with trans := Cells.set p.trans key (Cells.get p.trans key ||| (if write then 12 else 4)) }

/-- A stack's memory. -/
def Package.stackMem (p : Package) (stack : Nat) : Memory := p.hbm[stack % 8]'(Nat.mod_lt _ (by decide))

/-- A byte of a stack written. -/
def Package.setStack (p : Package) (stack addr : Nat) (b : Byte) : Package :=
  { p with hbm := p.hbm.set (stack % 8) (Memory.write (p.stackMem stack) addr b) (Nat.mod_lt _ (by decide)) }

/-- Whether a host write is to a byte: of the cellar, or of a stack. -/
def OpenWrite.on (w : OpenWrite) (cellar : Bool) (stack addr : Nat) : Bool :=
  w.cellar == cellar && w.stack == stack && w.addr == addr

/-- The byte in place, in the cellar or at a physical address of a stack. -/
def Package.inPlace (p : Package) (cellar : Bool) (stack addr : Nat) : Byte :=
  if cellar then Memory.read p.cellar addr else (p.stackMem stack).read addr

/-- A byte after host writes whose choice is not open for the one who reads it: the last of them, or what is in place where there is
none or a device write has landed on the byte since. -/
def Package.after (p : Package) (cellar : Bool) (stack addr : Nat) (ws : List OpenWrite) : Byte :=
  match ws.getLast? with
  | some w => if w.covered then p.inPlace cellar stack addr else w.val
  | none => p.inPlace cellar stack addr

/-- What a folio's read of a byte may return (R366): the byte, and the values that host writes made without a release leave open
for the folio. -/
def Package.seenBy (p : Package) (id : Nat) (cellar : Bool) (stack addr : Nat) : Byte × List Byte :=
  let ws := p.openWrites.filter fun w => w.on cellar stack addr
  (p.after cellar stack addr (ws.filter fun w => !w.folios.contains id), (ws.filter fun w => w.folios.contains id).map (·.val))

/-- A choice among the value in place and those left open, by a free value (R366, log 5). -/
def choose (ctr : Nat) (now : Byte) (others : List Byte) : Byte :=
  (now :: others).getD (Config.pick ctr % (others.length + 1)) now

/-- A read of a byte by a folio, from what it may return. -/
def State.openRead (s : State) : Byte × List Byte → State × Byte
  | (b, []) => (s, b)
  | (b, o) => ({ s with freeCtr := s.freeCtr + 1 }, choose s.freeCtr b o)

/-- A folio's read of one byte at a VA: the byte, and whether its page is resident. -/
def State.hbmRead (s : State) (id i va : Nat) : State × Byte × Bool :=
  match s.pkgs[i]? with
  | none => (s, 0, false)
  | some p =>
    match p.translate va false with
    | none => (s, 0, false)
    | some (key, stack, addr) =>
      let y := (s.updPkg i fun p => p.touch key false).openRead (p.seenBy id false stack addr)
      (y.1, y.2, true)

/-- A folio's reads of `n` bytes from a VA on; resident when every byte is. -/
def State.hbmBytes (s : State) (id i va : Nat) : Nat → State × List Byte × Bool
  | 0 => (s, [], true)
  | n + 1 =>
    let r := s.hbmRead id i va
    let rest := r.1.hbmBytes id i (va + 1) n
    (rest.1, r.2.1 :: rest.2.1, r.2.2 && rest.2.2)

/-- Whether a seal's region holds a byte. -/
def Region.contains (r : Region) (cellar : Bool) (a : Nat) : Bool :=
  r.cellar == cellar && decide (r.base ≤ a) && decide (a < r.base + r.len)

/-- A byte's place as a number: its address in the cellar, or its physical address counted through the stacks. -/
def placeOf (cellar : Bool) (stack addr : Nat) : Nat := if cellar then addr else stack * 2 ^ 36 + addr

/-- Whether a region holds a byte, under the address it is accessed by or under another VA of its frame (R316). -/
def Package.holdsByte (p : Package) (r : Region) (cellar : Bool) (stack addr va : Nat) : Bool :=
  r.contains cellar va ||
    (!cellar && p.trans.any fun e =>
      e.1 / 32768 == stack && e.2.getLsbD 0 && field e.2.toNat 25 15 == addr / 2 ^ 21 &&
        r.contains false (field e.2.toNat 40 24 * 2 ^ 24 + stack * 2 ^ 21 + addr % 2 ^ 21))

/-- Values that a place has held, with one more: what stood there before it first changed, and what a device write brings. -/
def addHeld (l : List Held) (place : Nat) (old new : Byte) (w : Writer) : List Held :=
  l ++ (if l.any fun h => h.place == place then [] else [⟨place, old, .host⟩]) ++ (if w = .host then [] else [⟨place, new, w⟩])

/-- The values that a place has held, in order. -/
def heldAt (l : List Held) (place : Nat) : List Byte := (l.filter fun h => h.place == place).map (·.val)

/-- The byte that the host sees at a place after a release, where it is in place as `now`: what it was at the release, where a replay
has since written over it. -/
def Stray.shows (y : Stray) (place : Nat) (now : Byte) : Byte := ((y.kept.find? fun x => x.1 == place).map (·.2)).getD now

/-- The values that a replay has written over, without one place. -/
def Stray.without (y : Stray) (place : Nat) : Stray := { y with kept := y.kept.filter fun x => x.1 != place }

/-- A device write that changes a byte of the region. One after the `rel` leaves the host's view of the byte, and the digest of that
release, undetermined, whoever makes it; one that the releasing folio makes at or before the cycle of its release is a replay's, and
the host still sees the byte as it was at the release (R330, log 107). -/
def Seal.spoil (k : Seal) (place : Nat) (old new : Byte) (w : Writer) (scc : Nat) : Seal :=
  match k.stray with
  | some y =>
    if new = old then k
    else if y.upto < scc ∨ w.folio ≠ some y.folio then
      { k with
        stray := some { y.without place with held := addHeld y.held place (y.shows place old) new w }
        spoilt := if k.spoilt.contains y.folio then k.spoilt else k.spoilt ++ [y.folio] }
    else { k with stray := some { y with kept := (y.without place).kept ++ [(place, y.shows place old)] } }
  | none => k

/-- Notes a change of a byte of a seal's region: what the byte has held since the host last released or acquired the seal (R367),
and what a device write after a `rel` leaves to the host's view (R330), in which the host's own write takes the byte's place. -/
def Seal.note (k : Seal) (place : Nat) (old new : Byte) (w : Writer) (scc : Nat) : Seal :=
  let k := if k.st != .host then { k with held := addHeld k.held place old new w } else k
  if w = .host then { k with stray := k.stray.map fun y => y.without place } else k.spoil place old new w scc

/-- A byte put in place; a device write covers the host's open writes. -/
def Package.put (p : Package) (cellar : Bool) (stack addr va : Nat) (b : Byte) (w : Writer) : Package :=
  let old := p.inPlace cellar stack addr
  let q := if cellar then { p with cellar := Memory.write p.cellar addr b } else p.setStack stack addr b
  { q with
    seals := q.seals.map fun k =>
      if k.region.any fun r => p.holdsByte r cellar stack addr va then
        k.note (placeOf cellar stack addr) old b w p.scc
      else k
    openWrites := if w = .host then q.openWrites
      else q.openWrites.map fun o => if o.on cellar stack addr then { o with covered := true } else o }

/-- A device write of one byte at a VA; dropped when the page is non-resident (R316). Whether it was written. -/
def State.hbmWrite (s : State) (w : Writer) (i va : Nat) (b : Byte) : State × Bool :=
  match s.pkgs[i]? with
  | none => (s, false)
  | some p =>
    match p.translate va true with
    | none => (s, false)
    | some (key, stack, addr) =>
      (s.updPkg i fun p => (p.touch key true).put false stack addr va b w, true)

/-- Device writes of bytes from a VA on; whether every byte was written. -/
def State.hbmStore (s : State) (w : Writer) (i va : Nat) : List Byte → State × Bool
  | [] => (s, true)
  | b :: bs =>
    let r := s.hbmWrite w i va b
    let rest := r.1.hbmStore w i (va + 1) bs
    (rest.1, r.2 && rest.2)

/-- A folio's read of one byte of the cellar (R331, R366). -/
def State.cellarRead (s : State) (id i a : Nat) : State × Byte :=
  match s.pkgs[i]? with
  | none => (s, 0)
  | some p => s.openRead (p.seenBy id true 0 a)

/-- A folio's reads of `n` bytes of the cellar. -/
def State.cellarBytes (s : State) (id i a : Nat) : Nat → State × List Byte
  | 0 => (s, [])
  | n + 1 =>
    let r := s.cellarRead id i a
    let rest := r.1.cellarBytes id i (a + 1) n
    (rest.1, r.2 :: rest.2)

/-- Writes of a transfer to the cellar, from an address on. -/
def Package.cellarStore (p : Package) (w : Writer) (a : Nat) : List Byte → Package
  | [] => p
  | b :: bs => (p.put true 0 a a b w).cellarStore w (a + 1) bs

/-- The bytes a Binder reads at a VA when it reads an image: no slot, no flag. It reads what the host wrote last, unless a device
write has landed on the byte since (log 93). -/
def Package.peek (p : Package) (va : Nat) : Byte :=
  match p.translate va false with
  | none => 0
  | some (_, stack, addr) => p.after false stack addr (p.openWrites.filter fun w => w.on false stack addr)

/-- `n` bytes a Binder reads. -/
def Package.peekBytes (p : Package) (va : Nat) : Nat → List Byte
  | 0 => []
  | n + 1 => p.peek va :: p.peekBytes (va + 1) n

/-! ### Distances between dies (R275) -/

/-- The number of coordinates in which two dies differ. -/
def dieDistance (a b : Nat) : Nat :=
  (if a % 2 = b % 2 then 0 else 1) + (if a / 2 % 2 = b / 2 % 2 then 0 else 1)

end Sys2Proof.Machine
end

