-- ==== Sys2Proof/Machine/Fabric.lean ====
section
/-! DEFINITION. The timed group (R336 to R351): routes and distances, sends, phase and slew. -/

namespace Sys2Proof.Machine

/-! ### Routes (R341) -/

/-- A route under construction: its cost, its links with the direction taken and the cost before each, the packages it
enters, and the die at which it stands. -/
structure Route where
  cost : Nat
  hops : List (Nat × Bool × Nat)
  entered : List Nat
  pkg : Nat
  die : Nat
  deriving DecidableEq, Repr

/-- Lexicographic order of equally long lists. -/
def lexLt : List Nat → List Nat → Bool
  | a :: as, b :: bs => decide (a < b) || (a == b && lexLt as bs)
  | _, _ => false

/-- Whether one route is preferred to another: smaller sum, then fewer links, then the lower sequence of packages. -/
def Route.better (a b : Route) : Bool :=
  decide (a.cost < b.cost) || (a.cost == b.cost && (decide (a.hops.length < b.hops.length) ||
    (a.hops.length == b.hops.length && lexLt a.entered b.entered)))

/-- A route extended by a link in one direction: 24 to leave, the die boundaries crossed to the link, its latency, 24 to
enter. -/
def Route.extend (r : Route) (i : Nat) (l : LinkSpec) (fwd : Bool) : Option Route :=
  let (p, d, q, e, lat) :=
    if fwd then (l.pkgA, l.dieA.val, l.pkgB, l.dieB.val, l.latAB) else (l.pkgB, l.dieB.val, l.pkgA, l.dieA.val, l.latBA)
  if p = r.pkg ∧ l.trained then
    let at_ := r.cost + 24 + 48 * dieDistance r.die d
    some ⟨at_ + lat + 24, r.hops ++ [(i, fwd, at_)], r.entered ++ [q], q, e⟩
  else none

/-- Keeps the best route to each package and die; of two that R341 does not tell apart, over parallel links, the one found first in the
order in which the Form lists the links (log 151). -/
def keepBest (r : Route) : List Route → List Route
  | [] => [r]
  | x :: xs => if x.pkg = r.pkg ∧ x.die = r.die then (if r.better x then r else x) :: xs else x :: keepBest r xs

/-- All routes known, each extended by every link. -/
def extendAll (links : List LinkSpec) (rs : List Route) : List Route :=
  (rs.flatMap fun r => links.zipIdx.flatMap fun (l, i) => ((r.extend i l true).toList ++ (r.extend i l false).toList)).foldl
    (fun acc r => keepBest r acc) rs

/-- The best routes after a number of rounds. -/
def routesFrom (links : List LinkSpec) : Nat → List Route → List Route
  | 0, rs => rs
  | n + 1, rs => routesFrom links n (extendAll links rs)

/-- The best of routes. -/
def bestOf : List Route → Option Route
  | [] => none
  | r :: rs => match bestOf rs with | none => some r | some x => if x.better r then some x else some r

/-- The route from a die of a package to a die of another: the crossings of the last package and 8 for phase margin are
added. -/
def routeBetween (links : List LinkSpec) (members sp sd dp dd : Nat) : Option Route :=
  let rs := routesFrom links members [⟨0, [], [], sp, sd⟩]
  bestOf ((rs.filter fun r => r.pkg == dp && !r.hops.isEmpty).map fun r =>
    { r with cost := r.cost + 48 * dieDistance r.die dd + 8 })

/-- The entry of the group distance table (R341); 0 where there is none. -/
def tableEntry (links : List LinkSpec) (members sp sd dp dd : Nat) : Nat :=
  if members ≤ sp ∨ members ≤ dp then 0
  else if sp = dp then 40 + 48 * dieDistance sd dd
  else match routeBetween links members sp sd dp dd with | some r => r.cost | none => 0

/-! ### Sends (R346 to R350) -/

/-- The core a group address names, in the issuing folio. -/
def sendTarget (folio : Nat) (a : DWord) : CoreId :=
  ⟨folio, field a.toNat 30 8, field a.toNat 28 2, field a.toNat 24 4, field a.toNat 20 4⟩

/-- The offset of a group address. -/
def sendOffset (a : DWord) : Nat := field a.toNat 0 20

/-- Whether a group address names a core of the quire. -/
def sendInQuire (e : Extents) (folio : Nat) (a : DWord) : Bool :=
  field a.toNat 38 26 == 0 && inQuire e (sendTarget folio a)

/-- The group's number for a logical package of a folio: its own number in the group, or the coordinate itself outside the
quire. -/
def State.groupNum (s : State) (folio p : Nat) : Nat :=
  match (s.folio? folio).bind fun f => f.bind[p]? with
  | some b => match s.pkgs[b.phys]? with | some k => k.num | none => p
  | none => p

/-- The distance of a send from a core (R347). -/
def State.distance (s : State) (id : CoreId) (phys : Nat) (a : DWord) : Nat :=
  let t := sendTarget id.folio a
  if t.pkg = id.pkg then
    if t.die = id.die then (if t.cluster = id.cluster then 20 else 40) else 40 + 48 * dieDistance id.die t.die
  else
    match s.pkgs[phys]? with
    | none => 0
    | some p => tableEntry p.links p.group.length p.num id.die (s.groupNum id.folio t.pkg) t.die

/-- The link directions on a send's route, with the cycle after issue at which each is entered (R339, R350, log 13). -/
def State.sendHops (s : State) (id : CoreId) (phys : Nat) (a : DWord) : List (Nat × Bool × Nat) :=
  let t := sendTarget id.folio a
  if t.pkg = id.pkg then []
  else
    match s.pkgs[phys]? with
    | none => []
    | some p =>
      match routeBetween p.links p.group.length p.num id.die (s.groupNum id.folio t.pkg) t.die with
      | some r => r.hops
      | none => []

/-- The bytes a group of a vector send writes: element index, byte offset in the target, byte (R349). -/
def sendElems (a : DWord) (b : Nat) (codes : List (Nat × Nat)) : List (Nat × Nat × List Byte) :=
  codes.map fun x => (x.1, sendOffset a + x.1 * b, leBytes x.2 b)

/-! ### The sideband tree (R338, R340, R343) -/

/-- The place of a package in the sideband tree: the latencies of its path to package 0 and back, and the link toward package
0 (none for package 0 itself). -/
structure TreeNode where
  up : Nat
  down : Nat
  link : Option Nat
  deriving DecidableEq, Repr

/-- A package reached through link `i` from one that is in the tree, when its round trip to package 0 becomes shorter. -/
def joinTree (a b lat back i : Nat) (ts : List (Option TreeNode)) : List (Option TreeNode) :=
  match ts.getD a none with
  | none => ts
  | some x =>
    let y : TreeNode := ⟨x.up + back, x.down + lat, some i⟩
    updAt (fun o => match o with | some z => if y.up + y.down < z.up + z.down then some y else some z | none => some y) b ts

/-- One round over every link, in both directions. -/
def growTree (links : List LinkSpec) (ts : List (Option TreeNode)) : List (Option TreeNode) :=
  links.zipIdx.foldl (fun ts (l, i) =>
    joinTree l.pkgB l.pkgA l.latBA l.latAB i (joinTree l.pkgA l.pkgB l.latAB l.latBA i ts)) ts

/-- A number of rounds. -/
def treeAfter (links : List LinkSpec) : Nat → List (Option TreeNode) → List (Option TreeNode)
  | 0, ts => ts
  | n + 1, ts => treeAfter links n (growTree links ts)

/-- The sideband tree of a group of `n` packages: each package by the path with the shortest round trip to package 0
(log 88). -/
def sidebandTree (links : List LinkSpec) (n : Nat) : List (Option TreeNode) :=
  treeAfter links n (some ⟨0, 0, none⟩ :: List.replicate (n - 1) none)

/-- The link of a package toward package 0. -/
def treeLink (links : List LinkSpec) (n num : Nat) : Option Nat :=
  ((sidebandTree links n).getD num none).bind (·.link)

/-- Whether a link of a group is up: neither of its dies is fenced (R391). -/
def State.linkUp (s : State) (ms : List Nat) (l : LinkSpec) : Bool :=
  let up (num d : Nat) : Bool :=
    match (ms[num]?).bind fun q => s.pkgs[q]? with
    | some p => !p.fenced.getLsbD d
    | none => false
  up l.pkgA l.dieA.val && up l.pkgB l.dieB.val

/-- The link ends at a die of a member. -/
def linkEnds (links : List LinkSpec) (num d : Nat) : Nat :=
  (links.filter fun l => l.pkgA == num && l.dieA.val == d).length + (links.filter fun l => l.pkgB == num && l.dieB.val == d).length

/-! ### Phase and slew (R343 to R345) -/

/-- The phase in units of 2^-16 tick: the mean over the links of the sideband tree toward package 0 (R343). -/
def meanPhase (xs : List (Nat × Int)) : Int :=
  if xs.isEmpty then 0 else (xs.map fun (x : Nat × Int) => x.2 * 2 ^ 16).sum.tdiv xs.length

/-- A stamp arriving on a link (R343). -/
def Package.stamp (p : Package) (link : Nat) (diff : Int) : Package :=
  if p.num = 0 then p
  else
    let xs := (p.linkPhi.filter fun x => x.1 != link) ++ [(link, diff)]
    { p with linkPhi := xs, phi := meanPhase xs }

/-- The slew that a limit commits, in units of 2^-32 (R344). -/
def slewOf (phi : Int) (limit : Nat) : Int :=
  let m : Int := min limit 4295
  let x := (-phi).tdiv 16
  if x < -m then -m else if m < x then m else x

/-- A commit: on package 0 the slew is always 0. -/
def Package.commit (p : Package) (limit : Nat) : Package :=
  { p with slew := if p.num = 0 then 0 else slewOf p.phi limit, commitTick := p.tick, slewTick := some p.tick }

/-- Whether the phase of a member of a group of several packages exceeds 8 ticks (R345). -/
def Package.astray (p : Package) : Bool := !p.left && decide (1 < p.group.length) && decide (8 * 2 ^ 16 < p.phi.natAbs)

/-- A drift fault is due on a member of a group of several packages (R345): |φ| above 8 ticks, or 2^24 ticks without a
commit. -/
def Package.drifting (p : Package) : Bool :=
  p.astray || (!p.left && decide (1 < p.group.length) && decide (2 ^ 24 ≤ p.tick - p.commitTick))

end Sys2Proof.Machine
end

