-- ==== Sys2Proof/Machine/Image.lean ====
section
/-! DEFINITION. Launch records, folio images and bindings (R43, R149, R289, R290, R295 to R297, R311, R398): their fields,
the conditions on them, and the cores they start. -/

namespace Sys2Proof.Machine

/-! ### Launch records (R289) -/

/-- The image's address. -/
def recImage (r : BitVec 2048) : Nat := recField r 0 8
/-- The priority. -/
def recPrio (r : BitVec 2048) : Nat := recField r 24 1
/-- Start given. -/
def recStartGiven (r : BitVec 2048) : Bool := recFlag r 1
/-- After issuer. -/
def recAfter (r : BitVec 2048) : Bool := recFlag r 2
/-- Press. -/
def recPress (r : BitVec 2048) : Bool := recFlag r 3
/-- Restore. -/
def recRestore (r : BitVec 2048) : Bool := recFlag r 4
/-- The budget of `flaunch`. -/
def recBudget (r : BitVec 2048) : Nat := recField r 26 1
/-- The start. -/
def recStart (r : BitVec 2048) : Nat := recField r 32 8
/-- The seals acquired. -/
def recSeals (r : BitVec 2048) : List (Fin 64) := (List.finRange 64).filter fun k => (recField r 40 8).testBit k
/-- The dependences. -/
def recDeps (r : BitVec 2048) : List Nat := ([48, 56, 64, 72].map fun b => recField r b 8).filter (· != 0)
/-- The context's address. -/
def recContext (r : BitVec 2048) : Nat := recField r 80 8
/-- The schedule inputs. -/
def recMb (r : BitVec 2048) : Vector DWord 16 := Vector.ofFn fun i => BitVec.ofNat 64 (recField r (96 + 8 * i.val) 8)

/-- Reserved fields are zero, and priority, flags, budget and addresses hold what R289 gives them (log 102); the
context address also where it is not used (log 134). -/
def recReservedOk (r : BitVec 2048) : Bool :=
  decide (recImage r < 2 ^ 48) && recField r 13 1 == 0 && recField r 20 4 == 0 && decide (recPrio r ≤ 3) &&
    decide (recField r 25 1 < 32) && decide (recBudget r ≤ 64) && recField r 27 5 == 0 && recField r 88 8 == 0 &&
    recField r 224 32 == 0 && decide (recContext r < 2 ^ 48)

/-- The extents of a shape lie in their ranges (R31). -/
def extentsOk (e : Extents) : Bool :=
  decide (1 ≤ e.p ∧ e.p ≤ 256 ∧ 1 ≤ e.d ∧ e.d ≤ 4 ∧ 1 ≤ e.c ∧ e.c ≤ 12 ∧ 1 ≤ e.k ∧ e.k ≤ 12)

/-- The number of logical cores. -/
def Extents.cores (e : Extents) : Nat := e.p * e.d * e.c * e.k

/-- Whether the stage count divides the cores (R297). -/
def stagesOk (e : Extents) : Bool := e.stages != 0 && e.cores % e.stages == 0

/-! ### Images (R398) -/

/-- A number in the bytes of an image. -/
def imgField (b : List Byte) (off n : Nat) : Nat := leNat ((b.drop off).take n)

/-- The next multiple of 16. -/
def align16 (x : Nat) : Nat := (x + 15) / 16 * 16

/-- Code words. -/
def imgCode (b : List Byte) : Nat := imgField b 32 4
/-- Where the restart table stands. -/
def imgTable (b : List Byte) : Nat := align16 (128 + 4 * imgCode b)
/-- Where the scratchpad sections stand. -/
def imgSections (b : List Byte) : Nat := align16 (imgTable b + 24 * imgField b 36 4)

/-- Instruction memory as the image loads it (R149). -/
def imgWords (b : List Byte) : Cells 32 :=
  ((List.range (min (imgCode b) 32768)).map fun i => (i, (BitVec.ofNat 32 (imgField b (128 + 4 * i) 4) : Word))).filter
    fun (x : Nat × Word) => x.2 != 0

/-- The restart table. -/
def imgRestarts (b : List Byte) : List (Nat × Nat × Nat) :=
  (List.range (imgField b 36 4)).map fun i =>
    let o := imgTable b + 24 * i
    (imgField b o 8, imgField b (o + 8) 8, imgField b (o + 16) 8)

/-- Loads scratchpad sections for one coordinate, `n` of them from an offset of the image on. -/
def loadSections (b : List Byte) (coord : Nat) : Nat → Nat → Memory → Memory
  | 0, _, m => m
  | n + 1, o, m =>
    let len := imgField b (o + 4) 4
    let to_ := imgField b (o + 8) 4
    let m := if to_ = 0xFFFFFFFF ∨ to_ = coord then spadStore m (imgField b o 4) ((b.drop (o + 16)).take len) else m
    loadSections b coord n (align16 (o + 16 + len)) m

/-- A core's scratchpad as the image loads it. -/
def imgSpad (b : List Byte) (coord : Nat) : Memory := loadSections b coord (imgField b 40 4) (imgSections b) []

/-! ### Physical units (R295, R381) -/

/-- Whether a die can be bound: it is not fenced and some cluster of it works. -/
def Package.dieWorks (p : Package) (d : Nat) : Bool :=
  !p.fenced.getLsbD d && (List.range 12).any fun c => p.fuses.clusters.getLsbD (12 * d + c)

/-- Working cores of a cluster, lowest first. -/
def Package.workingCores (p : Package) (d c : Nat) : List Nat :=
  (List.range 12).filter fun k => (p.fuses.cores[(12 * d + c) % 48]'(Nat.mod_lt _ (by decide))).getLsbD k

/-- Whether a cluster can take `k` cores of a quire. -/
def Package.clusterTakes (p : Package) (k d c : Nat) : Bool :=
  p.fuses.clusters.getLsbD (12 * d + c) && decide (k ≤ (p.workingCores d c).length)

/-- The eight symmetries of the 2 × 2 arrangement, as the physical die of each logical die (R295). -/
def symmetries : List (List Nat) :=
  [[0, 1, 2, 3], [1, 0, 3, 2], [2, 3, 0, 1], [3, 2, 1, 0], [0, 2, 1, 3], [1, 3, 0, 2], [2, 0, 3, 1], [3, 1, 2, 0]]

/-- Logical dies bound by one symmetry, the lowest clusters first; `free` says which clusters are free. -/
def bindDies (p : Package) (e : Extents) (free : Nat → Nat → Bool) (dies : List Nat) : Option (List DieBind) :=
  (dies.take e.d).mapM fun d =>
    let cs := (List.range 12).filter fun c => p.clusterTakes e.k d c && free d c
    if p.dieWorks d && decide (e.c ≤ cs.length) then some ⟨d, cs.take e.c⟩ else none

/-- The first binding found of a quire's dies on a package (log 11); a holding folio keeps its die numbers (R311). -/
def bindPackage (p : Package) (e : Extents) (holds : Bool) (free : Nat → Nat → Bool) (press : Nat → Bool) :
    Option (List DieBind) :=
  (if holds then symmetries.take 1 else symmetries).findSome? fun g =>
    match bindDies p e free g with
    | some b => if b.all fun x => press x.die then some b else none
    | none => none

/-- The packages a record names: the first of the group for one that is timed or names several, otherwise the one it was
posted to. -/
def State.named (s : State) (i : Nat) (r : BitVec 2048) : List Nat :=
  let n := (extents (recShape r)).p
  match s.pkgs[i]? with
  | none => []
  | some p => if recTimed r || decide (1 < n) then p.group.take n else [i]

/-- Whether a cluster is taken by a folio (R295). -/
def State.clusterFree (s : State) (phys d c : Nat) : Bool :=
  !(s.folios.any fun f => f.bind.any fun b => b.phys == phys && b.dies.any fun x => x.die == d && x.clusters.contains c)

/-- Whether a die's Press is held by no folio. -/
def State.pressFree (s : State) (phys d : Nat) : Bool :=
  !(s.folios.any fun f => recPress f.record && f.bind.any fun b => b.phys == phys && b.dies.any fun x => x.die == d)

/-- Whether a package's calendar is held by no folio (R311). -/
def State.calendarFree (s : State) (phys : Nat) : Bool :=
  !(s.folios.any fun f => f.holds && f.bind.any fun b => b.phys == phys)

/-- Whether a record's packages are of one group that none of them has left (R336, R345, R391). -/
def State.together (s : State) (i : Nat) (ps : List Nat) : Bool :=
  let of (q : Nat) : List Nat := match s.pkgs[q]? with | some p => if p.left then [] else p.group | none => []
  ps.all fun q => of q == of i && !(of q).isEmpty

/-- Whether a cluster can take part in a new binding now: it is free, its die does not wait for its fence (R391), and its package
has not tripped (R390). -/
def State.takesCluster (s : State) (q : Nat) (p : Package) (d c : Nat) : Bool :=
  s.clusterFree q d c && !(p.fencing.any fun x => x.val == d) && !p.tripped

/-- A binding of a record's quire, over what is free now, or over every working unit, of the dies of each package that `ok` admits. -/
def State.bindQuire (s : State) (i : Nat) (r : BitVec 2048) (holds all : Bool) (ok : Nat → Nat → Bool) : Option (List PkgBind) :=
  let e := extents (recShape r)
  let ps := s.named i r
  if ps.length ≠ e.p ∨ (recTimed r = true ∧ s.together i ps = false) then none
  else
    ps.mapM fun q =>
      match s.pkgs[q]? with
      | none => none
      | some p =>
        (bindPackage p e holds (fun d c => ok q d && (all || s.takesCluster q p d c)) (fun d => all || !recPress r || s.pressFree q d)).map
          fun ds => ⟨q, ds⟩

/-! ### Acceptance (R290, R328) -/

/-- The image's header at a package. -/
def Package.header (p : Package) (r : BitVec 2048) : List Byte := p.peekBytes (recImage r) 128

/-- The reason for which a record is rejected, the lowest that applies; 0 when it is accepted. `full` is whether its
queue is full. -/
def State.reject (s : State) (i : Nat) (r : BitVec 2048) (full : Bool) : Nat :=
  match s.pkgs[i]? with
  | none => 2
  | some p =>
    let e := extents (recShape r)
    let h := p.header r
    let holds := (imgField h 6 2).testBit 0
    if !recReservedOk r then 1
    else if !extentsOk e || (s.bindQuire i r holds true fun _ _ => true).isNone then 2
    else if 1 < e.p ∧ recTimed r = false then 3
    else if (recDeps r).any fun d => p.lastId + 1 ≤ d then 4
    else if full then 5
    else if imgField h 8 16 ≠ recShape r ∨ !stagesOk e then 6
    else 0

/-! ### Starting a folio (R148, R149, R297, R298) -/

/-- The logical coordinates of a quire in rank order. -/
def coordsOf (folio : Nat) (e : Extents) : List CoreId :=
  (List.range e.p).flatMap fun p => (List.range e.d).flatMap fun d => (List.range e.c).flatMap fun c =>
    (List.range e.k).map fun k => ⟨folio, p, d, c, k⟩

/-- The physical package of a logical one. -/
def Folio.phys (f : Folio) (p : Nat) : Nat := match f.bind[p]? with | some b => b.phys | none => f.owner

/-- A core of the quire at folio cycle 0. -/
def Folio.startCore (f : Folio) (id : CoreId) : Core :=
  let e := f.ext
  let stage := rankIn e id / max 1 (e.cores / max 1 e.stages)
  let c := Core.launch id (f.phys id.pkg) (BitVec.ofNat 16 stage) (BitVec.ofNat 32 e.period) f.start
  { c with
    mb := recMb f.record
    tvec := f.tvec
    imem := imgWords f.image
    spad := imgSpad f.image (coordOf id) }

/-- The cores of the quire at folio cycle 0. -/
def Folio.startCores (f : Folio) : List Core := (coordsOf f.id f.ext).map f.startCore

end Sys2Proof.Machine
end

