-- ==== Sys2Proof/Machine/Num.lean ====
section
/-! DEFINITION. Number formats and rounding (R78 to R98, R103 to R106): exact values, one rounding, conversions,
dither and MX blocks. Codes are natural numbers below `2 ^ width`. -/

namespace Sys2Proof.Machine

/-! ### Types -/

/-- Width in a register (R78). -/
def width : ETy → Nat
  | .fp32 | .int32 | .n32 => 32
  | .fp16 | .bf16 | .int16 | .n16 => 16
  | .e2m1 => 4
  | _ => 8

/-- Elements of one element group (R78): group g is bits 1024*g+1023 : 1024*g of a register, the 128 bytes that R3 and R78 give
a group; R79's bits 127:0 for group 0 is not followed (log 81). -/
def epg (t : ETy) : Nat := 1024 / width t

/-- The maximum vector length (R4). -/
def vlmax (t : ETy) : Nat := 16384 / width t

/-- Significand bits, the hidden bit counted (R85). -/
def prec : ETy → Nat
  | .fp32 => 24 | .fp16 => 11 | .bf16 => 8 | .e5m2 => 3 | .e4m3 => 4 | .e3m2 => 3 | .e2m3 => 4 | .e2m1 => 2
  | _ => 0

/-- Exponent bias (R80). -/
def bias : ETy → Nat
  | .fp32 | .bf16 => 127 | .fp16 | .e5m2 => 15 | .e4m3 => 7 | .e3m2 => 3 | _ => 1

/-- The smallest normal exponent (R85). -/
def emin (t : ETy) : Int := 1 - (bias t : Int)

/-- Fraction bits. -/
def mbits (t : ETy) : Nat := prec t - 1

/-- The number of the sign bit (R80). -/
def signBit : ETy → Nat
  | .fp32 => 31 | .fp16 | .bf16 => 15 | .e5m2 | .e4m3 => 7 | .e3m2 | .e2m3 => 5 | .e2m1 => 3 | _ => 0

/-- The code of the largest finite value (R81). -/
def maxCode : ETy → Nat
  | .fp32 => 0x7F7FFFFF | .fp16 => 0x7BFF | .bf16 => 0x7F7F | .e5m2 => 0x7B | .e4m3 => 0x7E
  | .e3m2 | .e2m3 => 0x1F | .e2m1 => 0x7 | _ => 0

/-- The code of +infinity, where the type has one (R81). -/
def infCode : ETy → Option Nat
  | .fp32 => some 0x7F800000 | .fp16 => some 0x7C00 | .bf16 => some 0x7F80 | .e5m2 => some 0x7C | _ => none

/-- The canonical NaN, where the type has one (R81). -/
def nanCode : ETy → Nat
  | .fp32 => 0x7FC00000 | .fp16 => 0x7E00 | .bf16 => 0x7FC0 | .e5m2 => 0x7E | .e4m3 => 0x7F | _ => 0

/-- F of R121: the floating types that lane words compute in. -/
def isF : ETy → Bool
  | .fp32 | .fp16 | .bf16 | .e5m2 | .e4m3 => true | _ => false

/-- I of R121. -/
def isI : ETy → Bool
  | .int8 | .int16 | .int32 | .n8 | .n16 | .n32 => true | _ => false

/-- A floating type of 16 or 32 bits. -/
def isWide : ETy → Bool
  | .fp32 | .fp16 | .bf16 => true | _ => false

/-- Two's complement integer type. -/
def isSigned : ETy → Bool
  | .int8 | .int16 | .int32 => true | _ => false

/-- The types that only an MX block stores (R78). -/
def isMxOnly : ETy → Bool
  | .e3m2 | .e2m3 | .e2m1 => true | _ => false

/-- The six bits, eight bits or more that a code of the type means (R79: readers ignore bits 7:6 of a 6-bit code). -/
def codeOf (t : ETy) (c : Nat) : Nat :=
  match t with
  | .e3m2 | .e2m3 => c % 64
  | _ => c % 2 ^ width t

/-! ### Values -/

/-- A value read from a code: `fin s m e` is (-1)^s * m * 2^e, zeros keeping their sign (R80). -/
inductive FVal where
  | nan
  | inf (neg : Bool)
  | fin (neg : Bool) (m : Nat) (e : Int)
  deriving DecidableEq, Repr

/-- The flags of R115 that arithmetic raises. -/
structure Flags where
  inv : Bool := false
  dz : Bool := false
  ovf : Bool := false
  unf : Bool := false
  inx : Bool := false
  sat : Bool := false
  gate : Bool := false
  deriving DecidableEq, Repr

/-- No flag. -/
def Flags.none : Flags := {}

/-- Flags of two parts of one piece of work. -/
def Flags.or (a b : Flags) : Flags :=
  ⟨a.inv || b.inv, a.dz || b.dz, a.ovf || b.ovf, a.unf || b.unf, a.inx || b.inx, a.sat || b.sat, a.gate || b.gate⟩

/-- The flags in the order of fs bits 0 to 6. -/
def Flags.list (f : Flags) : List Bool := [f.inv, f.dz, f.ovf, f.unf, f.inx, f.sat, f.gate]

/-- A number with its flags. -/
abbrev Rounded := Nat × Flags

/-- The value of a floating code (R80). The e2m1 spare marker has no value outside a block and reads as a NaN. -/
def decF (t : ETy) (c : Nat) : FVal :=
  let c := codeOf t c
  let s := c.testBit (signBit t)
  let mag := c % 2 ^ signBit t
  let E := mag / 2 ^ mbits t
  let f := mag % 2 ^ mbits t
  let emax := 2 ^ (signBit t - mbits t) - 1
  let ieee := (infCode t).isSome
  if ieee && E == emax then (if f == 0 then .inf s else .nan)
  else if t == .e4m3 && mag == 0x7F then .nan
  else if t == .e2m1 && c == 8 then .nan
  else if E == 0 then .fin s f (emin t - (mbits t : Int))
  else .fin s (2 ^ mbits t + f) ((E : Int) - (bias t : Int) - (mbits t : Int))

/-- The value of an integer code (R83). -/
def decI (t : ETy) (c : Nat) : Int :=
  let c := c % 2 ^ width t
  if isSigned t && c.testBit (width t - 1) then (c : Int) - 2 ^ width t else c

/-- An integer as an exact value. -/
def FVal.ofInt (x : Int) : FVal := .fin (decide (x < 0)) x.natAbs 0

/-- The exact value of a code of any type. -/
def decV (t : ETy) (c : Nat) : FVal := if isI t then .ofInt (decI t c) else decF t c

/-! ### Rounding (R85) -/

/-- A non-zero real or an exact zero: (-1)^neg times `m * 2^e`, or strictly between that and `(m+1) * 2^e` in
magnitude when `sticky` is set (a quotient, root or exponential, with `m` long enough to round once). -/
structure Ex where
  neg : Bool
  m : Nat
  e : Int
  sticky : Bool := false
  deriving DecidableEq, Repr

/-- 2 to a power that may be negative, as a shift: `m * 2^k` for `k ≥ 0`. -/
def shl (m : Nat) (k : Int) : Nat := m <<< k.toNat

/-- Rounds a magnitude `m` by `sh` low bits: the kept number and whether it is inexact (R85). -/
def roundBits (mode : Rnd) (neg : Bool) (m sh : Nat) (sticky : Bool) : Nat × Bool :=
  let lo := m >>> sh
  let rem := m % 2 ^ sh
  let exact := rem == 0 && !sticky
  let twice := 2 * rem
  let unit := 2 ^ sh
  let above := decide (unit < twice) || (twice == unit && sticky)
  let tie := twice == unit && !sticky
  let up : Bool :=
    match mode with
    | .rne => above || (tie && lo % 2 == 1)
    | .rna => above || tie
    | .rtz => false
    | .rup => !neg
    | .rdn => neg
  if exact then (lo, false) else (if up then lo + 1 else lo, true)

/-- RN of R85 before overflow: the number of quanta, the exponent of the quantum, and whether it is inexact. -/
def roundQ (t : ETy) (mode : Rnd) (x : Ex) : Nat × Int × Bool :=
  let top : Int := (x.m.log2 : Int) + x.e
  let qe : Int := max top (emin t) - (prec t : Int) + 1
  let sh : Int := qe - x.e
  if x.m == 0 && !x.sticky then (0, qe, false)
  else if sh ≤ 0 then (shl x.m (-sh), qe, x.sticky)
  else
    let (k, i) := roundBits mode x.neg x.m sh.toNat x.sticky
    (k, qe, i)

/-- The magnitude code of `k * 2^qe`, exponents beyond the format counted on, so that codes compare as values. -/
def magCode (t : ETy) (k : Nat) (qe : Int) : Nat :=
  if k == 0 then 0
  else
    let (k, qe) := if 2 ^ prec t ≤ k then (k / 2, qe + 1) else (k, qe)
    if k < 2 ^ mbits t then k
    else (qe + (mbits t : Int) + (bias t : Int)).toNat * 2 ^ mbits t + (k - 2 ^ mbits t)

/-- A magnitude code with a sign. -/
def withSign (t : ETy) (neg : Bool) (c : Nat) : Nat := if neg then c + 2 ^ signBit t else c

/-- What OVERFLOW gives: R87 for the wide types, R88 for the others. -/
def overflowCode (t : ETy) (mode : Rnd) (neg : Bool) : Nat :=
  let toInf : Bool :=
    match mode with
    | .rne | .rna => true
    | .rtz => false
    | .rup => !neg
    | .rdn => neg
  withSign t neg (if isWide t && toInf then (infCode t).getD (maxCode t) else maxCode t)

/-- RN_mode of a real into a floating type, with the flags of R86 to R88. -/
def rn (t : ETy) (mode : Rnd) (x : Ex) : Rounded :=
  let (k, qe, inx) := roundQ t mode x
  let c := magCode t k qe
  if maxCode t < c then (overflowCode t mode x.neg, { ovf := true, inx := true })
  else (withSign t x.neg c, { inx := inx, unf := inx && decide (c < 2 ^ mbits t) })

/-- A value into a floating type: NaN, infinities and zeros by R87 and R88, other values by `rn`. -/
def rnV (t : ETy) (mode : Rnd) : FVal → Rounded
  | .nan => (nanCode t, {})
  | .inf s => if isWide t then (withSign t s ((infCode t).getD 0), {}) else (withSign t s (maxCode t), { ovf := true })
  | .fin s m e => rn t mode ⟨s, m, e, false⟩

/-- A real rounded to an integer under a mode (R90: R85 with q = 1), and whether it is inexact. -/
def roundInt (mode : Rnd) (x : Ex) : Int × Bool :=
  let (k, i) := if 0 ≤ x.e then (shl x.m x.e, x.sticky) else roundBits mode x.neg x.m (-x.e).toNat x.sticky
  (if x.neg then -(k : Int) else k, i)

/-- The least and greatest value of an integer type (R83). -/
def intMin (t : ETy) : Int := if isSigned t then -(2 ^ (width t - 1)) else 0
/-- The greatest value. -/
def intMax (t : ETy) : Int := if isSigned t then 2 ^ (width t - 1) - 1 else 2 ^ width t - 1

/-- The code of an integer in range. -/
def encI (t : ETy) (x : Int) : Nat := (x % 2 ^ width t).toNat

/-- An integer clamped to the type, with saturate when clamping changes it (R92, R124). -/
def clampI (t : ETy) (x : Int) : Rounded :=
  if x < intMin t then (encI t (intMin t), { sat := true })
  else if intMax t < x then (encI t (intMax t), { sat := true })
  else (encI t x, {})

/-- A value into an integer type (R90). -/
def toIntV (t : ETy) (mode : Rnd) : FVal → Rounded
  | .nan => (0, { inv := true })
  | .inf s => (encI t (if s then intMin t else intMax t), { sat := true })
  | .fin s m e =>
    let (k, i) := roundInt mode ⟨s, m, e, false⟩
    let (c, f) := clampI t k
    (c, if f.sat then f else { inx := i })

/-- A value into any type outside blocks (R87 to R91). -/
def convV (u : ETy) (mode : Rnd) (x : FVal) : Rounded := if isI u then toIntV u mode x else rnV u mode x

/-- `vcvt` of one element (R87 to R92, R132). -/
def cvt (t u : ETy) (mode : Rnd) (c : Nat) : Rounded :=
  if isI t && isI u then clampI u (decI t c) else convV u mode (decV t c)

/-- A value into a weight: clamp to [0, 1] and round under rne (R93). -/
def toWeight : FVal → Rounded
  | .nan => (0, { inv := true })
  | .inf s => (if s then 0 else 0x8000, {})
  | .fin s m e =>
    if s || m == 0 then (0, {})
    else if (0 ≤ e ∧ 1 ≤ shl m e) ∨ (e < 0 ∧ 2 ^ (-e).toNat ≤ m) then (0x8000, {})
    else
      let (k, i) := roundInt .rne ⟨false, m, e + 15, false⟩
      (k.toNat, { inx := i })

/-- The exact value of a weight code. -/
def weightV (w : Nat) : FVal := .fin false w (-15)

/-! ### Exact arithmetic (R123) -/

/-- The sign of an exact zero sum of unlike signs: +0, or -0 under rdn. -/
def zeroSign (mode : Rnd) : Bool := mode == .rdn

/-- An integer number of quanta `2^e` as a value; zero takes the sign given. -/
def ofQuanta (z : Bool) (x : Int) (e : Int) : FVal :=
  if x == 0 then .fin z 0 e else .fin (decide (x < 0)) x.natAbs e

/-- The signed number of `2^e0` in `fin s m e`, for `e0 ≤ e`. -/
def quanta (s : Bool) (m : Nat) (e e0 : Int) : Int :=
  let k := shl m (e - e0)
  if s then -(k : Int) else k

/-- An exact sum: the value and whether it is invalid. -/
def addV (mode : Rnd) : FVal → FVal → FVal × Bool
  | .nan, _ => (.nan, false)
  | _, .nan => (.nan, false)
  | .inf a, .inf b => if a == b then (.inf a, false) else (.nan, true)
  | .inf a, _ => (.inf a, false)
  | _, .inf b => (.inf b, false)
  | .fin s1 m1 e1, .fin s2 m2 e2 =>
    if m1 == 0 && m2 == 0 then (.fin (if s1 == s2 then s1 else zeroSign mode) 0 0, false)
    else
      let e0 := min e1 e2
      (ofQuanta (zeroSign mode) (quanta s1 m1 e1 e0 + quanta s2 m2 e2 e0) e0, false)

/-- The opposite value. -/
def negV : FVal → FVal
  | .nan => .nan
  | .inf s => .inf !s
  | .fin s m e => .fin (!s) m e

/-- An exact product: the value and whether it is invalid (0 times an infinity). -/
def mulV : FVal → FVal → FVal × Bool
  | .nan, _ => (.nan, false)
  | _, .nan => (.nan, false)
  | .inf a, .inf b => (.inf (a != b), false)
  | .inf a, .fin s m _ => if m == 0 then (.nan, true) else (.inf (a != s), false)
  | .fin s m _, .inf b => if m == 0 then (.nan, true) else (.inf (s != b), false)
  | .fin s1 m1 e1, .fin s2 m2 e2 => (.fin (s1 != s2) (m1 * m2) (e1 + e2), false)

/-- `p + d` where `p` is a product that may already be invalid (R123). -/
def addProd (mode : Rnd) (p : FVal × Bool) (d : FVal) : FVal × Bool :=
  if p.2 then (.nan, true) else addV mode p.1 d

/-- A value that may be invalid, rounded once into a floating type. -/
def finish (t : ETy) (mode : Rnd) (x : FVal × Bool) : Rounded :=
  if x.2 then (nanCode t, { inv := true }) else rnV t mode x.1

/-- A zero code of either sign (R111, R143). -/
def isZeroCode (t : ETy) (c : Nat) : Bool :=
  if isI t then c % 2 ^ width t == 0
  else if t == .e2m1 then codeOf t c == 0
  else codeOf t c % 2 ^ signBit t == 0

/-! ### Quotients, roots and exponentials, rounded once -/

/-- Bits kept below the leading bit of an inexact real before it is rounded. -/
def guardBits : Nat := 96

/-- `a / b` of two non-zero magnitudes. -/
def quotEx (neg : Bool) (ma : Nat) (ea : Int) (mb : Nat) (eb : Int) : Ex :=
  let k := mb.log2 + guardBits
  let n := ma <<< k
  ⟨neg, n / mb, ea - eb - (k : Int), n % mb != 0⟩

/-- A quotient with the specials of IEEE division: x/0 is an infinity with dz, 0/0 and inf/inf are invalid. -/
def divV (t : ETy) (mode : Rnd) : FVal → FVal → Rounded
  | .nan, _ => (nanCode t, {})
  | _, .nan => (nanCode t, {})
  | .inf _, .inf _ => (nanCode t, { inv := true })
  | .inf a, .fin s _ _ => rnV t mode (.inf (a != s))
  | .fin s _ _, .inf b => (withSign t (s != b) 0, {})
  | .fin s1 m1 e1, .fin s2 m2 e2 =>
    if m2 == 0 then
      if m1 == 0 then (nanCode t, { inv := true })
      else ((rnV t mode (.inf (s1 != s2))).1, { dz := true })
    else if m1 == 0 then (withSign t (s1 != s2) 0, {})
    else rn t mode (quotEx (s1 != s2) m1 e1 m2 e2)

/-- The integer square root by binary search on its bits, from bit `i - 1` down. -/
def isqrtBits (n : Nat) : Nat → Nat → Nat
  | 0, acc => acc
  | i + 1, acc =>
    let a := acc + 2 ^ i
    isqrtBits n i (if a * a ≤ n then a else acc)

/-- The integer square root: the greatest `r` with `r * r ≤ n`. -/
def isqrt (n : Nat) : Nat := isqrtBits n (n.log2 / 2 + 1) 0

/-- The square root of a non-zero magnitude. -/
def sqrtEx (m : Nat) (e : Int) : Ex :=
  let k : Int := 2 * (guardBits : Int) + e % 2
  let n := shl m k
  let r := isqrt n
  ⟨false, r, (e - k) / 2, r * r != n⟩

/-- `vrcp` (R127). -/
def rcpV (t : ETy) (mode : Rnd) : FVal → Rounded
  | .nan => (nanCode t, {})
  | .inf s => (withSign t s 0, {})
  | .fin s m e =>
    if m == 0 then (withSign t s ((infCode t).getD 0), { dz := true })
    else rn t mode (quotEx s 1 0 m e)

/-- `vsqrt` (R127). -/
def sqrtV (t : ETy) (mode : Rnd) : FVal → Rounded
  | .nan => (nanCode t, {})
  | .inf s => if s then (nanCode t, { inv := true }) else ((infCode t).getD 0, {})
  | .fin s m e =>
    if m == 0 then (withSign t s 0, {})
    else if s then (nanCode t, { inv := true })
    else rn t mode (sqrtEx m e)

/-- 1 over the square root of a non-zero magnitude: the root of the quotient, its low bits sticky. -/
def rsqrtEx (m : Nat) (e : Int) : Ex :=
  let k : Int := (m.log2 : Int) + 2 * (guardBits : Int) + (e + (m.log2 : Int)) % 2
  let n := shl 1 k
  let q := n / m
  let r := isqrt q
  ⟨false, r, (-e - k) / 2, !(n % m == 0 && r * r == q)⟩

/-- `vrsq` (R127). -/
def rsqV (t : ETy) (mode : Rnd) : FVal → Rounded
  | .nan => (nanCode t, {})
  | .inf s => if s then (nanCode t, { inv := true }) else (0, {})
  | .fin s m e =>
    if m == 0 then (withSign t s ((infCode t).getD 0), { dz := true })
    else if s then (nanCode t, { inv := true })
    else rn t mode (rsqrtEx m e)

/-- Terms of the exponential series in units of `2^-320`, from term `i`, `n` terms. -/
def expSeries (x : Nat) : Nat → Nat → Nat → Nat
  | 0, _, _ => 0
  | n + 1, i, term => term + expSeries x n (i + 1) (term * x / (2 ^ 320 * (i + 1)))

/-- Squares a fixed-point number `n` times. -/
def sqFix : Nat → Nat → Nat
  | 0, y => y
  | n + 1, y => sqFix n (y * y / 2 ^ 320)

/-- `exp(-m * 2^e)` for a positive argument, correctly rounded into fp32 under rne (R284). The argument is below 128
when the result does not round to zero; the series is taken at the argument over 256. -/
def expNegRn (m : Nat) (e : Int) : Nat :=
  if (0 ≤ e ∧ 128 ≤ shl m e) ∨ (e < 0 ∧ 128 * 2 ^ (-e).toNat ≤ m) then 0
  else
    let x := if 0 ≤ e then shl m e <<< 312 else (m <<< 312) >>> (-e).toNat
    let inv := sqFix 8 (expSeries x 60 0 (2 ^ 320))
    (rn .fp32 .rne ⟨false, 2 ^ 640 / inv, -320, true⟩).1

/-! ### Dither (R102 to R107) -/

/-- The exponent of the quantum of a non-zero magnitude, by the lower-binade rule (R103). -/
def quantumExp (t : ETy) (m : Nat) (e : Int) : Int :=
  let up : Int := if m == 2 ^ m.log2 then (m.log2 : Int) else (m.log2 : Int) + 1
  max (up + e - 1) (emin t) - (prec t : Int) + 1

/-- An offset in units of `2^-24` of a quantum (R102). -/
abbrev Offset := Int

/-- The offset of a generator output (R102). -/
def offsetOf (x : Nat) : Offset := ((x / 2 ^ 8 : Nat) : Int) - 2 ^ 23

/-- `RI_mode(x / 2^qe + d)` (R104). -/
def ditherRound (mode : Rnd) (neg : Bool) (m : Nat) (e qe : Int) (d : Offset) : Int :=
  let e0 := min (e - qe) (-24)
  let v := quanta neg m (e - qe) e0 + quanta false 1 (-24) e0 * d
  (roundInt mode ⟨decide (v < 0), v.natAbs, e0, false⟩).1

/-- The reconstruction of a non-zero finite code value under an offset (R105). -/
def reconstruct (t : ETy) (neg : Bool) (m : Nat) (e : Int) (d : Offset) : FVal :=
  if m == 0 then .fin neg 0 0
  else
    let qe := quantumExp t m e
    let e0 := min e (qe - 24)
    ofQuanta neg (quanta neg m e e0 - quanta false 1 (qe - 24) e0 * d) e0

/-- DSTORE of R104 for a non-zero finite value: the number of quanta, the exponent of the quantum. -/
def dstoreQ (t : ETy) (mode : Rnd) (neg : Bool) (m : Nat) (e : Int) (d : Offset) : Int × Int :=
  let q1 := quantumExp t m e
  let k1 := ditherRound mode neg m e q1 d
  if k1 == 0 || quantumExp t k1.natAbs q1 == q1 then (k1, q1)
  else
    let q2 := quantumExp t k1.natAbs q1
    let k2 := ditherRound mode neg m e q2 d
    if k2 == 0 || quantumExp t k2.natAbs q2 == q2 then (k2, q2)
    else
      let edge : Int := if q2 < q1 then 2 ^ prec t else 2 ^ mbits t + 1
      (if k2 < 0 then -edge else edge, q2)

/-- Whether two values are the same real (zeros of either sign are). -/
def sameReal : FVal → FVal → Bool
  | .fin s1 m1 e1, .fin s2 m2 e2 =>
    let e0 := min e1 e2
    quanta s1 m1 e1 e0 == quanta s2 m2 e2 e0
  | a, b => a == b

/-- A dithered store into e5m2, e4m3 or an MX element type (R104), with the flags of R104. -/
def dstore (t : ETy) (mode : Rnd) (d : Offset) : FVal → Rounded
  | .nan => (nanCode t, {})
  | .inf s => (withSign t s (maxCode t), { ovf := true })
  | .fin s m e =>
    if m == 0 then (withSign t s 0, {})
    else
      let (k, qe) := dstoreQ t mode s m e d
      let neg := if k == 0 then s else decide (k < 0)
      let c := magCode t k.natAbs qe
      if maxCode t < c then (withSign t neg (maxCode t), { ovf := true, inx := true })
      else
        let code := withSign t neg c
        let back :=
          match decF t code with
          | .fin s' m' e' => reconstruct t s' m' e' d
          | v => v
        let inx := !sameReal back (.fin s m e)
        (code, { inx := inx, unf := inx && decide (c < 2 ^ mbits t) })

/-- A code read through a frame: with an offset for a non-plain frame, plain otherwise (R105). -/
def readDithered (t : ETy) (c : Nat) : Option Offset → FVal
  | none => decV t c
  | some d =>
    match decV t c with
    | .fin s m e => reconstruct t s m e d
    | v => v

/-! ### MX blocks (R95 to R98, R106) -/

/-- Bytes of a block (R95). -/
def blockBytes : ETy → Nat
  | .e3m2 | .e2m3 => 25 | .e2m1 => 18 | _ => 33

/-- Bits of an element in a block. -/
def blockBits : ETy → Nat
  | .e3m2 | .e2m3 => 6 | .e2m1 => 4 | _ => 8

/-- emaxF of R97. -/
def emaxF : ETy → Int
  | .e5m2 => 15 | .e4m3 => 8 | .e3m2 => 4 | _ => 2

/-- Compares two magnitudes. -/
def magLt (m1 : Nat) (e1 : Int) (m2 : Nat) (e2 : Int) : Bool :=
  let e0 := min e1 e2
  decide (shl m1 (e1 - e0) < shl m2 (e2 - e0))

/-- The largest finite magnitude among values, the first of equals (R97). -/
def largest : List (Option FVal) → Nat → Option (Nat × Nat × Int)
  | [], _ => none
  | x :: xs, i =>
    let rest := largest xs (i + 1)
    match x with
    | some (.fin _ m e) =>
      match rest with
      | some (j, m', e') => if magLt m e m' e' then some (j, m', e') else some (i, m, e)
      | none => some (i, m, e)
    | _ => rest

/-- A block encoded: codes by position, scale byte, spare byte and flags. -/
structure MxBlock where
  codes : List Nat
  scale : Nat
  spare : Nat
  flags : List Flags     -- by position
  deriving DecidableEq, Repr

/-- One element of a block in scaled units: clamping raises only inexact, and -0 of e2m1 is code 0 (R97, R106).
A -0 of another type keeps its sign, in a block of zeros too (log 82). A dithered element raises inexact as R104 judges it, also where
x/q + d is exactly 0 (log 144). -/
def mxElem (t : ETy) (mode : Rnd) (eS : Int) (d : Option Offset) : FVal → Rounded
  | .nan => (0, {})
  | .inf s => (withSign t s (maxCode t), { ovf := true })
  | .fin s m e =>
    let (c, f) :=
      match d with
      | some d => dstore t mode d (.fin s m (e - eS))
      | none =>
        let (k, qe, i) := roundQ t mode ⟨s, m, e - eS, false⟩
        let c := magCode t k qe
        if maxCode t < c then (withSign t s (maxCode t), { inx := true }) else (withSign t s c, { inx := i })
    (if t == .e2m1 && c == 8 then 0 else c, { inx := f.inx })

/-- MXENC of R97; `none` marks an absent position, and each position carries its offset under a non-plain frame. -/
def mxEncode (t : ETy) (mode : Rnd) (xs : List (Option FVal)) (ds : Nat → Option Offset) : MxBlock :=
  if xs.any (fun x => x == some .nan) then
    { codes := xs.map fun _ => 0, scale := 0xFF, spare := 0,
      flags := xs.map fun x => if x == some .nan then { inv := true } else {} }
  else
    let big := largest xs 0
    let log (o : Option (Nat × Nat × Int)) : Option Int :=
      match o with
      | some (_, m, e) => if m == 0 then none else some ((m.log2 : Int) + e)
      | none => none
    let a1 := log big
    let p : Option Nat := if t == .e2m1 && a1.isSome then big.map (·.1) else none
    let eS : Int :=
      match a1 with
      | none => -127
      | some l1 =>
        match p with
        | none => l1 - emaxF t
        | some p =>
          match log (largest (xs.set p none) 0) with
          | none => l1 - 8
          | some l2 => max (l2 - 2) (l1 - 8)
    let eS := min (max eS (-127)) 127
    let one (i : Nat) (x : Option FVal) : Rounded :=
      match x with
      | none => (0, {})
      | some v => if p == some i then (8, {}) else mxElem t mode eS (ds i) v
    let spare : Rounded :=
      match p with
      | none => (0, {})
      | some p =>
        match xs.getD p none with
        | some (.fin s m e) =>
          let (c, f) := rn .e4m3 mode ⟨s, m, e - eS, false⟩
          (c, { inx := f.inx })
        | _ => (0, {})
    let rs := xs.zipIdx.map fun (x, i) => one i x
    { codes := rs.map (·.1), scale := (eS + 127).toNat, spare := spare.1,
      flags := rs.zipIdx.map fun (r, i) => if p == some i then spare.2 else r.2 }

/-- A block element without its scale: the reconstruction in scaled units (R98, R106, R236). -/
def mxUnscaled (t : ETy) (c spare : Nat) (d : Option Offset) : FVal :=
  if t == .e2m1 && codeOf t c == 8 then decF .e4m3 spare else readDithered t c d

/-- A block element decoded with its scale (R98, R106). -/
def mxDecode (t : ETy) (c scale spare : Nat) (d : Option Offset) : FVal :=
  if scale == 0xFF then .nan
  else
    match mxUnscaled t c spare d with
    | .fin s m e => .fin s m (e + (scale : Int) - 127)
    | v => v

/-! ### Vector arithmetic of one element (R123 to R131) -/

/-- Reads a floating operation under its type, or the integer one. -/
def arith (t : ETy) (mode : Rnd) (f : FVal → FVal → FVal → FVal × Bool) (g : Int → Int → Int → Int)
    (a b d : Nat) : Rounded :=
  if isI t then clampI t (g (decI t a) (decI t b) (decI t d))
  else finish t mode (f (decF t a) (decF t b) (decF t d))

/-- Whether `a` is below `b`; `none` when either is a NaN. Zeros are equal. -/
def ltV : FVal → FVal → Option Bool
  | .nan, _ => none
  | _, .nan => none
  | .inf a, .inf b => some (a && !b)
  | .inf a, .fin _ _ _ => some a
  | .fin _ _ _, .inf b => some !b
  | .fin s1 m1 e1, .fin s2 m2 e2 =>
    let e0 := min e1 e2
    some (decide (quanta s1 m1 e1 e0 < quanta s2 m2 e2 e0))

/-- Equality of two values that are not NaN. -/
def eqV (a b : FVal) : Bool := ltV a b == some false && ltV b a == some false

/-- Below, with -0 below +0 (R125). -/
def ltZ (a b : FVal) : Bool :=
  match a, b with
  | .fin s1 0 _, .fin s2 0 _ => s1 && !s2
  | _, _ => ltV a b == some true

/-- `vmin` and `vmax`, and the nodes of their reductions (R125, R113): the code of one operand, an infinity of e5m2 among them
(log 23), or the canonical NaN. -/
def minmax (t : ETy) (isMax : Bool) (a b : Nat) : Rounded :=
  if isI t then
    (if (decI t a < decI t b) == isMax then b % 2 ^ width t else a % 2 ^ width t, {})
  else
    match decF t a, decF t b with
    | .nan, _ => (nanCode t, { inv := true })
    | _, .nan => (nanCode t, { inv := true })
    | x, y => (if ltZ x y == isMax then codeOf t b else codeOf t a, {})

/-- `vabs` (R126). -/
def vabsC (t : ETy) (a : Nat) : Rounded :=
  if isI t then clampI t (decI t a).natAbs
  else if decF t a == .nan then (nanCode t, {}) else (codeOf t a % 2 ^ signBit t, {})

/-- `vneg` (R126). -/
def vnegC (t : ETy) (a : Nat) : Rounded :=
  if isI t then clampI t (-(decI t a))
  else if decF t a == .nan then (nanCode t, {}) else (codeOf t a ^^^ 2 ^ signBit t, {})

/-- The number of one bits among the low `w` bits. -/
def popcount (w c : Nat) : Nat := ((List.range w).filter fun i => c.testBit i).length

/-- `vclz` (R128). -/
def clz (w c : Nat) : Nat := if c % 2 ^ w == 0 then w else w - 1 - (c % 2 ^ w).log2

/-- `vshl`, `vshr` and `vsra` (R129). -/
def shlC (w a s : Nat) : Nat := if w ≤ s then 0 else (a <<< s) % 2 ^ w
/-- Logical right shift. -/
def shrC (w a s : Nat) : Nat := if w ≤ s then 0 else (a % 2 ^ w) >>> s
/-- Arithmetic right shift. -/
def sraC (w a s : Nat) : Nat :=
  let a := a % 2 ^ w
  if a.testBit (w - 1) then 2 ^ w - 1 - (if w ≤ s then 0 else (2 ^ w - 1 - a) >>> s) else shrC w a s

/-- `vmulh` (R130). -/
def mulhC (t : ETy) (a b : Nat) : Nat := ((decI t a * decI t b) / 2 ^ width t % 2 ^ width t).toNat

/-- τ of a mode register's tau field: none when it is 0, else significand 8 + m over 8 and exponent (R71). -/
def tauOf (f : Nat) : Option (Nat × Int) :=
  if f == 0 then none else some (8 + f % 8, (f / 8 : Nat) - 127 - 3)

/-- `wsoft` (R193). -/
def wsoftC (t : ETy) (tau a b : Nat) : Rounded :=
  let x := decF t a
  let y := decF t b
  match addV .rne x (negV y) with
  | (.nan, _) => (0, { inv := true })
  | (.inf s, _) => (if s then 0 else 0x8000, {})
  | (.fin s m e, _) =>
    match tauOf tau with
    | none => (if m == 0 then 0x4000 else if s then 0 else 0x8000, {})
    | some (tm, te) =>
      -- u * 32768 = 16384 + (a - b) * 32768 / τ, over the denominator tm
      let e0 := min (e - te + 15) 0
      let num : Int := quanta s m (e - te + 15) e0 + quanta false (16384 * tm) 0 e0
      let den : Nat := tm * 2 ^ (-e0).toNat
      if num ≤ 0 then (0, {})
      else if ((32768 * den : Nat) : Int) ≤ num then (0x8000, {})
      else
        let n := num.toNat
        let k := n / den
        let r := n % den
        let up := decide (den < 2 * r) || (2 * r == den && k % 2 == 1)
        (if up then k + 1 else k, { inx := r != 0 })

/-- A quotient by τ (R194). -/
def divTau (t : ETy) (mode : Rnd) (tau g : Nat) : Rounded :=
  match tauOf tau with
  | none => (0, {})
  | some (tm, te) => divV t mode (decF t g) (.fin false tm te)

end Sys2Proof.Machine
end

