-- ==== Sys2Proof/Machine/Element.lean ====
section
/-! DEFINITION. What lane, weight and join words compute (R99, R111 to R114, R118, R123 to R147, R193 to R204): the
coordinate generator, reductions, and the results of a slot from the sampled sources. -/

namespace Sys2Proof.Machine

/-! ### The coordinate generator (R99) -/

/-- One mixing step. -/
def mix (x : BitVec 32) (c : BitVec 32) : BitVec 32 :=
  let x := x ^^^ (x <<< 13)
  let x := x ^^^ (x >>> 17)
  let x := x ^^^ (x <<< 5)
  x + c

/-- The coordinate generator. -/
def cg (klo khi i j s t : BitVec 32) : BitVec 32 :=
  let x := mix (klo ^^^ i) 0x9E3779B9
  let x := mix (x ^^^ j) 0x3C6EF372
  let x := mix (x ^^^ khi ^^^ s) 0xDAA66D2B
  mix (x ^^^ t) 0x78DDE6E4

/-- The coordinate generator on numbers. -/
def cgNat (klo khi i j s t : Nat) : Nat :=
  (cg (BitVec.ofNat 32 klo) (BitVec.ofNat 32 khi) (BitVec.ofNat 32 i) (BitVec.ofNat 32 j) (BitVec.ofNat 32 s)
    (BitVec.ofNat 32 t)).toNat

/-! ### Reductions (R112, R113) -/

/-- Reduction operators. -/
inductive RedOp where
  | sum | max | min
  deriving DecidableEq, Repr

/-- The identity's code (R113). Over e5m2 the identities of max and min are the infinities (log 23). -/
def redIdentity (t : ETy) : RedOp → Nat
  | .sum => if isI t then 0 else withSign t true 0
  | .max => if isI t then encI t (intMin t) else withSign t true ((infCode t).getD (maxCode t))
  | .min => if isI t then encI t (intMax t) else (infCode t).getD (maxCode t)

/-- One node: an element, or `none` for the identity, which leaves the other operand as it is but for a NaN (R113, R133). -/
def redNode (t : ETy) (mode : Rnd) (op : RedOp) : Option Nat → Option Nat → Option Nat × Flags
  | none, none => (none, {})
  | some a, none | none, some a =>
    if isF t && decF t a == .nan then (some (nanCode t), { inv := op != .sum }) else (some a, {})
  | some a, some b =>
    let r :=
      match op with
      | .sum => arith t mode (fun a b _ => addV mode a b) (fun a b _ => a + b) a b 0
      | .max => minmax t true a b
      | .min => minmax t false a b
    (some r.1, r.2)

/-- Flags at an index. -/
def hitsAt (f : Flags) (i : Nat) : List FlagHit :=
  (if f.inv then [⟨0, i⟩] else []) ++ (if f.dz then [⟨1, i⟩] else []) ++ (if f.ovf then [⟨2, i⟩] else []) ++
  (if f.unf then [⟨3, i⟩] else []) ++ (if f.inx then [⟨4, i⟩] else []) ++ (if f.sat then [⟨5, i⟩] else []) ++
  (if f.gate then [⟨6, i⟩] else [])

/-- Joins two halves of a row of nodes, node `i` covering elements from `i` up. -/
def redRow (t : ETy) (mode : Rnd) (op : RedOp) : Nat → List (Option Nat) → List (Option Nat) →
    List (Option Nat) × List FlagHit
  | _, [], _ => ([], [])
  | _, _, [] => ([], [])
  | i, a :: as, b :: bs =>
    let r := redNode t mode op a b
    let rest := redRow t mode op (i + 1) as bs
    (r.1 :: rest.1, hitsAt r.2 i ++ rest.2)

/-- The halvings of REDUCE. -/
def redTree (t : ETy) (mode : Rnd) (op : RedOp) : Nat → List (Option Nat) → Option Nat × List FlagHit
  | 0, l => (l.headD none, [])
  | k + 1, l =>
    let r := redRow t mode op 0 (l.take (2 ^ k)) (l.drop (2 ^ k))
    let rest := redTree t mode op k r.1
    (rest.1, r.2 ++ rest.2)

/-- The least `k` with `n ≤ 2^k`. -/
def ceilLog2 (n : Nat) : Nat := if n ≤ 1 then 0 else (n - 1).log2 + 1

/-- REDUCE of R112 over elements, `none` for an inactive one: the code and the flags by index. The padding joins even a
single element with the identity (R113). -/
def reduce (t : ETy) (mode : Rnd) (op : RedOp) (l : List (Option Nat)) : Nat × List FlagHit :=
  let k := max 1 (ceilLog2 l.length)
  let r := redTree t mode op k (l ++ List.replicate (2 ^ k - l.length) none)
  (r.1.getD (redIdentity t op), r.2)

/-! ### Bodies and activity (R118, R190) -/

/-- The weight position of an element (R118). -/
def weightPos (t : ETy) (e : Nat) : Nat := if t == .e2m1 then e / 2 else e

/-- The wider of two types (R132). -/
def widest (t u : ETy) : ETy := if width t < width u then u else t

/-- The type whose groups the slots of a lane word follow: the wider type of a convert (R132). -/
def slotType (ty : ETy) : LaneOp → ETy
  | .cvt u => widest ty u
  | _ => ty

/-- Elements of one slot. -/
def slotLen (ty : ETy) (op : LaneOp) : Nat := epg (slotType ty op)

/-- The body length of a lane word (R118, R132); the output body of `vxsect` and `vpfx` is all 512 elements (R140). -/
def bodyLen (cap : Cap) (op : LaneOp) : Nat :=
  match op with
  | .pfx => 512
  | _ => min cap.vl (vlmax (slotType cap.ty op))

/-- Whether the guard and the open constructs admit an element. -/
def admits (cap : Cap) (g : WeightBits) (e : Nat) : Bool :=
  let p := weightPos cap.ty e
  decide (cap.theta < weightAt g p) && cap.mask.getLsbD p

/-- Whether an element of the body is active (R118). -/
def active (cap : Cap) (n : Nat) (g : WeightBits) (e : Nat) : Bool := decide (e < n) && admits cap g e

/-- Whether no element of the body is active. -/
def noneActive (cap : Cap) (n : Nat) (g : WeightBits) : Bool := (List.range n).all fun e => !active cap n g e

/-! ### Single elements -/

/-- Compare results as weights (R131). -/
def weightOf (b : Bool) : Nat := if b then 0x8000 else 0

/-- `vceq`, `vclt` and `vcle` (R131). -/
def compareC (t : ETy) (op : LaneOp) (a b : Nat) : Rounded :=
  if isI t then
    let x := decI t a
    let y := decI t b
    (weightOf (match op with | .ceq => x == y | .clt => decide (x < y) | _ => decide (x ≤ y)), {})
  else
    let x := decF t a
    let y := decF t b
    match ltV x y, ltV y x with
    | some l, some g =>
      (weightOf (match op with | .ceq => !l && !g | .clt => l | _ => !g), {})
    | _, _ => (0, { inv := op != .ceq })

/-- VTBL of R147. -/
def vtblC (t : ETy) (mode : Rnd) (tbl : Option Table) (c : Nat) : Rounded :=
  match tbl with
  | none => (nanCode t, { inv := true })
  | some tb =>
    let n := tb.ys.length
    let y (i : Nat) : FVal := decF .fp32 (tb.ys.getD i 0).toNat
    let slope (i : Nat) : FVal := (addV mode (y (i + 1)) (negV (y i))).1
    match decF t c with
    | .nan => (nanCode t, {})
    | .inf neg =>
      let linear := if neg then tb.ends.getLsbD 0 else tb.ends.getLsbD 1
      let i := if neg then 0 else n - 2
      if !linear then rnV t mode (if neg then y 0 else y (n - 1))
      else
        match slope i with
        | .fin s m _ => if m == 0 then rnV t mode (y i) else rnV t mode (.inf (neg != s))
        | v => rnV t mode v
    | .fin s m e =>
      match (addV .rne (.fin s m e) (negV (decF .fp32 tb.x0.toNat))).1 with
      | .fin us um ue =>
        let ue := ue + tb.sexp.toInt
        let below := us && um != 0
        let u : FVal := .fin us um ue
        let past := ltV (.ofInt (n - 1 : Nat)) u == some true
        if below && !tb.ends.getLsbD 0 then rnV t mode (y 0)
        else if past && !tb.ends.getLsbD 1 then rnV t mode (y (n - 1))
        else
          let fl := (roundInt .rdn ⟨us, um, ue, false⟩).1
          let i := min fl.toNat (n - 2)
          let f := (addV .rne u (negV (.ofInt i))).1
          finish t mode (addProd mode (mulV f (slope i)) (y i))
      | v => rnV t mode v

/-- A 32-bit word of the held group 0 of `wdrop` and `vrng`. -/
def heldWord (x : VecBits) (i : Nat) : Nat := elem x 32 i

/-- `wdrop` at a position (R197): the seed, layer, step, probability, row width and origin stand in va. -/
def wdropC (va : VecBits) (off p : Nat) : Nat :=
  let w := if heldWord va 5 = 0 then 2 ^ 32 else heldWord va 5
  let l := off + p
  let i := (heldWord va 6 + l % w) % 2 ^ 32
  let j := (heldWord va 7 + l / w) % 2 ^ 32
  let x := cgNat (heldWord va 0) (heldWord va 1) i j (heldWord va 2) (heldWord va 3)
  weightOf (decide (x < heldWord va 4) || heldWord va 4 == 0xFFFFFFFF)

/-- A code kept as it is, a NaN made canonical (R201, R221). -/
def canonC (t : ETy) (c : Nat) : Nat := if decF t c == .nan then nanCode t else codeOf t c

/-- `w·x + (1 − w)·y`, one rounding (R201, R221). -/
def mixC (t : ETy) (mode : Rnd) (w x y : Nat) : Rounded :=
  finish t mode (addProd mode (mulV (weightV w) (decF t x)) (mulV (weightV (0x8000 - w)) (decF t y)).1)

/-- `blend` (R201). -/
def blendC (t : ETy) (mode : Rnd) (theta w a b : Nat) : Rounded :=
  let inA := decide (theta < w)
  let inB := decide (theta < 0x8000 - w)
  if inA && inB then mixC t mode w a b
  else if inA then (canonC t a, {})
  else if inB then (canonC t b, {})
  else (0, {})

/-- The running value of `bacc` (R202). -/
def baccC (t : ETy) (mode : Rnd) (w a d : Nat) : Rounded :=
  finish t mode (addProd mode (mulV (weightV w) (decF t a)) (decF t d))

/-- The weight sum of `bacc` (R202). -/
def baccW (t : ETy) (mode : Rnd) (w b : Nat) : Rounded :=
  finish t mode (addV mode (decF t b) (weightV w))

/-- `bnorm` (R203). -/
def bnormC (t : ETy) (mode : Rnd) (a b : Nat) : Rounded :=
  if isZeroCode t b then (0, {}) else divV t mode (decF t a) (decF t b)

/-- `bgrad` (R204). A product 0·∞ raises invalid whatever vd holds, a NaN included (log 108). -/
def bgradC (t : ETy) (mode : Rnd) (theta w a b d : Nat) : Rounded :=
  if w ≤ theta || isZeroCode t d then (0, {})
  else
    let p := mulV (decF t a) (decF t b)
    if p.2 then (nanCode t, { inv := true }) else divV t mode p.1 (decF t d)

/-- `wmul` (R196). -/
def wmulC (a b : Nat) : Rounded :=
  let r := roundBits .rne false (a * b) 15 false
  (r.1, { inx := r.2 })

/-- `wsoftg` (R194). -/
def wsoftgC (t : ETy) (mode : Rnd) (tau g w : Nat) : Rounded :=
  if tau != 0 && decide (0 < w) && decide (w < 0x8000) then divTau t mode tau g else (0, {})

/-- The result of a word that works element by element, at element `e`: operands `a`, `b`, `d` and weights `wa`, `wb`. -/
def elemResult (cap : Cap) (l : Lane) (sm : Samples) (e a b d wa wb : Nat) : Rounded :=
  let t := cap.ty
  let r := cap.rnd
  let w := width t
  match l.op with
  | .add => arith t r (fun a b _ => addV r a b) (fun a b _ => a + b) a b d
  | .sub => arith t r (fun a b _ => addV r a (negV b)) (fun a b _ => a - b) a b d
  | .mul => arith t r (fun a b _ => mulV a b) (fun a b _ => a * b) a b d
  | .fma => arith t r (fun a b d => addProd r (mulV a b) d) (fun a b d => a * b + d) a b d
  | .fms => arith t r (fun a b d => addProd r (mulV a b) (negV d)) (fun a b d => a * b - d) a b d
  | .nfma => arith t r (fun a b d => addProd r (mulV (negV a) b) d) (fun a b d => d - a * b) a b d
  | .min => minmax t false a b
  | .max => minmax t true a b
  | .abs => vabsC t a
  | .neg => vnegC t a
  | .rcp => rcpV t r (decF t a)
  | .rsq => rsqV t r (decF t a)
  | .sqrt => sqrtV t r (decF t a)
  | .popc => (popcount w a, {})
  | .clz => (clz w a, {})
  | .and => (a &&& b, {})
  | .or => (a ||| b, {})
  | .xor => (a ^^^ b, {})
  | .shl => (shlC w a b, {})
  | .shr => (shrC w a b, {})
  | .sra => (sraC w a b, {})
  | .mulh => (mulhC t a b, {})
  | .ceq | .clt | .cle => compareC t l.op a b
  | .cvt u => cvt t u r a
  | .mov => (codeOf t a, {})
  | .movs => (codeOf t b, {})
  | .rng => (cgNat (heldWord sm.b 0) (heldWord sm.b 1) a d (heldWord sm.b 2) (heldWord sm.b 3), {})
  | .tbl tb => vtblC t r tb a
  | .wsoft => wsoftC t cap.tau a b
  | .wsoftg => wsoftgC t r cap.tau a wb
  | .wfromv => toWeight (decV t a)
  | .wtov => convV t r (weightV wa)
  | .wnot => (0x8000 - wa, {})
  | .wmul => wmulC wa wb
  | .wmov => (wa, {})
  | .wdrop => (wdropC sm.a l.sb.toNat e, {})
  | .blend => blendC t r cap.theta wb a b
  | .bacc => baccC t r wb a d
  | .bnorm => bnormC t r a b
  | .bgrad => bgradC t r cap.theta wb a b d
  | _ => (0, {})

/-! ### Whole results -/

/-- What a landing writes: codes by element into the destination and into vb (`bacc`, `vcomp`), the scalar of `vext`,
and flags by index. -/
structure LaneOut where
  main : List (Nat × Nat)
  second : List (Nat × Nat)
  hits : List FlagHit
  deriving DecidableEq, Repr

/-- Nothing. -/
def LaneOut.nothing : LaneOut := ⟨[], [], []⟩

/-- An element-wise slot: the active elements of slot `k` (R119, R120). -/
def slotResult (cap : Cap) (l : Lane) (sm : Samples) (k : Nat) : LaneOut :=
  let n := bodyLen cap l.op
  let len := slotLen cap.ty l.op
  let w := width cap.ty
  let es := ((List.range len).map (· + k * len)).filter (active cap n sm.g)
  let es := match l.op with
    | .bacc => es.filter fun e => decide (cap.theta < weightAt sm.wb e)
    | _ => es
  let rs := es.map fun e =>
    let p := weightPos cap.ty e
    let a := elem sm.a w e
    let b := l.imm.getD (elem sm.b w e)
    (e, elemResult cap l sm e a b (elem sm.d w e) (weightAt sm.wa p) (weightAt sm.wb p))
  let ws := match l.op with
    | .bacc => es.map fun e => (e, baccW cap.ty cap.rnd (weightAt sm.wb e) (elem sm.b w e))
    | _ => []
  { main := rs.map fun x => (x.1, x.2.1)
    second := ws.map fun x => (x.1, x.2.1)
    hits := rs.flatMap (fun x => hitsAt x.2.2 x.1) ++ ws.flatMap (fun x => hitsAt x.2.2 x.1) }

/-- Elements of a body as REDUCE takes them. -/
def redBody (cap : Cap) (sm : Samples) (lo n : Nat) : List (Option Nat) :=
  (List.range n).map fun i =>
    if admits cap sm.g (lo + i) then some (codeOf cap.ty (elem sm.a (width cap.ty) (lo + i))) else none

/-- `vredsum`, `vredmax`, `vredmin` (R133). -/
def redResult (cap : Cap) (op : RedOp) (sm : Samples) : LaneOut :=
  let n := min cap.vl (vlmax cap.ty)
  if cap.inside && noneActive cap n sm.g then .nothing
  else
    let r := reduce cap.ty cap.rnd op (redBody cap sm 0 n)
    ⟨[(0, r.1)], [], r.2⟩

/-- The starts of the segments of a body (R134). -/
def segStarts (cap : Cap) (sm : Samples) (n : Nat) : List Nat :=
  (List.range n).filter fun e => e == 0 || decide (cap.theta < weightAt sm.wb (weightPos cap.ty e))

/-- The segments that begin at the given starts. -/
def segResults (cap : Cap) (op : RedOp) (sm : Samples) (n : Nat) : List Nat → LaneOut
  | [] => .nothing
  | s :: r =>
    let stop := r.headD n
    let x := reduce cap.ty cap.rnd op (redBody cap sm s (stop - s))
    let rest := segResults cap op sm n r
    let es := ((List.range (stop - s)).map (· + s)).filter (active cap n sm.g)
    { main := es.map (fun e => (e, x.1)) ++ rest.main, second := []
      hits := (if es.isEmpty then [] else x.2.map fun h => { h with idx := h.idx + s }) ++ rest.hits }

/-- Elements of a slot of a cross-element word that writes active body elements, each from a choice of code. -/
def moveResult (cap : Cap) (sm : Samples) (k : Nat) (f : Nat → Nat) : LaneOut :=
  let n := min cap.vl (vlmax cap.ty)
  let len := epg cap.ty
  let es := ((List.range len).map (· + k * len)).filter (active cap n sm.g)
  ⟨es.map fun e => (e, codeOf cap.ty (f e)), [], []⟩

/-- The packed elements of `vcomp` (R143): the codes present, and the bitmap as a number. -/
def compress (cap : Cap) (sm : Samples) : List Nat × Nat :=
  let n := min cap.vl (vlmax cap.ty)
  let w := width cap.ty
  let es := (List.range n).filter fun e => admits cap sm.g e && !isZeroCode cap.ty (elem sm.a w e)
  (es.map fun e => elem sm.a w e, es.foldl (fun acc e => acc + 2 ^ e) 0)

/-- The positions `vxsect` finds (R141). -/
def crossings (cap : Cap) (sm : Samples) : List Nat :=
  let n := min cap.vl 512
  (List.range n).flatMap fun m =>
    if admits cap sm.g m then
      let x := elem sm.a 32 m &&& elem sm.b 32 m
      ((List.range 32).filter fun b => x.testBit b).map (· + 32 * m)
    else []

/-- Set bits of a number below a position. -/
def rankBelow (x p : Nat) : Nat := popcount p x

/-- What lands in slot `k` of a lane word (R119, R121, R133 to R144, R191). -/
def laneResult (cap : Cap) (l : Lane) (sm : Samples) (k : Nat) : LaneOut :=
  let t := cap.ty
  let w := width t
  let n := min cap.vl (vlmax t)
  match l.op with
  | .redsum => redResult cap .sum sm
  | .redmax => redResult cap .max sm
  | .redmin => redResult cap .min sm
  | .segsum => segResults cap .sum sm n (segStarts cap sm n)
  | .segmax => segResults cap .max sm n (segStarts cap sm n)
  | .segmin => segResults cap .min sm n (segStarts cap sm n)
  | .perm => moveResult cap sm k fun e =>
      let x := elem sm.b w e
      if x < n then elem sm.a w x else 0
  | .slide => moveResult cap sm k fun e =>
      let x : Int := (e : Int) + l.sb.toInt
      if 0 ≤ x ∧ x < (n : Int) then elem sm.a w x.toNat else 0
  | .ins =>
      if active cap n sm.g l.sa.toNat then ⟨[(l.sa.toNat, codeOf t (l.sb.toNat % 2 ^ w))], [], []⟩ else .nothing
  | .ext =>
      let x := l.sb.toNat
      let c := if x < n then codeOf t (elem sm.a w x) else 0
      ⟨[(0, if isSigned t then (decI t c % 2 ^ 64).toNat else c)], [], []⟩
  | .comp =>
      if cap.inside && noneActive cap n sm.g then .nothing
      else
        let (packed, bits) := compress cap sm
        let len := epg t
        { main := (List.range len).map fun i => (k * len + i, packed.getD (k * len + i) 0)
          second := (List.range 32).map fun i => (k * 32 + i, (bits >>> (32 * (32 * k + i))) % 2 ^ 32)
          hits := [] }
  | .expd => moveResult cap sm k fun e =>
      if sm.b.getLsbD e then elem sm.a w (rankBelow sm.b.toNat e) else 0
  | .xsect =>
      if cap.inside && noneActive cap (min cap.vl 512) sm.g then .nothing
      else
        let ps := crossings cap sm
        { main := (List.range 32).map fun i => (32 * k + i, ps.getD (32 * k + i) 0xFFFFFFFF)
          second := []
          hits := if k = 15 ∧ 512 < ps.length then [⟨5, 511⟩] else [] }
  | .pfx =>
      let m := min cap.vl 512
      let bits := sm.a.toNat % 2 ^ (32 * m)
      let es := ((List.range 32).map (· + 32 * k)).filter (active cap 512 sm.g)
      ⟨es.map fun e => (e, rankBelow bits (min (elem sm.b 32 e) (32 * m))), [], []⟩
  | _ => slotResult cap l sm k

/-! ### Timing of lane words (R121, R132, R192) -/

/-- Lr of R121. -/
def redLatency (t : ETy) (op : LaneOp) : Nat :=
  match op with
  | .redsum | .segsum => if isI t then 2 else 4
  | _ => 2

/-- Cycles from issue to the landing of slot 0. -/
def laneBase (t : ETy) : LaneOp → Nat
  | .add | .sub | .mul | .fma | .fms | .nfma | .min | .max => if isI t then 8 else 10
  | .abs | .neg | .popc | .clz | .and | .or | .xor | .shl | .shr | .sra | .mulh | .mov | .movs => 8
  | .rcp | .rsq | .sqrt => 18
  | .ceq | .clt | .cle | .cvt _ => 9
  | .redsum => 22 + redLatency t .redsum * (vlmax t).log2
  | .segsum => 22 + redLatency t .segsum * (vlmax t).log2
  | .redmax | .redmin | .segmax | .segmin => 22 + 2 * (vlmax t).log2
  | .perm | .slide | .ins | .ext | .comp | .expd => 24
  | .rng | .wdrop => 11
  | .pfx | .xsect => 28
  | .tbl _ => 12
  | .wsoft | .wfromv | .wtov | .wmul => 9
  | .wsoftg | .bacc => 10
  | .wnot | .wmov => 8
  | .blend | .bnorm | .bgrad => 18

/-- How many landings a lane word has: 16 slots, or one. -/
def laneSlots : LaneOp → Nat
  | .redsum | .redmax | .redmin | .segsum | .segmax | .segmin | .ins | .ext => 1
  | _ => 16

/-- The types a lane word accepts (R121, R192). -/
def laneAccepts (t : ETy) : LaneOp → Bool
  | .add | .sub | .mul | .fma | .fms | .nfma | .min | .max | .abs | .neg => isF t || isI t
  | .rcp | .rsq | .sqrt | .tbl _ | .wsoft | .wsoftg | .blend | .bacc | .bnorm | .bgrad => isWide t
  | .popc | .clz | .and | .or | .xor | .shl | .shr | .sra | .mulh => isI t
  | .ceq | .clt | .cle | .redsum | .redmax | .redmin | .segsum | .segmax | .segmin | .comp | .expd => isF t || isI t
  | .cvt u => !isMxOnly t && !isMxOnly u
  | .perm | .slide => t != .e2m1
  | .ins | .ext | .mov | .movs => true
  | .rng => t == .int32 || t == .n32
  | .pfx | .xsect => t == .n32
  | .wfromv | .wtov | .wnot | .wmul | .wmov | .wdrop => isF t || isI t

end Sys2Proof.Machine
end

