-- ==== Sys2Proof/Machine/Layout.lean ====
section
/-! DEFINITION. Layout records, frames and the elements they locate (R95, R105, R106, R108, R109, R222 to R224). -/

namespace Sys2Proof.Machine

/-! ### Records (R222) -/

/-- A signed 32-bit field. -/
def signed32 (x : Nat) : Int := if x < 2 ^ 31 then (x : Int) else (x : Int) - 2 ^ 32

/-- Type code, mx, view and mapping of a record. -/
def recType (r : BitVec 256) : Nat := field r.toNat 64 4
/-- The mx bit. -/
def recMx (r : BitVec 256) : Bool := r.getLsbD 68
/-- The view bit. -/
def recView (r : BitVec 256) : Bool := r.getLsbD 69
/-- The view mapping: 0 offset, 1 transpose, 2 reshape. -/
def recMap (r : BitVec 256) : Nat := field r.toNat 70 2
/-- The frame's address over 16; 0 for none. -/
def recFrame (r : BitVec 256) : Nat := field r.toNat 80 16
/-- J. -/
def recRows (r : BitVec 256) : Nat := field r.toNat 96 32
/-- K. -/
def recCols (r : BitVec 256) : Nat := field r.toNat 128 32
/-- The row stride, or K2 of a reshape view. -/
def recSj (r : BitVec 256) : Nat := field r.toNat 160 32
/-- The column stride. -/
def recSi (r : BitVec 256) : Nat := field r.toNat 192 32
/-- The storage record's address over 16. -/
def recNext (r : BitVec 256) : Nat := field r.toNat 224 16
/-- The base of a storage record. -/
def recBase (r : BitVec 256) : Nat := field r.toNat 0 64
/-- oj and oi of a view record. -/
def recOj (r : BitVec 256) : Int := signed32 (field r.toNat 0 32)
/-- oi. -/
def recOi (r : BitVec 256) : Int := signed32 (field r.toNat 32 32)

/-- An extent from 1 to 2^24. -/
def extentOk (x : Nat) : Bool := decide (1 ≤ x) && decide (x ≤ 2 ^ 24)

/-- What every record must have. -/
def recCommonOk (r : BitVec 256) : Bool :=
  field r.toNat 72 8 == 0 && field r.toNat 240 16 == 0 && extentOk (recRows r) && extentOk (recCols r)

/-- A valid storage record. -/
def storageOk (r : BitVec 256) : Bool :=
  recCommonOk r && !recView r && recMap r == 0 && recNext r == 0 && field r.toNat 48 16 == 0 &&
    (match ETy.ofCode (recType r) with
     | none => false
     | some t =>
       if recMx r then (isMxOnly t || t == .e5m2 || t == .e4m3) && recSi r == 0 else !isMxOnly t)

/-- A valid view record, its storage record apart. -/
def viewOk (r : BitVec 256) : Bool :=
  recCommonOk r && recView r && recType r == 0 && !recMx r && recMap r != 3 && recFrame r == 0 && recSi r == 0 &&
    (if recMap r == 2 then extentOk (recSj r) else recSj r == 0)

/-- The bytes of a record as a number of bits. -/
def recAt (m : Memory) (a n w : Nat) : BitVec w := BitVec.ofNat w (leNat (spadBytes m a n))

/-- The frame a storage record names: its bits, all zero for none, and whether it lies in range. -/
def frameAt (m : Memory) (r : BitVec 256) : BitVec 128 × Bool :=
  if recFrame r = 0 then (0, true)
  else if outOfRange (16 * recFrame r) 16 then (0, false)
  else (recAt m (16 * recFrame r) 16 128, true)

/-- Loading a layout register from an address with its low four bits ignored: the register, and whether a byte it reads
or would read lies out of range (R224). -/
def loadLayout (m : Memory) (addr : Nat) : LayoutReg × Bool :=
  let a := addr / 16 * 16
  if outOfRange a 32 then (.zero, true)
  else
    let r := recAt m a 32 256
    if storageOk r then
      let f := frameAt m r
      if f.2 then (⟨r, r, f.1⟩, false) else (.zero, true)
    else if viewOk r then
      if outOfRange (16 * recNext r) 32 then (.zero, true)
      else
        let st := recAt m (16 * recNext r) 32 256
        if storageOk st then
          let f := frameAt m st
          if f.2 then (⟨r, st, f.1⟩, false) else (.zero, true)
        else (.zero, false)
    else (.zero, false)

/-- The lowest out-of-range byte that loading a record reads or would read (R214). -/
def layoutOut (m : Memory) (addr : Nat) : Option Nat :=
  let a := addr / 16 * 16
  let frameOut (r : BitVec 256) : Option Nat := if recFrame r = 0 then none else firstOut (16 * recFrame r) 16
  match firstOut a 32 with
  | some x => some x
  | none =>
    let r := recAt m a 32 256
    if storageOk r then frameOut r
    else if viewOk r then
      match firstOut (16 * recNext r) 32 with
      | some x => some x
      | none =>
        let st := recAt m (16 * recNext r) 32 256
        if storageOk st then frameOut st else none
    else none

/-- Whether a layout register holds a valid record. -/
def LayoutReg.valid (l : LayoutReg) : Bool := l.first != 0

/-- The storage type. -/
def LayoutReg.ty (l : LayoutReg) : ETy := (ETy.ofCode (recType l.store)).getD .fp32

/-- Whether the storage is MX blocks. -/
def LayoutReg.mx (l : LayoutReg) : Bool := recMx l.store

/-! ### Locating elements (R223) -/

/-- The pair the storage record receives for a pair given to the first record; none when out of shape. -/
def LayoutReg.pair (l : LayoutReg) (j i : Nat) : Option (Nat × Nat) :=
  if !l.valid || decide (recRows l.first ≤ j) || decide (recCols l.first ≤ i) then none
  else if recView l.first then
    let oj := recOj l.first
    let oi := recOi l.first
    let (sj, si) : Int × Int :=
      if recMap l.first = 0 then (oj + j, oi + i)
      else if recMap l.first = 1 then (oj + i, oi + j)
      else
        let m := j * recCols l.first + i
        (oj + (m / recSj l.first : Nat), oi + (m % recSj l.first : Nat))
    if 0 ≤ sj ∧ sj < (recRows l.store : Int) ∧ 0 ≤ si ∧ si < (recCols l.store : Int) then some (sj.toNat, si.toNat)
    else none
  else some (j, i)

/-- The pair of the element at a linear index. -/
def LayoutReg.pairAt (l : LayoutReg) (n : Nat) : Option (Nat × Nat) :=
  let k := recCols l.first
  if k = 0 then none else l.pair (n / k) (n % k)

/-- The address of an element, or of its block, modulo 2^64. -/
def LayoutReg.addr (l : LayoutReg) (p : Nat × Nat) : Nat :=
  let base : Int := recBase l.store
  let row := base + p.1 * signed32 (recSj l.store)
  let x := if l.mx then row + (p.2 / 32 * blockBytes l.ty : Nat) else row + p.2 * signed32 (recSi l.store)
  (x % 2 ^ 64).toNat

/-- The dither offset that a frame gives a storage pair: none for a plain frame (R101, R102, R109). -/
def LayoutReg.frameOffset (l : LayoutReg) (p : Nat × Nat) : Option Offset :=
  let f := l.frame.toNat
  let tag := field f 64 16
  if tag = 0 then none
  else some (offsetOf (cgNat (field f 0 32) (field f 32 32) (field f 80 24 + p.2) (field f 104 24 + p.1) tag 0xFFFFFFFF))

/-- The dither offset of a stored element: only e5m2, e4m3 and block codes are dithered (R101). -/
def LayoutReg.offset (l : LayoutReg) (p : Nat × Nat) : Option Offset :=
  if l.mx || l.ty == .e5m2 || l.ty == .e4m3 then l.frameOffset p else none

/-- The dither coordinates and the frame's key and tag, to compare two sides of a copy (R271). -/
def LayoutReg.identity (l : LayoutReg) (p : Nat × Nat) : Nat × Nat × Nat × Nat :=
  let f := l.frame.toNat
  (field f 0 64, field f 64 16, (field f 80 24 + p.2) % 2 ^ 32, (field f 104 24 + p.1) % 2 ^ 32)

/-! ### Blocks (R95) -/

/-- The code at a position of a block's bytes. -/
def blockCode (t : ETy) (bytes : List Byte) (pos : Nat) : Nat := field (leNat bytes) (blockBits t * pos) (blockBits t)

/-- The scale byte of a block. -/
def blockScale (t : ETy) (bytes : List Byte) : Nat := (bytes.getD (4 * blockBits t) 0).toNat

/-- The spare byte of an mx-e2m1 block. -/
def blockSpare (bytes : List Byte) : Nat := (bytes.getD 17 0).toNat

/-- The bytes of a block from its codes, scale and spare. -/
def blockOf (t : ETy) (codes : List Nat) (scale spare : Nat) : List Byte :=
  let x := (codes.zipIdx.map fun (c, i) => (c % 2 ^ blockBits t) * 2 ^ (blockBits t * i)).sum
  leBytes x (4 * blockBits t) ++ [BitVec.ofNat 8 scale] ++ (if t == .e2m1 then [BitVec.ofNat 8 spare] else [])

/-- Bytes of one stored element or block. -/
def LayoutReg.size (l : LayoutReg) : Nat := if l.mx then blockBytes l.ty else width l.ty / 8

/-- An element as memory holds it. -/
structure Stored where
  code : Nat
  scale : Nat
  spare : Nat
  deriving DecidableEq, Repr

/-- The element at a storage pair, from the bytes of its element or block. -/
def LayoutReg.stored (l : LayoutReg) (p : Nat × Nat) (bytes : List Byte) : Stored :=
  if l.mx then ⟨blockCode l.ty bytes (p.2 % 32), blockScale l.ty bytes, blockSpare bytes⟩
  else ⟨leNat bytes, 127, 0⟩

/-- The value of a stored element through its frame (R98, R105, R106). -/
def LayoutReg.value (l : LayoutReg) (p : Nat × Nat) (x : Stored) : FVal :=
  if l.mx then mxDecode l.ty x.code x.scale x.spare (l.offset p)
  else readDithered l.ty x.code (l.offset p)

/-- The value at a storage pair in a scratchpad, with the address it offers to oob (R214, R225). -/
def LayoutReg.readSpad (l : LayoutReg) (m : Memory) (p : Nat × Nat) : FVal × Option Nat :=
  let a := l.addr p
  let n := l.size
  let offer := if l.mx then firstOut a n else if outOfRange a n then some a else none
  (l.value p (l.stored p (spadBytes m a n)), offer)

end Sys2Proof.Machine
end

