-- ==== Sys2Proof/Machine/Vector.lean ====
section
/-! DEFINITION. Vector words in flight: what a lane or vector memory word reads in each slot and what lands (R119 to R121,
R145, R146, R153, R192, R213 to R226). -/

namespace Sys2Proof.Machine

/-- When something lands: the scc, the folio cycle, the folio cycle of issue and the word (R116, R214). -/
structure Stamp where
  now : Nat
  x : Nat
  c0 : Nat
  seq : Nat
  word : BitVec 15
  deriving DecidableEq, Repr

/-- Flags landing on a core. -/
def Core.raiseAt (c : Core) (t : Stamp) (hits : List FlagHit) : Core := c.raise t.now t.c0 t.seq t.word hits

/-- Offers to oob, each an element index and an address. -/
def Core.offerAll (c : Core) (t : Stamp) : List (Nat × Nat) → Core
  | [] => c
  | (e, a) :: r => (c.offer t.x t.c0 e (BitVec.ofNat 64 a)).offerAll t r

/-- A vector register with codes written by element. -/
def writeElems (x : VecBits) (w : Nat) : List (Nat × Nat) → VecBits
  | [] => x
  | (e, c) :: r => writeElems (if e < 16384 / w then setElem x w e c else x) w r

/-- A weight register with codes written by position. -/
def writeWeights (x : WeightBits) : List (Nat × Nat) → WeightBits
  | [] => x
  | (p, c) :: r => writeWeights (if p < 2048 then setElem x 16 p c else x) r

/-! ### Lane words -/

/-- Guard and weight positions of a slot. -/
def slotPositions (t : ETy) (len k : Nat) : Nat × Nat :=
  if t == .e2m1 then (k * (len / 2), len / 2) else (k * len, len)

/-- Samples the guard weights of a slot (R153). -/
def sampleGuard (c : Core) (cap : Cap) (len k : Nat) (sm : Samples) : Samples :=
  let p := slotPositions cap.ty len k
  { sm with g := copyElems sm.g (c.getW cap.guard) 16 p.1 p.2 }

/-- Whether a source register is read only with group 0, and held (R139, R197). -/
def heldA : LaneOp → Bool
  | .wdrop => true
  | _ => false
/-- The same for vb. -/
def heldB : LaneOp → Bool
  | .rng => true
  | _ => false

/-- Whether vb is a source: `vcomp` only writes it (R143). -/
def readsB : LaneOp → Bool
  | .comp => false
  | _ => true

/-- What slot `k` of a lane word reads (R120, R153, R192). The boundaries of `vsegsum` and `vsegred` are weights that a lane word
reads as it does its guard, slot `g` at c+6+g (log 105). -/
def laneSample (c : Core) (cap : Cap) (l : Lane) (k : Nat) (sm : Samples) : Samples :=
  let w := width cap.ty
  let len := slotLen cap.ty l.op
  let take (held : Bool) (old : VecBits) (r : Option VReg) : VecBits :=
    match r with
    | none => old
    | some r => if held && k != 0 then old else copyElems old c.v[r] w (k * len) len
  let p := slotPositions cap.ty len k
  let weigh (old : WeightBits) (r : Option WReg) : WeightBits :=
    match r with
    | none => old
    | some r => copyElems old (c.getW r) 16 p.1 p.2
  let sm := sampleGuard c cap len k sm
  { sm with
    a := take (heldA l.op) sm.a l.a
    b := take (heldB l.op) sm.b l.b
    d := take false sm.d l.d
    wa := weigh sm.wa l.wa
    wb := weigh sm.wb l.wb }

/-- The width of what a lane word writes into a vector destination. -/
def destWidth (t : ETy) : LaneOp → Nat
  | .cvt u => width u
  | _ => width t

/-- What lands in slot `k` of a lane word, on its core (R119, R121, R122). -/
def laneLand (t : Stamp) (cap : Cap) (l : Lane) (sm : Samples) (k : Nat) (c : Core) : Core :=
  let out := laneResult cap l sm k
  let c :=
    match l.dst with
    | .v r => c.setV r (writeElems c.v[r] (destWidth cap.ty l.op) out.main)
    | .w r => c.setW r (writeWeights (c.getW r) out.main)
    | .s r => c.setS r (BitVec.ofNat 64 ((out.main.headD (0, 0)).2))
  let c :=
    match l.op, l.b, out.second with
    | .bacc, some r, x :: xs => c.setV r (writeElems c.v[r] (width cap.ty) (x :: xs))
    | .comp, some r, x :: xs => c.setV r (writeElems c.v[r] 32 (x :: xs))
    | _, _, _ => c
  c.raiseAt t out.hits

/-! ### Own-scratchpad vector memory (R218 to R226) -/

/-- Whether addressing takes 32 elements a slot. -/
def VMode.indexed? : VMode → Option VReg
  | .indexed r => some r
  | _ => none

/-- Elements of one slot (R219). -/
def vmemLen (t : ETy) (x : VMode) : Nat := if x.indexed?.isSome then 32 else epg t

/-- Body length (R218). -/
def vmemBody (cap : Cap) (x : VMode) : Nat :=
  let n := min cap.vl (vlmax cap.ty)
  if x.indexed?.isSome then min n 512 else n

/-- The address of element `e` of `b` bytes, modulo 2^64 (R218); `idx` holds the indices. -/
def vmemAddr (base : DWord) (x : VMode) (b : Nat) (idx : VecBits) (e : Nat) : Nat :=
  match x with
  | .unit => (base.toNat + e * b) % 2 ^ 64
  | .strided st => (base.toNat + e * st.toNat) % 2 ^ 64
  | .indexed _ => (base.toNat + elem idx 32 e) % 2 ^ 64

/-- Active elements of slot `k`. -/
def vmemActive (cap : Cap) (x : VMode) (g : WeightBits) (k : Nat) : List Nat :=
  let len := vmemLen cap.ty x
  ((List.range len).map (· + k * len)).filter (active cap (vmemBody cap x) g)

/-- Codes read by elements from memory. -/
def readCodes (m : Memory) (b : Nat) (addr : Nat → Nat) (es : List Nat) : List (Nat × Nat) :=
  es.map fun e => (e, leNat (spadBytes m (addr e) b))

/-- The out-of-range elements among some, with their addresses (R214). -/
def offersOf (b : Nat) (addr : Nat → Nat) (es : List Nat) : List (Nat × Nat) :=
  (es.filter fun e => outOfRange (addr e) b).map fun e => (e, addr e)

/-- The element at a linear index through a layout register, rounded into T: code, flags and the offer (R225). -/
def qloadElem (cap : Cap) (l : LayoutReg) (m : Memory) (n : Nat) : Rounded × Option Nat :=
  match l.pairAt n with
  | none => ((0, {}), none)
  | some p =>
    let v := l.readSpad m p
    (rnV cap.ty cap.rnd v.1, v.2)

/-- What slot `k` of a vector memory word reads, and what it offers to oob (R219, R221, R225). -/
def vmemSample (c : Core) (cap : Cap) (kind : VMemKind) (d : VReg) (base : DWord) (x : VMode) (k : Nat) (sm : Samples) :
    Samples × List (Nat × Nat) :=
  let w := width cap.ty
  let b := w / 8
  let len := vmemLen cap.ty x
  let sm := sampleGuard c cap len k sm
  let sm := match x with
    | .indexed r => { sm with b := copyElems sm.b c.v[r] 32 (32 * k) 32 }
    | _ => sm
  let es := vmemActive cap x sm.g k
  let addr := vmemAddr base x b sm.b
  let taken := { sm with d := copyElems sm.d c.v[d] w (k * len) len }
  match kind with
  | .load => ({ sm with mem := writeElems sm.mem w (readCodes c.spad b addr es) }, offersOf b addr es)
  | .store => (taken, [])
  | .blend kr =>
    let p := slotPositions cap.ty len k
    ({ taken with wb := copyElems sm.wb (c.getW kr) 16 p.1 p.2, mem := writeElems sm.mem w (readCodes c.spad b addr es) },
      offersOf b addr es)
  | .qstore _ => (taken, [])
  | .qload l =>
    let rs := es.map fun e => (e, qloadElem cap l c.spad (base.toNat + e))
    ({ sm with
        mem := writeElems sm.mem w (rs.map fun r => (r.1, r.2.1.1))
        hits := sm.hits ++ rs.flatMap fun r => (hitsAt r.2.1.2 r.1).map fun h => (k, h) },
      rs.filterMap fun r => r.2.2.map fun a => (r.1, a))

/-- Stores codes of `b` bytes in ascending element order (R220). -/
def storeCodes (m : Memory) (b : Nat) : List (Nat × Nat) → Memory
  | [] => m
  | (a, c) :: r => storeCodes (spadStore m a (leBytes c b)) b r

/-- One element of `vqst` outside blocks (R225): the code stored. -/
def qstoreCode (cap : Cap) (l : LayoutReg) (p : Nat × Nat) (v : FVal) : Rounded :=
  match l.offset p with
  | some d => dstore l.ty cap.rnd d v
  | none => convV l.ty cap.rnd v

/-- The block a storage pair lies in. -/
def blockKey (p : Nat × Nat) : Nat × Nat := (p.1, p.2 / 32)

/-- The blocks of a body that land in slot `k`: those whose last body element falls in it (R226), in the order of those elements, by
which the later of two that share bytes wins (log 129). -/
def blocksOf (l : LayoutReg) (base n len k : Nat) : List (Nat × Nat) :=
  let keys := (List.range n).filterMap fun e => (l.pairAt (base + e)).map fun p => (e, blockKey p)
  ((keys.filter fun x => x.1 / len == k && !(keys.any fun y => y.2 == x.2 && decide (x.1 < y.1))).map (·.2))

/-- One block of `vqst`: its address, its bytes and its flags by element, or none with no active element (R226). -/
def encodeBlock (cap : Cap) (l : LayoutReg) (base n : Nat) (sm : Samples) (key : Nat × Nat) :
    Option (Nat × Nat × List Byte × List FlagHit) :=
  let es := (List.range n).filter fun e =>
    active cap n sm.g e && (match l.pairAt (base + e) with | some p => blockKey p == key | none => false)
  match es with
  | [] => none
  | e0 :: _ =>
    let at_ (i : Nat) : Option Nat :=
      es.reverse.find? fun e => match l.pairAt (base + e) with | some p => p.2 % 32 == i | none => false
    let xs := (List.range 32).map fun i => (at_ i).map fun e => decF cap.ty (elem sm.d (width cap.ty) e)
    let b := mxEncode l.ty cap.rnd xs fun i => l.offset (key.1, 32 * key.2 + i)
    let hits := (List.range 32).flatMap fun i =>
      match at_ i with
      | some e => hitsAt (b.flags.getD i {}) e
      | none => []
    some (e0, l.addr (key.1, 32 * key.2), blockOf l.ty b.codes b.scale b.spare, hits)

/-- The layout record of `vqst` or `vldq` when it is not valid: how many cycles after slot 0 lands the last slot is read (R225). -/
def VMemKind.unusable : VMemKind → Option Nat
  | .qstore l => if l.valid then none else some 10
  | .qload l => if l.valid then none else some 5
  | _ => none

/-- What slot `k` of `vqst` lands: memory, flags and offers (R225, R226). -/
def qstoreLand (cap : Cap) (l : LayoutReg) (base : Nat) (sm : Samples) (k : Nat) (m : Memory) :
    Memory × List FlagHit × List (Nat × Nat) :=
  let n := min cap.vl (vlmax cap.ty)
  let w := width cap.ty
  let len := epg cap.ty
  if !l.valid then (m, [], [])
  else if l.mx then
    let bs := (blocksOf l base n len k).filterMap (encodeBlock cap l base n sm)
    (bs.foldl (fun m b => spadStore m b.2.1 b.2.2.1) m, bs.flatMap (·.2.2.2),
      bs.filterMap fun b => (firstOut b.2.1 b.2.2.1.length).map fun a => (b.1, a))
  else
    let es := ((List.range len).map (· + k * len)).filter (active cap n sm.g)
    let rs : List (Nat × Nat × Rounded) := es.filterMap fun e =>
      (l.pairAt (base + e)).map fun p => (e, l.addr p, qstoreCode cap l p (decF cap.ty (elem sm.d w e)))
    let b := l.size
    (storeCodes m b (rs.map fun r => (r.2.1, r.2.2.1)), rs.flatMap (fun r => hitsAt r.2.2.2 r.1),
      (rs.filter fun r => outOfRange r.2.1 b).map fun r => (r.1, r.2.1))

/-- One element of `vstw` (R221). -/
def blendStore (cap : Cap) (w old x : Nat) : Rounded :=
  if w = 0 then (canonC cap.ty old, {})
  else if w = 0x8000 then (canonC cap.ty x, {})
  else mixC cap.ty cap.rnd w x old

/-- What slot `k` of a vector memory word lands on its core (R219 to R226). -/
def vmemLand (t : Stamp) (cap : Cap) (kind : VMemKind) (d : VReg) (base : DWord) (x : VMode) (sm : Samples) (k : Nat)
    (c : Core) : Core :=
  let w := width cap.ty
  let b := w / 8
  let es := vmemActive cap x sm.g k
  let addr := vmemAddr base x b sm.b
  match kind with
  | .load => c.setV d (writeElems c.v[d] w (es.map fun e => (e, elem sm.mem w e)))
  | .qload _ =>
    let c := c.setV d (writeElems c.v[d] w (es.map fun e => (e, elem sm.mem w e)))
    c.raiseAt t ((sm.hits.filter fun h => h.1 == k).map (·.2))
  | .store =>
    let c := { c with spad := storeCodes c.spad b (es.map fun e => (addr e, elem sm.d w e)) }
    c.offerAll t (offersOf b addr es)
  | .blend _ =>
    let rs : List (Nat × Rounded) := es.map fun e => (e, blendStore cap (weightAt sm.wb (weightPos cap.ty e)) (elem sm.mem w e) (elem sm.d w e))
    let c := { c with spad := storeCodes c.spad b (rs.map fun (r : Nat × Rounded) => (addr r.1, r.2.1)) }
    c.raiseAt t (rs.flatMap fun (r : Nat × Rounded) => hitsAt r.2.2 r.1)
  | .qstore l =>
    let r := qstoreLand cap l base.toNat sm k c.spad
    (({ c with spad := r.1 }).raiseAt t r.2.1).offerAll t r.2.2

/-- Cycles from issue to the landing of slot 0 (R219, R221, R225). -/
def vmemBase : VMemKind → Nat
  | .load => 14 | .store => 8 | .blend _ => 10 | .qstore _ => 11 | .qload _ => 16

/-! ### Tables (R145, R146) -/

/-- The number of knots of a table header held in bits 127:0. -/
def tableKnots (x : VecBits) : Nat := field x.toNat 48 16

/-- A valid header (R145). -/
def headerOk (x : VecBits) : Bool :=
  (match decF .fp32 (field x.toNat 0 32) with | .fin .. => true | _ => false) &&
    field x.toNat 42 6 == 0 && field x.toNat 64 64 == 0 && decide (2 ≤ tableKnots x) && decide (tableKnots x ≤ 257)

/-- What `vtld` reads in its cycle `r` after issue, from 1 to 3, and the lowest out-of-range byte it touches (R146). -/
def vtldSample (m : Memory) (addr : DWord) (r : Nat) (sm : Samples) : Samples × Option Nat :=
  let a := addr.toNat / 16 * 16
  if r = 1 then ({ sm with mem := BitVec.ofNat 16384 (leNat (spadBytes m a 16)) }, firstOut a 16)
  else if headerOk sm.mem then
    let lo := if r = 2 then 0 else 128
    let hi := if r = 2 then min 128 (tableKnots sm.mem) else tableKnots sm.mem
    let off := a + 16 + 4 * lo
    let len := 4 * (hi - lo)
    ({ sm with mem := sm.mem ||| BitVec.ofNat 16384 (leNat (spadBytes m off len)) <<< (128 + 32 * lo) }, firstOut off len)
  else (sm, none)

/-- The table a record gives, or none when it is invalid (R145). -/
def tableOf (x : VecBits) : Option Table :=
  let n := tableKnots x
  let ys := (List.range n).map fun i => BitVec.ofNat 32 (field x.toNat (128 + 32 * i) 32)
  if headerOk x && ys.all (fun y => match decF .fp32 y.toNat with | .fin .. => true | _ => false) then
    some ⟨BitVec.ofNat 32 (field x.toNat 0 32), BitVec.ofNat 8 (field x.toNat 32 8), BitVec.ofNat 2 (field x.toNat 40 2), ys⟩
  else none

end Sys2Proof.Machine
end

