-- ==== Sys2Proof/Machine/Matrix.lean ====
section
/-! DEFINITION. The matrix engine (R228 to R240): slices, steps, tile images and landings. -/

namespace Sys2Proof.Machine

/-! ### Tiles -/

/-- One row of a tile: 128 FP32 elements. -/
abbrev RowBits := BitVec 4096

/-- Row `m` of a tile. -/
def tileRow (t : TileBits) (m : Nat) : RowBits := t.extractLsb' (4096 * m) 4096

/-- A tile with one row replaced. -/
def setTileRow (t : TileBits) (m : Nat) (r : RowBits) : TileBits := if m < 128 then setElem t 4096 m r.toNat else t

/-- Element (m, n) of a tile. -/
def tileAt (t : TileBits) (m n : Nat) : Nat := elem t 32 (128 * m + n)

/-- A tile with element (m, n) replaced. -/
def setTileAt (t : TileBits) (m n c : Nat) : TileBits := setTileRow t m (setElem (tileRow t m) 32 n c)

/-- A row with its first columns replaced by codes. -/
def setRowCodes (r : RowBits) : Nat → List Nat → RowBits
  | _, [] => r
  | n, c :: cs => setRowCodes (setElem r 32 n c) (n + 1) cs

/-! ### Steps (R230, R233, R234) -/

/-- M and N. -/
def Shape.M (s : Shape) : Nat := s.m1.val + 1
/-- N. -/
def Shape.N (s : Shape) : Nat := s.n1.val + 1

/-- Slices per step: 1, 2 or 4 by the governing type (R234). -/
def slicesPerStep (t : ETy) : Nat :=
  match t with
  | .fp16 | .bf16 | .fp32 => 1
  | .e3m2 | .e2m3 | .e2m1 => 4
  | _ => 2

/-- The number of slices K (R233, R237). -/
def matK (cap : Cap) (op : MatOp) (s : Shape) : Nat :=
  match op with
  | .mgath .. => min cap.vl 128
  | _ => min cap.vl (vlmax cap.ty) / (if s.kb then s.N else s.M)

/-- The number of steps S (R234). -/
def matSteps (cap : Cap) (op : MatOp) (s : Shape) : Nat :=
  match op with
  | .mopa | .mopaq .. | .mgath .. => ceilDiv (matK cap op s) (slicesPerStep cap.ty)
  | .mscale => 8
  | .mtrn => 16
  | _ => 1

/-- Whether the steps fall on the product unit (R230). -/
def onProductUnit : MatOp → Bool
  | .mopa | .mopaq .. | .mgath .. | .mzero | .mtrn => true
  | _ => false

/-- Whether the write to tD accumulates (R231). -/
def accumulates : MatOp → Bool
  | .mopa | .mopaq .. | .mgath .. | .mscale => true
  | _ => false

/-- Whether the operation writes tile D. -/
def writesTile : MatOp → Bool
  | .mcolr _ | .mrowr _ => false
  | _ => true

/-- Groups that hold elements 0 to 127 of a type (R239). -/
def moveGroups (t : ETy) : Nat := ceilDiv 128 (epg t)

/-- The groups of each vector source that are read (R234). -/
def matReadGroups (cap : Cap) (op : MatOp) : Nat :=
  match op with
  | .mopa | .mopaq .. => 16
  | .mgath .. => 4
  | .mscale => 1
  | .mcolw _ | .mroww _ => moveGroups cap.ty
  | _ => 0

/-- The types an operation accepts (R234). -/
def matAccepts (t : ETy) : MatOp → Bool
  | .mopa => t == .fp16 || t == .bf16
  | .mopaq .. => t == .int8 || t == .n8 || t == .e5m2 || t == .e4m3 || isMxOnly t
  | .mgath .. => t == .fp16 || t == .bf16 || t == .e5m2 || t == .e4m3 || t == .int8 || t == .n8
  | .mscale | .mzero | .mtrn => true
  | _ => isWide t

/-- What a matrix word reads at cycle c+6+g (R230, R233, R239). -/
def matSample (c : Core) (cap : Cap) (op : MatOp) (a b : Option VReg) (g : Nat) (sm : Samples) : Samples :=
  let take (old : VecBits) (r : Option VReg) : VecBits :=
    match r with
    | none => old
    | some r => if g < matReadGroups cap op then copyElems old c.v[r] 1024 g 1 else old
  let sm := { sm with a := take sm.a a, b := take sm.b b }
  match op with
  | .mopa | .mopaq .. | .mgath .. => if g = 0 then { sm with g := c.getW cap.guard } else sm
  | .mcolr _ | .mcolw _ | .mrowr _ | .mroww _ => sampleGuard c cap (epg cap.ty) g sm
  | _ => sm

/-! ### Operands of products (R233, R235 to R237) -/

/-- An operand at a slice: none for a zero code (R111); the value, whether reading it is invalid, and the offer. -/
structure MatArg where
  val : Option FVal
  inv : Bool
  offer : Option Nat
  deriving DecidableEq, Repr

/-- A zero code. -/
def MatArg.zero : MatArg := ⟨none, false, none⟩

/-- An element of a register taken through a layout register (R236). -/
def mopaqArg (t : ETy) (m : Memory) (l : LayoutReg) (n e : Nat) (x : VecBits) : MatArg :=
  let c := codeOf t (elem x (width t) e)
  if n ≤ e then .zero
  else if l.valid && (l.pairAt e).isNone then .zero
  else if isZeroCode t c then .zero
  else if isI t then ⟨some (decV t c), false, none⟩
  else if t == .e2m1 && c == 8 then
    match l.pairAt e with
    | some p =>
      if l.mx && l.ty == .e2m1 then
        let a := (l.addr p + 17) % 2 ^ 64
        ⟨some (decF .e4m3 (spadRead m a).toNat), false, if a < spadSize then none else some a⟩
      else ⟨some .nan, true, none⟩
    | none => ⟨some .nan, true, none⟩
  else
    match l.pairAt e with
    | some p => ⟨some (readDithered t c (l.frameOffset p)), false, none⟩
    | none => ⟨some (decF t c), false, none⟩

/-- Whether `mgath` accepts an operand's storage (R237). -/
def gathOk (t : ETy) (l : LayoutReg) : Bool :=
  let eight := l.ty == .e5m2 || l.ty == .e4m3 || l.ty == .int8 || l.ty == .n8
  l.valid && !l.mx && (eight || (isWide t && (l.ty == .fp16 || l.ty == .bf16)))

/-- An element of a gathered operand at a storage pair (R237). -/
def gathArg (t : ETy) (m : Memory) (l : LayoutReg) (p : Option (Nat × Nat)) : MatArg :=
  if !gathOk t l then .zero
  else
    match p with
    | none => .zero
    | some p =>
      let a := l.addr p
      let c := leNat (spadBytes m a l.size)
      let offer := if outOfRange a l.size then some a else none
      if isZeroCode l.ty c then ⟨none, false, offer⟩
      else ⟨some (l.value p (l.stored p (spadBytes m a l.size))), false, offer⟩

/-- A[m] at slice `k`. -/
def matArgA (cap : Cap) (op : MatOp) (s : Shape) (m : Memory) (sm : Samples) (k r : Nat) : MatArg :=
  let n := min cap.vl (vlmax cap.ty)
  let e := k * s.M + r
  match op with
  | .mopa =>
    let c := elem sm.a (width cap.ty) e
    if n ≤ e || isZeroCode cap.ty c then .zero else ⟨some (decF cap.ty c), false, none⟩
  | .mopaq la _ => mopaqArg cap.ty m la n e sm.a
  | .mgath la _ => gathArg cap.ty m la (la.pairAt (elem sm.a 32 r * recCols la.first + k))
  | _ => .zero

/-- B[n] at slice `k`. -/
def matArgB (cap : Cap) (op : MatOp) (s : Shape) (m : Memory) (sm : Samples) (k j : Nat) : MatArg :=
  let n := min cap.vl (vlmax cap.ty)
  let e := k * s.N + j
  match op with
  | .mopa =>
    let c := elem sm.b (width cap.ty) e
    if n ≤ e || isZeroCode cap.ty c then .zero else ⟨some (decF cap.ty c), false, none⟩
  | .mopaq _ lb => mopaqArg cap.ty m lb n e sm.b
  | .mgath _ lb => gathArg cap.ty m lb (lb.pair k j)
  | _ => .zero

/-- The tile row that A[m] adds to (R235, R237). -/
def matRow (op : MatOp) (sm : Samples) (m : Nat) : Option Nat :=
  match op with
  | .mgath .. => let r := elem sm.b 32 m; if r < 128 then some r else none
  | _ => some m

/-- Whether slice `k` is active (R233). -/
def sliceActive (cap : Cap) (sm : Samples) (k : Nat) : Bool := admits cap sm.g k

/-- One element update of R235: the sum code and its flags. -/
def accumulate (old : Nat) (a b : MatArg) : Rounded :=
  let p : FVal × Bool :=
    match a.val, b.val with
    | some x, some y => mulV x y
    | _, _ => (.fin false 0 0, false)
  finish .fp32 .rne (addProd .rne p (decF .fp32 old))

/-- One row of a slice. -/
def accRow (row : RowBits) (a : MatArg) (bs : List MatArg) : RowBits × Flags :=
  let rs := bs.zipIdx.map fun (b, n) => accumulate (elem row 32 n) a b
  (setRowCodes row 0 (rs.map (·.1)), rs.foldl (fun f r => f.or r.2) {})

/-- The rows of a slice, in ascending m. -/
def accRows (t : TileBits) (bs : List MatArg) : List (Option Nat × MatArg) → TileBits × Flags
  | [] => (t, {})
  | (none, _) :: r => accRows t bs r
  | (some m, a) :: r =>
    let x := accRow (tileRow t m) a bs
    let rest := accRows (setTileRow t m x.1) bs r
    (rest.1, x.2.or rest.2)

/-- What a slice adds: the operands and rows, with the flags and offers of reading them. -/
structure Slice where
  k : Nat
  rows : List (Option Nat × MatArg)
  bs : List MatArg
  deriving DecidableEq, Repr

/-- The active slices of step `st` (R233, R235). An element of A whose row number is 128 or more is read like the others, and
adds nothing (log 83). -/
def stepSlices (cap : Cap) (op : MatOp) (s : Shape) (m : Memory) (sm : Samples) (st : Nat) : List Slice :=
  let r := slicesPerStep cap.ty
  let ks := ((List.range r).map (· + st * r)).filter fun k => decide (k < matK cap op s) && sliceActive cap sm k
  ks.map fun k =>
    { k := k
      rows := (List.range s.M).map fun i => (matRow op sm i, matArgA cap op s m sm k i)
      bs := (List.range s.N).map fun j => matArgB cap op s m sm k j }

/-- Adds slices to a tile, with flags by slice. A code that reads as NaN with invalid (R236) raises it also where every product it
enters is skipped (log 128). -/
def addSlices (t : TileBits) : List Slice → TileBits × List FlagHit
  | [] => (t, [])
  | x :: r =>
    let y := accRows t x.bs x.rows
    let inv := x.rows.any (fun a => a.2.inv) || x.bs.any (·.inv)
    let rest := addSlices y.1 r
    (rest.1, hitsAt (y.2.or { inv := inv }) x.k ++ rest.2)

/-- The offers of a step's operand reads, with the index by which R214 orders them: the element index of a `mopaq` operand;
for `mgath`, whose operands share no index, the slice, A in ascending m before B in ascending n. Offers of one index go by slice,
A before B (log 83). -/
def sliceOffers (op : MatOp) (s : Shape) (xs : List Slice) : List (Nat × Nat) :=
  let at_ (k n i : Nat) : Nat := match op with | .mopaq .. => k * n + i | _ => k
  xs.flatMap fun x =>
    (x.rows.zipIdx.filterMap fun (a, i) => a.2.offer.map fun o => (at_ x.k s.M i, o)) ++
      (x.bs.zipIdx.filterMap fun (b, i) => b.offer.map fun o => (at_ x.k s.N i, o))

/-- One row of `mscale` (R238). -/
def scaleRow (row p : RowBits) (sa : Nat) (sb : List Nat) : RowBits × Flags :=
  let rs := sb.zipIdx.map fun (b, n) =>
    if sa = 0xFF ∨ b = 0xFF then (nanCode .fp32, ({ inv := true } : Flags))
    else
      let x : FVal :=
        match decF .fp32 (elem p 32 n) with
        | .fin g m e => .fin g m (e + sa + b - 254)
        | v => v
      finish .fp32 .rne (addV .rne (decF .fp32 (elem row 32 n)) x)
  (setRowCodes row 0 (rs.map (·.1)), rs.foldl (fun f r => f.or r.2) {})

/-- The rows of one step of `mscale`: rows 16s to 16s+15, below M. -/
def scaleRows (s : Shape) (sm : Samples) (p : TileBits) : List Nat → TileBits → TileBits × List FlagHit
  | [], t => (t, [])
  | m :: r, t =>
    let x := scaleRow (tileRow t m) (tileRow p m) (elem sm.a 8 m) ((List.range s.N).map fun n => elem sm.b 8 n)
    let rest := scaleRows s sm p r (setTileRow t m x.1)
    (rest.1, hitsAt x.2 m ++ rest.2)

/-- The rows of step `st` of `mscale`. -/
def scaleStepRows (s : Shape) (st : Nat) : List Nat := ((List.range 16).map (· + 16 * st)).filter fun m => decide (m < s.M)

/-- A tile with the M × N part of its first rows drained (R238). -/
def drainTile (s : Shape) (rows : Nat) (t : TileBits) : TileBits :=
  ((List.range (min rows s.M))).foldl (fun t m => setTileRow t m (setRowCodes (tileRow t m) 0 (List.replicate s.N 0))) t

/-- Rows of the transposed tile, the first `rows` of them (R240). -/
def transposeRows (src : TileBits) (rows : Nat) (t : TileBits) : TileBits :=
  (List.range (min rows 128)).foldl
    (fun t m => setTileRow t m (setRowCodes 0 0 ((List.range 128).map fun n => tileAt src n m))) t

/-- The move words' elements: 128 positions, active in the body (R239). -/
def moveActive (cap : Cap) (sm : Samples) (m : Nat) : Bool := decide (m < 128) && active cap (min cap.vl (vlmax cap.ty)) sm.g m

/-- Group `g` of `mcolr` or `mrowr`: codes by element and flags (R239). -/
def moveOut (cap : Cap) (row : Bool) (x : Nat) (img : TileBits) (sm : Samples) (g : Nat) : List (Nat × Nat) × List FlagHit :=
  let len := epg cap.ty
  let es := ((List.range len).map (· + g * len)).filter (moveActive cap sm)
  let rs : List (Nat × Rounded) := es.map fun m =>
    (m, if 128 ≤ x then (0, {})
        else rnV cap.ty cap.rnd (decF .fp32 (if row then tileAt img x m else tileAt img m x)))
  (rs.map fun r => (r.1, r.2.1), rs.flatMap fun r => hitsAt r.2.2 r.1)

/-- `mcolw` and `mroww` (R239). -/
def moveIn (cap : Cap) (row : Bool) (x : Nat) (sm : Samples) (t : TileBits) : TileBits :=
  if 128 ≤ x then t
  else
    ((List.range 128).filter (moveActive cap sm)).foldl
      (fun t m =>
        let c := (rnV .fp32 .rne (decF cap.ty (elem sm.a (width cap.ty) m))).1
        if row then setTileAt t x m c else setTileAt t m x c) t

/-- Cycles from issue to the effect on the tile (R230, R234). -/
def matReady (cap : Cap) (op : MatOp) (s : Shape) : Nat := 33 + matSteps cap op s

end Sys2Proof.Machine
end

