-- ==== Sys2Proof/Machine/Press.lean ====
section
/-! DEFINITION. The Press (R280 to R288, R399, R400): cards, beats and their cycles, keys and gate weights, dispatch and
combine. -/

namespace Sys2Proof.Machine

/-! ### Cards (R280) -/

/-- The fields of a press card. -/
structure Card where
  E : Nat
  k : Nat
  stype : ETy
  xtype : ETy
  ytype : ETy
  otype : ETy
  H : Nat
  C : Nat
  P : Nat
  core0 : Nat
  win : Nat
  tagb : Nat
  out : Nat
  sel : Nat
  tok0 : Nat
  key : Nat
  tag : Nat
  deriving DecidableEq, Repr

/-- Bytes of an element. -/
def bytesOf (t : ETy) : Nat := width t / 8

/-- Bytes `lo` to `lo+n-1` of a card. -/
def cardBytes (x : BitVec 512) (lo n : Nat) : Nat := field x.toNat (8 * lo) (8 * n)

/-- The type a card's byte names, among those a field allows. -/
def cardType (x : BitVec 512) (at_ : Nat) (allowed : List ETy) : Option ETy :=
  (ETy.ofCode (cardBytes x at_ 1)).bind fun t => if allowed.contains t then some t else none

/-- The logical core that owns an expert, in the issuing core's die. -/
def Card.owner (c : Card) (id : CoreId) (e : Nat) : CoreId :=
  let i := c.core0 + e / c.P
  { id with cluster := i / 12, core := i % 12 }

/-- The fields of a card, or none when it is not valid in a quire. -/
def Card.parse (q : Extents) (id : CoreId) (x : BitVec 512) : Option Card := do
  let st ← cardType x 3 [.fp32, .fp16, .bf16]
  let xt ← cardType x 4 [.fp32, .fp16, .bf16, .e5m2, .e4m3]
  let yt ← cardType x 5 [.fp32, .bf16]
  let ot ← cardType x 6 [.fp32, .fp16, .bf16]
  let c : Card := ⟨cardBytes x 0 2, cardBytes x 2 1, st, xt, yt, ot, cardBytes x 8 2, cardBytes x 10 2, cardBytes x 12 1,
    cardBytes x 13 1, cardBytes x 16 4, cardBytes x 20 4, cardBytes x 24 4, cardBytes x 28 4, cardBytes x 32 4,
    cardBytes x 36 8, cardBytes x 44 2⟩
  let fieldsOk := decide (1 ≤ c.E ∧ c.E ≤ 256 ∧ 1 ≤ c.k ∧ c.k ≤ 8 ∧ c.k ≤ c.E ∧ 1 ≤ c.H ∧ c.H ≤ 4096 ∧ 1 ≤ c.C ∧ c.C ≤ 1024 ∧
    1 ≤ c.P ∧ c.tok0 < 2 ^ 24) && cardBytes x 7 1 == 0 && cardBytes x 14 2 == 0 && cardBytes x 46 18 == 0
  let ownersOk := (List.range c.E).all fun e => inQuire q (c.owner id e)
  let rows := c.P * c.C
  let placesOk := decide (c.win + rows * c.H * bytesOf c.xtype ≤ spadSize ∧ c.tagb + rows * 8 ≤ spadSize ∧
    c.out + rows * c.H * bytesOf c.ytype ≤ spadSize)
  if fieldsOk && ownersOk && placesOk then some c else none

/-- The place of slot `j` of expert `e` in its owner's arrays. -/
def Card.place (c : Card) (e j : Nat) : Nat := e % c.P * c.C + j

/-- The dither offset of element (row, column) of a window, by the card's frame. -/
def Card.offset (c : Card) (row col : Nat) : Option Offset :=
  if c.tag = 0 ∨ ¬(c.xtype = .e5m2 ∨ c.xtype = .e4m3) then none
  else some (offsetOf (cgNat (c.key % 2 ^ 32) (c.key / 2 ^ 32) (col % 2 ^ 32) (row % 2 ^ 32) c.tag 0xFFFFFFFF))

/-! ### What governs a Press word (R281, R282, R399) -/

/-- The card a word is governed by and its token count, or none when it does no work: no valid card, or n above 1024. -/
def Press.govern (p : Press) (q : Extents) (id : CoreId) : Option (Card × Nat) :=
  match p.card.bind (Card.parse q id) with
  | none => none
  | some c => if p.sb.toNat ≤ 1024 then some (c, p.sb.toNat) else none

/-- b of R283. -/
def Card.bits (c : Card) : Nat := ceilLog2 c.E
/-- Bl: logit beats. -/
def Card.bl (c : Card) (n : Nat) : Nat := ceilDiv (2 * n * c.E) 512
/-- Bs: entry beats. -/
def Card.bs (c : Card) (n : Nat) : Nat := ceilDiv (8 * n * c.k) 512
/-- Elements of a dispatch beat: as many as the wider of the two types fits into 512 bytes, read and landed alike (R286, log 111). -/
def Card.perBeat (c : Card) : Nat := 512 / max (bytesOf c.stype) (bytesOf c.xtype)
/-- Br. -/
def Card.br (c : Card) : Nat := ceilDiv (c.H * max (bytesOf c.stype) (bytesOf c.xtype)) 512
/-- Bo. -/
def Card.bo (c : Card) : Nat := ceilDiv (c.H * bytesOf c.ytype) 512
/-- Bc. -/
def Card.bc (c : Card) : Nat := ceilDiv (c.H * bytesOf c.otype) 512
/-- Rc. -/
def Card.rc (c : Card) : Nat := max (c.k * c.bo) c.bc
/-- Row beats of a clear, and all its beats (R282). -/
def Card.clearRows (c : Card) : Nat := ceilDiv (c.P * c.C * c.H * bytesOf c.xtype) 512
/-- Clear beats. -/
def Card.clearBeats (c : Card) : Nat := c.clearRows + ceilDiv (c.P * c.C * 8) 512

/-- The last cycle of a Press word after its issue (R399). -/
def Press.last (p : Press) (g : Option (Card × Nat)) : Nat :=
  match p.op, g with
  | .card, _ => 8
  | .sel, none => 46
  | .sel, some (c, n) => 46 + c.bl n + c.bits + max (c.bs n) 1 - 1
  | .disp, none => 88
  | .disp, some (c, n) => 8 + n * c.k * c.br + 80
  | .comb, none => 92
  | .comb, some (c, n) => 92 + n * c.rc + max c.bc 1 - 1

/-! ### Clear beats (R282) -/

/-- What clear beat `k` writes in each owner: its address and bytes. -/
def Card.clearBeat (c : Card) (k : Nat) : Nat × List Byte :=
  if k < c.clearRows then
    (c.win + 512 * k, List.replicate (min 512 (c.P * c.C * c.H * bytesOf c.xtype - 512 * k)) 0)
  else
    let j := k - c.clearRows
    (c.tagb + 512 * j, List.replicate (min 512 (c.P * c.C * 8 - 512 * j)) 0xFF)

/-- The owners of a card's experts, each once. -/
def Card.owners (c : Card) (id : CoreId) : List CoreId :=
  (List.range (ceilDiv c.E c.P)).map fun i => c.owner id (i * c.P)

/-! ### Selection (R283 to R285) -/

/-- The 16-bit key of a BF16 logit (R283). -/
def logitKey (l : Nat) : Nat :=
  if decF .bf16 l == .nan then 0
  else if l = 0x8000 ∨ l = 0 then 0x8000
  else if l < 0x8000 then l + 0x8000
  else 0xFFFF - l

/-- The composite key of expert `e`. -/
def Card.composite (c : Card) (l e : Nat) : Nat := logitKey l * 2 ^ c.bits + (2 ^ c.bits - 1 - e)

/-- The place of an expert with its composite in a list kept in falling order. -/
def insertKey (x : Nat × Nat) : List (Nat × Nat) → List (Nat × Nat)
  | [] => [x]
  | y :: r => if y.2 < x.2 then x :: y :: r else y :: insertKey x r

/-- The chosen experts of a row of logits, slot by slot: the search of R283 takes the k largest composites, and slot s
holds the (s+1)-th of them. -/
def Card.chosen (c : Card) (ls : List Nat) : List Nat :=
  let all := (ls.zipIdx.map fun (l, e) => (e, c.composite l e)).foldl (fun acc x => insertKey x acc) []
  (all.take c.k).map (·.1)

/-- exp of a difference that is not above zero, as a correctly rounded fp32 value (R284). -/
def gateExp (d : FVal) : Nat :=
  match d with
  | .fin _ m e => if m = 0 then 0x3F800000 else expNegRn m e
  | _ => 0

/-- The largest of finite values. -/
def largestFin : List FVal → FVal → FVal
  | [], m => m
  | v :: r, m => largestFin r (match v with | .fin .. => if ltV m v == some true then v else m | _ => m)

/-- The gate weights of a token's chosen logits, in fp32 codes (R284). -/
def gateWeights (ls : List Nat) : List Nat :=
  let vs := ls.map (decF .bf16)
  let share (ok : FVal → Bool) : List Nat :=
    let m := (vs.filter ok).length
    vs.map fun v => if ok v then (divV .fp32 .rne (.fin false 1 0) (.ofInt m)).1 else 0
  let finites := vs.filter fun v => match v with | .fin .. => true | _ => false
  if vs.contains (.inf false) then share (· == .inf false)
  else
    match finites with
    | [] => share (· == .inf true)
    | f :: fs =>
      let m := largestFin fs f
      let us := vs.map fun v =>
        if v == .nan then none
        else some (gateExp (decF .fp32 (rnV .fp32 .rne (addV .rne v (negV m)).1).1))
      let sum := decF .fp32 (reduce .fp32 .rne .sum us).1
      us.map fun u => match u with | none => 0 | some u => (divV .fp32 .rne (decF .fp32 u) sum).1

/-- The logits of token `t` from the bytes read. -/
def Card.logits (c : Card) (bytes : List Byte) (t : Nat) : List Nat :=
  (List.range c.E).map fun e => leNat ((bytes.drop (2 * (t * c.E + e))).take 2)

/-- The selection entries of a token (R285), whose slots are not yet set. -/
def Card.entries (c : Card) (bytes : List Byte) (t : Nat) : List DWord :=
  let ls := c.logits bytes t
  let es := c.chosen ls
  let ws := gateWeights (es.map fun e => ls.getD e 0)
  (es.zip ws).map fun (e, w) =>
    let expert := if decF .bf16 (ls.getD e 0) == .nan then 0xFFFF else e
    BitVec.ofNat 64 (w * 2 ^ 32 + 0xFFFF * 2 ^ 16 + expert)

/-- All bytes gathered, in beat order. -/
def gathered (n : Nat) (xs : List (Nat × List Byte)) : List Byte :=
  (List.range n).flatMap fun i => ((xs.find? fun x => x.1 == i).map (·.2)).getD []

/-- The bytes of entry beat `j` (R285). -/
def Card.entryBeat (c : Card) (n : Nat) (bytes : List Byte) (j : Nat) : List Byte :=
  let qs := ((List.range 64).map (· + 64 * j)).filter fun q => decide (q < n * c.k)
  qs.flatMap fun q => leBytes ((c.entries bytes (q / c.k)).getD (q % c.k) 0).toNat 8

/-- The gate flag: raised for the lowest token with a NaN logit (R284). -/
def Card.gateHits (c : Card) (n : Nat) (bytes : List Byte) : List FlagHit :=
  match (List.range n).find? fun t => (c.logits bytes t).any fun l => decF .bf16 l == .nan with
  | some t => [⟨6, t⟩]
  | none => []

/-! ### Entries (R285, R400) -/

/-- Expert of an entry; none for a NaN slot and for a malformed entry. -/
def Card.expert (c : Card) (x : DWord) : Option Nat :=
  let e := field x.toNat 0 16
  if e < c.E then some e else none

/-- Whether an entry's expert field is malformed. -/
def Card.badExpert (c : Card) (x : DWord) : Bool := field x.toNat 0 16 != 0xFFFF && decide (c.E ≤ field x.toNat 0 16)

/-- The expert and slot that `pcomb` reads an output row for; none when the entry reads nothing. -/
def Card.combined (c : Card) (x : DWord) : Option (Nat × Nat) :=
  let j := field x.toNat 16 16
  match c.expert x with
  | none => none
  | some e => if j < c.C then some (e, j) else none

/-- Whether `pcomb` finds an entry malformed. -/
def Card.badEntry (c : Card) (x : DWord) : Bool :=
  let j := field x.toNat 16 16
  c.badExpert x || (j != 0xFFFF && decide (c.C ≤ j))

/-- An entry read, or a NaN slot where none was. -/
def entryOf (es : List (Nat × DWord)) (q : Nat) : DWord := ((es.find? fun x => x.1 == q).map (·.2)).getD 0xFFFFFFFF

/-! ### Dispatch (R286) -/

/-- The elements of beat `b` of a row (log 111). -/
def Card.beatElems (c : Card) (b : Nat) : List Nat :=
  ((List.range c.perBeat).map (· + b * c.perBeat)).filter fun i => decide (i < c.H)

/-- One element as the window takes it. -/
def Card.convert (c : Card) (row i : Nat) (v : FVal) : Rounded :=
  match c.offset row i with
  | some d => dstore c.xtype .rne d v
  | none => convV c.xtype .rne v

/-- The bytes beat `b` of token `t` sends, with its flags, from the bytes of its source elements. -/
def Card.sendBeat (c : Card) (t b : Nat) (src : List Byte) : List Byte × Flags :=
  let s := bytesOf c.stype
  let rs := (c.beatElems b).zipIdx.map fun (i, m) =>
    c.convert (c.tok0 + t) i (decF c.stype (leNat ((src.drop (m * s)).take s)))
  (rs.flatMap fun r => leBytes r.1 (bytesOf c.xtype), rs.foldl (fun f r => f.or r.2) {})

/-- The tag of a row (R286). -/
def Card.tagOf (c : Card) (id : CoreId) (t s : Nat) : Nat :=
  (c.tok0 + t) % 2 ^ 32 + s * 2 ^ 32 + (id.cluster * 12 + id.core) * 2 ^ 40

/-! ### Combine (R287) -/

/-- Element `i` of combined row `t`: its code and flags. -/
def Card.combineElem (c : Card) (p : Press) (t i : Nat) : Rounded :=
  let y := bytesOf c.ytype
  let ps : List (Option Rounded) := (List.range c.k).map fun s =>
    let q := t * c.k + s
    let x := entryOf p.entries q
    match c.combined x with
    | none => none
    | some _ =>
      let b := i * y / 512
      match p.bytes.find? fun z => z.1 == q * c.bo + b with
      | none => none
      | some z =>
        some (finish .fp32 .rne (mulV (decF .fp32 (field x.toNat 32 32)) (decF c.ytype (leNat ((z.2.drop (i * y % 512)).take y)))))
  let r := reduce .fp32 .rne .sum (ps.map fun p => p.map (·.1))
  let out := rnV c.otype .rne (decF .fp32 r.1)
  let fl := (ps.foldl (fun f p => match p with | some r => f.or r.2 | none => f) out.2 : Flags)
  let red : Flags := r.2.foldl (fun f h => f.or { inv := h.cls == 0, ovf := h.cls == 2, unf := h.cls == 3, inx := h.cls == 4 }) {}
  (out.1, fl.or red)

/-- Beat `b` of combined row `t`: its bytes and flags. -/
def Card.combineBeat (c : Card) (p : Press) (t b : Nat) : List Byte × Flags :=
  let o := bytesOf c.otype
  let per := 512 / o
  let rs := (((List.range per).map (· + b * per)).filter fun i => decide (i < c.H)).map (c.combineElem p t)
  (rs.flatMap fun r => leBytes r.1 o, rs.foldl (fun f r => f.or r.2) {})

/-! ### What is read in a cycle -/

/-- Scratchpad bytes read by the issuing core at `r` cycles after issue: the byte range (R282, R283, R286, R287). -/
def Press.reads (p : Press) (g : Option (Card × Nat)) (r : Nat) : List (Nat × Nat) :=
  match p.op, g with
  | .card, _ => if r = 1 then [(p.sa.toNat, 64)] else []
  | .sel, some (c, n) =>
    if 2 ≤ r ∧ r < 2 + c.bl n then [(p.sa.toNat + 512 * (r - 2), min 512 (2 * n * c.E - 512 * (r - 2)))] else []
  | .disp, some (c, n) =>
    let i := r - 8
    if 8 ≤ r ∧ i < n * c.k * c.br then
      let q := i / c.br
      let b := i % c.br
      let es := c.beatElems b
      (if b = 0 then [(c.sel + 8 * q, 8)] else []) ++
        [(p.sa.toNat + (q / c.k * c.H + es.headD 0) * bytesOf c.stype, es.length * bytesOf c.stype)]
    else []
  | .comb, some (c, n) =>
    let i := r - 8
    if 8 ≤ r ∧ i < n * c.k * c.bo ∧ i % c.bo = 0 then [(c.sel + 8 * (i / c.bo), 8)] else []
  | _, none => []

/-- The output-row beat that `pcomb` reads at an owner `r` cycles after issue: the beat index, the owner, the byte
range (R287). -/
def Press.ownerRead (p : Press) (g : Option (Card × Nat)) (id : CoreId) (r : Nat) : Option (Nat × CoreId × Nat × Nat) :=
  match p.op, g with
  | .comb, some (c, n) =>
    let i := r - 48
    if 48 ≤ r ∧ i < n * c.k * c.bo then
      let q := i / c.bo
      let b := i % c.bo
      match c.combined (entryOf p.entries q) with
      | none => none
      | some (e, j) =>
        some (i, c.owner id e, c.out + c.place e j * c.H * bytesOf c.ytype + 512 * b,
          min 512 (c.H * bytesOf c.ytype - 512 * b))
    else none
  | _, _ => none

/-- What a Press word takes in at `r` cycles after issue: from its own scratchpad, and from an owner's (R282 to R287). -/
def Press.sample (p : Press) (g : Option (Card × Nat)) (own : Memory) (theirs : Option (Nat × Memory × Nat × Nat)) (r : Nat) :
    Press :=
  let got := (p.reads g r).map fun x => spadBytes own x.1 x.2
  let p :=
    match p.op, g with
    | .card, _ => if r = 1 then { p with card := some (BitVec.ofNat 512 (leNat (got.headD []))) } else p
    | .sel, some (c, n) =>
      if 2 ≤ r ∧ r < 2 + c.bl n then { p with bytes := p.bytes ++ [(r - 2, got.headD [])] } else p
    | .disp, some (c, n) =>
      let i := r - 8
      if 8 ≤ r ∧ i < n * c.k * c.br then
        let q := i / c.br
        let b := i % c.br
        let p :=
          if b = 0 then
            let x := BitVec.ofNat 64 (leNat (got.headD []))
            { p with
              entries := p.entries ++ [(q, x)]
              hits := p.hits ++ (if c.badExpert x then [⟨0, q⟩] else []) }
          else p
        match c.expert (entryOf p.entries q) with
        | none => p
        | some _ =>
          let y := c.sendBeat (q / c.k) b (got.getLastD [])
          { p with bytes := p.bytes ++ [(i, y.1)], hits := p.hits ++ hitsAt y.2 q }
      else p
    | .comb, some (c, n) =>
      let i := r - 8
      if 8 ≤ r ∧ i < n * c.k * c.bo ∧ i % c.bo = 0 then
        let x := BitVec.ofNat 64 (leNat (got.headD []))
        { p with
          entries := p.entries ++ [(i / c.bo, x)]
          hits := p.hits ++ (if c.badEntry x then [⟨0, i / c.bo⟩] else []) }
      else p
    | _, none => p
  match theirs with
  | some (i, m, a, len) => { p with bytes := p.bytes ++ [(i, spadBytes m a len)] }
  | none => p

/-! ### Offers (R400) -/

/-- The lowest out-of-range address among `n` bytes from an address on, which wrap at 2^64. -/
def lowestOut (a n : Nat) : Option Nat :=
  let a := a % 2 ^ 64
  if n = 0 ∨ a + n ≤ spadSize then none
  else if a + n ≤ 2 ^ 64 then some (max a spadSize)
  else if spadSize < a + n - 2 ^ 64 then some spadSize
  else some (max a spadSize)

/-- The lowest of addresses. -/
def lowestOf (xs : List Nat) : Option Nat := xs.foldl (fun m a => match m with | none => some a | some b => some (min a b)) none

/-- The byte ranges of its core's scratchpad that a Press word touches in all, reading and writing; `entry` gives an entry of
`pdisp`, which reads a row only for an entry that names an expert (log 94). -/
def Press.touches (p : Press) (g : Option (Card × Nat)) (entry : Nat → DWord) : List (Nat × Nat) :=
  match p.op, g with
  | .card, _ => [(p.sa.toNat, 64)]
  | .sel, some (c, n) => [(p.sa.toNat, 2 * n * c.E), (c.sel, 8 * n * c.k)]
  | .disp, some (c, n) =>
    (c.sel, 8 * n * c.k) ::
      ((List.range (n * c.k)).filter fun q => (c.expert (entry q)).isSome).map fun q =>
        (p.sa.toNat + q / c.k * c.H * bytesOf c.stype, c.H * bytesOf c.stype)
  | .comb, some (c, n) => [(c.sel, 8 * n * c.k), (p.sa.toNat, n * c.H * bytesOf c.otype)]
  | _, none => []

/-- What a beat that touches byte ranges offers: the lowest out-of-range address that the word touches in all, when the beat
touches it. -/
def Press.offerOf (p : Press) (g : Option (Card × Nat)) (entry : Nat → DWord) (rs : List (Nat × Nat)) : Option Nat :=
  if rs.all fun x => (lowestOut x.1 x.2).isNone then none
  else
    (lowestOf ((p.touches g entry).filterMap fun x => lowestOut x.1 x.2)).filter fun l =>
      rs.any fun x => decide ((l + 2 ^ 64 - x.1 % 2 ^ 64) % 2 ^ 64 < x.2)

/-- What the reads of a cycle offer; a dispatch beat that sends nothing reads its entry only. -/
def Press.offer (p : Press) (g : Option (Card × Nat)) (entry : Nat → DWord) (r : Nat) : Option Nat :=
  let all := p.reads g r
  p.offerOf g entry (match p.op, g with
    | .disp, some (c, _) =>
      if (c.expert (entryOf p.entries ((r - 8) / c.br))).isNone then all.take (all.length - 1) else all
    | _, _ => all)

end Sys2Proof.Machine
end

