-- ==== Sys2Proof/Machine/Racker.lean ====
section
/-! DEFINITION. Racker transfers (R265 to R279): control fields, errors, beats, cycles, what a beat reads and lands. -/

namespace Sys2Proof.Machine

/-! ### Control fields (R265, R266) -/

/-- rctl. -/
def Racker.ctl (r : Racker) : Nat := r.sh[0].toNat
/-- The mode: 0 copy, 1 instruction fill, 2 re-dither, 3 cellar. -/
def Racker.mode (r : Racker) : Nat := field r.ctl 0 2
/-- Source space: 1 is HBM. -/
def Racker.sHbm (r : Racker) : Bool := field r.ctl 2 1 == 1
/-- Destination space. -/
def Racker.dHbm (r : Racker) : Bool := field r.ctl 3 1 == 1
/-- The rounding mode of re-dither. -/
def Racker.rnd (r : Racker) : Rnd := (Rnd.ofCode (field r.ctl 4 3)).getD .rne
/-- D. -/
def Racker.dist (r : Racker) : Nat := field r.ctl 8 2
/-- R. -/
def Racker.rows (r : Racker) : Nat := min r.sh[5].toNat (2 ^ 24)
/-- The coordinates of element (row, e) at the source (R269). -/
def Racker.srcPair (r : Racker) (row e : Nat) : Int × Int :=
  ((field r.sh[3].toNat 32 32 : Nat) + row * signed32 (field r.sh[6].toNat 32 32), (field r.sh[3].toNat 0 32 + e : Nat))
/-- The coordinates at the destination. -/
def Racker.dstPair (r : Racker) (row e : Nat) : Int × Int :=
  ((field r.sh[4].toNat 32 32 : Nat) + row * signed32 (field r.sh[6].toNat 0 32), (field r.sh[4].toNat 0 32 + e : Nat))

/-- The storage pair of coordinates that may be negative. -/
def LayoutReg.pairInt (l : LayoutReg) (p : Int × Int) : Option (Nat × Nat) :=
  if p.1 < 0 ∨ p.2 < 0 then none else l.pair p.1.toNat p.2.toNat

/-! ### Beats (R272) -/

/-- How one side of a transfer lays out its elements: the bits of an element, or of a block, whether they are blocks, and the
bits of one code. -/
structure Coding where
  size : Nat
  block : Bool
  code : Nat
  deriving DecidableEq, Repr

/-- The encoding that a raw record gives, as the transfer is timed: a reserved type code counts as 32 bits (R272), and
mx with a type that has no mx form as the width of the type (log 110). -/
def rawSize (r : BitVec 256) : Coding :=
  match ETy.ofCode (recType r) with
  | none => ⟨32, false, 32⟩
  | some t =>
    if recMx r && (isMxOnly t || t == .e5m2 || t == .e4m3) then ⟨8 * blockBytes t, true, blockBits t⟩
    else ⟨width t, false, width t⟩

/-- The bytes of a row of `n` elements. -/
def rowBytes (z : Coding) (n : Nat) : Nat := ceilDiv ((if z.block then ceilDiv n 32 else n) * z.size) 8

/-- The byte of its row at which an element's code begins (R95). -/
def elemByte (z : Coding) (e : Nat) : Nat :=
  (if z.block then e / 32 * z.size + e % 32 * z.code else e * z.size) / 8

/-- The wider encoding of the two sides. -/
def Racker.wide (r : Racker) : Coding :=
  let a := rawSize r.srcRaw
  let b := rawSize r.dstRaw
  if rowBytes a r.vl < rowBytes b r.vl then b else a

/-- Br. -/
def Racker.beatsPerRow (r : Racker) : Nat := ceilDiv (rowBytes r.wide r.vl) 512

/-- N. -/
def Racker.count (r : Racker) : Nat := r.rows * r.beatsPerRow

/-- The row of beat `k`. -/
def Racker.beatRow (r : Racker) (k : Nat) : Nat := if r.beatsPerRow = 0 then 0 else k / r.beatsPerRow

/-- The elements of beat `k`: those whose code begins, in the wider encoding, in the bytes it carries (R272, log 100). -/
def Racker.beatElems (r : Racker) (k : Nat) : List Nat :=
  let b := if r.beatsPerRow = 0 then 0 else k % r.beatsPerRow
  (List.range r.vl).filter fun e => elemByte r.wide e / 512 == b

/-- The beat that carries element `e` of a row. -/
def Racker.beatOf (r : Racker) (row e : Nat) : Nat := row * r.beatsPerRow + elemByte r.wide e / 512

/-! ### Cycles (R273, R274) -/

/-- T0 after issue. -/
def Racker.t0 (r : Racker) : Nat :=
  let ls := if r.sHbm then 560 else if r.mode = 3 then 900 else 14
  let ld := if r.dHbm then 24 else if r.mode = 3 then 320 else 2
  ls + ld + 48 * r.dist + (if r.mode = 2 then 6 else 0)

/-- The landing of beat `k` after issue. -/
def Racker.landAt (r : Racker) (k : Nat) : Nat := r.t0 + (if r.mode = 3 then 205 * k else k)

/-- The read of beat `k` after issue: an HBM slot (R313) or a scratchpad. -/
def Racker.readAt (r : Racker) (k : Nat) : Nat := (if r.sHbm then 40 + 24 * r.dist else 12) + k

/-- Whether the source is the cellar, whose beats are read as they land (log 18). -/
def Racker.fromCellar (r : Racker) : Bool := r.mode == 3 && !r.sHbm

/-- The status cycle after issue. -/
def Racker.statusAt (r : Racker) : Nat :=
  if r.count = 0 then r.t0 else if r.mode = 3 then r.t0 + 205 * (r.count - 1) + 1 else r.t0 + r.count

/-! ### Errors (R270, R279) -/

/-- A type re-dither takes. -/
def ditherable (l : LayoutReg) : Bool := l.mx || isF l.ty

/-- Errors that gate the whole transfer: 1, 2 or 0. -/
def Racker.gate (r : Racker) : Nat :=
  let badCtl := decide (2 ^ 10 ≤ r.ctl) || field r.ctl 7 1 == 1 || r.dist == 3 || (Rnd.ofCode (field r.ctl 4 3)).isNone
  let badPair := r.mode == 1 && (!r.sHbm || r.dHbm)
  let badType := r.mode == 2 && !(ditherable r.src && ditherable r.dst)
  if !r.src.valid || !r.dst.valid || badCtl || badPair || badType || decide (2 ^ 24 < r.sh[5].toNat) then 1
  else
    let equal := r.src.ty == r.dst.ty && r.src.mx == r.dst.mx
    let fillOk := r.src.ty == .n32 && r.dst.ty == .n32 && !r.src.mx && !r.dst.mx
    let originOk := (!r.src.mx || field r.sh[3].toNat 0 32 % 32 == 0) && (!r.dst.mx || field r.sh[4].toNat 0 32 % 32 == 0)
    let mixOk := r.mode != 2 || r.src.mx == r.dst.mx
    if (r.mode == 0 && !equal) || (r.mode == 3 && !equal) || (r.mode == 1 && !fillOk) || !originOk || !mixOk then 2 else 0

/-- The scratchpads a beat lands in: the product of the masks of rtgt, in rank order; and whether a set bit names a
target outside the quire (R275, R279). Bits 63:28 of rtgt play no part (log 133). -/
def Racker.targets (r : Racker) (id : CoreId) (e : Extents) : List CoreId × Bool :=
  let tgt := r.sh[7].toNat
  let pick (mask own n : Nat) : List Nat := if mask = 0 then [own] else (List.range n).filter fun i => mask.testBit i
  let ds := pick (field tgt 24 4) id.die 4
  let cs := pick (field tgt 12 12) id.cluster 12
  let ks := pick (field tgt 0 12) id.core 12
  let all := ds.flatMap fun d => cs.flatMap fun c => ks.map fun k => ({ id with die := d, cluster := c, core := k } : CoreId)
  (all.filter (inQuire e), all.any fun x => !inQuire e x)

/-- Whether a target's die lies within D (R275). -/
def Racker.nearTo (r : Racker) (id t : CoreId) : Bool := decide (dieDistance id.die t.die ≤ r.dist)

/-- The targets that a beat reaches. -/
def Racker.reachedTargets (r : Racker) (id : CoreId) (e : Extents) : List CoreId := (r.targets id e).1.filter (r.nearTo id)

/-- Whether some target of the quire lies beyond D, so that what is written there is dropped with error 5. -/
def Racker.someFar (r : Racker) (id : CoreId) (e : Extents) : Bool := (r.targets id e).1.any fun t => !r.nearTo id t

/-- Whether the stack of an HBM byte lies within D of a die (R275). -/
def Racker.reaches (r : Racker) (die va : Nat) : Bool := decide (dieDistance die (vaStack va / 2) ≤ r.dist)

/-! ### Reading a beat (R269, R271, R277) -/

/-- An element that carries nothing. -/
def RElem.zero (shaped : Bool) (err : Nat) : RElem := ⟨0, 127, 0, shaped, err⟩

/-- The lower of two error codes, 0 being none. -/
def lowerErr (a b : Nat) : Nat := if a = 0 then b else if b = 0 then a else min a b

/-- Reads HBM bytes from a VA on: a byte beyond D reads as 0 with error 5, a non-resident one with error 4 (R279). -/
def State.rackerHbm (s : State) (id i die : Nat) (r : Racker) (a : Nat) : Nat → State × List Byte × Nat
  | 0 => (s, [], 0)
  | n + 1 =>
    let y := if r.reaches die a then s.hbmRead id i a else (s, 0, true)
    let err := if r.reaches die a then (if y.2.2 then 0 else 4) else 5
    let rest := y.1.rackerHbm id i die r (a + 1) n
    (rest.1, y.2.1 :: rest.2.1, lowerErr err rest.2.2)

/-- Reads the bytes of an element or block at the source: the bytes, error 4, 5 or 6 or 0, and the state with the slots'
translation effects. -/
def State.rackerBytes (s : State) (j : Job) (r : Racker) (a n : Nat) : State × List Byte × Nat :=
  match s.core? j.core with
  | none => (s, List.replicate n 0, 0)
  | some c =>
    if r.sHbm then s.rackerHbm j.core.folio c.phys j.core.die r a n
    else if r.mode = 3 then
      let y := s.cellarBytes j.core.folio c.phys a n
      (y.1, y.2, 0)
    else (s, spadBytes c.spad a n, if outOfRange a n then 6 else 0)

/-- Reads elements of row `row` in order, with the offers of error 6 (R279). The base of a scratchpad record is used whole (R266,
log 99). -/
def State.rackerElems (s : State) (j : Job) (r : Racker) (row : Nat) : List Nat → State × List RElem × List (Nat × Nat)
  | [] => (s, [], [])
  | e :: es =>
    match r.src.pairInt (r.srcPair row e) with
    | none =>
      let rest := s.rackerElems j r row es
      (rest.1, RElem.zero false 0 :: rest.2.1, rest.2.2)
    | some p =>
      let a := r.src.addr p
      let x := s.rackerBytes j r a r.src.size
      let st := r.src.stored p x.2.1
      let rest := x.1.rackerElems j r row es
      (rest.1, ⟨st.code, st.scale, st.spare, true, x.2.2⟩ :: rest.2.1,
        (if x.2.2 = 6 then [(row * r.vl + e, if r.src.mx then (firstOut a r.src.size).getD a else a)] else []) ++ rest.2.2)

/-! ### Landing a beat (R269 to R271, R278, R279) -/

/-- What one element writes: its destination pair and its code or value. -/
structure RWrite where
  e : Nat
  pair : Nat × Nat
  code : Nat
  scale : Nat
  spare : Nat
  val : FVal
  shaped : Bool
  err : Nat
  deriving DecidableEq, Repr

/-- Whether a copy must check frames for an element (R271). -/
def Racker.framed (r : Racker) : Bool :=
  let narrow := r.src.mx || r.src.ty == .e5m2 || r.src.ty == .e4m3
  r.mode == 0 && narrow && (field r.src.frame.toNat 64 16 != 0 || field r.dst.frame.toNat 64 16 != 0)

/-- The elements of a beat as they go to the destination: in shape there, with the zero code of R271 where frames or
coordinates differ. One dropped there raises nothing (log 147). -/
def Racker.writes (r : Racker) (row : Nat) (es : List (Nat × RElem)) : List RWrite :=
  es.filterMap fun (e, x) =>
    (r.dst.pairInt (r.dstPair row e)).map fun q =>
      let p := r.src.pairInt (r.srcPair row e)
      let moved := match p with
        | some p => !r.framed || r.src.identity p == r.dst.identity q
        | none => true
      let v := match p with
        | some p => r.src.value p ⟨x.code, x.scale, x.spare⟩
        | none => .fin false 0 0
      if moved then ⟨e, q, x.code, x.scale, x.spare, v, x.shaped, x.err⟩
      else ⟨e, q, 0, x.scale, x.spare, .fin false 0 0, x.shaped, 3⟩

/-- A store outside blocks: the bytes and flags (R270). -/
def Racker.storeOne (r : Racker) (w : RWrite) : List Byte × Flags :=
  if r.mode = 2 then
    let x : Rounded := match r.dst.offset w.pair with
      | some d => dstore r.dst.ty r.rnd d w.val
      | none => convV r.dst.ty r.rnd w.val
    let f := if w.val == .nan then { x.2 with inv := true } else x.2
    (leBytes x.1 r.dst.size, f)
  else (leBytes w.code r.dst.size, {})

/-- A destination block from the elements that go to it, its present positions among them (R270): the bytes and flags; none
with no present position. Where several elements go to one position, or several source blocks to one block, the last to
come gives the code, the scale and the spare (log 90). -/
def Racker.storeBlock (r : Racker) (key : Nat × Nat) (ws : List RWrite) : Option (List Byte × Flags) :=
  let present := (ws.filter (·.shaped)).reverse
  match present with
  | [] => none
  | w0 :: _ =>
    let at_ (i : Nat) := present.find? fun w => w.pair.2 % 32 == i
    if r.mode = 2 then
      let b := mxEncode r.dst.ty r.rnd ((List.range 32).map fun i => (at_ i).map (·.val))
        fun i => r.dst.offset (key.1, 32 * key.2 + i)
      some (blockOf r.dst.ty b.codes b.scale b.spare, b.flags.foldl Flags.or {})
    else
      let codes := (List.range 32).map fun i => match at_ i with | some w => w.code | none => 0
      some (blockOf r.dst.ty codes w0.scale w0.spare, {})

/-- The pieces a beat stores: an element index, an address, bytes, whether they come from in-shape source elements, and
flags. -/
structure RPiece where
  e : Nat
  addr : Nat
  bytes : List Byte
  counts : Bool
  flags : Flags
  deriving DecidableEq, Repr

/-- Whether the elements of one destination block lie in one row of the region: no view, and rows that differ. -/
def Racker.rowwise (r : Racker) : Bool := !recView r.dst.first && field r.sh[6].toNat 0 32 != 0

/-- The beats that may carry elements of the blocks that beat `k` writes to: those of its row, or all. -/
def Racker.fellows (r : Racker) (k : Nat) : List Nat :=
  if r.rowwise then (List.range r.beatsPerRow).map (· + r.beatRow k * r.beatsPerRow) else List.range r.count

/-- Whether an element is a present position of a destination block (R270). -/
def Racker.presentIn (r : Racker) (key : Nat × Nat) (row e : Nat) : Bool :=
  (r.src.pairInt (r.srcPair row e)).isSome &&
    (match r.dst.pairInt (r.dstPair row e) with | some q => blockKey q == key | none => false)

/-- The destination blocks that have a present position in beat `k`, each once. -/
def Racker.blocksIn (r : Racker) (k : Nat) : List (Nat × Nat) :=
  let row := r.beatRow k
  ((r.beatElems k).filterMap fun e =>
    if (r.src.pairInt (r.srcPair row e)).isSome then (r.dst.pairInt (r.dstPair row e)).map blockKey else none).foldr
      (fun key ks => if ks.contains key then ks else key :: ks) []

/-- The present positions of a block among beats, by beat and element. -/
def Racker.positions (r : Racker) (key : Nat × Nat) (ks : List Nat) : List (Nat × Nat) :=
  ks.flatMap fun k => ((r.beatElems k).filter (r.presentIn key (r.beatRow k))).map fun e => (k, e)

/-- The blocks that beat `k` completes: it carries the last of their present positions, and writes them (R270, log 90). -/
def Racker.beatBlocks (r : Racker) (k : Nat) : List (Nat × Nat) :=
  (r.blocksIn k).filter fun key => (r.positions key (r.fellows k)).all fun x => decide (x.1 ≤ k)

/-- What the beats read so far bring to a destination block. -/
def Racker.blockWrites (r : Racker) (key : Nat × Nat) (ks : List Nat) : List RWrite :=
  ks.flatMap fun k =>
    match r.beats.find? fun b => b.1 == k with
    | some b => (r.writes (r.beatRow k) ((r.beatElems k).zip b.2)).filter fun w => blockKey w.pair == key
    | none => []

/-- The pieces that complete blocks: a block counts whole among the valid bytes (R278, log 101). -/
def Racker.blockPieces (r : Racker) (k : Nat) (keys : List (Nat × Nat)) : List RPiece :=
  keys.filterMap fun key =>
    let ws := r.blockWrites key (r.fellows k)
    (r.storeBlock key ws).map fun b =>
      ⟨(ws.find? (·.shaped)).elim 0 (·.e), r.dst.addr (key.1, 32 * key.2), b.1, true, b.2⟩

/-- The pieces of single elements. -/
def Racker.elemPieces (r : Racker) (ws : List RWrite) : List RPiece :=
  ws.map fun w =>
    let x := r.storeOne w
    ⟨w.e, r.dst.addr w.pair, x.1, w.shaped, x.2⟩

/-- Stores a piece in one scratchpad; whether every byte was in range. -/
def RPiece.toSpad (p : RPiece) (c : Core) : Core := { c with spad := spadStore c.spad p.addr p.bytes }

/-- Bytes written that count as valid (R278). -/
def RPiece.spadValid (p : RPiece) : Nat :=
  if p.counts then ((List.range p.bytes.length).filter fun i => decide ((p.addr + i) % 2 ^ 64 < spadSize)).length else 0

/-- The flags of re-dither as the status word keeps them, by fs bit (R278). -/
def statusFlags (f : Flags) : List (Fin 7) :=
  (if f.inv then [0] else []) ++ (if f.ovf then [2] else []) ++ (if f.unf then [3] else []) ++ (if f.inx then [4] else [])

/-- The status word (R278). -/
def Racker.word (r : Racker) : DWord :=
  let errs := (if r.gate = 0 then [] else [r.gate]) ++ r.errs.filter (· != 0)
  let err := errs.foldl (fun m e => if m = 0 ∨ e < m then e else m) 0
  let bit (k : Fin 7) (b : Nat) : Nat := if r.flags.contains k then 2 ^ b else 0
  BitVec.ofNat 64 (r.tid % 2 ^ 16 * 2 ^ 48 + err * 2 ^ 44 + bit 0 43 + bit 2 42 + bit 3 41 + bit 4 40
    + (if r.gate = 0 then min r.valid (2 ^ 32 - 1) else 0))

/-- The word index that an instruction-fill element goes to: its base and strides count words (R270). -/
def Racker.fillIndex (r : Racker) (p : Nat × Nat) : Int :=
  (recBase r.dst.store : Int) + p.1 * signed32 (recSj r.dst.store) + p.2 * signed32 (recSi r.dst.store)

/-- Puts a word into a core's fill buffer, replacing an earlier fill of the same word (R227). -/
def Core.fillWord (c : Core) (i : Nat) (w : Word) : Core :=
  { c with fill := (c.fill.filter fun x => x.1 != i) ++ [(i, w)] }

/-- The record whose type and mx fields time a side: the record named, or the storage record that it names as a view, valid
or not (R272, log 110). -/
def timedRecord (m : Memory) (a : Nat) : BitVec 256 :=
  let r : BitVec 256 := recAt m (a / 16 * 16) 32 256
  if recView r then recAt m (16 * recNext r) 32 256 else r

/-- The launch reads of `rkgo` at c+1 (R268, R272); bits 3:0 of rsrc and rdst are ignored (log 117). -/
def Racker.launch (r : Racker) (m : Memory) : Racker :=
  let load (a : Nat) : LayoutReg × BitVec 256 :=
    let l := (loadLayout m a).1
    (l, if l.valid then l.store else timedRecord m a)
  let x := load r.sh[1].toNat
  let y := load r.sh[2].toNat
  { r with src := x.1, srcRaw := x.2, dst := y.1, dstRaw := y.2 }

end Sys2Proof.Machine
end

