-- ==== Sys2Proof/Machine/Stream.lean ====
section
/-! DEFINITION. Base-die streams (R318, R321 to R325): parameter blocks, cycles, element addresses, what the window reads
and writes, and the status. -/

namespace Sys2Proof.Machine

/-- The bytes of a stream parameter block (R322); zero until it is read. -/
def Stream.blk (r : Stream) : Nat := match r.block with | some b => b.toNat | none => 0

/-- Bytes `lo` to `lo+n-1` of the block. -/
def Stream.at_ (r : Stream) (lo n : Nat) : Nat := field r.blk (8 * lo) (8 * n)

/-- base. -/
def Stream.base (r : Stream) : Nat := r.at_ 0 8
/-- n. -/
def Stream.n (r : Stream) : Nat := r.at_ 8 2
/-- z, the element size in bytes. -/
def Stream.z (r : Stream) : Nat := 2 ^ r.at_ 10 1
/-- The stack served. -/
def Stream.stack (r : Stream) : Nat := r.at_ 11 1
/-- ctl. -/
def Stream.ctl (r : Stream) : Nat := r.at_ 12 1
/-- Whether the indices stand in HBM. -/
def Stream.listHbm (r : Stream) : Bool := r.op != .stride && r.ctl.testBit 0
/-- The residency register. -/
def Stream.wr (r : Stream) : WReg := ⟨field r.ctl 1 3, Nat.mod_lt _ (by decide)⟩
/-- D. -/
def Stream.dist (r : Stream) : Nat := field r.ctl 4 2
/-- idx. -/
def Stream.idx (r : Stream) : Nat := r.at_ 16 8
/-- mul, or R. -/
def Stream.mul (r : Stream) : Nat := r.at_ 24 4
/-- cols. -/
def Stream.cols (r : Stream) : Nat := r.at_ 28 4

/-- The block's address: bits 3:0 of sA are ignored (R321). -/
def Stream.addr (r : Stream) : Nat := r.sa.toNat / 16 * 16

/-- Whether the block is valid for a core of a physical die (R325); one whose stack byte is 8 or more is not (log 123). -/
def Stream.valid (r : Stream) (die : Nat) : Bool :=
  r.block.isSome && decide (r.base < 2 ^ 48) && r.at_ 13 3 == 0 && r.at_ 32 24 == 0 && field r.ctl 6 2 == 0 &&
    (r.op == .stride || r.cols == 0) && decide (r.n ≤ 2048) && decide (r.at_ 10 1 ≤ 8) && decide (r.stack < 8) &&
    r.dist != 3 && decide (dieDistance die (r.stack / 2) ≤ r.dist) && (r.op != .stride || r.mul * r.cols == r.n)

/-! ### Cycles after issue (R324, R325) -/

/-- Beats of a scratchpad index list. -/
def Stream.listBeats (r : Stream) : Nat := if r.op == .stride || r.listHbm then 0 else ceilDiv (4 * r.n) 512
/-- B: beats of packed data. -/
def Stream.dataBeats (r : Stream) : Nat := ceilDiv (r.n * r.z) 512
/-- The first cycle of the window. -/
def Stream.open_ (r : Stream) : Nat := 64 + 48 * r.dist
/-- W. -/
def Stream.len (r : Stream) : Nat := if r.listHbm then r.n + ceilDiv r.n 64 + 112 else r.n + 48
/-- The landing of beat 0 of `bgath` and `bstride`. -/
def Stream.land0 (r : Stream) : Nat := 600 + 96 * r.dist + r.len
/-- S. -/
def Stream.statusAt (r : Stream) (die : Nat) : Nat :=
  if !r.valid die then 600
  else r.land0 + (if r.op == .scat then 0 else r.dataBeats)

/-! ### What is read from the scratchpad in a cycle -/

/-- The byte range read `k` cycles after issue: the block, a list beat, or a data beat of `bscat`. -/
def Stream.read (r : Stream) (die k : Nat) : Option (Nat × Nat) :=
  if k = 1 then some (r.addr, 64)
  else if !r.valid die ∨ k < 2 then none
  else
    let j := k - 2
    if j < r.listBeats then some (r.idx + 512 * j, min 512 (4 * r.n - 512 * j))
    else if r.op = .scat ∧ j - r.listBeats < r.dataBeats then
      let b := j - r.listBeats
      some (r.sb.toNat + 512 * b, min 512 (r.n * r.z - 512 * b))
    else none

/-- What a stream takes in from the scratchpad. -/
def Stream.sample (r : Stream) (m : Memory) (die k : Nat) : Stream :=
  match r.read die k with
  | none => r
  | some (a, len) =>
    let bs := spadBytes m a len
    if k = 1 then { r with block := some (BitVec.ofNat 512 (leNat bs)) }
    else if k - 2 < r.listBeats then { r with list := r.list ++ [(k - 2, bs)] }
    else { r with data := r.data ++ [(k - 2 - r.listBeats, bs)] }

/-- The lowest out-of-range byte that a beat reads (R214, log 149). -/
def Stream.offer (r : Stream) (die k : Nat) : Option Nat := (r.read die k).bind fun x => firstOut x.1 x.2

/-! ### Elements (R323) -/

/-- Bytes gathered in beats, from one offset on. -/
def beatBytes (xs : List (Nat × List Byte)) (off n : Nat) : List Byte :=
  match xs.find? fun x => x.1 == off / 512 with
  | some x => (x.2.drop (off % 512)).take n
  | none => List.replicate n 0

/-- The judgement of a VA for elements of `z` bytes: 0 good, 1 bad, 2 foreign (R323). A VA is judged whole, not modulo 2^64 (log 125). -/
def Stream.judge (r : Stream) (a : Int) (z : Nat) : Nat :=
  if a < 0 ∨ a % z ≠ 0 ∨ (2 : Int) ^ 48 ≤ a then 1
  else if vaStack a.toNat ≠ r.stack then 2
  else 0

/-- The VA of element `e`, from its index word. -/
def Stream.va (r : Stream) (x e : Nat) : Int :=
  if r.op == .stride then
    let row := e % max 1 r.mul
    let col := e / max 1 r.mul
    (r.base : Int) + row * signed32 (field r.idx 0 32) + (field r.idx 32 32 + col : Nat) * r.z
  else (r.base : Int) + x * r.mul

/-- The index words of elements in an HBM array (R323): all ones, and marked bad, when the word is bad, foreign or
non-resident. -/
def State.indexWords (s : State) (id i : Nat) (r : Stream) : List Nat → State × List (Nat × Bool)
  | [] => (s, [])
  | e :: es =>
    let a : Int := r.idx + 4 * e
    let y : State × Nat × Bool :=
      if r.judge a 4 ≠ 0 then (s, 0xFFFFFFFF, true)
      else
        let x := s.hbmBytes id i a.toNat 4
        (x.1, if x.2.2 then leNat x.2.1 else 0xFFFFFFFF, !x.2.2)
    let rest := y.1.indexWords id i r es
    (rest.1, y.2 :: rest.2)

/-- Bytes cut into beats. -/
def cutBeats (bs : List Byte) (n : Nat) : List (Nat × List Byte) :=
  (List.range n).map fun k => (k, (bs.drop (512 * k)).take 512)

/-- The index of an element, from the list read. -/
def Stream.index (r : Stream) (e : Nat) : Nat := leNat (beatBytes r.list (4 * e) 4)

/-- Elements judged from their addresses, those with a bad index word first (R323), and read by `bgath` and `bstride`;
the residency of a write is judged as it is written. -/
def State.streamRead (s : State) (id i : Nat) (r : Stream) (bad : List Bool) : List Nat → State × List Nat × List (List Byte)
  | [] => (s, [], [])
  | e :: es =>
    let a := r.va (r.index e) e
    let j := if bad.getD e false then 1 else r.judge a r.z
    let zero := List.replicate r.z (0 : Byte)
    let y : State × Nat × List Byte :=
      if j ≠ 0 || r.op == .scat then (s, j, zero)
      else
        let z := s.hbmBytes id i a.toNat r.z
        (z.1, if z.2.2 then 0 else 3, if z.2.2 then z.2.1 else zero)
    let rest := y.1.streamRead id i r bad es
    (rest.1, y.2.1 :: rest.2.1, y.2.2 :: rest.2.2)

/-- The window at its start: the indices of an HBM array, then every element (R316, R323). -/
def State.streamOpen (s : State) (id i : Nat) (r : Stream) : State × Stream :=
  let es := List.range r.n
  let x := if r.listHbm then s.indexWords id i r es else (s, [])
  let r := if r.listHbm then { r with list := cutBeats (x.2.flatMap fun w => leBytes w.1 4) (ceilDiv (4 * r.n) 512) } else r
  let y := x.1.streamRead id i r (x.2.map (·.2)) es
  (y.1, { r with
    judged := y.2.1
    data := if r.op == .scat then r.data else cutBeats y.2.2.flatten r.dataBeats })

/-- The window of `bscat` at its end: good elements are written in ascending order, those that `keep` selects; a dropped write
is a miss. -/
def State.streamClose (s : State) (id i : Nat) (r : Stream) (keep : Nat → Bool) : List (Nat × Nat) → State × List Nat
  | [] => (s, [])
  | (j, e) :: es =>
    let y : State × Nat :=
      if j ≠ 0 || !keep e then (s, j)
      else
        let w := s.hbmStore (.device id) i (r.va (r.index e) e).toNat (beatBytes r.data (e * r.z) r.z)
        (w.1, if w.2 then 0 else 3)
    let rest := y.1.streamClose id i r keep es
    (rest.1, y.2 :: rest.2)

/-- Beat `k` of `bgath` and `bstride` as it lands: its address and bytes. -/
def Stream.beat (r : Stream) (k : Nat) : Nat × List Byte :=
  (r.sb.toNat + 512 * k, beatBytes r.data (512 * k) (min 512 (r.n * r.z - 512 * k)))

/-- Element `e` of `bgath` and `bstride` as it lands: its address and bytes. -/
def Stream.elemPiece (r : Stream) (e : Nat) : Nat × List Byte := (r.sb.toNat + e * r.z, beatBytes r.data (e * r.z) r.z)

/-- What beat `k` lands: all of it, or the elements that are not late (R301). -/
def Stream.pieces (r : Stream) (late : List Nat) (k : Nat) : List (Nat × List Byte) :=
  if late.isEmpty then [r.beat k]
  else
    ((List.range r.n).filter fun e => e * r.z / 512 == k && !late.contains e).map r.elemPiece

/-- The status word (R325). -/
def Stream.status (r : Stream) (die : Nat) : DWord :=
  if !r.valid die then 1
  else
    let c (j : Nat) := (r.judged.filter (· == j)).length
    BitVec.ofNat 64 (c 3 * 2 ^ 52 + c 2 * 2 ^ 40 + c 1 * 2 ^ 28)

/-- The residency register after the status cycle (R318). -/
def Stream.residency (r : Stream) (w : WeightBits) : WeightBits :=
  writeWeights w (r.judged.zipIdx.map fun (j, e) => (e, if j = 3 then 0x8000 else 0))

end Sys2Proof.Machine
end

