-- ==== Sys2Proof/Machine/Calendar.lean ====
section
/-! DEFINITION. The calendars (R155 to R157, R211, R212, R230, R231, R250, R251, R276, R281, R312 to R314, R350, R400): the
visits that work in flight makes in a cycle, which of them overflow, and which word a conflict names. -/

namespace Sys2Proof.Machine

/-- What a visit is made on. -/
inductive Res where
  /-- A vector register bank, for reads and for writes. -/
  | regR (c : CoreId) (bank : Nat)
  | regW (c : CoreId) (bank : Nat)
  /-- A scratchpad bank. -/
  | bank (c : CoreId) (b : Nat)
  /-- Cluster network ports. -/
  | portOut (c : CoreId)
  | portIn (c : CoreId)
  /-- Fabric ports. -/
  | fabOut (c : CoreId)
  | fabIn (c : CoreId)
  /-- A link direction. -/
  | link (group i : Nat) (fwd : Bool)
  /-- The landing slot of a cluster's Racker. -/
  | racker (folio pkg die cluster : Nat)
  /-- A matrix unit: the product unit or the move unit. -/
  | unit (c : CoreId) (product : Bool)
  /-- A tile's window. -/
  | tile (c : CoreId) (d : Nat)
  /-- A die's selection arrays. -/
  | arrays (folio pkg die : Nat)
  /-- A channel of a stack. -/
  | channel (pkg stack ch : Nat)
  deriving DecidableEq, Repr

/-- The kind of a visit: to a bank a read, a write or a sole use; to a tile an accumulating write or another. -/
inductive VisitKind where
  | plain | read | write | sole | accumulate
  deriving DecidableEq, Repr

/-- A visit of one piece of work in one cycle. `a` and `b` say what it touches, for visits that may be shared; on a
scratchpad bank `a` is 1 for a Racker beat; `bad` marks a slot that is not grantable. -/
structure Visit where
  seq : Nat
  res : Res
  kind : VisitKind
  a : Nat
  b : Nat
  bad : Bool
  deriving DecidableEq, Repr

/-! ### Visits of each kind of work -/

/-- The group number of a full-register write (R156). -/
def fullGroup : Nat := 16

/-- A read visit of a register's group (R155). -/
def readV (n : Nat) (c : CoreId) (r : VReg) (g : Nat) : Visit := ⟨n, .regR c ((r.val + g) % 4), .plain, r.val, g, false⟩

/-- A write visit of a register's group. -/
def writeV (n : Nat) (c : CoreId) (r : VReg) (g : Nat) : Visit := ⟨n, .regW c ((r.val + g) % 4), .plain, r.val, g, false⟩

/-- A full-register write: the write visit of every bank (R156). -/
def writeAllV (n : Nat) (c : CoreId) (r : VReg) : List Visit :=
  (List.range 4).map fun b => ⟨n, .regW c b, .plain, r.val, fullGroup, false⟩

/-- A visit to every bank of a scratchpad (R211). -/
def everyBank (n : Nat) (c : CoreId) (k : VisitKind) : List Visit :=
  (List.range 16).map fun b => ⟨n, .bank c b, k, 0, 0, false⟩

/-- A Racker beat's visit to every bank of a scratchpad (R276). -/
def beatBanks (n : Nat) (c : CoreId) (k : VisitKind) : List Visit :=
  (List.range 16).map fun b => ⟨n, .bank c b, k, 1, 0, false⟩

/-- The banks that hold bytes of an access, each once (R166, R210, R211). -/
def banksOf (a n : Nat) : List Nat :=
  (((List.range n).map fun i => (a + i) % 2 ^ 64).filter fun x => decide (x < spadSize)).foldl
    (fun acc x => if acc.contains (x / 128 % 16) then acc else acc ++ [x / 128 % 16]) []

/-- Visits to those banks. -/
def bankVisits (s : Nat) (c : CoreId) (k : VisitKind) (a n : Nat) : List Visit :=
  (banksOf a n).map fun b => ⟨s, .bank c b, k, 0, 0, false⟩

/-- A list when a condition holds. -/
def when {α : Type} (b : Bool) (l : List α) : List α := if b then l else []

/-- The index of a relative cycle within `n` cycles that start at `lo`. -/
def within (r lo n : Nat) : Option Nat := if lo ≤ r ∧ r < lo + n then some (r - lo) else none

/-- Visits at an index, when there is one. -/
def at? (k : Option Nat) (f : Nat → List Visit) : List Visit := match k with | some k => f k | none => []

/-- The group of a register of type `t` that holds the elements of slot `k` of `len` elements. -/
def groupOf (t : ETy) (len k : Nat) : Nat := k * len / epg t

/-- The type a lane word writes. -/
def destType (t : ETy) : LaneOp → ETy
  | .cvt u => u
  | _ => t

/-- Register visits of a lane word (R120, R132, R139, R155, R156, R192, R197). -/
def laneVisits (n : Nat) (c : CoreId) (cap : Cap) (l : Lane) (r : Nat) : List Visit :=
  let len := slotLen cap.ty l.op
  let src (held : Bool) (x : Option VReg) (k : Nat) : List Visit :=
    match x with
    | none => []
    | some v => if held && k != 0 then [] else [readV n c v (groupOf cap.ty len k)]
  let reads := at? (within r 6 16) fun k =>
    src (heldA l.op) l.a k ++ (if readsB l.op then src (heldB l.op) l.b k else []) ++ src false l.d k
  let base := laneBase cap.ty l.op
  let second (k : Nat) : List Visit :=
    match l.op, l.b with
    | .bacc, some v | .comp, some v => [writeV n c v k]
    | _, _ => []
  let writes :=
    match l.dst with
    | .v d =>
      match l.op with
      | .segsum | .segmax | .segmin => when (r == base) (writeAllV n c d)
      | .redsum | .redmax | .redmin => when (r == base) [writeV n c d 0]
      | .ins =>
        let x := l.sa.toNat
        when (r == base && decide (x < vlmax cap.ty)) [writeV n c d (x / epg cap.ty)]
      | op => at? (within r base 16) fun k => writeV n c d (groupOf (destType cap.ty op) len k) :: second k
    | _ => []
  reads ++ writes

/-- Visits of an own-scratchpad vector memory word (R211, R219, R221, R225). -/
def vmemVisits (n : Nat) (c : CoreId) (cap : Cap) (kind : VMemKind) (d : VReg) (x : VMode) (r : Nat) : List Visit :=
  let len := vmemLen cap.ty x
  let idx (k : Nat) : List Visit := match x with | .indexed v => [readV n c v k] | _ => []
  let dread (k : Nat) : List Visit := [readV n c d (groupOf cap.ty len k)]
  let reads := at? (within r 6 16) fun k =>
    match kind with
    | .load => idx k ++ everyBank n c .read
    | .store => idx k ++ dread k
    | .blend _ => idx k ++ dread k ++ everyBank n c .read
    | .qstore _ => dread k
    | .qload _ => everyBank n c .read
  let lands := at? (within r (vmemBase kind) 16) fun k =>
    match kind with
    | .load | .qload _ => [writeV n c d (groupOf cap.ty len k)]
    | .store | .blend _ | .qstore _ => everyBank n c .write
  reads ++ lands

/-- Visits of a matrix word (R230, R231, R234, R236, R237, R239). -/
def matVisits (n : Nat) (c : CoreId) (cap : Cap) (op : MatOp) (d : Nat) (a b : Option VReg) (sh : Shape) (r : Nat) :
    List Visit :=
  let s := matSteps cap op sh
  if s = 0 then
    -- no step and no window; the operands are read all the same
    at? (within r 6 (matReadGroups cap op)) fun g => (a.map (readV n c · g)).toList ++ (b.map (readV n c · g)).toList
  else
    let reads := at? (within r 6 (matReadGroups cap op)) fun g => (a.map (readV n c · g)).toList ++ (b.map (readV n c · g)).toList
    let step := at? (within r 22 s) fun _ =>
      [⟨n, .unit c (onProductUnit op), .plain, 0, 0, false⟩] ++
        (match op with
         | .mopaq .. => when (cap.ty == .e2m1) (everyBank n c .read)
         | .mgath .. => everyBank n c .read ++ everyBank n c .read
         | _ => [])
    let kind (other : Bool) : VisitKind := if accumulates op && !other then .accumulate else .plain
    let window := when (writesTile op && decide (22 ≤ r) && decide (r < matReady cap op sh))
      ([⟨n, .tile c d, kind false, 0, 0, false⟩] ++
        (match op with | .mscale => [⟨n, .tile c (Nat.xor d 1), kind true, 0, 0, false⟩] | _ => []))
    let out := match op, a with
      | .mcolr _, some v | .mrowr _, some v => at? (within r 30 (moveGroups cap.ty)) fun g => [writeV n c v g]
      | _, _ => []
    (match op with | .mcolr _ | .mrowr _ => [] | _ => reads) ++ step ++ window ++ out

/-! ### Cluster accesses (R248 to R250) -/

/-- The core a cluster address names. -/
def clusterTarget (id : CoreId) (a : DWord) : CoreId := { id with core := field a.toNat 20 4 }

/-- Whether a cluster address names a core of the quire (R249). -/
def clusterOk (e : Extents) (a : DWord) : Bool := field a.toNat 24 40 == 0 && decide (field a.toNat 20 4 < e.k)

/-- Targets of a remote access: the cores reached, in order. -/
def remoteTargets (e : Extents) (id : CoreId) (op : RemoteOp) (a : DWord) : List CoreId :=
  match op with
  | .multi mask =>
    if field a.toNat 24 40 = 0 then ((List.range 12).filter fun k => mask.testBit k && decide (k < e.k)).map fun k => { id with core := k }
    else []
  | _ => if clusterOk e a then [clusterTarget id a] else []

/-- Visits of a remote vector access (R250). -/
def remoteVisits (n : Nat) (c : CoreId) (e : Extents) (op : RemoteOp) (d : VReg) (a : DWord) (r : Nat) : List Visit :=
  let ts := remoteTargets e c op a
  -- a group all of whose bytes are out of range takes nothing at a target (R249)
  let at_ (g : Nat) : List CoreId := if field a.toNat 0 20 + 128 * g < spadSize then ts else []
  match op with
  | .load =>
    (at? (within r 18 16) fun g => (at_ g).flatMap fun t => ⟨n, .portOut t, .plain, 0, 0, false⟩ :: everyBank n t .read) ++
      (at? (within r 30 16) fun g => [⟨n, .portIn c, .plain, 0, 0, false⟩, writeV n c d g])
  | _ =>
    (at? (within r 6 16) fun g => [⟨n, .portOut c, .plain, 0, 0, false⟩, readV n c d g]) ++
      (at? (within r 18 16) fun g => (at_ g).flatMap fun t => ⟨n, .portIn t, .plain, 0, 0, false⟩ :: everyBank n t .write)

/-- Visits of a scalar atomic: sole use of one bank for three cycles (R255). -/
def amoVisits (n : Nat) (c : CoreId) (e : Extents) (a : DWord) (r : Nat) : List Visit :=
  at? (within r 12 3) fun _ => when (clusterOk e a) [⟨n, .bank (clusterTarget c a) (field a.toNat 7 4), .sole, 0, 0, false⟩]

/-- Visits of `vamoadd` (R250, R257). -/
def vamoVisits (n : Nat) (c : CoreId) (e : Extents) (cap : Cap) (d : VReg) (a : DWord) (x : VReg) (r : Nat) : List Visit :=
  let t := clusterTarget c a
  (at? (within r 6 16) fun k => [⟨n, .portOut c, .plain, 0, 0, false⟩, readV n c d (groupOf cap.ty 32 k), readV n c x k]) ++
    (at? (within r 18 16) fun _ => when (clusterOk e a) [⟨n, .portIn t, .plain, 0, 0, false⟩]) ++
    (at? (within r 18 18) fun _ => when (clusterOk e a) (everyBank n t .sole))

/-! ### HBM slots (R312 to R314) -/

/-- Whether a channel's slot is grantable at a calendar position. -/
def grantable (h pos : Nat) : Bool := !(decide (64 * h ≤ pos) && decide (pos ≤ 64 * h + 41))

/-- Slots on the channels that hold bytes, each once. -/
def slotVisits (n pkg pos : Nat) (bytes : List (Nat × Nat)) : List Visit :=
  let cs := bytes.flatMap fun x =>
    if x.2 = 0 then [] else [(vaStack x.1, vaChannel x.1), (vaStack (x.1 + x.2 - 1), vaChannel (x.1 + x.2 - 1))]
  let once := cs.foldl (fun (acc : List (Nat × Nat)) y => if acc.contains y then acc else acc ++ [y]) []
  once.map fun y => ⟨n, .channel pkg y.1 y.2, .plain, 0, 0, !grantable y.2 pos⟩

/-- The first and the last byte of a range, each where its stack lies within distance (R275). -/
def Racker.reached (x : Racker) (die a n : Nat) : List (Nat × Nat) :=
  [(a, 1), (a + n - 1, 1)].filter fun y => x.reaches die y.1

/-- The HBM bytes of the source side of a beat: in shape and within distance. A block is read by every beat that carries one of its
elements (log 150). -/
def Racker.srcBytes (x : Racker) (die k : Nat) : List (Nat × Nat) :=
  (x.beatElems k).flatMap fun e =>
    match x.src.pairInt (x.srcPair (x.beatRow k) e) with
    | none => []
    | some p => x.reached die (x.src.addr p) x.src.size

/-- The HBM bytes of the destination side: of the elements a beat carries, or of the blocks it completes. -/
def Racker.dstBytes (x : Racker) (die k : Nat) : List (Nat × Nat) :=
  if x.dst.mx then
    (x.beatBlocks k).flatMap fun b => x.reached die (x.dst.addr (b.1, 32 * b.2)) x.dst.size
  else
    (x.beatElems k).flatMap fun e =>
      match x.dst.pairInt (x.dstPair (x.beatRow k) e) with
      | none => []
      | some p => x.reached die (x.dst.addr p) x.dst.size

/-- The beat at a relative cycle, for cycles spaced by `step` from `lo`. -/
def beatAt (r lo step n : Nat) : Option Nat :=
  if lo ≤ r ∧ (r - lo) % step = 0 ∧ (r - lo) / step < n then some ((r - lo) / step) else none

/-- Beats spaced in cellar mode. -/
def Racker.step (x : Racker) : Nat := if x.mode = 3 then 205 else 1

/-- The beat read at a relative cycle; a beat from the cellar is read as it lands (log 18). -/
def Racker.readBeat (x : Racker) (r : Nat) : Option Nat :=
  if x.fromCellar then none else beatAt r (x.readAt 0) 1 x.count

/-- The beat landing at a relative cycle. -/
def Racker.landBeat (x : Racker) (r : Nat) : Option Nat := beatAt r x.t0 x.step x.count

/-- Visits of a transfer (R268, R276, R313); `pkg` is the physical package and `pos` the calendar position. -/
def rackerVisits (n : Nat) (c : CoreId) (e : Extents) (pkg pos : Nat) (x : Racker) (r : Nat) : List Visit :=
  let launch := when (r == 1) (everyBank n c .read)
  let reads := at? (x.readBeat r) fun k =>
    if x.sHbm then when (x.gate == 0) (slotVisits n pkg pos (x.srcBytes c.die k)) else beatBanks n c .read
  let lands := at? (x.landBeat r) fun k =>
    [⟨n, .racker c.folio c.pkg c.die c.cluster, .plain, 0, 0, false⟩] ++
      (if x.dHbm then when (x.gate == 0) (slotVisits n pkg pos (x.dstBytes c.die k))
       else when (x.mode == 0 || x.mode == 2) ((x.reachedTargets c e).flatMap fun t => beatBanks n t .write))
  if r ≤ 1 then launch else reads ++ lands

/-- Visits of a stream (R324, R314): its block and beats, and its window on every channel of its stack. -/
def streamVisits (n : Nat) (c : CoreId) (pkg : Nat) (x : Stream) (r : Nat) : List Visit :=
  let reads := when (x.read c.die r).isSome (everyBank n c .read)
  if r ≤ 1 ∨ ¬ x.valid c.die then reads
  else
    let window := at? (within r x.open_ x.len) fun _ =>
      (List.range 16).map fun h => ⟨n, .channel pkg x.stack h, .plain, 0, 0, false⟩
    let lands := when (x.op != .scat) (at? (within r x.land0 x.dataBeats) fun _ => everyBank n c .write)
    reads ++ window ++ lands

/-! ### Press visits (R250, R281, R282, R400) -/

/-- The owner that a dispatch beat goes to, where its entry names one. -/
def Card.beatOwner (c : Card) (id : CoreId) (x : DWord) : Option CoreId := (c.expert x).map (c.owner id)

/-- Visits of a Press word. `entry` gives an entry by its number, and `clears` is the card by whose fields this word's
clear is made, when it makes one. A `psel` that its card does not allow takes no selection array (log 76). -/
def pressVisits (n : Nat) (id : CoreId) (p : Press) (g : Option (Card × Nat)) (entry : Nat → DWord) (clears : Option Card)
    (r : Nat) : List Visit :=
  match p.op, g with
  | .card, _ =>
    when (r == 1) (everyBank n id .read) ++
      (match clears with
       | some c => at? (within r 48 c.clearBeats) fun _ => (c.owners id).flatMap fun o => everyBank n o .write
       | none => [])
  | .sel, some (c, k) =>
    (at? (within r 2 (c.bl k)) fun _ => everyBank n id .read) ++
      (at? (within r (2 + c.bl k) (16 + c.bits + 2)) fun _ => [⟨n, .arrays id.folio id.pkg id.die, .plain, 0, 0, false⟩]) ++
      (at? (within r (46 + c.bl k + c.bits) (c.bs k)) fun _ => everyBank n id .write)
  | .disp, some (c, k) =>
    let total := k * c.k * c.br
    (at? (within r 8 total) fun i =>
      when (i % c.br == 0) (everyBank n id .read) ++
        when (c.beatOwner id (entry (i / c.br))).isSome (⟨n, .portOut id, .plain, 0, 0, false⟩ :: everyBank n id .read)) ++
      (at? (within r 48 total) fun i =>
        match c.beatOwner id (entry (i / c.br)) with
        | some o => ⟨n, .portIn o, .plain, 0, 0, false⟩ :: everyBank n o .write
        | none => []) ++
      (at? (within r 88 total) fun i => when (i % c.br == 0) (everyBank n id .write))
  | .comb, some (c, k) =>
    let total := k * c.k * c.bo
    (at? (within r 8 total) fun i => when (i % c.bo == 0) (everyBank n id .read)) ++
      (match p.ownerRead g id r with
       | some (_, o, _, _) => ⟨n, .portOut o, .plain, 0, 0, false⟩ :: everyBank n o .read
       | none => []) ++
      (at? (within r 88 total) fun i =>
        when (c.combined (entry (i / c.bo))).isSome [⟨n, .portIn id, .plain, 0, 0, false⟩]) ++
      (at? (within r (92 + c.rc) (k * c.rc)) fun i => when (decide (i % c.rc < c.bc)) (everyBank n id .write))
  | _, none => []

/-- The `pcard` words that issued in one cycle on one die (R282), the highest rank last. -/
def State.cardGroup (s : State) (j : Job) : List Job :=
  s.jobs.filter fun i =>
    i.core.folio == j.core.folio && i.core.pkg == j.core.pkg && i.core.die == j.core.die && i.cyc == j.cyc &&
      (match i.cut with | some x => decide (j.cyc + 1 < x) | none => true) &&
      (match i.work with | .press p => p.op == .card | _ => false)

/-- Whether a `pcard` governs: it issued from the core of highest rank. -/
def State.cardGoverns (s : State) (j : Job) : Bool := (s.cardGroup j).getLast?.any fun i => i.seq == j.seq

/-- The card by which a `pcard` clears: it governs, its card is valid, and a word of the group asks for a clear. -/
def State.cardClears (s : State) (j : Job) : Option Card :=
  let asks := (s.cardGroup j).any fun i => match i.work with | .press p => p.sb.getLsbD 0 | _ => false
  match j.work with
  | .press p => if s.cardGoverns j && asks then p.card.bind (Card.parse (s.extOf j.core.folio) j.core) else none
  | _ => none

/-! ### Sends (R350) -/

/-- Visits of a scalar send: a write visit in its bank, and its links. -/
def sendVisits (n : Nat) (c : CoreId) (e : Extents) (a : DWord) (dist grp : Nat) (hops : List (Nat × Bool × Nat)) (r : Nat) :
    List Visit :=
  when (r == dist && sendInQuire e c.folio a)
      [⟨n, .bank (sendTarget c.folio a) (field a.toNat 7 4), .write, 0, 0, false⟩] ++
    (hops.filter fun h => h.2.2 == r).map fun h => ⟨n, .link grp h.1 h.2.1, .plain, 0, 0, false⟩

/-- Visits of a vector send. A group all of whose bytes are out of range takes nothing at the target (R346). -/
def sendvVisits (n : Nat) (c : CoreId) (e : Extents) (d : VReg) (a : DWord) (dist grp : Nat)
    (hops : List (Nat × Bool × Nat)) (r : Nat) : List Visit :=
  (at? (within r 6 16) fun g => [readV n c d g, ⟨n, .fabOut c, .plain, 0, 0, false⟩]) ++
    (at? (within r dist 16) fun g =>
      when (sendInQuire e c.folio a && decide (sendOffset a + 128 * g < spadSize))
        (⟨n, .fabIn (sendTarget c.folio a), .plain, 0, 0, false⟩ :: everyBank n (sendTarget c.folio a) .write)) ++
    hops.flatMap fun h => at? (within r h.2.2 16) fun _ => [⟨n, .link grp h.1 h.2.1, .plain, 0, 0, false⟩]

/-! ### All work -/

/-- The physical package of a core. -/
def State.physOf (s : State) (id : CoreId) : Nat := match s.core? id with | some c => c.phys | none => 0

/-- A number for the group a package belongs to: its package 0. -/
def State.groupOfPkg (s : State) (i : Nat) : Nat := match s.pkgs[i]? with | some p => p.group.headD i | none => i

/-- Whether work still makes visits in a cycle (R157). -/
def Job.lives (j : Job) (x : Nat) : Bool := match j.cut with | some y => decide (x < y) | none => true

/-- The entry a Press word uses: as read, or as the scratchpad holds it in the cycle that reads it. -/
def State.entryNow (s : State) (j : Job) (p : Press) (c : Card) (q : Nat) : DWord :=
  match p.entries.find? fun x => x.1 == q with
  | some x => x.2
  | none =>
    match s.core? j.core with
    | some k => BitVec.ofNat 64 (leNat (spadBytes k.spad (c.sel + 8 * q) 8))
    | none => 0xFFFFFFFF

/-- The entry by which a Press word is charged: as read, or as `ahead` holds it in the cycle that reads it; where `ahead` is not known
yet, an entry that names no expert. -/
def entryAhead (ahead : Option State) (j : Job) (p : Press) (g : Option (Card × Nat)) (q : Nat) : DWord :=
  match ahead, g with
  | some a, some (c, _) => a.entryNow j p c q
  | none, some _ => entryOf p.entries q
  | _, none => 0

/-- The entries a Press word uses, by its governing card; 0 without one. -/
def State.entryOr (s : State) (j : Job) (p : Press) (g : Option (Card × Nat)) (q : Nat) : DWord :=
  match g with
  | some (c, _) => s.entryNow j p c q
  | none => 0

/-- The visits of one piece of work at scc `x`. `ahead` is the state after the landings of the cycle, as a `pdisp` that reads an entry
in it sees it (R361, log 30); without it, no charge that depends on such an entry is made. -/
def State.visits (s : State) (ahead : Option State) (j : Job) (x : Nat) : List Visit :=
  let r := x - j.cyc
  let n := j.seq
  let c := j.core
  let e := s.extOf c.folio
  let pkg := s.physOf c
  let pos := (x - s.startOf c.folio) % 1024
  if x ≤ j.cyc ∨ ¬ j.lives x then []
  else
    match j.work with
    | .scalar .. => []
    | .sstore a bs => when (r == 2) (bankVisits n c .write a.toNat bs.length)
    | .lane l => laneVisits n c j.cap l r
    | .vmem k d _ m => vmemVisits n c j.cap k d m r
    | .vtld .. => when (decide (r ≤ 3)) (everyBank n c .read)
    | .vlrec .. => when (r == 1) (everyBank n c .read)
    | .matrix op d a b sh _ => matVisits n c j.cap op d a b sh r
    | .remote op d a => remoteVisits n c e op d a r
    | .amo _ _ a _ _ _ => amoVisits n c e a r
    | .vamo d a v => vamoVisits n c e j.cap d a v r
    | .racker t => rackerVisits n c e pkg pos t r
    | .press p =>
      let g := p.govern e c
      pressVisits n c p g (entryAhead ahead j p g)
        (if p.op = .card then s.cardClears j else none) r
    | .flaunch .. => when (r == 1) (everyBank n c .read)
    | .stream t => streamVisits n c pkg t r
    | .preq _ => []
    | .send a _ d => sendVisits n c e a d (s.groupOfPkg pkg) (s.sendHops c pkg a) r
    | .sendv d a k => sendvVisits n c e d a k (s.groupOfPkg pkg) (s.sendHops c pkg a) r

/-! ### Conflicts -/

/-- Distinct groups read. -/
def distinctReads : List Visit → List (Nat × Nat)
  | [] => []
  | v :: r => let rest := distinctReads r; if rest.contains (v.a, v.b) then rest else (v.a, v.b) :: rest

/-- Whether two writes on a bank share a visit, among the writes `vs` there: writes of one group of one register, or of one
register that is written in full in the cycle (R155, R156). -/
def shareWrite (vs : List Visit) (v w : Visit) : Bool :=
  v.a == w.a && (v.b == w.b || vs.any fun u => u.a == v.a && u.b == fullGroup)

/-- Whether visits on one resource are more than it serves. -/
def overfull (r : Res) (vs : List Visit) : Bool :=
  let count (k : VisitKind) := (vs.filter fun v => v.kind == k).length
  match r with
  | .regR .. => decide (2 < (distinctReads vs).length)
  | .regW .. => vs.any fun v => vs.any fun w => !shareWrite vs v w
  | .bank .. =>
    decide (2 < count .read) || decide (2 < count .write) ||
      ((vs.any fun v => v.kind == .sole) && vs.any fun v => vs.any fun w => v.seq != w.seq)
  | .portOut _ | .fabOut _ | .fabIn _ | .racker .. | .unit .. | .arrays .. => decide (1 < vs.length)
  | .portIn _ | .link .. => decide (2 < vs.length)
  | .tile .. => vs.any fun v => vs.any fun w => v.seq != w.seq && !(v.kind == .accumulate && w.kind == .accumulate)
  | .channel .. => vs.any (·.bad) || decide (1 < vs.length)

/-- Whether two visits to one bank break a sole use, and the first is one that may be named for it: between a sole use and a
Racker beat the beat is (R251, R276). -/
def breaksSole (v w : Visit) : Bool :=
  v.seq != w.seq && ((v.kind == .sole && w.a == 0) || w.kind == .sole)

/-- Whether a visit overflows, among the visits on its resource: on a bank, as one read, write or sole use too many. -/
def Visit.overflows (v : Visit) (vs : List Visit) : Bool :=
  match v.res with
  | .bank .. => (v.kind != .sole && decide (2 < (vs.filter fun w => w.kind == v.kind).length)) || vs.any (breaksSole v)
  | r => overfull r vs

/-- The visits that overflow. -/
def overflowing (vs : List Visit) : List Visit := vs.filter fun v => v.overflows (vs.filter fun w => w.res == v.res)

/-- The words named, each once, with fuel for as many as there are: the latest in issue order among those whose visits
overflow, then again without its visits (R157, R212, R251). -/
def nameConflicts : Nat → List Visit → List Nat
  | 0, _ => []
  | fuel + 1, vs =>
    match overflowing vs with
    | [] => []
    | o :: os =>
      let late := os.foldl (fun m v => max m v.seq) o.seq
      nameConflicts fuel (vs.filter fun v => v.seq != late) ++ [late]

/-- The scc at the core of a piece of work, as its folio counts. -/
def State.jobNow (s : State) (j : Job) : Nat := s.sccOf (s.physOf j.core) + s.leadOf j.core.folio

/-- The words that conflicts of the current cycle name, in issue order, among the work of packages in step with package
`i`. -/
def State.conflicts (s : State) (ahead : Option State) (keep : Job → Bool) : List Nat :=
  let js := s.jobs.filter keep
  let vs := js.flatMap fun j => s.visits ahead j (s.jobNow j)
  nameConflicts js.length vs

end Sys2Proof.Machine
end

