-- ==== Sys2Proof/Machine/Sample.lean ====
section
/-! DEFINITION. What work in flight reads in a cycle (R146, R153, R219 to R225, R233, R253, R255, R257, R268, R269, R282 to
R287, R300, R313, R324, R349, R361, R365), once everything that lands in the cycle has landed. -/

namespace Sys2Proof.Machine

/-! ### Cluster accesses (R249, R253) -/

/-- Body elements of group `g` that are active. -/
def groupActive (cap : Cap) (g : WeightBits) (k : Nat) : List Nat :=
  let len := epg cap.ty
  ((List.range len).map (· + k * len)).filter (active cap (min cap.vl (vlmax cap.ty)) g)

/-- The offset of an element in its target. -/
def clusterOffset (a : DWord) (b e : Nat) : Nat := field a.toNat 0 20 + e * b

/-- Offers of a cluster access by element (R249, R253): bytes out of range, and for `vstm` the lowest set bit whose core
is out of range, as every core is where bits 63:24 of sA are not zero; of two offers of one element the one of that core comes
first (log 31). -/
def remoteOffers (x : Extents) (op : RemoteOp) (a : DWord) (b : Nat) (es : List Nat) : List (Nat × Nat) :=
  match op with
  | .multi mask =>
    let ks := (List.range 12).filter fun k => mask.testBit k
    let absent := (ks.find? fun k => field a.toNat 24 40 != 0 || decide (x.k ≤ k)).map fun k => (es.headD 0, field a.toNat 0 20 + 2 ^ 20 * k)
    let over_ := (es.filter fun e => decide (spadSize < clusterOffset a b e + b)).filterMap fun e =>
      ks.head?.map fun k => (e, clusterOffset a b e + 2 ^ 20 * k)
    if es.isEmpty then [] else absent.toList ++ over_
  | _ =>
    (es.filter fun e => !clusterOk x a || decide (spadSize < clusterOffset a b e + b)).map fun e =>
      (e, (a.toNat + e * b) % 2 ^ 64)

/-- Codes read by elements from a target; none when the address names no core of the quire. -/
def remoteRead (m : Option Memory) (a : DWord) (b : Nat) (es : List Nat) : List (Nat × Nat) :=
  es.map fun e => (e, match m with | some m => leNat (spadBytes m (clusterOffset a b e) b) | none => 0)

/-- What a remote access takes in at `r` cycles after issue, and the offers of `vldc`; a store offers as it lands (R214). -/
def remoteSample (c : Core) (x : Extents) (target : Option Memory) (cap : Cap) (op : RemoteOp) (d : VReg) (a : DWord)
    (r : Nat) (sm : Samples) : Samples × List (Nat × Nat) :=
  let w := width cap.ty
  let len := epg cap.ty
  let sm :=
    match within r 6 16 with
    | none => sm
    | some k =>
      let sm := sampleGuard c cap len k sm
      match op with
      | .load => sm
      | _ => { sm with d := copyElems sm.d c.v[d] w (k * len) len }
  match within r 18 16 with
  | none => (sm, [])
  | some g =>
    let es := groupActive cap sm.g g
    match op with
    | .load => ({ sm with mem := writeElems sm.mem w (remoteRead target a (w / 8) es) }, remoteOffers x op a (w / 8) es)
    | _ => (sm, [])

/-! ### `vamoadd` (R257) -/

/-- The body of `vamoadd`. -/
def vamoBody (cap : Cap) : Nat := min (min cap.vl (vlmax cap.ty)) 512

/-- Its offers, from all that its slots take in. -/
def vamoOffers (x : Extents) (cap : Cap) (a : DWord) (sm : Samples) : List (Nat × Nat) :=
  let b := width cap.ty / 8
  let es := (List.range 512).filter (active cap (vamoBody cap) sm.g)
  (es.filter fun e => !clusterOk x a || decide (spadSize < field a.toNat 0 20 + elem sm.b 32 e + b)).map fun e =>
    (e, (a.toNat + elem sm.b 32 e) % 2 ^ 64)

/-- What `vamoadd` takes in at `r` cycles after issue. Its offers are made by `State.vamoOffer`. -/
def vamoSample (c : Core) (cap : Cap) (d v : VReg) (r : Nat) (sm : Samples) : Samples :=
  match within r 6 16 with
  | none => sm
  | some k =>
    { sampleGuard c cap 32 k sm with
      d := copyElems sm.d c.v[d] (width cap.ty) (32 * k) 32
      b := copyElems sm.b c.v[v] 32 (32 * k) 32 }

/-! ### Sends (R349) -/

/-- What a vector send takes in. -/
def sendvSample (c : Core) (cap : Cap) (d : VReg) (r : Nat) (sm : Samples) : Samples :=
  match within r 6 16 with
  | none => sm
  | some k =>
    let len := epg cap.ty
    { sampleGuard c cap len k sm with d := copyElems sm.d c.v[d] (width cap.ty) (k * len) len }

/-! ### All work -/

/-- Offers to the oob of a core, from work issued at folio cycle `c0`. -/
def State.offers (s : State) (j : Job) (x : Nat) (xs : List (Nat × Nat)) : State :=
  if xs.isEmpty then s
  else
    let f := s.startOf j.core.folio
    s.updCore j.core fun c => c.offerAll ⟨x, x - f, j.cyc - f, j.seq, j.word⟩ xs

/-- Work with new samples. -/
def State.sampled (s : State) (j : Job) (sm : Samples) : State := s.updJob j.seq fun i => { i with smp := sm }

/-- Work with its own record changed. -/
def State.worked (s : State) (j : Job) (w : Work) : State := s.updJob j.seq fun i => { i with work := w }

/-- The scratchpad of a core of the folio. -/
def State.spadOf (s : State) (id : CoreId) : Option Memory := (s.core? id).map (·.spad)

/-- One optional offer, with its element. -/
def offer1 (e : Nat) (a : Option Nat) : List (Nat × Nat) := match a with | some a => [(e, a)] | none => []

/-- A transfer's reads in a cycle: the records at c+1, then its beats (R268, R269, R277). -/
def State.sampleRacker (s : State) (j : Job) (c : Core) (t : Racker) (x : Nat) : State :=
  let r := x - j.cyc
  if r = 1 then
    let outs := (layoutOut c.spad t.sh[1].toNat).toList ++ (layoutOut c.spad t.sh[2].toNat).toList
    let low := outs.foldl (fun (m : Option Nat) a => match m with | none => some a | some b => some (min a b)) none
    (s.worked j (.racker (t.launch c.spad))).offers j x (offer1 0 low)
  else
    match t.readBeat r with
    | none => s
    | some k =>
      if t.gate ≠ 0 then s
      else
        let y := s.rackerElems j t (t.beatRow k) (t.beatElems k)
        let t := { t with beats := t.beats ++ [(k, y.2.1)], errs := t.errs ++ y.2.1.map (·.err) }
        (y.1.worked j (.racker t)).offers j x y.2.2

/-- The reads of one piece of work at scc `x`. -/
def State.sampleJob (s : State) (x : Nat) (j : Job) : State :=
  match s.core? j.core with
  | none => s
  | some c =>
    let r := x - j.cyc
    let e := s.extOf j.core.folio
    if x ≤ j.cyc ∨ ¬ j.lives x then s
    else
      match j.work with
      | .scalar .. | .sstore .. | .preq _ | .send .. => s
      | .lane l =>
        match within r 6 16 with
        | some k => s.sampled j (laneSample c j.cap l k j.smp)
        | none => s
      | .vmem kind d base m =>
        match within r 6 16 with
        | some k =>
          let y := vmemSample c j.cap kind d base m k j.smp
          (s.sampled j y.1).offers j x y.2
        | none => s
      | .vtld _ a =>
        if r ≤ 3 then
          let y := vtldSample c.spad a r j.smp
          (s.sampled j y.1).offers j x (offer1 (r - 1) y.2)
        else s
      | .vlrec d a _ =>
        if r = 1 then
          let l := loadLayout c.spad a.toNat
          (s.worked j (.vlrec d a (some l.1))).offers j x (if l.2 then [(0, a.toNat)] else [])
        else s
      | .matrix op _ a b _ _ =>
        match within r 6 16 with
        | some g => s.sampled j (matSample c j.cap op (match op with | .mcolr _ | .mrowr _ => none | _ => a) b g j.smp)
        | none => s
      | .remote op d a =>
        let m := if clusterOk e a then s.spadOf (clusterTarget j.core a) else none
        let y := remoteSample c e m j.cap op d a r j.smp
        (s.sampled j y.1).offers j x y.2
      | .amo op d a b w _ =>
        if r = 12 then
          if clusterOk e a then
            let m := (s.spadOf (clusterTarget j.core a)).getD []
            let old : DWord := BitVec.ofNat 64 (leNat (spadBytes m (field a.toNat 3 17 * 8) 8))
            s.worked j (.amo op d a b w (some old))
          else s.offers j x [(0, a.toNat)]
        else s
      | .vamo d _ v => s.sampled j (vamoSample c j.cap d v r j.smp)
      | .racker t => s.sampleRacker j c t x
      | .press p =>
        let g := p.govern e j.core
        let theirs := (p.ownerRead g j.core r).bind fun (i, o, a, n) => (s.spadOf o).map fun m => (i, m, a, n)
        let q := p.sample g c.spad theirs r
        (s.worked j (.press q)).offers j x (offer1 r (q.offer g (s.entryOr j q g) r))
      | .flaunch a _ =>
        if r = 1 then
          let b := a.toNat / 16 * 16
          (s.sampled j { j.smp with mem := BitVec.ofNat 16384 (leNat (spadBytes c.spad b 256)) }).offers j x
            (offer1 0 (firstOut b 256))
        else s
      | .stream t =>
        let y := t.sample c.spad j.core.die r
        (s.worked j (.stream y)).offers j x (offer1 r (t.offer j.core.die r))
      | .sendv d a k =>
        let s := s.sampled j (sendvSample c j.cap d r j.smp)
        -- a send to a package outside the table lands nowhere and offers as it is read
        if k = 0 then
          match within r 6 16 with
          | some g =>
            let sm := sendvSample c j.cap d r j.smp
            s.offers j x ((groupActive j.cap sm.g g).map fun e => (e, (a.toNat + e * (width j.cap.ty / 8)) % 2 ^ 64))
          | none => s
        else s

/-- The reads in the current cycle of the work that `keep` selects, in issue order, with their offers but for those of `vamoadd`. -/
def State.readIf (s : State) (keep : Job → Bool) : State :=
  (s.jobs.filter keep).foldl (fun s j => s.sampleJob (s.jobNow j) j) s

end Sys2Proof.Machine
end

