-- ==== Sys2Proof/Machine/Landing.lean ====
section
/-! DEFINITION. What lands from work in flight (R117, R151, R152, R157, R220, R225, R230 to R240, R253 to R257, R268,
R278, R282 to R287, R318, R319, R323 to R325, R348 to R351, R363): one operation for each kind of landing, named by
the work and the slot, and the events that a cycle brings for each piece of work. -/

namespace Sys2Proof.Machine

/-! ### Helpers -/

/-- Runs an operation on work in flight; work that is gone lands nothing. -/
def State.withJob (s : State) (n : Nat) (f : Job → State) : State :=
  match s.job? n with
  | some j => f j
  | none => s

/-- The stamp of what lands now from a piece of work. -/
def State.stampOf (s : State) (j : Job) : Stamp :=
  let f := s.startOf j.core.folio
  let x := s.jobNow j
  ⟨x, x - f, j.cyc - f, j.seq, j.word⟩

/-- Whether work that needs a visit at `r` cycles after issue still has it (R157). -/
def Job.keeps (j : Job) (r : Nat) : Bool := j.lives (j.cyc + r)

/-- Flags landing on the core that issued a piece of work. -/
def State.raiseOn (s : State) (j : Job) (hits : List FlagHit) : State :=
  if hits.isEmpty then s else s.updCore j.core fun c => c.raiseAt (s.stampOf j) hits

/-- Offers landing now on the core that issued a piece of work. -/
def State.offerOn (s : State) (j : Job) (xs : List (Nat × Nat)) : State := s.offers j (s.jobNow j) xs

/-- A scalar register of the issuing core written. -/
def State.setSOn (s : State) (j : Job) (d : SReg) (x : DWord) : State := s.updCore j.core fun c => c.setS d x

/-- Bytes stored in a core's scratchpad. -/
def State.storeIn (s : State) (id : CoreId) (a : Nat) (bs : List Byte) : State :=
  s.updCore id fun c => { c with spad := spadStore c.spad a bs }

/-- Changes the Press of a die as a folio uses it. -/
def Folio.updPress (f : Folio) (pkg die : Nat) (g : PressUnit → PressUnit) : Folio :=
  let u : PressUnit := (f.press.find? fun u => u.pkg == pkg && u.die == die).getD ⟨pkg, die, none, []⟩
  { f with press := (f.press.filter fun u => !(u.pkg == pkg && u.die == die)) ++ [g u] }

/-- A window counter: by the number of the expert, whichever card a dispatch is governed by (log 132). -/
def Folio.counter (f : Folio) (pkg die e : Nat) : Nat :=
  match f.press.find? fun u => u.pkg == pkg && u.die == die with
  | some u => ((u.counters.find? fun x => x.1 == e).map (·.2)).getD 0
  | none => 0

/-! ### Lane words -/

/-- Whether slot `k` of a lane word still lands: a vector destination needs its write visit, a weight destination the
reads of its slot, `vext` the last of its reads (R157). -/
def Job.laneKept (j : Job) (l : Lane) (k x : Nat) : Bool :=
  match l.dst with
  | .v _ => j.lives x
  | .w _ => j.keeps (6 + k)
  | .s _ => j.keeps 21

/-! ### The matrix engine (R230 to R240) -/

/-- When the effect of a matrix word becomes readable. -/
def Job.ready (j : Job) : Nat :=
  match j.work with
  | .matrix op _ _ _ sh _ => j.cyc + matReady j.cap op sh
  | _ => j.cyc

/-- The image that accumulating work in flight holds of a tile of a core. -/
def Job.imageOn (j : Job) (id : CoreId) (d : Nat) : Option TileBits :=
  match j.work with
  | .matrix op d' _ _ _ img => if accumulates op && j.core == id && d' == d then img else none
  | _ => none

/-- A tile of a core. -/
def Core.tile (c : Core) (d : Nat) : TileBits := c.t[d % 4]'(Nat.mod_lt _ (by decide))

/-- A tile written. -/
def Core.setTile (c : Core) (d : Nat) (x : TileBits) : Core := { c with t := c.t.set (d % 4) x (Nat.mod_lt _ (by decide)) }

/-- The tile that the first step of accumulating work adds to: the latest readable image among the work whose effect
is readable no later than its own, or the tile itself (R231, log 14). -/
def State.tileBase (s : State) (j : Job) (d : Nat) (c : Core) : TileBits :=
  let xs : List (Nat × TileBits) :=
    s.jobs.filterMap fun i => if i.ready ≤ j.ready then (i.imageOn j.core d).map fun t => (i.ready, t) else none
  match xs.foldl (fun (m : Option (Nat × TileBits)) x => match m with | none => some x | some y => if y.1 ≤ x.1 then some x else m) none with
  | some x => x.2
  | none => c.tile d

/-- A step's sum added to the images of all accumulating work on the tile whose effect is readable no earlier (R231). -/
def State.chain (s : State) (j : Job) (d : Nat) (f : TileBits → TileBits) : State :=
  { s with jobs := s.jobs.map fun i =>
      if i.seq ≠ j.seq ∧ j.ready ≤ i.ready then
        match i.imageOn j.core d, i.work with
        | some t, .matrix op d' a b sh _ => { i with work := .matrix op d' a b sh (some (f t)) }
        | _, _ => i
      else i }

/-- Work with a new image and more flags to land. -/
def Job.withImage (j : Job) (t : TileBits) (hits : List FlagHit) : Job :=
  match j.work with
  | .matrix op d a b sh _ =>
    { j with work := .matrix op d a b sh (some t), smp := { j.smp with hits := j.smp.hits ++ hits.map fun h => (0, h) } }
  | _ => j

/-- `mgath` raises inv at k = 0 when an operand's layout is not accepted, unless it has no active slice (R191, R237). -/
def gathHits (cap : Cap) (op : MatOp) (sh : Shape) (sm : Samples) : List FlagHit :=
  match op with
  | .mgath la lb =>
    let dry := (List.range (matK cap op sh)).all fun k => !sliceActive cap sm k
    if (gathOk cap.ty la && gathOk cap.ty lb) || dry then [] else [⟨0, 0⟩]
  | _ => []

/-- Step `k` of a matrix word, in its cycle. The flags of the step are those of the sums on the word's own image (log 84). -/
def State.stepMatrix (s : State) (j : Job) (k : Nat) : State :=
  match j.work, s.core? j.core with
  | .matrix op d _ _ sh img, some c =>
    if !j.lives (s.jobNow j) then s
    else
      let keep (t : TileBits) (hits : List FlagHit) (s : State) : State := s.updJob j.seq fun i => i.withImage t hits
      match op with
      | .mopa | .mopaq .. | .mgath .. =>
        let base := img.getD (s.tileBase j d c)
        let xs := stepSlices j.cap op sh c.spad j.smp k
        let y := addSlices base xs
        let first := if k = 0 then gathHits j.cap op sh j.smp else []
        keep y.1 (first ++ y.2) ((s.chain j d fun t => (addSlices t xs).1).offerOn j (sliceOffers op sh xs))
      | .mscale =>
        let base := img.getD (s.tileBase j d c)
        let rows := scaleStepRows sh k
        let p := c.tile (Nat.xor d 1)
        let y := scaleRows sh j.smp p rows base
        keep y.1 y.2 (s.chain j d fun t => (scaleRows sh j.smp p rows t).1)
      | .mtrn | .mcolr _ | .mrowr _ => if k = 0 then keep (c.tile d) [] s else s
      | .mzero | .mcolw _ | .mroww _ => keep 0 [] s
  | _, _ => s

/-- Steps taken by a matrix word. -/
def Job.stepsTaken (j : Job) (n : Nat) : Nat := match j.cut with | some x => min n (x - (j.cyc + 22)) | none => n

/-- A matrix word's effect on its tiles becomes readable, and its flags land (R230). -/
def Job.landTile (j : Job) (t : Stamp) (op : MatOp) (d : Nat) (sh : Shape) (img : Option TileBits) (c : Core) : Core :=
  match img with
  | none => c
  | some x =>
    let n := j.stepsTaken (matSteps j.cap op sh)
    let c :=
      match op with
      | .mzero => c.setTile d 0
      | .mtrn => c.setTile d (transposeRows x (8 * n) (c.tile d))
      | .mcolw i => c.setTile d (moveIn j.cap false i j.smp (c.tile d))
      | .mroww i => c.setTile d (moveIn j.cap true i j.smp (c.tile d))
      | .mscale => (c.setTile d x).setTile (Nat.xor d 1) (drainTile sh (16 * n) (c.tile (Nat.xor d 1)))
      | _ => c.setTile d x
    c.raiseAt t (j.smp.hits.map (·.2))

/-- Group `g` of `mcolr` or `mrowr` lands (R239). -/
def Job.landMove (j : Job) (t : Stamp) (op : MatOp) (a : Option VReg) (img : Option TileBits) (g : Nat) (c : Core) : Core :=
  match a, img with
  | some v, some x =>
    let out := match op with
      | .mcolr i => moveOut j.cap false i x j.smp g
      | .mrowr i => moveOut j.cap true i x j.smp g
      | _ => ([], [])
    (c.setV v (writeElems c.v[v] (width j.cap.ty) out.1)).raiseAt t out.2
  | _, _ => c

/-! ### Cluster accesses (R253 to R257) -/

/-- The code of an element of `w` bits in a group that lands as received: a free value (R258, log 91). -/
def receivedCode (n w e : Nat) : Nat := leNat ((List.range (w / 8)).map fun i => Config.received n (e * (w / 8) + i))

/-- The free value that a core receives a group with, where the group reaches it with an uncorrectable error (R258). -/
def State.spoiled (s : State) (j : Job) (g : Nat) (id : CoreId) : Option Nat :=
  if j.bad.contains (g, id) then some s.freeCtr else none

/-- A free value has been taken. -/
def State.tookFree (s : State) (n : Option Nat) : State := if n.isSome then { s with freeCtr := s.freeCtr + 1 } else s

/-- The active elements of group `g` with their codes in a register, or as received. -/
def Job.groupCodes (j : Job) (x : VecBits) (g : Nat) (free : Option Nat) : List (Nat × Nat) :=
  let w := width j.cap.ty
  (groupActive j.cap j.smp.g g).map fun e => (e, match free with | some n => receivedCode n w e | none => elem x w e)

/-- Group `g` of `vldc` lands on its core. -/
def Job.landRemoteLoad (j : Job) (d : VReg) (g : Nat) (free : Option Nat) (c : Core) : Core :=
  c.setV d (writeElems c.v[d] (width j.cap.ty) (j.groupCodes j.smp.mem g free))

/-- The bytes that group `g` of `vstc` or `vstm` writes in a target: offsets and bytes. Offsets do not wrap, so bytes past
the scratchpad are dropped (R249). -/
def Job.remoteBytes (j : Job) (a : DWord) (g : Nat) (free : Option Nat) : List (Nat × List Byte) :=
  let b := width j.cap.ty / 8
  (j.groupCodes j.smp.d g free).map fun x => (clusterOffset a b x.1, leBytes x.2 b)

/-- Pieces of bytes stored in one scratchpad. -/
def State.storeAll (s : State) (id : CoreId) (xs : List (Nat × List Byte)) : State :=
  s.updCore id fun c => { c with spad := xs.foldl (fun m x => spadStore m x.1 x.2) c.spad }

/-- The new value of an atomic (R256). -/
def AmoOp.apply (op : AmoOp) (old b expect : DWord) : DWord :=
  match op with
  | .add => old + b
  | .min => if old.toInt < b.toInt then old else b
  | .max => if old.toInt < b.toInt then b else old
  | .or => old ||| b
  | .xchg => b
  | .cas => if old = expect then b else old

/-- One element of `vamoadd` into a scratchpad (R257): the memory and the flags. -/
def vamoOne (cap : Cap) (a : DWord) (sm : Samples) (e : Nat) (m : Memory) : Memory × Flags :=
  let w := width cap.ty
  let b := w / 8
  let at_ := field a.toNat 0 20 + elem sm.b 32 e
  if spadSize < at_ + b then (m, {})
  else
    let old := leNat (spadBytes m at_ b)
    let r := arith cap.ty cap.rnd (fun a b _ => addV cap.rnd a b) (fun a b _ => a + b) old (elem sm.d w e) 0
    (spadStore m at_ (leBytes r.1 b), r.2)

/-- All active elements of `vamoadd`, in ascending order. -/
def vamoAll (cap : Cap) (a : DWord) (sm : Samples) : List Nat → Memory → Memory × List FlagHit
  | [], m => (m, [])
  | e :: r, m =>
    let x := vamoOne cap a sm e m
    let rest := vamoAll cap a sm r x.1
    (rest.1, hitsAt x.2 e ++ rest.2)

/-- The samples of `vamoadd` as its target receives them: the codes of a group that arrives with an error are free, and its
offsets intact (log 91). -/
def Job.vamoReceived (j : Job) (free : Nat) : Samples :=
  let w := width j.cap.ty
  let es := (List.range 512).filter fun e => j.bad.any fun b => b.1 == e / 32
  { j.smp with d := writeElems j.smp.d w (es.map fun e => (e, receivedCode free w e)) }

/-- The write of a read-modify-write slot (R255 to R257). A target outside the quire is not written. -/
def State.landRmw (s : State) (j : Job) : State :=
  if !j.lives (s.jobNow j) then s
  else
    match j.work with
    | .amo op _ a b w (some old) =>
      s.storeIn (clusterTarget j.core a) (field a.toNat 3 17 * 8) (leBytes (op.apply old b w).toNat 8)
    | .vamo _ a _ =>
      if clusterOk (s.extOf j.core.folio) a then
        match s.spadOf (clusterTarget j.core a) with
        | some m =>
          let es := (List.range (vamoBody j.cap)).filter (active j.cap (vamoBody j.cap) j.smp.g)
          let y := vamoAll j.cap a (j.vamoReceived s.freeCtr) es m
          ((s.tookFree (j.bad.head?.map (·.1))).updCore (clusterTarget j.core a) fun c => { c with spad := y.1 }).raiseOn j y.2
        | none => s
      else s
    | _ => s

/-- A group of `vstc` or `vstm` lands at one target. -/
def State.landRemoteAt (s : State) (j : Job) (a : DWord) (g : Nat) (t : CoreId) : State :=
  let free := s.spoiled j g t
  (s.tookFree free).storeAll t (j.remoteBytes a g free)

/-- A group of a remote access lands (R253); a store makes its offers as it lands (R214). -/
def State.landRemote (s : State) (j : Job) (g : Nat) : State :=
  if !j.lives (s.jobNow j) then s
  else
    let e := s.extOf j.core.folio
    match j.work with
    | .remote .load d _ =>
      let free := s.spoiled j g j.core
      (s.tookFree free).updCore j.core (j.landRemoteLoad d g free)
    | .remote op _ a =>
      ((remoteTargets e j.core op a).foldl (fun s t => s.landRemoteAt j a g t) s).offerOn j
        (remoteOffers e op a (width j.cap.ty / 8) (groupActive j.cap j.smp.g g))
    | _ => s

/-! ### Sends (R346 to R351) -/

/-- The free value that a group of a send lands with, where the CRC of its codeword fails after the second decode (R339, log 79). -/
def State.undecoded (s : State) (j : Job) (g : Nat) : Option Nat := if j.failed.contains g then some s.freeCtr else none

/-- A send lands: bytes in range are written at the target, and out-of-range elements offer to the issuer's oob. -/
def State.landSend (s : State) (j : Job) (g : Nat) : State :=
  if !j.lives (s.jobNow j) then s
  else
    let x := s.extOf j.core.folio
    let free := s.undecoded j g
    let s := s.tookFree free
    match j.work with
    | .send a v _ =>
      if sendInQuire x j.core.folio a then
        s.storeIn (sendTarget j.core.folio a) (sendOffset a / 8 * 8)
          (match free with | some n => (List.range 8).map (Config.received n) | none => leBytes v.toNat 8)
      else s.offerOn j [(0, a.toNat)]
    | .sendv _ a _ =>
      let w := width j.cap.ty
      let es := groupActive j.cap j.smp.g g
      let ps := sendElems a (w / 8) (j.groupCodes j.smp.d g free)
      let ea (e : Nat) : Nat × Nat := (e, (a.toNat + e * (w / 8)) % 2 ^ 64)
      if sendInQuire x j.core.folio a then
        (s.storeAll (sendTarget j.core.folio a) (ps.map (·.2))).offerOn j
          ((ps.filter fun p => decide (spadSize < p.2.1 + w / 8)).map fun p => ea p.1)
      else s.offerOn j (es.map ea)
    | _ => s

/-! ### The Racker (R269 to R279) -/

/-- What a beat did: the transfer with its status gathered, and the offers of error 6. -/
structure BeatOut where
  t : Racker
  offers : List (Nat × Nat)
  deriving DecidableEq, Repr

/-- Notes what a beat wrote. -/
def Racker.note (r : Racker) (valid : Nat) (errs : List Nat) (flags : List (Fin 7)) : Racker :=
  { r with valid := r.valid + valid, errs := r.errs ++ errs, flags := r.flags ++ flags }

/-- Writes HBM bytes from a VA on, those within D of a die: how many were written, and error 5 or 4 or 0 (R275, R279). -/
def State.reachStore (s : State) (folio pkg die : Nat) (r : Racker) (va : Nat) : List Byte → State × Nat × Nat
  | [] => (s, 0, 0)
  | b :: bs =>
    let y := if r.reaches die va then s.hbmWrite (.device folio) pkg va b else (s, false)
    let err := if y.2 then 0 else if r.reaches die va then 4 else 5
    let rest := y.1.reachStore folio pkg die r (va + 1) bs
    (rest.1, (if y.2 then 1 else 0) + rest.2.1, lowerErr err rest.2.2)

/-- Stores the pieces of a beat in HBM (R270, R275, R279). -/
def State.beatHbm (s : State) (j : Job) (pkg : Nat) (r : Racker) : List RPiece → State × Racker
  | [] => (s, r)
  | p :: ps =>
    let y := s.reachStore j.core.folio pkg j.core.die r p.addr p.bytes
    y.1.beatHbm j pkg (r.note (if p.counts then y.2.1 else 0) [y.2.2] (statusFlags p.flags)) ps

/-- Error 5 where a beat with something to write has a target beyond D (R275). -/
def State.farErr (s : State) (j : Job) (r : Racker) (some_ : Bool) : List Nat :=
  if some_ && r.someFar j.core (s.extOf j.core.folio) then [5] else []

/-- Stores the pieces of a beat in every target scratchpad that it reaches. -/
def State.beatSpads (s : State) (j : Job) (r : Racker) (row : Nat) (ps : List RPiece) : State × BeatOut :=
  let ts := r.reachedTargets j.core (s.extOf j.core.folio)
  let far := s.farErr j r (!ps.isEmpty)
  let s := ts.foldl (fun s id => s.storeAll id (ps.map fun p => (p.addr, p.bytes))) s
  let outs := ps.filterMap fun p =>
    (firstOut p.addr p.bytes.length).map fun a => (row * r.vl + p.e, if r.dst.mx then a else p.addr)
  let valid := if ts.isEmpty then 0 else (ps.map (·.spadValid)).sum
  (s, ⟨r.note valid (far ++ if outs.isEmpty then [] else [6]) (ps.flatMap fun p => statusFlags p.flags), outs⟩)

/-- Stores the pieces of a beat in the cellar (R331). -/
def State.beatCellar (s : State) (j : Job) (pkg : Nat) (r : Racker) (ps : List RPiece) : State × Racker :=
  let s := s.updPkg pkg fun p => ps.foldl (fun p x => p.cellarStore (.transfer j.core.folio j.seq) x.addr x.bytes) p
  (s, r.note ((ps.map fun p => if p.counts then p.bytes.length else 0).sum) [] (ps.flatMap fun p => statusFlags p.flags))

/-- The words of a beat with a word index in range, and whether they come from in-shape source elements. -/
def Racker.fillWords (r : Racker) (ws : List RWrite) : List (Nat × Word × Bool) :=
  ws.filterMap fun w =>
    let i := r.fillIndex w.pair
    if 0 ≤ i ∧ i < 32768 then some (i.toNat, (BitVec.ofNat 32 w.code : Word), w.shaped) else none

/-- Words put in a core's fill buffer. -/
def Core.fillAll (c : Core) (xs : List (Nat × Word × Bool)) : Core := xs.foldl (fun c x => c.fillWord x.1 x.2.1) c

/-- Puts the words of a beat in the fill buffers of every target that it reaches (R227, R270). -/
def State.beatFill (s : State) (j : Job) (r : Racker) (ws : List RWrite) : State × Racker :=
  let ts := r.reachedTargets j.core (s.extOf j.core.folio)
  let far := s.farErr j r (!ws.isEmpty)
  let ins := r.fillWords ws
  let s := ts.foldl (fun s id => s.updCore id fun c => c.fillAll ins) s
  let valid := if ts.isEmpty then 0 else 4 * (ins.filter fun x => x.2.2).length
  (s, r.note valid (far ++ if ins.length < ws.length then [6] else []) [])

/-- What lands of a transfer at one time: elements, and pieces of bytes made of them or of blocks that they complete. -/
def State.landPieces (s : State) (j : Job) (r : Racker) (row : Nat) (ws : List RWrite) (ps : List RPiece) : State :=
  let r := r.note 0 (ws.map (·.err)) []
  let pkg := s.physOf j.core
  if r.mode = 1 then
    let y := s.beatFill j r ws
    y.1.worked j (.racker y.2)
  else if r.dHbm then
    let y := s.beatHbm j pkg r ps
    y.1.worked j (.racker y.2)
  else if r.mode = 3 then
    let y := s.beatCellar j pkg r ps
    y.1.worked j (.racker y.2)
  else
    let y := s.beatSpads j r row ps
    (y.1.worked j (.racker y.2.t)).offerOn j y.2.offers

/-- The part of a transfer that element `e` of a row is, as retries name parts (R301). -/
def Racker.part (r : Racker) (row e : Nat) : Nat := row * r.vl + e

/-- Whether an element has landed `t` cycles after issue, as part `p` lands late, or in a beat's own landing: a late part lands
64 cycles after its beat (R301). -/
def Racker.landed (r : Racker) (late : List Nat) (t : Nat) (p : Option Nat) (k e : Nat) : Bool :=
  let x := r.part (r.beatRow k) e
  if late.contains x then
    decide (r.landAt k + 64 < t) ||
      (r.landAt k + 64 == t && (match p with | some p => decide (late.findIdx (· == x) ≤ late.findIdx (· == p)) | none => false))
  else decide (r.landAt k ≤ t)

/-- Whether every present position of a block has landed. -/
def Racker.blockLanded (r : Racker) (late : List Nat) (t : Nat) (p : Option Nat) (k : Nat) (key : Nat × Nat) : Bool :=
  (r.positions key (r.fellows k)).all fun x => r.landed late t p x.1 x.2

/-- The blocks that beat `k` writes as it lands, when some parts land late. -/
def Racker.landBlocks (r : Racker) (late : List Nat) (k : Nat) : List (Nat × Nat) :=
  if late.isEmpty then r.beatBlocks k else (r.blocksIn k).filter (r.blockLanded late (r.landAt k) none k)

/-- The elements of beat `k`, as read, that `keep` selects. -/
def Racker.beatPairs (r : Racker) (k : Nat) (keep : Nat → Bool) : List (Nat × RElem) :=
  match r.beats.find? fun b => b.1 == k with
  | some b => ((r.beatElems k).zip b.2).filter fun x => keep x.1
  | none => []

/-- A beat from the cellar is read as it lands (log 18). -/
def State.readCellarBeat (s : State) (j : Job) (r : Racker) (k : Nat) : State × Racker :=
  if r.fromCellar then
    let y := s.rackerElems j r (r.beatRow k) (r.beatElems k)
    (y.1, { r with beats := r.beats ++ [(k, y.2.1)] })
  else (s, r)

/-- Beat `k` of a transfer lands at every target (R273), but for its late parts (R301). -/
def State.landBeat (s : State) (j : Job) (k : Nat) : State :=
  match j.work with
  | .racker r =>
    if !j.lives (s.jobNow j) || r.gate != 0 then s
    else
      let y := s.readCellarBeat j r k
      let r := y.2
      let row := r.beatRow k
      let ws := r.writes row (r.beatPairs k fun e => !j.late.contains (r.part row e))
      y.1.landPieces j r row ws (if r.dst.mx then r.blockPieces k (r.landBlocks j.late k) else r.elemPieces ws)
  | _ => s

/-- A late part of a transfer lands (R301): its element, or the block that it completes. -/
def State.landPart (s : State) (j : Job) (r : Racker) (p : Nat) : State :=
  if !j.lives (s.jobNow j) || r.gate != 0 then s
  else
    let row := p / r.vl
    let k := r.beatOf row (p % r.vl)
    let ws := r.writes row (r.beatPairs k (· == p % r.vl))
    let keys := ((ws.filter (·.shaped)).map fun w => blockKey w.pair).filter (r.blockLanded j.late (r.landAt k + 64) (some p) k)
    s.landPieces j r row ws (if r.dst.mx then r.blockPieces k keys else r.elemPieces ws)

/-- The status word lands (R274, R278): error 7 where a target lies outside the quire. That of a transfer whose second read has failed
lands too, while its cycle is not after the stop (log 146). -/
def State.landStatus (s : State) (j : Job) : State :=
  match j.work with
  | .racker r =>
    if !j.lives (s.jobNow j) then s
    else
      let toCores := !r.dHbm && r.mode != 3
      let outside := r.gate == 0 && toCores && (r.targets j.core (s.extOf j.core.folio)).2
      s.setSOn j r.status (r.note 0 (if outside then [7] else []) []).word
  | _ => s

/-! ### Streams (R318, R323 to R325) -/

/-- The window of a stream: at its start the elements are judged and read; at its end `bscat` writes. -/
def State.landWindow (s : State) (j : Job) (k : Nat) : State :=
  match j.work with
  | .stream r =>
    if !j.lives (s.jobNow j) then s
    else
      let pkg := s.physOf j.core
      if k = 0 then
        let y := s.streamOpen j.core.folio pkg r
        y.1.worked j (.stream y.2)
      else
        let y := s.streamClose j.core.folio pkg r (fun e => !j.late.contains e) (r.judged.zipIdx)
        y.1.worked j (.stream { r with judged := y.2 })
  | _ => s

/-- Pieces of packed stream data land in the core's scratchpad; a beat that reaches past it offers its lowest byte out of range
(log 149). -/
def State.landPacked (s : State) (j : Job) (k : Nat) (ps : List (Nat × List Byte)) : State :=
  if !j.lives (s.jobNow j) then s
  else (s.storeAll j.core ps).offerOn j (offer1 k (lowestOf (ps.filterMap fun b => firstOut b.1 b.2.length)))

/-- Beat `k` of `bgath` or `bstride` lands, but for its late elements (R301). -/
def State.landStreamBeat (s : State) (j : Job) (r : Stream) (k : Nat) : State := s.landPacked j k (r.pieces j.late k)

/-- A late element of a stream lands: alone in the packed data, or alone in HBM (R301). -/
def State.landStreamPart (s : State) (j : Job) (r : Stream) (e : Nat) : State :=
  if r.op = .scat then
    if !j.lives (s.jobNow j) then s
    else
      let y := s.streamClose j.core.folio (s.physOf j.core) r (· == e) (r.judged.zipIdx)
      y.1.worked j (.stream { r with judged := y.2 })
  else s.landPacked j (e * r.z / 512) [r.elemPiece e]

/-- The status of a stream lands in its block (R325). -/
def State.landStreamStatus (s : State) (j : Job) : State :=
  match j.work with
  | .stream r =>
    if !j.lives (s.jobNow j) then s
    else
      (s.storeIn j.core (r.addr + 56) (leBytes (r.status j.core.die).toNat 8)).offerOn j (offer1 0 (firstOut (r.addr + 56) 8))
  | _ => s

/-! ### The Press (R282 to R287) -/

/-- A `pcard` takes effect at c+8 (R282): the governing card of its cycle replaces the die's, and a clear sets the counters
to 0. An invalid card raises inv, also one that does not govern (log 130). -/
def State.landCard (s : State) (j : Job) (p : Press) : State :=
  if !j.keeps 1 then s
  else
    let bad := (p.card.bind (Card.parse (s.extOf j.core.folio) j.core)).isNone
    let s :=
      if s.cardGoverns j then
        let clear := (s.cardClears j).isSome
        s.updFolio j.core.folio fun f => f.updPress j.core.pkg j.core.die fun u =>
          { u with card := some (p.card.getD 0), counters := if clear then [] else u.counters }
      else s
    s.raiseOn j (if bad then [⟨0, 0⟩] else [])

/-- Clear beat `k` lands in every owner. -/
def State.landClear (s : State) (j : Job) (k : Nat) : State :=
  if !j.lives (s.jobNow j) then s
  else
    match s.cardClears j with
    | none => s
    | some c =>
      let b := c.clearBeat k
      (c.owners j.core).foldl (fun s id => s.storeIn id b.1 b.2) s

/-- Flags of a Press word at its last cycle (R399); the conversions of a dropped row raise none (R286). -/
def Press.lastHits (p : Press) (g : Option (Card × Nat)) : List FlagHit :=
  match p.op, g with
  | .card, _ => []
  | _, none => [⟨0, 0⟩]
  | .sel, some (c, n) => c.gateHits n (gathered (c.bl n) p.bytes)
  | .disp, some _ => p.hits.filter fun h => !p.slots.any fun x => x.1 == h.idx && x.2 == 0xFFFF
  | .comb, some _ => p.hits

/-- Bytes that a Press word stores in its own scratchpad, with their offer (R400). -/
def State.storePress (s : State) (j : Job) (p : Press) (k a : Nat) (bs : List Byte) : State :=
  if !j.lives (s.jobNow j) then s
  else
    let g := p.govern (s.extOf j.core.folio) j.core
    (s.storeIn j.core a bs).offerOn j (offer1 k (p.offerOf g (s.entryOr j p g) [(a, bs.length)]))

/-- Entry beat `k` of `psel` (R285). -/
def State.landSelection (s : State) (j : Job) (k : Nat) : State :=
  match j.work with
  | .press p =>
    match p.op, p.govern (s.extOf j.core.folio) j.core with
    | .sel, some (c, n) => s.storePress j p k (c.sel + 512 * k) (c.entryBeat n (gathered (c.bl n) p.bytes) k)
    | _, _ => s
  | _ => s

/-- The send of a `pdisp` whose first beat lands in a cycle: its number and expert. -/
def Job.arriving (j : Job) (e : Extents) (x : Nat) : Option (Nat × Nat) :=
  match j.work with
  | .press p =>
    match p.op, p.govern e j.core with
    | .disp, some (c, n) =>
      let i := x - (j.cyc + 48)
      if j.lives x ∧ j.cyc + 48 ≤ x ∧ i < n * c.k * c.br ∧ i % c.br = 0 then
        (c.expert (entryOf p.entries (i / c.br))).map fun e => (i / c.br, e)
      else none
    | _, _ => none
  | _ => none

/-- Notes the slot of a send. -/
def Job.withSlot (j : Job) (q slot : Nat) : Job :=
  match j.work with
  | .press p => { j with work := .press { p with slots := p.slots ++ [(q, slot)] } }
  | _ => j

/-- The capacity of a window by the card that governs a Press word (R282). -/
def State.capacity (s : State) (j : Job) : Nat :=
  match j.work with
  | .press p => ((p.govern (s.extOf j.core.folio) j.core).map fun g => g.1.C).getD 0
  | _ => 0

/-- Assigns slots to the rows that land on one window in one cycle, in ascending rank of their source (R286), each within the capacity
that its own card gives. -/
def State.assignSlots (s : State) (e : Nat) : List (Job × Nat) → State
  | [] => s
  | (j, q) :: r =>
    let n := (s.folio? j.core.folio).elim 0 fun f => f.counter j.core.pkg j.core.die e
    let room := decide (n < s.capacity j)
    let s :=
      if room then
        s.updFolio j.core.folio fun f => f.updPress j.core.pkg j.core.die fun u =>
          { u with counters := (u.counters.filter fun x => x.1 != e) ++ [(e, n + 1)] }
      else s
    (s.updJob j.seq fun i => i.withSlot q (if room then n else 0xFFFF)).assignSlots e r

/-- The rows that land in this cycle on the window of a send's expert, in ascending rank of their source: each piece of
work issues at most one. -/
def State.arrivals (s : State) (j : Job) (e : Nat) : List (Job × Nat) :=
  let x := s.jobNow j
  let q := s.extOf j.core.folio
  let js := s.jobs.filterMap fun i =>
    if i.core.folio = j.core.folio ∧ i.core.pkg = j.core.pkg ∧ i.core.die = j.core.die then
      (i.arriving q x).bind fun y => if y.2 = e then some (i, y.1) else none
    else none
  (List.range q.cores).flatMap fun r => js.filter fun (y : Job × Nat) => rankIn q y.1.core == r

/-- Beat `b` of send `q` lands at the owner (R286): the first beat takes the slot and brings the tag. -/
def State.landDispatch (s : State) (j : Job) (q b : Nat) : State :=
  match j.work with
  | .press p =>
    match p.op, p.govern (s.extOf j.core.folio) j.core with
    | .disp, some (c, _) =>
      match c.expert (entryOf p.entries q) with
      | none => s
      | some e =>
        if !j.lives (s.jobNow j) then s
        else
          let s := if b = 0 ∧ ¬ (p.slots.any fun x => x.1 == q) then s.assignSlots e (s.arrivals j e) else s
          match (s.job? j.seq).bind fun i => match i.work with | .press p => p.slots.find? (fun x => x.1 == q) | _ => none with
          | none => s
          | some (_, slot) =>
            if slot = 0xFFFF then s
            else
              let o := c.owner j.core e
              let size := bytesOf c.xtype
              let bytes := ((p.bytes.find? fun x => x.1 == q * c.br + b).map (·.2)).getD []
              let s := s.storeIn o (c.win + c.place e slot * c.H * size + b * c.perBeat * size) bytes
              if b = 0 then s.storeIn o (c.tagb + c.place e slot * 8) (leBytes (c.tagOf j.core (q / c.k) (q % c.k)) 8) else s
    | _, _ => s
  | _ => s

/-- The slot of send `q` is written back to its entry (R286). -/
def State.landSlot (s : State) (j : Job) (p : Press) (q : Nat) : State :=
  match p.govern (s.extOf j.core.folio) j.core with
  | some (c, _) =>
    let slot := ((p.slots.find? fun x => x.1 == q).map (·.2)).getD 0xFFFF
    s.storePress j p q (c.sel + 8 * q + 2) (leBytes slot 2)
  | none => s

/-- Beat `b` of combined row `t`, with the flags of its elements (R287, log 145). -/
def State.landCombined (s : State) (j : Job) (t b : Nat) : State :=
  match j.work with
  | .press p =>
    match p.op, p.govern (s.extOf j.core.folio) j.core with
    | .comb, some (c, _) =>
      let y := c.combineBeat p t b
      let s' := s.storePress j p t (p.sa.toNat + t * c.H * bytesOf c.otype + 512 * b) y.1
      if j.lives (s.jobNow j) then s'.raiseOn j (hitsAt y.2 t) else s'
    | _, _ => s
  | _ => s

/-! ### Results and stores -/

/-- Whether a lane word has nothing to land: its one result is discarded (R64, R122), and it raises no flag. -/
def Lane.discarded (l : Lane) : Bool :=
  match l.dst, l.op with
  | .w k, .wnot | .w k, .wmov => k == 0
  | .s d, .ext => d == 0
  | _, _ => false

/-- The last cycle after issue in which work in flight reads, makes a visit or lands; a discarded result does not land. A product
or `mgath` word without a step stays in flight to c+21 (R233, log 69). -/
def Job.span (j : Job) (e : Extents) (clears : Option Card) : Nat :=
  let n :=
    match j.work with
    | .scalar d _ lat => if d = 0 then 0 else lat
    | .sstore .. => 2
    | .lane l => if l.discarded then 21 else max 21 (laneBase j.cap.ty l.op + laneSlots l.op - 1)
    | .vmem kind .. => max 21 (vmemBase kind + 15)
    | .vtld .. => 12
    | .vlrec .. => 8
    | .matrix op _ _ _ sh _ =>
      match op with
      | .mcolr _ | .mrowr _ => 29 + moveGroups j.cap.ty
      | _ => if matSteps j.cap op sh = 0 then 21 else 33 + matSteps j.cap op sh
    | .remote .load .. => 45
    | .remote .. => 33
    | .amo _ d _ _ _ _ => if d = 0 then 14 else 24
    | .vamo .. => 35
    | .racker t => t.statusAt
    | .press p =>
      max (p.last (p.govern e j.core)) (match clears with | some c => 47 + c.clearBeats | none => 0)
    | .flaunch .. => 8
    | .stream t => t.statusAt j.core.die
    | .preq _ => 1
    | .send _ _ d => d
    | .sendv _ _ d => max 21 (d + 15)
  if j.late.isEmpty then n else n + 64

/-- A slot of a vector memory word lands (R219 to R226). -/
def State.landVmem (s : State) (j : Job) (kind : VMemKind) (d : VReg) (base : DWord) (m : VMode) (k : Nat) : State :=
  let t := s.stampOf j
  if j.lives t.now then s.updCore j.core (vmemLand t j.cap kind d base m j.smp k) else s

/-- A register result lands (R151). The sD of an atomic whose slot a conflict cuts after its read at c+12 does not land (R255,
log 109). -/
def State.landResult (s : State) (j : Job) (k : Nat) : State :=
  let t := s.stampOf j
  match j.work with
  | .scalar d x _ => s.setSOn j d x
  | .lane l => if j.laneKept l k t.now then s.updCore j.core (laneLand t j.cap l j.smp k) else s
  | .vmem kind d base m => s.landVmem j kind d base m k
  | .vtld r _ => if j.keeps 3 then s.updCore j.core fun c => { c with tbl := c.tbl.set r (tableOf j.smp.mem) } else s
  | .vlrec d _ v => if j.keeps 1 then s.updCore j.core fun c => { c with ly := c.ly.set d (v.getD .zero) } else s
  | .matrix op d a _ sh img =>
    match op with
    | .mcolr _ | .mrowr _ => if j.lives t.now then s.updCore j.core (j.landMove t op a img k) else s
    | _ => s.updCore j.core (j.landTile t op d sh img)
  | .amo _ d _ _ _ old => if j.keeps 14 then s.setSOn j d (old.getD 0) else s
  | .press p =>
    match p.op with
    | .card => s.landCard j p
    | _ => if j.lives t.now then s.raiseOn j (p.lastHits (p.govern (s.extOf j.core.folio) j.core)) else s
  | .stream r => if j.lives t.now then s.updCore j.core fun c => c.setW r.wr (r.residency (c.getW r.wr)) else s
  | .preq va =>
    s.updPkg (s.physOf j.core) fun p =>
      if p.requests.length < 256 then { p with requests := p.requests ++ [BitVec.ofNat 27 (field va.toNat 21 27)] }
      else { p with mdrop := p.mdrop + 1 }
  | _ => s

/-- A write lands on a scratchpad (R220, R361). -/
def State.landStore (s : State) (j : Job) (k : Nat) : State :=
  let t := s.stampOf j
  match j.work with
  | .sstore a bs =>
    if j.lives t.now then
      (s.storeIn j.core a.toNat bs).offerOn j (if outOfRange a.toNat bs.length then [(0, a.toNat)] else [])
    else s
  | .vmem kind d base m => s.landVmem j kind d base m k
  | .press p => s.landSlot j p k
  | .stream r => s.landStreamBeat j r k
  | _ => s

/-! ### The events of a cycle -/

/-- An event due: its class (R363) and place within the class, the word's number, and the event. The writes of `bscat` come before
Racker beats: their slots lie in earlier cycles (R364). -/
structure Due where
  cls : Nat
  sub : Nat
  seq : Nat
  ev : Instr
  deriving DecidableEq, Repr

/-- One due event for the index of a slot, when there is one. -/
def dueAt (k : Option Nat) (f : Nat → Due) : List Due := match k with | some k => [f k] | none => []

/-- The events that work in flight brings `r` cycles after issue, but for late landings, each in its class of R363; the status of a
stream is in that of its data (log 124), and the entries of `psel` and the slots written back by `pdisp` are in that of the Press
(log 152). `rank` is the rank of its core; `clears` is the card by which a `pcard` clears. -/
def Job.events (j : Job) (e : Extents) (rank : Nat) (clears : Option Card) (r : Nat) : List Due :=
  let n := j.seq
  let res (k : Nat) : Due := ⟨0, 0, n, .resultLanding n k⟩
  let store (k : Nat) : Due := ⟨1, rank, n, .storeLanding n k⟩
  let once (b : Bool) (d : Due) : List Due := if b then [d] else []
  match j.work with
  | .scalar _ _ lat => once (r == lat) (res 0)
  | .sstore .. => once (r == 2) (store 0)
  | .lane l => dueAt (within r (laneBase j.cap.ty l.op) (laneSlots l.op)) res
  | .vmem kind .. =>
    dueAt (within r (vmemBase kind) 16) (match kind with | .load | .qload _ => res | _ => store)
  | .vtld .. => once (r == 12) (res 0)
  | .vlrec .. => once (r == 8) (res 0)
  | .matrix op _ _ _ sh _ =>
    let st := matSteps j.cap op sh
    dueAt (within r 22 st) (fun k => ⟨9, 0, n, .matrixStep n k⟩) ++
      (match op with
       | .mcolr _ | .mrowr _ => dueAt (within r 30 (moveGroups j.cap.ty)) res
       | _ => once (st != 0 && r == 33 + st) (res 0))
  | .remote op .. =>
    match op with
    | .load => dueAt (within r 30 16) fun g => ⟨0, 0, n, .remoteLanding n g⟩
    | _ => dueAt (within r 18 16) fun g => ⟨1, rank, n, .remoteLanding n g⟩
  | .amo .. => once (r == 14) ⟨1, rank, n, .rmwSlot n⟩ ++ once (r == 24) (res 0)
  | .vamo .. => once (r == 35) ⟨1, rank, n, .rmwSlot n⟩
  | .racker t =>
    if r ≤ 1 then []
    else
      dueAt (t.landBeat r) (fun k => ⟨2, rank, n, .rackerBeat n k⟩) ++
        once (r == t.statusAt) ⟨0, 0, n, .statusWord n⟩
  | .press p =>
    let g := p.govern e j.core
    let own : List Due :=
      match p.op, g with
      | .card, _ => (match clears with | some c => dueAt (within r 48 c.clearBeats) fun k => ⟨3, 0, n, .pcardClear n k⟩ | none => [])
      | .sel, some (c, k) => dueAt (within r (46 + c.bl k + c.bits) (c.bs k)) fun i => ⟨3, 0, n, .selectionRecord n i⟩
      | .disp, some (c, k) =>
        dueAt (within r 48 (k * c.k * c.br)) (fun i => ⟨3, 0, n, .dispatchLanding n (i / c.br) (i % c.br)⟩) ++
          (dueAt (within r 88 (k * c.k * c.br)) (fun i => ⟨3, 0, n, .storeLanding n (i / c.br)⟩)).filter
            fun _ => (r - 88) % c.br == 0
      | .comb, some (c, k) =>
        (dueAt (within r (92 + c.rc) (k * c.rc)) (fun i => ⟨3, 0, n, .combinedRow n (i / c.rc) (i % c.rc)⟩)).filter
          fun _ => decide ((r - 92 - c.rc) % c.rc < c.bc)
      | _, none => []
    own ++ once (r == p.last g) (res 0)
  | .flaunch .. => once (r == 8) (res 0)
  | .stream t =>
    if r ≤ 1 then []
    else
      let die := j.core.die
      let ok := t.valid die
      (if ok then
        once (r == t.open_) ⟨8, rank, n, .streamWindow n 0⟩ ++
          (if t.op = .scat then once (r == t.open_ + t.len) ⟨1, rank, n, .streamWindow n 1⟩
           else dueAt (within r t.land0 t.dataBeats) fun k => ⟨2, rank, n, .storeLanding n k⟩) ++
          once (r == t.statusAt die && t.wr != 0) (res 0)
       else []) ++
        once (r == t.statusAt die) ⟨2, rank, n, .streamStatus n⟩
  | .preq _ => once (r == 1) (res 0)
  | .send _ _ d => once (d != 0 && r == d) ⟨4, rank, n, .sendLanding n 0⟩
  | .sendv _ _ d => if d = 0 then [] else dueAt (within r d 16) fun g => ⟨4, rank, n, .sendLanding n g⟩

/-- The scheduled landing, after issue, of the part of work that an occurrence delays: an element of a transfer, which comes
with its beat, an element of a stream, or a group of a send (R301). -/
def Job.lateLanding (j : Job) (k : Nat) : Nat :=
  match j.work with
  | .racker t => t.landAt (t.beatOf (k / t.vl) (k % t.vl))
  | .stream t => if t.op = .scat then t.open_ + t.len else t.land0 + k * t.z / 512
  | .send _ _ d => d
  | .sendv _ _ d => d + k
  | _ => 0

/-- The part that an event lands whole: a group of a send. The landings of transfers and streams leave their own late elements
out. -/
def Due.part (d : Due) : Option Nat :=
  match d.ev with
  | .sendLanding _ g => some g
  | _ => none

/-- Suppresses work from a cycle on. -/
def Job.cutAt (j : Job) (x : Nat) : Job :=
  { j with cut := some (match j.cut with | some y => min x y | none => x) }

/-- The cycle after issue in which a group of a cluster access reaches the core that receives it (R253, R257). -/
def Job.groupArrival (j : Job) (g : Nat) : Nat :=
  match j.work with
  | .remote .load .. => 30 + g
  | _ => 18 + g

/-- The machine checks that groups raise as they are received with an uncorrectable error (R258), also where a conflict has
suppressed the access since (log 91). -/
def Job.checkEvents (j : Job) (r : Nat) : List Due :=
  (j.bad.filter fun b => r == j.groupArrival b.1).map fun b => ⟨9, 0, j.seq, .machineCheck ⟨b.2, none⟩⟩

/-- What comes of a late part, 64 cycles after its own landing (R301, R339): it lands, or, where a second read has failed, its core
traps; a group of a send lands in any case, and its core traps where the second decode has failed (R326, log 79). -/
def Job.lateEvents (j : Job) (rank k : Nat) : List Due :=
  let bad := j.failed.contains k
  match j.work with
  | .send .. | .sendv .. =>
    ⟨4, rank, j.seq, .sendLanding j.seq k⟩ :: (if bad then [⟨9, 0, j.seq, .fecSecondDecode j.seq k false⟩] else [])
  | w =>
    if bad then [⟨9, 0, j.seq, .baseDieRetry j.seq k false⟩]
    else [⟨match w with | .stream t => if t.op = .scat then 1 else 2 | _ => 2, rank, j.seq, .reRead j.seq k⟩]

/-- The events that work in flight brings at scc `x`: those of its schedule, but for the late parts, and these 64 cycles
late. -/
def State.jobEvents (s : State) (x : Nat) (j : Job) : List Due :=
  let e := s.extOf j.core.folio
  if x ≤ j.cyc then []
  else
    let rank := rankIn e j.core
    let clears := match j.work with | .press p => if p.op = .card then s.cardClears j else none | _ => none
    let own := j.events e rank clears (x - j.cyc) ++ j.checkEvents (x - j.cyc)
    if j.late.isEmpty then own
    else
      (own.filter fun d => match d.part with | some k => !j.late.contains k | none => true) ++
        (j.late.filter fun k => x == j.cyc + j.lateLanding k + 64).flatMap (j.lateEvents rank)

/-- Whether work is a send, whose parts are groups. -/
def Job.sending (j : Job) : Bool := match j.work with | .send .. | .sendv .. => true | _ => false

/-- Whether a late part's own landing falls in cycle `x`: the cycle of its precise timing trap (R301). A second decode is late
whether it succeeds or not (R339); a second read that fails is a machine check alone (R326). -/
def Job.lateAt (j : Job) (x : Nat) : Bool :=
  j.late.any fun k => x == j.cyc + j.lateLanding k && (j.sending || !j.failed.contains k)

/-- Parts of work whose own landing is now are taken off its late parts: a conflict of the cycle suppresses them. -/
def Job.punctual (j : Job) (x : Nat) : Job := { j with late := j.late.filter fun k => x != j.cyc + j.lateLanding k }

/-- Whether the second attempt at part `k` fails in cycle `x`, 64 cycles after its own landing. -/
def Job.failsNow (j : Job) (x k : Nat) : Bool :=
  j.failed.contains k && j.late.contains k && x == j.cyc + j.lateLanding k + 64

/-- Whether work in flight is over by scc `x`; the `pcard` words of one cycle and die are over together. -/
def State.over_ (s : State) (x : Nat) (j : Job) : Bool :=
  let clears := match j.work with
    | .press p => if p.op = .card then (s.cardGroup j).getLast?.bind s.cardClears else none
    | _ => none
  decide (j.cyc + j.span (s.extOf j.core.folio) clears ≤ x)

/-- The order of events in a cycle: by class, by place in the class, then by the order of words (R363), which decides between a
product step and an `mscale` step on one tile (R231, log 98), and between transfers on one byte of the cellar or one word of a fill
buffer (log 153). -/
def Due.le (a b : Due) : Bool :=
  decide (a.cls < b.cls) || (a.cls == b.cls && (decide (a.sub < b.sub) || (a.sub == b.sub && decide (a.seq ≤ b.seq))))

/-- An event put in its place. -/
def insertDue (d : Due) : List Due → List Due
  | [] => [d]
  | x :: r => if Due.le x d then x :: insertDue d r else d :: x :: r

/-- Events in order. -/
def sortDue (ds : List Due) : List Due := ds.foldl (fun acc d => insertDue d acc) []

end Sys2Proof.Machine
end

