-- ==== Sys2Proof/Machine/Ahead.lean ====
section
/-! DEFINITION. What follows from the work in flight alone: the landings of a cycle, the words that its conflicts name, and what
coming cycles land and read when no word issues. The spec dates some effects before the reads that they depend on: the
offers of `vamoadd` (R214) and the flag of a layout record that is not valid (R191, R225). -/

namespace Sys2Proof.Machine

/-! ### The landings of a cycle -/

/-- What lands when a late read has been made again, 64 cycles after its own cycle (R301). -/
def State.landAgain (s : State) (j : Job) (k : Nat) : State :=
  match j.work with
  | .racker r => s.landPart j r k
  | .stream r => s.landStreamPart j r k
  | _ => s

/-- What a landing or a step of work in flight does; other events do nothing. -/
def State.landed (s : State) : Instr → State
  | .resultLanding job k => s.withJob job fun j => s.landResult j k
  | .storeLanding job k => s.withJob job fun j => s.landStore j k
  | .remoteLanding job k => s.withJob job fun j => s.landRemote j k
  | .matrixStep job k => s.withJob job fun j => s.stepMatrix j k
  | .rmwSlot job => s.withJob job fun j => s.landRmw j
  | .rackerBeat job k => s.withJob job fun j => s.landBeat j k
  | .statusWord job => s.withJob job fun j => s.landStatus j
  | .pcardClear job k => s.withJob job fun j => s.landClear j k
  | .selectionRecord job k => s.withJob job fun j => s.landSelection j k
  | .dispatchLanding job q b => s.withJob job fun j => s.landDispatch j q b
  | .combinedRow job t b => s.withJob job fun j => s.landCombined j t b
  | .streamWindow job k => s.withJob job fun j => s.landWindow j k
  | .streamStatus job => s.withJob job fun j => s.landStreamStatus j
  | .sendLanding job g => s.withJob job fun j => s.landSend j g
  | .reRead job k => s.withJob job fun j => s.landAgain j k
  | _ => s

/-- The landings that a list of events holds, made in order. -/
def State.landAll (s : State) (is : List Instr) : State := is.foldl State.landed s

/-- The landings of the new cycle, in order. -/
def State.landings (s : State) (mine : Job → Bool) : List Due :=
  sortDue ((s.jobs.filter mine).flatMap fun j => s.jobEvents (s.jobNow j) j)

/-! ### The words that conflicts name -/

/-- Whether work is a dispatch, whose charges depend on entries it reads. -/
def Job.dispatching (j : Job) : Bool := match j.work with | .press p => p.op == .disp | _ => false

/-- A word that a conflict names at scc `x` makes no visit from then on; what it would land late in this cycle goes with it (R157). -/
def Job.suppressed (j : Job) (x : Nat) : Job := (j.punctual x).cutAt x

/-- The state in which conflicts of the new cycle have suppressed the words named. -/
def State.suppress (s : State) (named : List Nat) : State :=
  { s with jobs := s.jobs.map fun (j : Job) => if named.contains j.seq then j.suppressed (s.jobNow j) else j }

/-- The state after the landings of the new cycle, but for what conflicts suppress, as an entry that `pdisp` reads in it sees them
(R361). -/
def State.afterLandings (s : State) (mine : Job → Bool) (named : List Nat) : State :=
  let s := s.suppress named
  s.landAll ((s.landings mine).map (·.ev))

/-- The words that conflicts name, from those named so far: the charges of entries that dispatches read are judged after the landings,
and the landings by who is named, until the two agree, with fuel (log 30). -/
def State.settleNamed (s : State) (mine : Job → Bool) : Nat → List Nat → List Nat
  | 0, named => named
  | n + 1, named =>
    let next := s.conflicts (some (s.afterLandings mine named)) mine
    if next = named then named else s.settleNamed mine n next

/-- The words that conflicts of the new cycle name. -/
def State.conflicted (s : State) (mine : Job → Bool) : List Nat :=
  let n := (s.jobs.filter fun j => mine j && j.dispatching).length
  s.settleNamed mine (if n = 0 then 0 else n + 1) (s.conflicts none mine)

/-! ### Coming cycles -/

/-- Whether work belongs to the group of packages that a core's package is in step with. -/
def State.inStep (s : State) (id : CoreId) (j : Job) : Bool :=
  s.groupOfPkg (s.physOf j.core) == s.groupOfPkg (s.physOf id)

/-- The next cycle of a core's group, if no word issues: the scc moves on, conflicts suppress what they name, but for work `n`, and
what is due lands and is read. -/
def State.cycleOn (s : State) (id : CoreId) (n : Nat) : State :=
  let s : State := { s with pkgs := s.pkgs.map fun (p : Package) => { p with scc := p.scc + 1 } }
  let mine := s.inStep id
  let s := s.suppress ((s.conflicted mine).filter (· != n))
  (s.landAll ((s.landings mine).map (·.ev))).readIf (s.inStep id)

/-- `k` cycles on. -/
def State.cyclesOn (s : State) (id : CoreId) (n : Nat) : Nat → State
  | 0 => s
  | k + 1 => (s.cycleOn id n).cyclesOn id n k

/-- What a piece of work will have read `k` cycles on. -/
def State.willRead (s : State) (j : Job) (k : Nat) : Samples :=
  match (s.cyclesOn j.core j.seq k).job? j.seq with
  | some i => i.smp
  | none => j.smp

/-! ### The offers of `vamoadd` (R214) -/

/-- The offers of `vamoadd`, all made at c+18, of its last three slots by what they are about to read (log 31). -/
def State.vamoOffer (s : State) (j : Job) : State :=
  match j.work with
  | .vamo _ a _ =>
    let x := s.jobNow j
    if x = j.cyc + 18 ∧ j.lives x then s.offers j x (vamoOffers (s.extOf j.core.folio) j.cap a (s.willRead j 3)) else s
  | _ => s

/-- The reads in the current cycle of the work that `keep` selects, in issue order, and all the offers that go with them. -/
def State.sampleIf (s : State) (keep : Job → Bool) : State :=
  let t := s.readIf keep
  (t.jobs.filter keep).foldl State.vamoOffer t

/-- The reads of all work in the current cycle. -/
def State.sample (s : State) : State := s.sampleIf fun _ => true

/-! ### Layout records that are not valid (R191, R225) -/

/-- Whether an element of `vqst` or `vldq` is active, its last slot being read `k` cycles on: what is still due in this cycle lands
and is read first (log 22). -/
def State.anyActive (s : State) (j : Job) (k : Nat) : Bool :=
  let t := (s.landAll s.due).readIf (s.inStep j.core)
  !noneActive j.cap (min j.cap.vl (vlmax j.cap.ty)) (t.willRead j k).g

/-- The flag of `vqst` or `vldq` through a layout record that is not valid, which lands with slot 0 when some element is active. -/
def State.judgeRecord (s : State) (j : Job) (k : Nat) : State :=
  match j.work with
  | .vmem kind .. =>
    match kind.unusable with
    | some n => if k = 0 ∧ j.lives (s.jobNow j) ∧ s.anyActive j n then s.raiseOn j [⟨0, 0⟩] else s
    | none => s
  | _ => s

end Sys2Proof.Machine
end

