-- ==== Sys2Proof/Machine/Sha3.lean ====
section
/-! DEFINITION. SHA3-512, the digest of R31, R32, R382, R384 and R385 (the function itself is taken from outside the
spec, log 7). -/

namespace Sys2Proof.Machine

/-- The 25 lanes of the permutation, lane (x, y) at 5y + x. -/
abbrev Lanes := Vector DWord 25

/-- A lane by coordinates modulo 5. -/
def lane (a : Lanes) (x y : Nat) : DWord := a[5 * (y % 5) + x % 5]'(by omega)

/-- The rotation of each lane. -/
def rotations : List Nat :=
  [0, 1, 62, 28, 27, 36, 44, 6, 55, 20, 3, 10, 43, 25, 39, 41, 45, 15, 21, 8, 18, 2, 61, 56, 14]

/-- The round constants. -/
def roundConstants : List DWord :=
  [0x0000000000000001, 0x0000000000008082, 0x800000000000808A, 0x8000000080008000, 0x000000000000808B, 0x0000000080000001,
   0x8000000080008081, 0x8000000000008009, 0x000000000000008A, 0x0000000000000088, 0x0000000080008009, 0x000000008000000A] ++
  [0x000000008000808B, 0x800000000000008B, 0x8000000000008089, 0x8000000000008003, 0x8000000000008002, 0x8000000000000080,
   0x000000000000800A, 0x800000008000000A, 0x8000000080008081, 0x8000000000008080, 0x0000000080000001, 0x8000000080008008]

/-- The column parities. -/
def columnParity (a : Lanes) (x : Nat) : DWord := lane a x 0 ^^^ lane a x 1 ^^^ lane a x 2 ^^^ lane a x 3 ^^^ lane a x 4

/-- One round. -/
def keccakRound (a : Lanes) (rc : DWord) : Lanes :=
  let par : Vector DWord 5 := Vector.ofFn fun x => columnParity a x
  let d : Vector DWord 5 := Vector.ofFn fun x =>
    (par[(x.val + 4) % 5]'(by omega)) ^^^ (par[(x.val + 1) % 5]'(by omega)).rotateLeft 1
  let t : Lanes := Vector.ofFn fun i => a[i] ^^^ (d[i.val % 5]'(by omega))
  let b : Lanes := Vector.ofFn fun i =>
    -- the lane that moves to (x, y) comes from (x + 3y, x)
    let x := i.val % 5
    let y := i.val / 5
    let j := 5 * x + (x + 3 * y) % 5
    (t[j % 25]'(by omega)).rotateLeft (rotations.getD j 0)
  Vector.ofFn fun i =>
    let x := i.val % 5
    let y := i.val / 5
    let v := lane b x y ^^^ (~~~lane b (x + 1) y &&& lane b (x + 2) y)
    if i.val = 0 then v ^^^ rc else v

/-- The permutation. -/
def keccak (a : Lanes) : Lanes := roundConstants.foldl keccakRound a

/-- A block of 72 bytes joined to the state. -/
def absorb (a : Lanes) (block : List Byte) : Lanes :=
  keccak (Vector.ofFn fun i =>
    if i.val < 9 then a[i] ^^^ BitVec.ofNat 64 (leNat ((block.drop (8 * i.val)).take 8)) else a[i])

/-- All blocks of a message, the last one padded. -/
def absorbAll (a : Lanes) (m : List Byte) : Nat → Lanes
  | 0 => absorb a ((m ++ [0x06] ++ List.replicate (71 - m.length) 0).take 71 ++
      [(if m.length = 71 then 0x86 else 0x80)])
  | n + 1 => absorbAll (absorb a (m.take 72)) (m.drop 72) n

/-- SHA3-512. -/
def sha3 (m : List Byte) : List Byte :=
  let a := absorbAll (Vector.replicate 25 0) m (m.length / 72)
  (List.range 8).flatMap fun i => leBytes (lane a (i % 5) (i / 5)).toNat 8

end Sys2Proof.Machine
end

