-- ==== Sys2Proof/Machine/Binder.lean ====
section
/-! DEFINITION. The Binder (R25, R32, R179, R227, R289 to R309, R311, R328 to R330, R353): `flaunch`, restart lines, stops,
replays, the end of a folio, pre-emption, and the dispatch rounds. -/

namespace Sys2Proof.Machine

/-! ### Identifiers and the launch buffer (R290, R291) -/

/-- The number by which a state knows the folio of an identifier that a package assigned. -/
def folioKey (pkg ident : Nat) : Nat := pkg * 2 ^ 64 + ident

/-- The folio identifier. -/
def Folio.ident (f : Folio) : Nat := f.id % 2 ^ 64

/-- `flaunch` words of a folio whose record has not been judged yet. -/
def State.launching (s : State) (f : Folio) : Nat :=
  (s.jobs.filter fun j => j.core.folio == f.id && (match j.work with | .flaunch .. => true | _ => false)).length

/-- Entries of a package's launch buffer that records hold or running folios reserve. -/
def State.bufferUsed (s : State) (i : Nat) (q : List Waiting) : Nat :=
  (q.filter fun w => !w.host).length +
    ((s.folios.filter fun f => f.owner == i).map fun f => recBudget f.record - f.launches + f.pending.length + s.launching f).sum

/-! ### Responses and waiting commands (R328, R329) -/

/-- A response of the host die. -/
def Package.respond (p : Package) (command reason : Nat) (data : List Byte) : Package :=
  { p with responses := p.responses ++ [⟨command, reason, data⟩] }

/-- The Pre-empt commands of a folio complete, now that it has ended: whether its context was saved (R307, R328). -/
def Package.answerAsks (p : Package) (ident : Nat) (saved : Bool) : Package :=
  { p with
    responses := p.responses ++ (p.asks.filter (·.1 == ident)).map fun _ => (⟨0x07, 0, [if saved then 1 else 0]⟩ : Response)
    asks := p.asks.filter (·.1 != ident) }

/-- An open seal passes to the host, and its Acquire completes. -/
def Package.takeSeal (p : Package) (k : Fin 64) : Package :=
  { p with seals := p.seals.set k { p.seals[k] with st := .host, held := [] } }.respond 0x03 0 []

/-- A waiting Acquire of a seal completes when the seal is open (R329). -/
def Package.completeAcquire (p : Package) (k : Fin 64) : Package :=
  if p.seals[k].st = .opened ∧ p.acquires.contains k = true then { p with acquires := p.acquires.erase k }.takeSeal k else p

/-- Every waiting Acquire that can takes its seal, before a round dispatches (R329). -/
def Package.serveAcquires (p : Package) : Package := p.acquires.foldl (fun p k => p.completeAcquire k) p

/-! ### `flaunch` (R300) -/

/-- A `flaunch` record is judged at c+8: accepted, it becomes pending; otherwise inv is raised and it is counted. Its
identifier and its place in a launch buffer are of the package that owns the folio (log 114). -/
def State.landLaunch (s : State) (j : Job) (start : DWord) : State :=
  if !j.keeps 1 then s
  else
    match s.folio? j.core.folio with
    | none => s
    | some f =>
      let r : BitVec 2048 := BitVec.ofNat 2048 (j.smp.mem.toNat % 2 ^ 2048)
      let e := extents (recShape r)
      if s.reject f.owner r false ≠ 0 ∨ 1 < e.p ∨ recTimed r = true ∨ recRestore r = true then
        (s.updFolio f.id fun f => { f with rejects := f.rejects + 1 }).raiseOn j [⟨0, 0⟩]
      else
        let id := 1 + (match s.pkgs[f.owner]? with | some p => p.lastId | none => 0)
        let at_ := f.start + max start.toNat (j.cyc - f.start + 64) - f.lead
        (s.updPkg f.owner fun p => { p with lastId := id }).updFolio f.id fun f =>
          { f with pending := f.pending ++ [⟨id, j.core, r, at_⟩] }

/-- Pending records commit: they arrive in their queues (R291, R300). -/
def State.commitPending (s : State) (f : Folio) : State :=
  let ws : List Waiting := f.pending.map fun p =>
    { id := p.id, record := p.record, host := false, prio := recPrio p.record, passes := 0, notBefore := p.notBefore
      extraDep := if recAfter p.record then f.ident else 0 }
  (s.updPkg f.owner fun p => { p with queue := p.queue ++ ws }).updFolio f.id fun f => { f with pending := [] }

/-! ### Restart lines (R25, R177, R227) -/

/-- Filled words that have landed become fetchable. In a stop window instruction memory as of the last line is kept, for
the rollback to return to (R227, R302). -/
def Core.commitFills (c : Core) (stopping : Bool) : Core :=
  { c with
    imemLine := if stopping ∧ ¬ c.fill.isEmpty then some (c.imemLine.getD c.imem) else c.imemLine
    imem := c.fill.foldl (fun m x => Cells.set m x.1 x.2) c.imem
    fill := [] }

/-- Whether a stop of the folio is pending. -/
def Folio.stopping (f : Folio) : Bool := f.stop.isSome

/-- The folio cycle of a folio. -/
def State.cycleOf (s : State) (f : Folio) : Nat := s.folioNow f - f.start

/-- Whether a folio's current cycle is a line that it has not passed yet and that no pending stop undoes (R303). -/
def State.atLine (s : State) (f : Folio) : Bool :=
  f.phase == .running && !f.stopping && decide (f.start ≤ s.folioNow f) && f.listed (s.cycleOf f) &&
    !(f.marked && f.line == s.cycleOf f)

/-- A folio passes a line: pending records commit, ended cores commit their fills, and the state that a rollback returns
to is noted (R25, R277, R288, R300, R304, R353). Done once for a line. -/
def State.passLine (s : State) (id : Nat) : State :=
  match s.folio? id with
  | none => s
  | some f =>
    if !s.atLine f then s
    else
      let s := s.commitPending f
      let fills (c : Core) : Core := if c.id.folio = id ∧ c.fended = true then c.commitFills false else c
      { s with core := fills s.core, others := s.others.map fills }.updFolio id fun f =>
        { f with
          line := s.cycleOf f, marked := true, replayInterval := false, stepAtLine := s.stepOf f.owner
          pressAtLine := f.press, rackersAtLine := f.rackers, launchesAtLine := f.launches }

/-- A core's snapshot at its `rstp` (R177): the word that issues next, with what is read at c. -/
def Core.takeSnapshot (c : Core) (line : Nat) : Core := { c with snap := ⟨c.pc, c.s, c.cons, c.stage, line⟩ }

/-! ### Rollback (R179, R302 to R304) -/

/-- A core returns to its snapshot, and drops the filled words that no line has committed (R227). A core whose snapshot is of an
earlier line than the folio's last had ended by then, and stays ended (R25, log 19). -/
def Core.restore (c : Core) (line now : Nat) : Core :=
  let c := { c with oobKept := c.oobKept || c.oob != -1, imem := c.imemLine.getD c.imem, imemLine := none, fill := [] }
  if c.fended && c.snap.line != line then c
  else
    { c with
      pc := c.snap.pc, s := c.snap.s, cons := c.snap.cons, stage := c.snap.stage
      m := if c.tstate then c.shadowM else c.m
      vl := if c.tstate then c.shadowVl else c.vl
      tstate := false, fended := false, haltAt := none, issueAt := now, lastIssue := none }

/-- Whether a core's code, as a rollback restores it, holds a `stepinc` (R353). -/
def Core.votes (c : Core) : Bool := (c.imemLine.getD c.imem).any fun (x : Nat × Word) => x.2 == 0xF4000001

/-- Whether work is a `pcard` issued before the scc of a line: its clear resumes after a rollback (R288). -/
def Job.clearKept (j : Job) (lineAt : Nat) : Bool :=
  match j.work with
  | .press p => p.op == .card && decide (j.cyc < lineAt)
  | _ => false

/-- The scc of a folio's last line; for the implicit line, of its cycle 0. -/
def Folio.lineAt (f : Folio) : Nat := f.start + f.line

/-- Trap reports entered in the trap logs of the packages that hold the trapping cores (R303). -/
def State.logTraps (s : State) (f : Folio) (ts : List TrapReport) : State :=
  ts.foldl (fun s t => s.updPkg (f.phys (t.coord / 2 ^ 10)) fun p => { p with trapLog := p.trapLog ++ [t] }) s

/-- The reads and offers that a folio's work in flight makes in the current cycle, which its end or its stop would otherwise come
before (R302). -/
def State.sampleFolio (s : State) (id : Nat) : State := s.sampleIf fun j => j.core.folio == id

/-- The Pre-empt commands of records that a rollback discards complete, with no context saved. -/
def State.answerPending (s : State) (f : Folio) : State :=
  f.pending.foldl (fun s r => s.updPkg f.owner fun p => p.answerAsks r.id false) s

/-- Whether work is a transfer to the cellar whose status has not landed (R330). -/
def Job.unfinished (j : Job) (now : Nat) : Bool :=
  match j.work with
  | .racker t => t.mode == 3 && !t.dHbm && (decide (now < j.cyc + t.statusAt) || !j.lives (j.cyc + t.statusAt))
  | _ => false

/-- What a discarded transfer wrote is marked as its. -/
def Held.discard (gone : List Nat) (h : Held) : Held :=
  match h.by_ with
  | .transfer _ n => if gone.contains n then { h with by_ := .discarded } else h
  | _ => h

/-- Work is discarded: what its transfers to the cellar have written before their status is covered by no release (R330). -/
def State.discard (s : State) (js : List Job) : State :=
  match (js.filter fun j => j.unfinished (s.jobNow j)).map (·.seq) with
  | [] => s
  | gone => { s with pkgs := s.pkgs.map fun (p : Package) =>
      { p with seals := p.seals.map fun k => { k with held := k.held.map (Held.discard gone) } } }

/-- The stop cycle of a replay (R302, R303): the folio's later landings are discarded and the traps are logged. The
count of rejects is not restored (R300, log 112). -/
def State.rollback (s : State) (id : Nat) : State :=
  match s.folio? id with
  | none => s
  | some f =>
    match f.stop with
    | none => s
    | some t =>
      let s := ((s.sampleFolio id).logTraps f t.traps).answerPending f
      let keep (j : Job) : Bool := j.core.folio != id || j.clearKept f.lineAt
      { s.discard (s.jobs.filter fun j => !keep j) with
               jobs := (s.jobs.filter keep).map fun (j : Job) =>
          if j.core.folio = id then { j with cut := some (s.folioNow f) } else j
               votes := s.votes.filter fun v => v.folio != id }.updFolio id fun f =>
        { f with phase := .restoring, replays := f.replays + 1, pending := [], stop := some ⟨t.y, []⟩
                 press := f.pressAtLine, rackers := f.rackersAtLine, launches := f.launchesAtLine }

/-- The resume cycle of R303. -/
def Folio.resumeCycle (f : Folio) : Nat := if f.marked then f.line + 1 else 0

/-- A folio's start moves on: so does the scc up to which its release covers writes, that it is the same folio cycle (R330). -/
def Seal.rebased (id d : Nat) (k : Seal) : Seal :=
  { k with stray := k.stray.map fun y => if y.folio = id then { y with upto := y.upto + d } else y }

/-- The seals of a package when a folio's start moves on. -/
def Package.rebased (id d : Nat) (p : Package) : Package := { p with seals := p.seals.map (Seal.rebased id d) }

/-- What a folio's work lands in the present cycle, from which it is taken up again, is due (R288). -/
def State.takeUp (s : State) (id : Nat) : State :=
  { s with due := s.due ++ (s.landings fun j => j.core.folio == id).map (·.ev) }

/-- The resumption of a folio (R303, R304): snapshots restored, the start rebased, the clear of a `pcard` taken up again. A
trap reported since the stop cycle stops it again (log 19). The step counter is restored at the end of the 64 ticks, before the votes of
the resume cycle; votes of other folios that land in these ticks it takes back with the rest (R353, log 141). -/
def State.resume (s : State) (id : Nat) : State :=
  match s.folio? id with
  | none => s
  | some f =>
    let now := s.folioNow f
    let start := now - f.resumeCycle
    let y := match f.stop with | some t => t.y | none => now
    let later : List TrapReport := match f.stop with | some t => t.traps.filter fun (r : TrapReport) => decide (y < r.cycle + f.start) | none => []
    let votes := s.cores.any fun c => c.id.folio == id && c.votes
    let s := if votes then (s.members f.owner).foldl (fun s i => s.updPkg i fun p => { p with step := f.stepAtLine }) s else s
    let s := { s with pkgs := s.pkgs.map (Package.rebased id (start - f.start)) }
    let back (c : Core) : Core := if c.id.folio = id then c.restore f.line now else c
    ({ s with
      core := back s.core
      others := s.others.map back
      jobs := s.jobs.map fun (j : Job) => if j.core.folio = id then { j with cut := none, cyc := j.cyc + (start - f.start) } else j
    }.updFolio id fun f =>
      { f with
        phase := .running, start := start, replayInterval := true
        stop := match later with | [] => none | r :: rs => some ⟨r.cycle + f.start + 320, r :: rs⟩ }).takeUp id

/-! ### The end of a folio (R32, R299, R306) -/

/-- The core a state focuses before any folio is bound (log 4). -/
def Core.idle : Core := .launch ⟨0, 0, 0, 0, 0⟩ 0 0 0 0

/-- A folio leaves the machine with its cores and its work. -/
def State.dropFolio (s : State) (id : Nat) : State :=
  let keep := s.others.filter fun c => c.id.folio != id
  let s := { s.discard (s.jobs.filter fun j => j.core.folio == id) with
    folios := s.folios.filter fun f => f.id != id, jobs := s.jobs.filter (fun j => j.core.folio != id), others := keep }
  if s.core.id.folio = id then
    match keep with
    | [] => { s with core := .idle }
    | c :: r => { s with core := c, others := r }
  else s

/-- Seals that a folio holds are opened. -/
def State.openSeals (s : State) (id : Nat) : State :=
  { s with pkgs := s.pkgs.map fun p => { p with seals := p.seals.map fun k => if k.st = .folio id then { k with st := .opened } else k } }

/-- The seal whose region holds a byte, under the address it is accessed by, or else under another VA of its frame (R316, R367). -/
def Package.sealOf (p : Package) (cellar : Bool) (stack addr va : Nat) : Option Seal :=
  (p.seals.toList.find? fun k => k.region.any fun r => r.contains cellar va).or
    (p.seals.toList.find? fun k => k.region.any fun r => p.holdsByte r cellar stack addr va)

/-- Whether the host holds the seal of a byte's region. -/
def Package.hostHolds (p : Package) (cellar : Bool) (stack addr va : Nat) : Bool :=
  (p.sealOf cellar stack addr va).any fun k => k.st == .host

/-- Host writes made without a release, whose choice is closed, are settled (R366): a byte holds the last value written, or, where
a device write has landed on it since, that value or the one in place, and the choice is free (logs 5, 93). -/
def State.settle (s : State) (i : Nat) : List OpenWrite → State
  | [] => s
  | w :: r =>
    match s.pkgs[i]? with
    | none => s
    | some p =>
      if r.any fun x => x.on w.cellar w.stack w.addr then s.settle i r
      else if w.covered then
        let b := choose s.freeCtr (p.inPlace w.cellar w.stack w.addr) [w.val]
        (({ s with freeCtr := s.freeCtr + 1 }).updPkg i fun p => p.put w.cellar w.stack w.addr w.va b .host).settle i r
      else (s.updPkg i fun p => p.put w.cellar w.stack w.addr w.va w.val .host).settle i r

/-- Whether the choice of a host write closes as a folio ends (R366): the folio is the last of those bound while it was open, and
the host does not hold the seal of its region. -/
def Package.closesFor (p : Package) (id : Nat) (w : OpenWrite) : Bool :=
  w.folios.contains id && w.folios.all (· == id) && !p.hostHolds w.cellar w.stack w.addr w.va

/-- A folio that ends closes choices on a package. -/
def State.closeOn (s : State) (id i : Nat) : State :=
  match s.pkgs[i]? with
  | none => s
  | some p =>
    (s.updPkg i fun p => { p with
      openWrites := (p.openWrites.filter fun w => !p.closesFor id w).map fun w => { w with folios := w.folios.filter (· != id) } }).settle i
      (p.openWrites.filter (p.closesFor id))

/-- A folio that ends closes the choices that were open for it, on every package it was bound on. -/
def State.closeWrites (s : State) (f : Folio) : State := f.bind.foldl (fun s b => s.closeOn f.id b.phys) s

/-- A folio that is bound meets the host writes that are open on its packages in a seal's region; a write to another byte, made
before the folio, it sees (R366, log 93). -/
def Package.meetWrites (p : Package) (id : Nat) : Package :=
  { p with openWrites := p.openWrites.map fun w =>
      if (p.sealOf w.cellar w.stack w.addr w.va).isSome then { w with folios := w.folios ++ [id] } else w }

/-- A folio that is bound meets the open host writes of its packages. -/
def State.meetWrites (s : State) (id : Nat) (bs : List PkgBind) : State :=
  bs.foldl (fun s b => s.updPkg b.phys fun p => p.meetWrites id) s

/-- The OR of fs over a quire's cores. -/
def orFlags : List Core → BitVec 7
  | [] => 0
  | c :: r => c.fs ||| orFlags r

/-- Whether one offer precedes another: by folio cycle, then by rank (R32). -/
def earlierOffer (a b : Nat × Nat × DWord) : Bool := decide (a.1 < b.1) || (a.1 == b.1 && decide (a.2.1 < b.2.1))

/-- The first out-of-range address of a quire (R32). -/
def firstOob (e : Extents) (cs : List Core) : DWord :=
  let xs : List (Nat × Nat × DWord) := (cs.filter (·.oob != -1)).filterMap fun c => c.oobFrom.map fun o => (o.1, rankIn e c.id, c.oob)
  match xs.foldl (fun (m : Option (Nat × Nat × DWord)) x => match m with | none => some x | some y => if earlierOffer x y then some x else some y) none with
  | some x => x.2.2
  | none => -1

/-- Release records in the order of R32: by folio cycle, then by coordinate. -/
def insertRel (r : RelRecord) : List RelRecord → List RelRecord
  | [] => [r]
  | x :: xs => if x.cycle < r.cycle ∨ (x.cycle = r.cycle ∧ x.coord ≤ r.coord) then x :: insertRel r xs else r :: x :: xs

/-- The vintage record (R32). -/
def Folio.vintage (f : Folio) (cs : List Core) (step : DWord) : List Byte :=
  let rels := f.rels.foldl (fun acc r => insertRel r acc) []
  sha3 (sha3 (leBytes (recShape f.record) 16) ++ sha3 f.image ++ (recMb f.record).toList.flatMap (fun x => leBytes x.toNat 8) ++
    leBytes f.step0.toNat 8 ++ rels.flatMap (fun r => leBytes r.sealNo 8 ++ leBytes r.cycle 8 ++ r.digest) ++
    leBytes step.toNat 8 ++ leBytes (orFlags cs).toNat 8 ++ leBytes (firstOob f.ext cs).toNat 8)

/-- The tval of the trapping core as the folio ends (R299); a machine check and a drift fault carry their own. -/
def TrapReport.tvalAt (t : TrapReport) (cs : List Core) : DWord :=
  match t.cls with
  | .machine | .drift => t.tval
  | _ => match cs.find? fun c => coordOf c.id == t.coord with | some c => c.tval | none => t.tval

/-- Whether a write has left the digest of a release undetermined (R330). -/
def State.digestOpen (s : State) (f : Folio) (r : RelRecord) : Bool :=
  match s.pkgs[f.phys (r.coord / 2 ^ 10)]? with
  | some p => p.seals.toList.zipIdx.any fun x => x.2 == r.sealNo && x.1.spoilt.contains f.id
  | none => false

/-- A release as the vintage record takes it: a digest left undetermined is a free value (log 107). -/
def State.relEntry (s : State) (f : Folio) (r : RelRecord) : RelRecord :=
  if s.digestOpen f r then { r with digest := leBytes (Config.lateDigest f.id r.sealNo).toNat 64 } else r

/-- The start of a folio as 64 bits show it: one that lies before scc 0 wraps (R309, log 126). -/
def Folio.trueStart (f : Folio) : Nat := (f.start + (2 ^ 64 - f.lead % 2 ^ 64)) % 2 ^ 64

/-- A completion record of a folio that ends now (R299); one that ends while a Pre-empt waits holds tval 0 (R307, log 89). -/
def State.completion (s : State) (f : Folio) (cause : Nat) (t : Option TrapReport) (tval : DWord) : Completion :=
  let p := s.pkgs[f.owner]?
  let cs := s.cores.filter fun c => c.id.folio == f.id
  { id := f.ident, start := f.trueStart, finish := s.sccOf f.owner
    tick := match p with | some p => p.tick | none => 0
    cause := cause, replays := min f.replays 255
    code := if cause = 1 then (match t with | some t => t.code | none => 0) else 0
    coord := match t with | some t => t.coord | none => 0
    word := match t with | some t => t.word | none => 0
    tval := match t with | some t => if f.preempt.isSome then 0 else t.tvalAt cs | none => tval
    rejects := min f.rejects 255
    vintage := if cause = 0 then { f with rels := f.rels.map (s.relEntry f) }.vintage cs (match p with | some p => p.step | none => 0) else List.replicate 64 0 }

/-- The completion record is written, also where 1,024 wait for the host (log 137), and the folio's Pre-empt commands complete. -/
def Package.record (p : Package) (c : Completion) (saved : Bool) : Package :=
  { p with records := p.records ++ [c] }.answerAsks c.id saved

/-- A folio ends (R299): pending records commit, seals open, the record is written, a waiting Pre-empt completes without a
context. -/
def State.endFolio (s : State) (f : Folio) (cause : Nat) (t : Option TrapReport) : State :=
  let s := s.sampleFolio f.id
  let c := s.completion f cause t 0
  ((((s.commitPending f).openSeals f.id).dropFolio f.id).updPkg f.owner fun p => p.record c false).closeWrites f

/-- The number of a field of `n` bytes at a place of a completion record, as the record's number takes it. -/
def atByte (byte n x : Nat) : Nat := x % 2 ^ (8 * n) * 2 ^ (8 * byte)

/-- The 128 bytes of a completion record (R299). -/
def Completion.bytes (c : Completion) : List Byte :=
  leBytes (atByte 0 8 c.id + atByte 8 8 c.start + atByte 16 8 c.finish + atByte 24 8 c.tick + atByte 32 1 c.cause +
    atByte 33 1 c.replays + atByte 34 2 c.code + atByte 36 4 c.coord + atByte 40 2 c.word + atByte 48 8 c.tval.toNat +
    atByte 56 1 c.rejects + atByte 64 64 (leNat c.vintage)) 128

/-- Precedence of traps in a stop window (R306). -/
def TrapClass.rank : TrapClass → Nat
  | .machine => 0 | .drift => 1 | .illegal => 2 | .software => 3 | .nested => 3 | .timing => 4

/-- The cause a trap gives (R299, R304). -/
def TrapClass.cause : TrapClass → Nat
  | .machine => 4 | .drift => 5 | .illegal => 2 | .software => 1 | .nested => 1 | .timing => 3

/-- Whether one report comes before another: by precedence, then by cycle (log 136), then by coordinate (R306). -/
def TrapReport.before (a b : TrapReport) : Bool :=
  decide (a.cls.rank < b.cls.rank) || (a.cls.rank == b.cls.rank && (decide (a.cycle < b.cycle) ||
    (a.cycle == b.cycle && decide (a.coord < b.coord))))

/-- The report that names a stop. -/
def namedTrap : List TrapReport → Option TrapReport
  | [] => none
  | t :: r => match namedTrap r with | none => some t | some u => if u.before t then some u else some t

/-- Whether a stop replays: only timing traps, outside the replay interval (R302, R304). -/
def Folio.replaysAt (f : Folio) : Bool :=
  !f.replayInterval && (match f.stop with | some t => t.traps.all fun r => r.cls == .timing | none => false)

/-- The stop cycle of a folio that a trap ends (R306). A replay that had begun in the same cycle is not performed. -/
def State.stopFolio (s : State) (id : Nat) : State :=
  match s.folio? id with
  | none => s
  | some f =>
    match f.stop with
    | none => s
    | some t =>
      match namedTrap t.traps with
      | none => s
      | some r =>
        let s := s.logTraps f t.traps
        let f := if f.phase = .restoring then { f with replays := f.replays - 1 } else f
        { s with votes := s.votes.filter fun v => v.folio != id }.endFolio f r.cls.cause (some r)

/-- The stop cycle of a folio whose window has brought timing traps alone so far: it replays, unless another trap has come
since (R302). -/
def State.replayOrStop (s : State) (id : Nat) : State :=
  if (s.folio? id).any Folio.replaysAt then s.rollback id else s.stopFolio id

/-- A trap that falls on a package's folios and on no core: a drift fault, or a thermal trip (R345, R390). -/
def State.reportAll (s : State) (hit : Folio → Bool) (cls : TrapClass) : State :=
  { s with folios := s.folios.map fun f =>
      if hit f then
        let now := s.folioNow f
        f.report now ⟨cls, now - f.start, 0, 0, 0, 0⟩
      else f }

/-! ### Pre-emption (R307 to R309) -/

/-- The bytes of a core in a context (R308). -/
def contextBytes : Nat := 4096 + 65536 + 28672 + 262160 + 256 + 4352 + 64 + 1050624 + 131072

/-- Stores free bytes: what a context area holds is not laid out by the spec (log 9). -/
def State.storeFree (s : State) (i va n : Nat) : Nat → State
  | 0 => s
  | k + 1 => ((s.hbmWrite .context i (va + (n - (k + 1))) (Config.contextByte s.freeCtr (n - (k + 1)))).1).storeFree i va n k

/-- The bytes of a context's area on a package: those of the cores that it binds (R308). -/
def areaBytes (cs : List Core) (i : Nat) : Nat := contextBytes * (cs.filter fun c => c.phys == i).length

/-- The parts of a context are written, each through its cluster's Racker and so in the HBM of its own package (R308). -/
def State.storeArea (s : State) (f : Folio) (cs : List Core) (va : Nat) : State :=
  f.bind.foldl (fun s b =>
    let n := areaBytes cs b.phys
    { s.storeFree b.phys va n n with freeCtr := s.freeCtr + 1 }) s

/-- The areas of a context, by logical package, with the numbers of the free bytes that `storeArea` writes. -/
def State.areas (s : State) (f : Folio) (cs : List Core) : List (Nat × Nat × Nat) :=
  f.bind.zipIdx.map fun (b, k) => (k, s.freeCtr + k, areaBytes cs b.phys)

/-- A folio is pre-empted at its line: its state is saved, it ends with cause 6, and its seals stay held. -/
def State.preemptFolio (s : State) (id : Nat) : State :=
  match s.folio? id with
  | none => s
  | some f =>
    match f.preempt with
    | none => s
    | some (va, _) =>
      let s := (s.sampleFolio id).passLine id
      let f := (s.folio? id).getD f
      let cs := s.cores.filter fun c => c.id.folio == id
      let js := s.jobs.filter fun j => j.core.folio == id && j.clearKept f.lineAt
      let c := s.completion f 6 none va
      let x : Context := ⟨f.owner, va, s.areas f cs, f, cs, js⟩
      let s := s.storeArea f cs va.toNat
      let s := { s with contexts := s.contexts ++ [x] }
      ((s.dropFolio id).updPkg f.owner fun p => p.record c true).closeWrites f

/-- Whether `n` bytes from a VA on are those of a context's area. -/
def Package.holdsArea (p : Package) (va ctr n : Nat) : Bool :=
  (List.range n).all fun k => p.peek (va + k) == Config.contextByte ctr k

/-- Whether the HBM of a folio's packages holds a context at a VA: wherever it was saved, and wherever the host has copied its
bytes since (R309). -/
def Context.liesAt (x : Context) (s : State) (f : Folio) (va : Nat) : Bool :=
  x.areas.all fun (k, ctr, n) => (s.pkgs[f.phys k]?).any fun p => p.holdsArea va ctr n

/-- The context that a record with the restore flag takes up: the last one saved whose bytes lie at the record's context address
(R309, log 9). -/
def State.savedFor (s : State) (f : Folio) : Option Context :=
  if recRestore f.record then s.contexts.reverse.find? fun x => x.liesAt s f (recContext f.record) else none

/-! ### Lines that requests wait for (R307, R317) -/

/-- The first listed line of a restart table at a folio cycle or after it. -/
def lineFrom (x : Nat) : List (Nat × Nat × Nat) → Option Nat
  | [] => none
  | (first, period, count) :: r =>
    let k := if x ≤ first then 0 else if period = 0 then count else (x - first + period - 1) / period
    let here := if k < count then some (first + k * period) else none
    match here, lineFrom x r with
    | some a, some b => some (min a b)
    | some a, none => some a
    | none, b => b

/-- The first line of a folio at least 320 cycles after a request made at scc `asked`. Before a folio starts the implicit line
at cycle 0 counts (R25), or, when it restores a context, the lines after the saved one. While a replay restores, its cycles
are counted from the start that the resumption will give (R303). -/
def State.lineAhead (s : State) (f : Folio) (asked : Nat) : Option Nat :=
  match f.phase with
  | .running => lineFrom (asked + f.lead + 320 - f.start) f.restarts
  | .restoring =>
    lineFrom (asked + f.lead + 320 - (match f.stop with | some t => t.y + 65 - f.resumeCycle | none => f.start)) f.restarts
  | .agreed =>
    match s.savedFor f with
    | some x =>
      lineFrom (max (asked + 320 + x.folio.resumeCycle - f.start) x.folio.resumeCycle) x.folio.restarts
    | none => if asked + 320 ≤ f.start then some 0 else lineFrom (asked + 320 - f.start) f.restarts

/-- The earliest Pre-empt command that waits for a dispatched folio fixes its line (R307). -/
def State.armPreempt (s : State) (id : Nat) : State :=
  match s.folio? id with
  | none => s
  | some f =>
    match (s.pkgs[f.owner]?).bind fun p => p.asks.find? fun a => a.1 == f.ident with
    | some a => s.updFolio id fun g => { g with preempt := some (a.2.1, s.lineAhead f a.2.2) }
    | none => s

/-! ### Readiness (R292, R311, R395) -/

/-- Whether a folio of a package, by identifier, has not ended: it waits, runs, or is pending. -/
def State.notEnded (s : State) (i : Nat) (q : List Waiting) (id : Nat) : Bool :=
  (q.any fun w => w.id == id) || s.folios.any fun f => f.owner == i && (f.ident == id || f.pending.any fun p => p.id == id)

/-- Whether a seal can pass to a folio (R292): the host has released it and no running folio holds it. A pre-empted folio does
not run. -/
def State.sealFree (s : State) (k : Seal) : Bool :=
  match k.st with
  | .host => false
  | .opened => true
  | .folio id => (s.folio? id).isNone

/-- Every condition of R292 but the free quire. Seals are asked for on every package the record names (log 120), and a record of
`flaunch` waits for the round at or after its earliest start (R300, log 121). -/
def State.couldStart (s : State) (i : Nat) (p : Package) (w : Waiting) : Bool :=
  let r := w.record
  let seals := (s.named i r).all fun q =>
    match s.pkgs[q]? with
    | some p => (recSeals r).all fun k => s.sealFree p.seals[k]
    | none => false
  let deps := ((recDeps r) ++ (if w.extraDep = 0 then [] else [w.extraDep])).all fun d => !s.notEnded i p.queue d
  let start := (!recStartGiven r || decide (recStart r ≤ p.scc)) && decide (w.notBefore ≤ p.scc)
  seals && deps && start && decide (s.bufferUsed i p.queue + recBudget r ≤ 64)

/-- Whether an image holds its calendar. -/
def Package.imageHolds (p : Package) (r : BitVec 2048) : Bool := (imgField (p.header r) 6 2).testBit 0

/-- The binding of a waiting folio that is free now, its calendar too, on the dies of each package that `ok` admits (R295, R311). -/
def State.freeQuire (s : State) (i : Nat) (p : Package) (w : Waiting) (ok : Nat → Nat → Bool) : Option (List PkgBind) :=
  let holds := p.imageHolds w.record
  if holds && (s.named i w.record).any (fun q => !s.calendarFree q) then none else s.bindQuire i w.record holds false ok

/-- The Binder firmware of a die of a package. -/
def State.firmwareOf (s : State) (q d : Nat) : Option Firmware :=
  match s.pkgs[q]? with | some p => p.firmware[d % 4]'(Nat.mod_lt _ (by decide)) | none => none

/-- Whether the dies of a binding run one Binder firmware (R395). -/
def State.oneFirmware (s : State) (b : List PkgBind) : Bool :=
  let fw := b.flatMap fun x => x.dies.map fun d => s.firmwareOf x.phys d.die
  fw.all fun x => fw.all fun y => x == y

/-- The binding that a waiting folio takes: the first that is free, or, where that spans two firmwares, the first on the free dies of
one (R395, logs 11, 143). -/
def State.readyQuire (s : State) (i : Nat) (p : Package) (w : Waiting) : Option (List PkgBind) :=
  match s.freeQuire i p w fun _ _ => true with
  | none => none
  | some b =>
    if s.oneFirmware b then some b
    else
      ((s.named i w.record).flatMap fun q => (List.range 4).map (s.firmwareOf q)).findSome? fun fw =>
        s.freeQuire i p w fun q d => s.firmwareOf q d == fw

/-! ### Dispatch (R293, R294, R298) -/

/-- A folio as dispatched: it starts 64 cycles on, or as agreed. -/
def newFolio (i : Nat) (p : Package) (w : Waiting) (b : List PkgBind) : Folio where
  id := folioKey i w.id
  owner := i
  record := w.record
  image := p.peekBytes (recImage w.record) (imgField (p.header w.record) 0 4)
  restarts := imgRestarts (p.peekBytes (recImage w.record) (imgField (p.header w.record) 0 4))
  holds := p.imageHolds w.record
  tvec := BitVec.ofNat 64 (imgField (p.header w.record) 24 8)
  bind := b
  phase := .agreed
  start := p.scc + 64
  lead := 0
  stop := none
  line := 0
  marked := false
  replayInterval := false
  replays := 0
  rejects := 0
  rels := []
  step0 := 0
  stepAtLine := 0
  press := []
  pressAtLine := []
  rackers := []
  rackersAtLine := []
  launches := 0
  launchesAtLine := 0
  pending := []
  preempt := none

/-- The seals of a record pass to its folio (R293), on every package that it names (log 120). -/
def State.takeSeals (s : State) (i : Nat) (r : BitVec 2048) (id : Nat) : State :=
  (s.named i r).foldl (fun s q => s.updPkg q fun p =>
    { p with seals := (recSeals r).foldl (fun (ks : Vector Seal 64) (k : Fin 64) => ks.set k { ks[k] with st := .folio id, stray := none }) p.seals }) s

/-- The place of a record in its queue. -/
def placeIn (q : List Waiting) (w : Waiting) : Nat := ((q.filter fun x => x.prio == w.prio).findIdx fun x => x.id == w.id)

/-- A record leaves its queue; a pointer beyond it follows. -/
def Package.unqueue (p : Package) (w : Waiting) : Package :=
  let k := placeIn p.queue w
  let i : Fin 4 := ⟨w.prio % 4, Nat.mod_lt _ (by decide)⟩
  { p with
    queue := p.queue.filter fun x => x.id != w.id
    rr := if k < p.rr[i] then p.rr.set i (p.rr[i] - 1) else p.rr }

/-- Dispatches a record: a timed folio's start is still to be agreed, also where it names one package (log 148). -/
def State.dispatch (s : State) (i : Nat) (p : Package) (w : Waiting) (b : List PkgBind) : State :=
  let f := newFolio i p w b
  let k := placeIn p.queue w
  let q : Fin 4 := ⟨w.prio % 4, Nat.mod_lt _ (by decide)⟩
  let s := (s.takeSeals i w.record f.id).updPkg i fun p =>
    let p := p.unqueue w
    { p with rr := p.rr.set q k, draining := p.draining.filter (· != w.id) }
  let s := { s with
    folios := s.folios ++ [f]
    due := if recTimed w.record then s.due ++ [Instr.startAgreement f.id] else s.due }
  let s := s.meetWrites f.id b
  if recTimed w.record then s else s.armPreempt f.id

/-- The records of one priority from the pointer on, wrapping. -/
def Package.scanOrder (p : Package) (prio : Fin 4) : List Waiting :=
  let q := p.queue.filter fun w => w.prio == prio.val
  let k := if p.rr[prio] < q.length then p.rr[prio] else 0
  q.drop k ++ q.take k

/-- All records in the order of a scan; while a folio drains, only the one that became draining first. -/
def Package.scan (p : Package) : List Waiting :=
  match p.draining with
  | [] => (List.finRange 4).flatMap p.scanOrder
  | d :: _ => p.queue.filter fun w => w.id == d

/-- The first record of a scan that is ready, with its binding. -/
def State.firstReady (s : State) (i : Nat) (p : Package) : List Waiting → Option (Waiting × List PkgBind)
  | [] => none
  | w :: r =>
    match if s.couldStart i p w then s.readyQuire i p w else none with
    | some b => some (w, b)
    | none => s.firstReady i p r

/-- Records blocked on cores (R292); one that only different firmwares keep from its quire is not (log 143). -/
def State.blocked (s : State) (i : Nat) (p : Package) : List Nat :=
  (p.queue.filter fun w => s.couldStart i p w && (s.freeQuire i p w fun _ _ => true).isNone).map (·.id)

/-- Scans and dispatches until nothing is ready, with fuel for the records there are; the records found blocked. -/
def State.scans (s : State) (i : Nat) : Nat → State × List Nat
  | 0 => (s, [])
  | n + 1 =>
    match s.pkgs[i]? with
    | none => (s, [])
    | some p =>
      let stuck := s.blocked i p
      match if p.records.length < 1024 then s.firstReady i p p.scan else none with
      | none => (s, stuck)
      | some (w, b) =>
        let r := (s.dispatch i p w b).scans i n
        (r.1, stuck ++ r.2)

/-- One pass more for a record blocked in a round (R294). A host entry that moves up joins its queue also where that then holds more
than 64 (log 119). -/
def Package.addPass (p : Package) (id : Nat) : Package :=
  match p.queue.find? fun w => w.id == id with
  | none => p
  | some w =>
    if w.passes + 1 < 8 then { p with queue := p.queue.map fun x => if x.id = id then { x with passes := x.passes + 1 } else x }
    else if w.prio = 0 then
      { p with
        queue := p.queue.map fun x => if x.id = id then { x with passes := 8 } else x
        draining := if p.draining.contains id then p.draining else p.draining ++ [id] }
    else
      let p := p.unqueue w
      { p with queue := p.queue ++ [{ w with prio := w.prio - 1, passes := 0 }] }

/-! ### Folios that can no longer be bound (R392) -/

/-- Whether a record's quire fits the working units of the packages it names (R295, R311), none of whose dies is fenced, or
those that are not. -/
def State.fits (s : State) (i : Nat) (r : BitVec 2048) : Bool :=
  let e := extents (recShape r)
  let holds := match s.pkgs[i]? with | some p => p.imageHolds r | none => false
  (s.named i r).all fun q =>
    match s.pkgs[q]? with
    | some p => p.fenced == 0 || (bindPackage p e holds (fun _ _ => true) (fun _ => true)).isSome
    | none => false

/-- A completion record of cause 7, unbindable (R392). -/
def Package.unbindable (p : Package) (w : Waiting) : Package :=
  let c : Completion := {
    id := w.id, start := 0, finish := p.scc, tick := p.tick, cause := 7, replays := 0, code := 0, coord := 0, word := 0, tval := 0
    rejects := 0, vintage := List.replicate 64 0 }
  let p := p.unqueue w
  { p with draining := p.draining.filter (· != w.id) }.record c false

/-- Queued folios of a package that a fence leaves without a binding leave the queue, also those that arrive after the fence
(R392). -/
def State.dropUnbindable (s : State) (i : Nat) : State :=
  match s.pkgs[i]? with
  | none => s
  | some p => (p.queue.filter fun w => !s.fits i w.record).foldl (fun s w => s.updPkg i fun p => p.unbindable w) s

/-! ### Rounds (R293, R294, R329, R345, R392) -/

/-- What a round does before it scans: waiting Acquires take their seals, and what can no longer be bound leaves its queue. -/
def State.beforeScan (s : State) (i : Nat) : State := { s with pkgs := s.pkgs.map Package.serveAcquires }.dropUnbindable i

/-- A dispatch round of a package. Records that gain a pass do so in the order in which they stand in the queue (log 135). -/
def State.round (s : State) (i : Nat) : State :=
  let s := s.beforeScan i
  match s.pkgs[i]? with
  | none => s
  | some p =>
    if p.boot ≠ .ready then s
    else
      let timed := s.folios.any fun f => recTimed f.record && f.bind.any fun b => b.phys == i
      let s := if timed then s else s.updPkg i fun p => p.commit 4295
      let r := s.scans i (p.queue.length + 1)
      let ids := (p.queue.map (·.id)).filter fun id => r.2.contains id
      r.1.updPkg i fun p => ids.foldl (fun p id => p.addPass id) p

/-! ### Start (R298, R309) -/

/-- Cores bound to a starting folio join the machine. -/
def State.addCores (s : State) (cs : List Core) : State :=
  if (s.folio? s.core.id.folio).isSome then { s with others := s.others ++ cs }
  else
    match cs with
    | [] => s
    | c :: r => { s with core := c, others := s.others ++ r }

/-- A folio starts afresh: its cores at their launch state, with the step counter as the votes of the cycle have left it (R32, R353). -/
def State.startFresh (s : State) (f : Folio) : State :=
  (s.updFolio f.id fun g => { g with phase := .running, step0 := s.stepOf f.owner, stepAtLine := s.stepOf f.owner }).addCores f.startCores

/-- What a pre-empted folio held or had released passes to the one that takes up its context. -/
def Seal.passTo (old new : Nat) (k : Seal) : Seal :=
  { k with
    st := if k.st = .folio old then .folio new else k.st
    stray := k.stray.map fun y => if y.folio = old then { y with folio := new } else y
    spoilt := if k.spoilt.contains old then k.spoilt ++ [new] else k.spoilt }

/-- A folio takes up a saved context at the cycle after its line (R309): its own identifier, binding and schedule inputs, the
rest as saved; its replays and rejects are counted from 0 (log 113). The cores saved go on under the extents of the new record, also
where its shape is another (log 122), and a replay to the line restores the step counter as it stands now (log 140). Where the scc has not come to the cycle it resumes at, it counts its cycles ahead (log 126). -/
def State.startRestored (s : State) (f : Folio) (x : Context) : State :=
  let lead := x.folio.resumeCycle - f.start
  let start := f.start + lead - x.folio.resumeCycle
  let id (c : CoreId) : CoreId := { c with folio := f.id }
  let cs := x.cores.map fun c =>
    { c with
      id := id c.id, phys := f.phys c.id.pkg, mb := recMb f.record, issueAt := f.start + lead, lastIssue := none, haltAt := none
      flagNow := [], flagAt := 0 }
  let js := x.jobs.zipIdx.map fun (j, k) =>
    { j with seq := s.seq + k, core := id j.core, cyc := start + (j.cyc - x.folio.start), cut := none }
  let g : Folio := { x.folio with
    id := f.id, owner := f.owner, record := f.record, bind := f.bind, phase := .running, start := start, lead := lead
    stop := f.stop.map fun (t : Stop) => { t with y := t.y + lead }
    stepAtLine := s.stepOf f.owner
    replays := 0, rejects := 0, preempt := f.preempt }
  let pkgs := if (s.folio? x.folio.id).isSome then s.pkgs
    else s.pkgs.map fun p => { p with seals := p.seals.map (Seal.passTo x.folio.id f.id) }
  { s with pkgs := pkgs, jobs := js ++ s.jobs, seq := s.seq + js.length }.updFolio f.id (fun _ => g) |>.addCores cs |>.takeUp f.id

/-- Whether a folio that starts afresh is pre-empted at the implicit line of cycle 0, before any word issues (R25, R307), and no fault
reported before its start stops it. -/
def Folio.stopsAtStart (f : Folio) : Bool :=
  !f.listed 0 && f.stop.isNone && (match f.preempt with | some (_, some 0) => true | _ => false)

/-- A dispatched folio starts: cycle 0 falls at its start scc (R298). -/
def State.startFolio (s : State) (id : Nat) : State :=
  match s.folio? id with
  | none => s
  | some f =>
    match s.savedFor f with
    | some x => s.startRestored f x
    | none => if f.stopsAtStart then (s.startFresh f).preemptFolio id else s.startFresh f

/-- The lead Binders agree a common start, at least 4,096 cycles on (R298, log 6), and with it the line of a pre-emption that
waits. -/
def State.agreeStart (s : State) (id : Nat) : State :=
  match s.folio? id with
  | none => s
  | some f =>
    ({ s with freeCtr := s.freeCtr + 1 }.updFolio id fun g =>
      { g with start := s.sccOf f.owner + 4096 + Config.startDelay s.freeCtr }).armPreempt id

end Sys2Proof.Machine
end

