-- ==== Sys2Proof/Machine/Operands.lean ====
section
/-! DEFINITION. Operand forms (R64 to R68, R162, R164, R218): sign extension, immediates as element codes, the three forms
of vb, effective addresses, branch targets, and the accesses that a word makes in its issue cycle. -/

namespace Sys2Proof.Machine

/-- What a step answers. -/
abbrev Out := Host.Outcome State Fault Refusal

/-! ### Scalar operands (R162 to R164) -/

/-- imm15 sign-extended (R162). -/
def imm64 (i : BitVec 15) : DWord := i.signExtend 64

/-- The effective address of a scalar access (R164). -/
def State.ea (s : State) (a : SReg) (i : BitVec 15) : DWord := s.sreg a + imm64 i

/-- The 64-bit value of bytes, little-endian. -/
def leWord (bs : List Byte) : DWord := BitVec.ofNat 64 (leNat bs)

/-! ### Targets (R68, R167 to R171, R174, R200) -/

/-- The word index at an unsigned offset from the word that issues. -/
def State.ahead (s : State) (o : BitVec 15) : Nat := s.core.pc.toNat + o.toNat

/-- Whether a target ahead may be taken or closed at: inside instruction memory, and not beyond the end word of the
innermost open construct. -/
def State.reachable (s : State) (x : Nat) : Bool := decide (x < 32768) && !beyondInnermost s.core.cons x

/-- The target of `jal`. -/
def State.jalTarget (s : State) (o : BitVec 20) : Int := (s.core.pc.toNat : Int) + o.toInt

/-- Whether a jump or call may go to a target: a jump, which writes no link, may not pass the innermost open end word. -/
def State.jumpOk (s : State) (d : SReg) (t : Int) : Bool :=
  decide (0 ≤ t) && decide (t < 32768) && !(d == 0 && beyondInnermost s.core.cons t.toNat)

/-! ### Element operands (R65 to R67) -/

/-- The code of an immediate operand (R67). -/
def immCode (t : ETy) (x : Int) : Nat := if isI t then encI t x else (convV t .rne (.ofInt x)).1

/-- The code of a scalar operand (R66). -/
def scalarCode (t : ETy) (x : DWord) : Nat := x.toNat % 2 ^ width t

/-- The register of a vb operand. -/
def vbReg : VB → Option VReg
  | .vv r => some r
  | _ => none

/-- The code of a vb operand that is no register. -/
def State.vbCode (s : State) (t : ETy) : VB → Option Nat
  | .vv _ => none
  | .vs r => some (scalarCode t (s.sreg r))
  | .vi i => some (immCode t i.toInt)

/-- Whether the form of vb is legal under a type (R67). -/
def vbLegal (t : ETy) : VB → Bool
  | .vi _ => !isMxOnly t
  | _ => true

/-- Whether the form of a slide amount is legal under a type (R67). -/
def slideLegal (t : ETy) : SlideAmt → Bool
  | .vi _ => !isMxOnly t
  | .vs _ => true

/-- The amount of `vslide` (R136). -/
def State.slideBy (s : State) : SlideAmt → DWord
  | .vs r => s.sreg r
  | .vi i => i.signExtend 64

/-- The type of the mode register a word names. -/
def State.typeOf (s : State) (m : MReg) : ETy := modeType s.core.m[m]

/-- The threshold of the mode register a word names (R118). -/
def State.thetaOf (s : State) (m : MReg) : Nat := s.core.th[modeTh s.core.m[m]].toNat

/-- The addressing of `vstw` (R221). -/
def State.addressing (s : State) : WAddr → VMode
  | .unit => .unit
  | .strided r => .strided (s.sreg r)
  | .indexed r => .indexed r

/-! ### Words whose work goes in flight -/

/-- A word that puts work in flight and goes on: everything it does lands later (R151). -/
def State.issue (s : State) (cap : Cap) (w : Work) : State := (s.enqueue cap w).advance

/-- A lane word: illegal under a type it does not accept (R75). -/
def State.issueLane (s : State) (m : MReg) (ok : Bool) (l : Lane) : State :=
  s.guarded (laneAccepts (s.typeOf m) l.op && ok) fun s => s.issue (s.core.capture m) (.lane l)

/-- A lane word whose vb has three forms. -/
def State.issueLaneB (s : State) (m : MReg) (op : LaneOp) (dst : Dest) (a : VReg) (b : VB) (d : Option VReg) : State :=
  s.issueLane m (vbLegal (s.typeOf m) b) { op := op, dst := dst, a := some a, b := vbReg b, d := d, imm := s.vbCode (s.typeOf m) b }

/-- The types of plain vector memory words (R218). -/
def memAccepts (t : ETy) : Bool := isF t || isI t

/-- A vector word in memory, on the network or in the matrix engine. -/
def State.issueVector (s : State) (m : MReg) (accepts : ETy → Bool) (w : Work) : State :=
  s.guarded (accepts (s.typeOf m)) fun s => s.issue (s.core.capture m) w

/-! ### Accesses in the issue cycle (R165, R166, R212, R251) -/

/-- Whether a scalar load's visits overflow with those of the work in flight; the load, which issues last, is named. -/
def State.loadConflict (s : State) (a n : Nat) : Bool :=
  let vs := s.jobs.flatMap fun j => s.visits (some s) j (s.jobNow j)
  (bankVisits s.seq s.core.id .read a n).any fun v => v.overflows (v :: vs.filter fun w => w.res == v.res)

/-- A word named by a conflict in its own issue cycle: a precise timing trap, and no effect (R157, R301). -/
def State.trapTiming (s : State) : State :=
  (s.takeTrap s.core.id .timing 0 s.core.pc (BitVec.ofNat 64 s.cycle)).advance

/-- A scalar load of `n` bytes (R164 to R166): read at c, landing at c+4; an out-of-range byte reads as 0 and the address is
offered to oob. -/
def State.load (s : State) (d : SReg) (addr : DWord) (n : Nat) (f : List Byte → DWord) : State :=
  if s.loadConflict addr.toNat n then s.trapTiming
  else
    let x := f (spadBytes s.core.spad addr.toNat n)
    let c := if outOfRange addr.toNat n then s.core.offer s.cycle s.cycle 0 addr else s.core
    { s with core := c }.result d x 4

/-- A scalar store of `n` bytes (R164, R165): the data is read at c and lands at c+2. -/
def State.store (s : State) (addr x : DWord) (n : Nat) : State := s.issue .none (.sstore addr (leBytes x.toNat n))

end Sys2Proof.Machine
end

