-- ==== Sys2Proof/Machine/Arrival.lean ====
section
/-! DEFINITION. The steps by which work in flight lands, one for each kind of landing of the table, and the occurrences that
delay or spoil a landing (R151, R253, R255, R273, R278, R282, R285 to R287, R301, R324 to R326, R339, R351, R361). Each
names the word in flight and the part that lands; work that is gone lands nothing. -/

namespace Sys2Proof.Machine

/-- A result lands: a register result, or the judgement on a `flaunch` record (R151, R300). -/
def execResultLanding (job k : Nat) (s : State) : Out :=
  .next (s.withJob job fun j =>
    match j.work with | .flaunch _ start => s.landLaunch j start | _ => (s.judgeRecord j k).landResult j k)

/-- A write lands on a scratchpad (R361). -/
def execStoreLanding (job k : Nat) (s : State) : Out := .next (s.withJob job fun j => (s.judgeRecord j k).landStore j k)

/-- A group of a cluster access lands (R253). -/
def execRemoteLanding (job k : Nat) (s : State) : Out := .next (s.withJob job fun j => s.landRemote j k)

/-- A step of a matrix word (R230). -/
def execMatrixStep (job k : Nat) (s : State) : Out := .next (s.withJob job fun j => s.stepMatrix j k)

/-- The write of an atomic lands in its slot (R255, R257). -/
def execRmwSlot (job : Nat) (s : State) : Out := .next (s.withJob job fun j => s.landRmw j)

/-- A Racker beat lands (R273). -/
def execRackerBeat (job k : Nat) (s : State) : Out := .next (s.withJob job fun j => s.landBeat j k)

/-- A Racker's status word lands (R278). -/
def execStatusWord (job : Nat) (s : State) : Out := .next (s.withJob job fun j => s.landStatus j)

/-- A clear beat of a `pcard` lands (R282). -/
def execPcardClear (job k : Nat) (s : State) : Out := .next (s.withJob job fun j => s.landClear j k)

/-- A beat of selection records lands (R285). -/
def execSelectionRecord (job k : Nat) (s : State) : Out := .next (s.withJob job fun j => s.landSelection j k)

/-- A dispatch beat lands at its owner (R286). -/
def execDispatchLanding (job q b : Nat) (s : State) : Out := .next (s.withJob job fun j => s.landDispatch j q b)

/-- A beat of a combined row lands (R287). -/
def execCombinedRow (job t b : Nat) (s : State) : Out := .next (s.withJob job fun j => s.landCombined j t b)

/-- A stream's window opens, or closes for `bscat` (R324). -/
def execStreamWindow (job k : Nat) (s : State) : Out := .next (s.withJob job fun j => s.landWindow j k)

/-- A stream's status lands (R325). -/
def execStreamStatus (job : Nat) (s : State) : Out := .next (s.withJob job fun j => s.landStreamStatus j)

/-- A group of a send lands (R351). -/
def execSendLanding (job g : Nat) (s : State) : Out := .next (s.withJob job fun j => s.landSend j g)

/-- A re-read lands its bytes (R301). -/
def execReRead (job k : Nat) (s : State) : Out := .next (s.withJob job fun j => s.landAgain j k)

/-! ### Occurrences -/

/-- A precise timing trap that names a word in flight (R157, R301): a late landing only traps; a calendar conflict also
suppresses the word's work from this cycle on. -/
def State.timingTrap (s : State) (j : Job) : State :=
  let x := s.jobNow j
  let s' := if j.lateAt x then s else s.updJob j.seq fun i => i.cutAt x
  s'.takeTrap j.core .timing 0 j.word (BitVec.ofNat 64 (x - s.startOf j.core.folio))

/-- A precise timing trap (R301). -/
def execPreciseTimingTrap (job : Nat) (s : State) : Out := .next (s.withJob job fun j => s.timingTrap j)

/-- Whether part `k` of work reads HBM and has still to land at scc `x`: an element of a transfer from HBM, in shape and within
distance, an element of `bgath` or `bstride`, or of a `bscat` with its index in HBM. -/
def Job.retryable (j : Job) (x k : Nat) : Bool :=
  decide (j.cyc < x) && decide (x < j.cyc + j.lateLanding k) && j.lives x &&
    (match j.work with
     | .racker t =>
       t.sHbm && t.gate == 0 && t.vl != 0 && decide (k / t.vl < t.rows) &&
         (match t.src.pairInt (t.srcPair (k / t.vl) (k % t.vl)) with
          | some p => t.reaches j.core.die (t.src.addr p)
          | none => false)
     | .stream r => r.valid j.core.die && decide (k < r.n) && (r.op != .scat || r.listHbm)
     | _ => false)

/-- Whether group `g` of a send between packages has still to land at scc `x`. -/
def Job.inFabric (j : Job) (x g : Nat) : Bool :=
  decide (j.cyc < x) && decide (x < j.cyc + j.lateLanding g) && j.lives x &&
    (match j.work with
     | .send a _ _ => (sendTarget j.core.folio a).pkg != j.core.pkg && g == 0
     | .sendv _ a _ => (sendTarget j.core.folio a).pkg != j.core.pkg && decide (g < 16)
     | _ => false)

/-- A part that is read or decoded once more comes 64 cycles late; `ok` is whether that succeeds (R301, R326, R339). -/
def Job.retried (j : Job) (k : Nat) (ok : Bool) : Job :=
  { j with
    late := if j.late.contains k then j.late else j.late ++ [k]
    failed := if ok || j.failed.contains k then j.failed else j.failed ++ [k] }

/-- An occurrence of a second attempt, while the part is on its way; the machine check of one that fails, when its time has come. -/
def State.retry (s : State) (j : Job) (k : Nat) (ok under : Bool) : State :=
  if j.failsNow (s.jobNow j) k then s.takeTrap j.core .machine 0 j.word 0
  else if under then s.updJob j.seq fun i => i.retried k ok
  else s

/-- A base die meets an uncorrectable error in a read and reads once more; `ok` is whether that succeeds (R326). -/
def execBaseDieRetry (job k : Nat) (ok : Bool) (s : State) : Out :=
  .next (s.withJob job fun j => s.retry j k ok (j.retryable (s.jobNow j) k))

/-- A codeword of a send is decoded a second time; `ok` is whether its CRC then holds (R339). -/
def execFecSecondDecode (job g : Nat) (ok : Bool) (s : State) : Out :=
  .next (s.withJob job fun j => s.retry j g ok (j.inFabric (s.jobNow j) g))

/-- A machine check on a core (R306, R326): the record names the word that the core issues next (log 43). -/
def State.checkCore (s : State) (id : CoreId) : State :=
  match s.core? id, s.folio? id.folio with
  | some c, some _ => s.takeTrap id .machine 0 c.pc 0
  | _, _ => s

/-- Whether group `g` of a cluster access has still to reach core `t` at scc `x` (R258): also where nothing of it is read or written
there, of a `vldc` whose target is out of range and of a group past the end of the target's scratchpad (log 91). -/
def State.inCluster (s : State) (j : Job) (x g : Nat) (t : CoreId) : Bool :=
  let e := s.extOf j.core.folio
  decide (j.cyc < x) && decide (x < j.cyc + j.groupArrival g) && decide (g < 16) && j.lives x &&
    (match j.work with
     | .remote .load .. => t == j.core
     | .remote op _ a => (remoteTargets e j.core op a).contains t
     | .vamo _ a _ => clusterOk e a && t == clusterTarget j.core a
     | _ => false)

/-- An uncorrectable error in a group of a cluster access: its receiving core meets it as the group arrives (R258). -/
def State.spoil (s : State) (j : Job) (g : Nat) (t : CoreId) : State :=
  if s.inCluster j (s.jobNow j) g t then s.updJob j.seq fun i => { i with bad := i.bad ++ [(g, t)] } else s

/-- A machine check on a core: of the core itself (R326), or of a group that it is to receive (R258). -/
def execMachineCheck (core : CheckSite) (s : State) : Out :=
  .next (match core.group with
    | none => s.checkCore core.core
    | some (job, g) => s.withJob job fun j => s.spoil j g core.core)

end Sys2Proof.Machine
end

