-- ==== Sys2Proof/Machine/Events.lean ====
section
/-! DEFINITION. The steps of the Binders and of the timed group: votes, replays, stops, dispatch, start, end and pre-emption of
folios, phase and drift, rests and holds, translation changes, the thermal trip (R293, R298, R299, R302, R303, R306, R307,
R317, R343, R345, R354, R356, R357, R390). -/

namespace Sys2Proof.Machine

/-- Changes every member of a package's group. -/
def State.updMembers (s : State) (i : Nat) (f : Package → Package) : State :=
  (s.members i).foldl (fun s q => s.updPkg q f) s

/-- Whether a folio is bound on a die of a package. -/
def Folio.boundOnDie (f : Folio) (i d : Nat) : Bool := f.bind.any fun b => b.phys == i && b.dies.any fun x => x.die == d

/-- Whether some folio is bound on a package. -/
def State.inUse (s : State) (i : Nat) : Bool := s.folios.any fun f => f.boundOn i

/-- Whether some folio is bound on a die. -/
def State.dieInUse (s : State) (i d : Nat) : Bool := s.folios.any fun f => f.boundOnDie i d

/-! ### Votes (R354) -/

/-- Whether a vote lands now: 320 cycles after its issue. -/
def State.voteLands (s : State) (v : Vote) : Bool := v.at_ + 320 == s.sccOf v.pkg

/-- One vote lands: with a clear flag the step counter of every member of the group advances. -/
def State.countVote (s : State) (v : Vote) : State :=
  if v.flag then s else s.updMembers v.pkg fun p => { p with step := p.step + 1 }

/-- The votes of a folio that are due land. -/
def State.landVotes (s : State) (folio : Nat) : State :=
  let due (v : Vote) : Bool := v.folio == folio && s.voteLands v
  (s.votes.filter due).foldl (fun s v => s.countVote v) { s with votes := s.votes.filter fun v => !due v }

/-- A step vote lands (R354). -/
def execStepVote (folio : Nat) (s : State) : Out := .next (s.landVotes folio)

/-! ### Replay, stop and resumption (R302, R303, R306) -/

/-- The stop cycle of a replay (R302). -/
def execReplay (folio : Nat) (s : State) : Out := .next (s.replayOrStop folio)

/-- The resume cycle of a replay (R303). -/
def execReplayResume (folio : Nat) (s : State) : Out := .next (s.resume folio)

/-- The stop cycle of a folio that a trap ends (R306). -/
def execFolioStop (folio : Nat) (s : State) : Out := .next (s.stopFolio folio)

/-! ### Folios (R293, R298, R299, R307) -/

/-- A dispatch round of a package's lead Binder (R293). -/
def execDispatchRound (pkg : Nat) (s : State) : Out := .next (s.round pkg)

/-- A folio starts (R298). -/
def execFolioStart (folio : Nat) (s : State) : Out := .next (s.startFolio folio)

/-- The lead Binders agree a timed folio's start (R298). -/
def execStartAgreement (folio : Nat) (s : State) : Out := .next (s.agreeStart folio)

/-- A folio ends with cause 0 (R299). -/
def execFolioEnd (folio : Nat) (s : State) : Out :=
  .next (match s.folio? folio with | some f => s.endFolio f 0 none | none => s)

/-- A folio is pre-empted at its line (R307). -/
def execPreEmption (folio : Nat) (s : State) : Out := .next (s.preemptFolio folio)

/-- The folio that holds a package's calendar (R311). -/
def State.holder (s : State) (i : Nat) : Option Folio := s.folios.find? fun f => f.holds && f.boundOn i

/-! ### Translation changes (R317) -/

/-- The entry that a change puts in place: an invalidation clears valid; the reserved bits of an entry read as zero
(R315). -/
def Change.applyTo (c : Change) (now : DWord) : DWord :=
  if c.invalidate then now &&& ~~~1 else c.entry &&& ~~~0x1FFFFE0

/-- The command that asked for a change. -/
def Change.command (c : Change) : Nat := if c.invalidate then 0x06 else 0x05

/-- A change takes effect, and its command completes. -/
def Package.change (p : Package) (c : Change) : Package :=
  let key := transKey c.stack.val c.index.val
  { p with
    trans := Cells.set p.trans key (c.applyTo (Cells.get p.trans key))
    responses := p.responses ++ [⟨c.command, 0, []⟩] }

/-- Whether a change is to an entry. -/
def Change.to (stack : Fin 8) (index : Fin 32768) (c : Change) : Bool := c.stack == stack && c.index == index

/-- Whether a change takes effect now: no folio holds the calendar, or its holder stands at the change's line and no pending stop
undoes the line. -/
def State.changesNow (s : State) (i : Nat) (c : Change) : Bool :=
  match s.holder i with
  | none => true
  | some f =>
    f.phase != .restoring && !f.stopping && (match c.line with | some l => f.start + l == s.folioNow f | none => false)

/-- The earliest change to an entry takes effect, if its time has come. -/
def State.changeEntry (s : State) (i : Nat) (stack : Fin 8) (index : Fin 32768) : State :=
  match (s.pkgs[i]?).bind fun p => p.changes.find? (Change.to stack index) with
  | none => s
  | some c => if s.changesNow i c then s.updPkg i fun p => { p with changes := p.changes.erase c }.change c else s

/-- A translation change takes effect (R317). -/
def execTranslationChange (pkg : Nat) (stack : Fin 8) (index : Fin 32768) (s : State) : Out := .next (s.changeEntry pkg stack index)

/-! ### Phase and drift (R343, R345) -/

/-- The latency of a link toward a package of a number; none when the link does not end there. -/
def latencyTo (l : LinkSpec) (num : Nat) : Option Nat :=
  if l.pkgB = num then some l.latAB else if l.pkgA = num then some l.latBA else none

/-- A stamp arrives over the link of the sideband tree toward package 0: the difference of the local tick from the stamp and the
latency (R343). A stamp over another link does not count. -/
def Package.arrive (p : Package) (link stamp : Nat) : Package :=
  match (p.links[link]?).bind fun l => latencyTo l p.num with
  | some lat =>
    if treeLink p.links p.group.length p.num = some link then p.stamp link ((p.tick : Int) - (stamp + lat : Nat)) else p
  | none => p

/-- A stamp comes over a link that is up, and re-estimates a package's phase (R343, R391). -/
def State.stampIn (s : State) (i link stamp : Nat) : State :=
  s.updPkg i fun p => if (p.links[link]?).any (s.linkUp p.group) then p.arrive link stamp else p

/-- A stamp re-estimates a package's phase (R343). -/
def execPhaseEstimate (pkg link stamp : Nat) (s : State) : Out := .next (s.stampIn pkg link stamp)

/-- A package whose drift fault still stands leaves its group, and every timed folio that names it stops (R345). A round or a
formation earlier in the tick may have done away with a fault for want of a commit (log 54). -/
def State.leaveByDrift (s : State) (i : Nat) : State :=
  if !(s.pkgs[i]?).any Package.drifting then s
  else (s.reportAll (fun f => recTimed f.record && f.boundOn i) .drift).updPkg i fun p => { p with left := true }

/-- A drift fault (R345). -/
def execDriftFault (pkg : Nat) (s : State) : Out := .next (s.leaveByDrift pkg)

/-! ### Rest and hold (R356 to R358, R390) -/

/-- Whether a rest may be agreed: 1 to 2^24 ticks, at least 4,096 cycles ahead, at no cycle that has one (R356). -/
def Package.restOk (p : Package) (start length : Nat) : Bool :=
  decide (1 ≤ length) && decide (length ≤ 2 ^ 24) && decide (p.scc + 4096 ≤ start) && !(p.rests.any fun r => r.at_ == start)

/-- The Binder of package 0 agrees a rest for every member (R356). -/
def State.agreeRest (s : State) (i start length : Nat) : State :=
  match s.pkgs[i]? with
  | none => s
  | some p =>
    if p.num = 0 ∧ p.restOk start length = true then
      s.updMembers i fun p => { p with rests := p.rests ++ [⟨start, length⟩], restWanted := false }
    else s

/-- A rest is agreed (R356). -/
def execRestAgreement (pkg start length : Nat) (s : State) : Out := .next (s.agreeRest pkg start length)

/-- The hottest of a die's junction sensors, in eighths of a degree (R389). -/
def hottest (x : DieSensors) : Nat := x.toList.foldl (fun m t => max m t.toNat) 0

/-- Whether some die of the readings is above a temperature. -/
def above_ (x : Sensors) (eighths : Nat) : Bool := x.toList.any fun d => decide (eighths < hottest d)

/-- Power above the cap, or a die above 100 °C: the Binder requests rests (R390). -/
def Package.wantsRest (p : Package) : Bool := decide (p.mpcap < p.mpower) || above_ p.sensors 800

/-- New readings of power and temperature, in watts and eighths of a degree. -/
def Package.readings (p : Package) (power : BitVec 16) (x : Sensors) : Package :=
  let p := { p with mpower := power.toNat, sensors := x }
  { p with restWanted := p.wantsRest }

/-- A die has reached 115 °C: every folio of the package stops with cause 4, and then the rails fall (R390, log 48). -/
def State.trip (s : State) (i : Nat) : State :=
  (s.reportAll (fun f => f.boundOn i) .machine).updPkg i fun p => { p with tripped := true }

/-- Readings arrive: at 115 °C or more the package trips, once. -/
def State.takeReadings (s : State) (i : Nat) (power : BitVec 16) (x : Sensors) : State :=
  let s' := s.updPkg i fun p => p.readings power x
  if above_ x 919 && (s.pkgs[i]?).any (fun p => p.powered && !p.tripped) then s'.trip i else s'

/-- The readings ask for rests, or trip the package (R390). -/
def execRestRequest (pkg : Nat) (power : BitVec 16) (t0 t1 t2 t3 : DieSensors) (s : State) : Out :=
  .next (s.takeReadings pkg power #v[t0, t1, t2, t3])

/-- The rest agreed for the present scc comes into force: its ticks follow this one (R356). -/
def Package.startRest (p : Package) : Package :=
  match p.rests.find? fun r => r.at_ == p.scc with
  | none => p
  | some r => { p with restLeft := r.len + 1, rests := p.rests.erase r }

/-- A rest starts (R356). -/
def execRest (pkg : Nat) (s : State) : Out := .next (s.updPkg pkg Package.startRest)

/-- A rest ends (R356). -/
def execRestEnd (pkg : Nat) (s : State) : Out :=
  .next (s.updPkg pkg fun p => if p.restLeft = 1 then { p with restLeft := 0 } else p)

/-- A member asserts hold: it takes effect on every member 320 ticks on (R357). -/
def State.assertHold (s : State) (i : Nat) : State :=
  s.updMembers i fun p =>
    if p.holds.any fun h => h.member == i && h.until_.isNone then p else { p with holds := p.holds ++ [⟨i, p.tick + 320, none⟩] }

/-- A hold is asserted (R357). -/
def execHold (pkg : Nat) (s : State) : Out := .next (s.assertHold pkg)

/-- A hold that begins in this tick takes effect: no word issues (R357). One that a formation has dropped since does not. -/
def Package.startHold (p : Package) : Package := if p.holds.any fun h => h.from_ == p.tick then { p with stalled := true } else p

/-- A hold takes effect (R357). -/
def execHoldEffect (pkg : Nat) (s : State) : Out := .next (s.updPkg pkg Package.startHold)

/-- A release takes effect 320 ticks on, and not before the hold has lasted 64 (R357). -/
def Hold.release (h : Hold) (i now : Nat) : Hold :=
  if h.member = i ∧ h.until_.isNone then { h with until_ := some (max (now + 320) (h.from_ + 64)) } else h

/-- A member releases its hold (R357), which its own group's members hear: one that has left the group, or has lost power, leaves its
hold on the others until they form or dissolve (log 115). -/
def execHoldRelease (pkg : Nat) (s : State) : Out :=
  .next (s.updMembers pkg fun p => { p with holds := p.holds.map fun h => h.release pkg p.tick })

/-- A die has reached 115 °C (R390). -/
def execThermalTrip (pkg : Nat) (s : State) : Out := .next (s.trip pkg)

end Sys2Proof.Machine
end

