-- ==== Sys2Proof/Machine/Boot.lean ====
section
/-! DEFINITION. Power-up, firmware, identity and fencing (R381 to R387, R391 to R395). -/

namespace Sys2Proof.Machine

/-- Changes a package that stands in a stage. -/
def State.inStage (s : State) (i : Nat) (b : Boot) (f : Package → Package) : State :=
  s.updPkg i fun p => if p.powered && p.boot == b then f p else p

/-! ### Stages (R381) -/

/-- Power is applied to a package: one that has none, or a further one. Fuses and the cellar have kept what they held. -/
def State.applyPower (s : State) (i : Nat) : State :=
  if i = s.pkgs.length then
    { s with pkgs := s.pkgs ++ [.atPower 0 i .default (Vector.replicate 8 []) []] }
  else s.updPkg i fun p => if p.powered then p else .atPower 0 i p.fuses (Vector.replicate 8 []) p.cellar

/-- Power is applied (R381). -/
def execPowerUp (pkg : Nat) (s : State) : Out := .next (s.applyPower pkg)

/-- Stage 1: the fuses are read, the identity key pair is derived, and the measurement chain stands at zero (R381, R385,
R387). -/
def execFuses (pkg : Nat) (s : State) : Out :=
  .next (s.inStage pkg .rails fun p =>
    { p with boot := .fuses, idKey := leBytes (Config.mldsaPublicKey p.fuses.seed).toNat 2592, chain := List.replicate 64 0 })

/-- Stage 2 (R381). -/
def execAwaitingFirmware (pkg : Nat) (s : State) : Out := .next (s.inStage pkg .fuses fun p => { p with boot := .awaiting })

/-- Training succeeds: stage 5, with every translation entry invalid and every seal host-held. It fails: stage 2 with
reason 5 (R381). -/
def Package.trained (p : Package) (ok : Bool) : Package :=
  if ok then { p with boot := .ready, trans := [], changes := [], seals := Vector.replicate 64 .fresh, lastId := 0 }
  else { p with boot := .awaiting, reason := 5 }

/-- HBM and the bridges have been trained (R381). -/
def execTraining (pkg : Nat) (ok : Bool) (s : State) : Out := .next (s.inStage pkg .loading fun p => p.trained ok)

/-- Folios bound on a package are gone, with no record. -/
def State.dropAll (s : State) (i : Nat) : State :=
  (s.folios.filter fun f => f.boundOn i).foldl (fun s f => ((s.openSeals f.id).dropFolio f.id).closeWrites f) s

/-- Host writes to the cellar that no release has put in place are settled as power is lost (log 93). -/
def State.settleCellar (s : State) (i : Nat) : State :=
  match s.pkgs[i]? with
  | none => s
  | some p => s.settle i (p.openWrites.filter (·.cellar))

/-- Power is lost: only the fuses, and the cellar's contents, stay (R331, R381), every byte that has landed (log 138). -/
def State.losePower (s : State) (i : Nat) : State :=
  ((s.dropAll i).settleCellar i).updPkg i fun p =>
    { Package.atPower 0 i p.fuses (Vector.replicate 8 []) p.cellar with powered := false }

/-- Power is lost (R381). -/
def execPowerLoss (pkg : Nat) (s : State) : Out := .next (s.losePower pkg)

/-! ### Firmware bundles (R382, R383, R385, R395) -/

/-- A number in a bundle. -/
def bundleField (b : List Byte) (off n : Nat) : Nat := leNat ((b.drop off).take n)

/-- Length of the signed part. -/
def bundleLen (b : List Byte) : Nat := bundleField b 0 4
/-- Security version. -/
def bundleSvn (b : List Byte) : Nat := bundleField b 4 4
/-- Number of components. -/
def bundleCount (b : List Byte) : Nat := bundleField b 8 2

/-- Components: type, offset, length, and the four bytes that are zero. -/
def bundleParts (b : List Byte) : List (Nat × Nat × Nat × Nat) :=
  (List.range (bundleCount b)).map fun i =>
    let o := 16 + 16 * i
    (bundleField b o 4, bundleField b (o + 4) 4, bundleField b (o + 8) 4, bundleField b (o + 12) 4)

/-- The signed part, the public key and the signature. -/
def bundleSigned (b : List Byte) : List Byte := b.take (bundleLen b)
/-- The public key. -/
def bundleKey (b : List Byte) : List Byte := (b.drop (bundleLen b)).take 2592
/-- The signature. -/
def bundleSig (b : List Byte) : List Byte := (b.drop (bundleLen b + 2592)).take 4627

/-- Whether two components share no byte. -/
def apart (a b : Nat × Nat × Nat × Nat) : Bool :=
  decide (a.2.1 + a.2.2.1 ≤ b.2.1) || decide (b.2.1 + b.2.2.1 ≤ a.2.1)

/-- Whether the components of a list do not overlap. -/
def allApart : List (Nat × Nat × Nat × Nat) → Bool
  | [] => true
  | a :: r => r.all (apart a) && allApart r

/-- Check 3 of R383: reserved fields, the places of the components, and their types. -/
def bundleFormOk (b : List Byte) (running : Bool) : Bool :=
  let ps := bundleParts b
  let n := bundleCount b
  let count (t : Nat) := (ps.filter fun p => p.1 == t).length
  bundleField b 10 6 == 0 && decide (1 ≤ n) && decide (n ≤ 16) &&
    (ps.all fun p => p.2.2.2 == 0 && decide (16 + 16 * n ≤ p.2.1) && decide (p.2.1 + p.2.2.1 ≤ bundleLen b)) && allApart ps &&
    (if running then ps.all fun p => p.1 == 2
     else (ps.all fun p => decide (1 ≤ p.1) && decide (p.1 ≤ 3)) && count 1 == 1 && count 2 == 1 && count 3 == 1)

/-- The first failure of R383; 0 when the bundle verifies. -/
def Package.bundleReason (p : Package) (b : List Byte) (running : Bool) : Nat :=
  if !(p.fuses.roots.any fun r => r.1 == sha3 (bundleKey b) && !r.2) then 1
  else if bundleSvn b < p.fuses.minSvn ∨ (running = true ∧ bundleSvn b < p.svn) then 2
  else if !bundleFormOk b running then 3
  else if !Config.mldsaVerify (bundleKey b) (sha3 (bundleSigned b)) (bundleSig b) then 4
  else 0

/-- The dies at work. -/
def Package.dies (p : Package) : List (Fin 4) := (List.finRange 4).filter fun d => p.dieWorks d.val

/-- A verified bundle extends the chain (R385). -/
def Package.extend (p : Package) (f : Firmware) : Package :=
  { p with chain := sha3 (p.chain ++ sha3 f.part), ext := p.ext + 1, svn := f.svn, inForce := some f }

/-- Binder firmware loaded on dies. -/
def Package.loadOn (p : Package) (f : Firmware) (ds : List (Fin 4)) : Package :=
  { p with firmware := ds.foldl (fun (v : Vector (Option Firmware) 4) (d : Fin 4) => v.set d.val (some f)) p.firmware }

/-- Waiting bundles complete, in order, while no die has still to switch to the first (R395). With fuel for as many as
wait. -/
def Package.finishLoads (p : Package) : Nat → Package
  | 0 => p
  | n + 1 =>
    match p.pendingFw with
    | [] => p
    | f :: r =>
      if p.switching.isEmpty then
        Package.finishLoads (({ p with pendingFw := r, switching := if r.isEmpty then [] else p.dies }.extend f).respond 0x24 0 []) n
      else p

/-- A bundle has been verified in stage 3: its Binder firmware is loaded on the dies at work and its base-die firmware on every
stack when it passes; otherwise stage 2 follows with a reason (R381, R383). -/
def Package.bootBundle (p : Package) (b : List Byte) : Package :=
  match p.bundleReason b false with
  | 0 =>
    let f : Firmware := ⟨bundleSigned b, bundleSvn b⟩
    (({ p with boot := .loading, bundle := none, stackFw := Vector.replicate 8 (some f) }.extend f).loadOn f p.dies).respond 0x24 0 []
  | k => { p with boot := .awaiting, bundle := none, reason := k }.respond 0x24 k []

/-- A bundle arrives in stage 5: once verified it waits for the dies to switch (R395). -/
def Package.runBundle (p : Package) (b : List Byte) : Package :=
  match p.bundleReason b true with
  | 0 => { p with
      pendingFw := p.pendingFw ++ [⟨bundleSigned b, bundleSvn b⟩]
      switching := if p.pendingFw.isEmpty then p.dies else p.switching }
  | k => { p with reason := k }.respond 0x24 k []

/-- Load firmware (R383, R395, R396): in stage 2 the bundle arrives and stage 3 begins, and the same event completes that
stage for the bundle under verification (R381, log 95). -/
def Package.load (p : Package) (b : List Byte) : Package :=
  if !p.powered then p
  else match p.boot with
    | .awaiting => { p with boot := .verifying, bundle := some b }
    | .verifying => if p.bundle = some b then p.bootBundle b else p
    | .ready => p.runBundle b
    | _ => p

/-- The host's Load firmware (R383). -/
def execLoadFirmware (pkg : Nat) (bundle : List Byte) (s : State) : Out := .next (s.updPkg pkg fun p => p.load bundle)

/-- A die switches to the first waiting bundle (R395). -/
def Package.switch (p : Package) (d : Fin 4) : Package :=
  match p.pendingFw with
  | [] => p
  | f :: _ =>
    if p.switching.contains d then
      Package.finishLoads ({ p with switching := p.switching.filter (· != d) }.loadOn f [d]) p.pendingFw.length
    else p

/-- A die switches firmware in a round in which nothing is bound on it (R395). -/
def execFirmwareSwitch (pkg : Nat) (die : Fin 4) (s : State) : Out :=
  .next (if s.dieInUse pkg die.val then s else s.updPkg pkg fun p => p.switch die)

/-! ### The colophon (R384, R386) -/

/-- The working clusters, 12 per die: those of the fuses on dies that are not fenced. -/
def Package.harvest (p : Package) : Nat :=
  ((List.range 48).filter fun k => p.fuses.clusters.getLsbD k && !p.fenced.getLsbD (k / 12)).foldl (fun a k => a + 2 ^ k) 0

/-- The colophon. -/
def Package.colophon (p : Package) : List Byte :=
  let dies := p.dies.foldl (fun a d => a + 2 ^ d.val) 0
  p.fuses.serial ++ leBytes (dies + 16 * p.harvest) 8 ++ leBytes p.svn 4 ++ leBytes p.ext 4 ++ p.chain ++ sha3 p.idKey ++
    leBytes p.fenced.toNat 1 ++ List.replicate 31 0

/-- What Attest returns: the colophon and a signature with the identity key over the digest of colophon and nonce. -/
def Package.attestation (p : Package) (nonce : BitVec 256) : List Byte :=
  p.colophon ++ leBytes (Config.mldsaSign p.fuses.seed (sha3 (p.colophon ++ leBytes nonce.toNat 32))).toNat 4627

/-- The host's Attest (R386). -/
def execAttest (pkg : Nat) (nonce : BitVec 256) (s : State) : Out :=
  .next (s.inStage pkg .ready fun p => p.respond 0x25 0 (p.attestation nonce))

/-! ### Fencing (R391 to R393) -/

/-- Whether a die is the last at work that no fence covers or awaits. -/
def Package.lastDie (p : Package) (d : Fin 4) : Bool := p.dies.all fun x => x == d || p.fencing.contains x

/-- Fence (R391): refused for the last working die; a die already fenced is left as it is. -/
def Package.fence (p : Package) (d : Fin 4) : Package :=
  if p.fenced.getLsbD d.val then p.respond 0x22 0 []
  else if p.lastDie d then p.respond 0x22 1 []
  else { p with fencing := p.fencing ++ [d] }

/-- The host's Fence (R391). -/
def execFence (pkg : Nat) (die : Fin 4) (s : State) : Out := .next (s.inStage pkg .ready fun p => p.fence die)

/-- Whether a stack belongs to a die (R310). -/
def stackOf (d : Fin 4) (stack : Nat) : Bool := stack / 2 == d.val

/-- A die is gated: its stacks lose their contents, its fence bit is set, it awaits no firmware, and the package leaves a group
of several. -/
def Package.gate (p : Package) (d : Fin 4) : Package :=
  let n := (p.fencing.filter (· == d)).length
  let p := { p with
    fenced := p.fenced ||| BitVec.ofNat 4 (2 ^ d.val)
    fencing := p.fencing.filter (· != d)
    switching := p.switching.filter (· != d)
    hbm := (p.hbm.set (2 * d.val) [] (by omega)).set (2 * d.val + 1) [] (by omega)
    openWrites := p.openWrites.filter fun w => w.cellar || !stackOf d w.stack
    left := p.left || decide (1 < p.group.length)
    responses := p.responses ++ List.replicate n (⟨0x22, 0, []⟩ : Response) }
  p.finishLoads p.pendingFw.length

/-- A fence takes effect (R391, R392). -/
def State.gateDie (s : State) (i : Nat) (d : Fin 4) : State :=
  match s.pkgs[i]? with
  | none => s
  | some p =>
    if p.fencing.contains d && !s.dieInUse i d.val then
      p.group.foldl (fun s q => s.dropUnbindable q) (s.updPkg i fun p => p.gate d)
    else s

/-- A fence takes effect in a round in which nothing is bound on the die (R391). -/
def execFenceEffect (pkg : Nat) (die : Fin 4) (s : State) : Out := .next (s.gateDie pkg die)

/-- Unfence (R393): the die's entries are invalid, it runs the firmware in force, and its fence bit is clear. -/
def Package.unfence (p : Package) (d : Fin 4) : Package :=
  let p := if p.fenced.getLsbD d.val then
      let fw := match p.inForce with | some f => p.loadOn f [d] | none => p
      { fw with
        fenced := p.fenced &&& ~~~(BitVec.ofNat 4 (2 ^ d.val))
        trans := p.trans.filter fun e => !stackOf d (e.1 / 32768)
        switching := if p.pendingFw.isEmpty then p.switching else p.switching ++ [d] }
    else p
  p.respond 0x23 0 []

/-- The host's Unfence (R393). -/
def execUnfence (pkg : Nat) (die : Fin 4) (s : State) : Out := .next (s.inStage pkg .ready fun p => p.unfence die)

end Sys2Proof.Machine
end

