-- ==== Sys2Proof/Machine/Host.lean ====
section
/-! DEFINITION. The host's commands and accesses (R328 to R330, R337, R338, R341, R366, R367, R396, R397). A command that the
stage does not accept is taken from the queue and does nothing (R381). -/

namespace Sys2Proof.Machine

/-- Runs a command on a package in stage 5. -/
def State.command (s : State) (i : Nat) (f : Package → State) : State :=
  match s.pkgs[i]? with
  | none => s
  | some p => if p.powered && p.boot == .ready then f p else s

/-! ### Post (R290, R291, R328) -/

/-- Whether the 64 host entries of a record's queue are taken (R291). -/
def Package.queueFull (p : Package) (r : BitVec 2048) : Bool :=
  decide (64 ≤ (p.queue.filter fun w => w.host && w.prio == recPrio r).length)

/-- A record is accepted: the next identifier, and a place at the end of its queue. Bit 2 of its flags, which is for `flaunch` only,
plays no part in it (R289, log 118). -/
def Package.accept (p : Package) (r : BitVec 2048) : Package :=
  let id := p.lastId + 1
  let w : Waiting := {
    id := id, record := r, host := true, prio := recPrio r, passes := 0, notBefore := 0, extraDep := 0 }
  { p with lastId := id, queue := p.queue ++ [w] }.respond 0x01 0 (leBytes id 8)

/-- Post (R328). -/
def execPost (pkg : Nat) (record : BitVec 2048) (s : State) : Out :=
  .next (s.command pkg fun p => s.updPkg pkg fun q =>
    match s.reject pkg record (p.queueFull record) with
    | 0 => q.accept record
    | k => q.respond 0x01 k [])

/-! ### Seals (R328, R329, R366, R367) -/

/-- Whether two regions share a byte: an empty one shares none. -/
def Region.overlaps (a b : Region) : Bool :=
  a.cellar == b.cellar && decide (max a.base b.base < min (a.base + a.len) (b.base + b.len))

/-- Bind: the host must hold the seal, and no other seal's region may overlap, as ranges of addresses (log 154). -/
def Package.bindSeal (p : Package) (k : Fin 64) (r : Region) : Package :=
  let clash := (List.finRange 64).any fun j => j != k && p.seals[j].region.any r.overlaps
  if p.seals[k].st = .host ∧ clash = false then
    { p with seals := p.seals.set k { p.seals[k] with region := some r, held := [], stray := none } }.respond 0x02 0 []
  else p.respond 0x02 1 []

/-- Bind (R328). -/
def execBind (pkg : Nat) (k : Fin 64) (cellar : Bool) (base length : Nat) (s : State) : Out :=
  .next (s.inStage pkg .ready fun p => p.bindSeal k ⟨cellar, base, length⟩)

/-- Acquire (R329): at once when the seal is open, otherwise when it becomes so. -/
def execAcquire (pkg : Nat) (k : Fin 64) (s : State) : Out :=
  .next (s.inStage pkg .ready fun p => if p.seals[k].st = .opened then p.takeSeal k else { p with acquires := p.acquires ++ [k] })

/-- A waiting Acquire completes (R329). -/
def execAcquireComplete (pkg : Nat) (k : Fin 64) (s : State) : Out :=
  .next (s.updPkg pkg fun p => p.completeAcquire k)

/-- The host releases a seal that it holds: its writes to the region are in place, and the seal opens. -/
def State.hostRelease (s : State) (i : Nat) (p : Package) (k : Fin 64) : State :=
  if p.seals[k].st = .host then
    let mine (w : OpenWrite) : Bool := p.seals[k].region.any fun r => p.holdsByte r w.cellar w.stack w.addr w.va
    ((s.updPkg i fun p => { p with openWrites := p.openWrites.filter fun w => !mine w }).settle i
      (p.openWrites.filter mine)).updPkg i fun p =>
        { p with seals := p.seals.set k { p.seals[k] with st := .opened, held := [], stray := none } }.respond 0x04 0 []
  else s.updPkg i fun p => p.respond 0x04 1 []

/-- Release (R329). -/
def execRelease (pkg : Nat) (k : Fin 64) (s : State) : Out := .next (s.command pkg fun p => s.hostRelease pkg p k)

/-! ### Translation (R315, R317, R328) -/

/-- Where a change waits: at once is `none`; otherwise the line it waits for, no earlier than that of an earlier change to the
entry, and none for the holder's end. -/
def State.changeLine (s : State) (i : Nat) (p : Package) (stack : Fin 8) (index : Fin 32768) : Option (Option Nat) :=
  let before := p.changes.filter (Change.to stack index)
  match s.holder i with
  | none => if before.isEmpty then none else some none
  | some f =>
    let pinned := (Cells.get p.trans (transKey stack.val index.val)).getLsbD 4
    let own := if pinned then none else s.lineAhead f (s.sccOf f.owner)
    some (before.foldl (fun l c => match l, c.line with | some a, some b => some (max a b) | _, _ => none) own)

/-- A change asked for: it takes effect at once or waits. -/
def State.askChange (s : State) (i : Nat) (p : Package) (stack : Fin 8) (index : Fin 32768) (entry : DWord) (inv : Bool) : State :=
  match s.changeLine i p stack index with
  | none => s.updPkg i fun p => p.change ⟨stack, index, entry, inv, none⟩
  | some l => s.updPkg i fun p => { p with changes := p.changes ++ [⟨stack, index, entry, inv, l⟩] }

/-- Map (R328). -/
def execMap (pkg : Nat) (stack : Fin 8) (index : Fin 32768) (entry : DWord) (s : State) : Out :=
  .next (s.command pkg fun p => s.askChange pkg p stack index entry false)

/-- Invalidate (R328). -/
def execInvalidate (pkg : Nat) (stack : Fin 8) (index : Fin 32768) (s : State) : Out :=
  .next (s.command pkg fun p => s.askChange pkg p stack index 0 true)

/-- Read entry (R328). -/
def execReadEntry (pkg : Nat) (stack : Fin 8) (index : Fin 32768) (s : State) : Out :=
  .next (s.inStage pkg .ready fun p =>
    p.respond 0x08 0 (leBytes (Cells.get p.trans (transKey stack.val index.val)).toNat 8))

/-! ### Pre-empt (R307) -/

/-- A Pre-empt command waits until its folio ends; the first for a folio fixes the line, at once for one that has been dispatched.
For a folio that has ended or was never assigned it completes at once with no context (log 50). -/
def State.askPreempt (s : State) (i : Nat) (p : Package) (ident : Nat) (va : DWord) : State :=
  if s.notEnded i p.queue ident then
    let s := s.updPkg i fun p => { p with asks := p.asks ++ [(ident, va, p.scc)] }
    if (s.folio? (folioKey i ident)).any fun f => f.preempt.isNone then s.armPreempt (folioKey i ident) else s
  else s.updPkg i fun p => p.respond 0x07 0 [0]

/-- Pre-empt (R307, R328). -/
def execPreEmpt (pkg : Nat) (folio : Nat) (va : DWord) (s : State) : Out :=
  .next (s.command pkg fun p => s.askPreempt pkg p folio va)

/-! ### Drain (R303, R319, R328) -/

/-- A trap-log entry as bytes (log 20). -/
def TrapReport.bytes (t : TrapReport) : List Byte :=
  leBytes t.cls.code 1 ++ leBytes t.cycle 8 ++ leBytes t.coord 4 ++ leBytes t.word 2 ++ leBytes t.code 2 ++ leBytes t.tval.toNat 8

/-- What a counter of `w` bits shows: the count, or a free value once it has passed the width (log 92). -/
def shownCount (w n : Nat) : Nat := if n < 2 ^ w then n else Config.counterBeyond w n % 2 ^ w

/-- Drain: the page requests, the drop count and the trap log, which are taken from the device. -/
def Package.drain (p : Package) : Package :=
  let data := leBytes p.requests.length 4 ++ p.requests.flatMap (fun r => leBytes r.toNat 4) ++ leBytes (shownCount 32 p.mdrop) 4 ++
    p.trapLog.flatMap TrapReport.bytes
  { p with requests := [], trapLog := [] }.respond 0x09 0 data

/-- Drain (R328). -/
def execDrain (pkg : Nat) (s : State) : Out := .next (s.inStage pkg .ready Package.drain)

/-! ### Groups (R336 to R341, R359) -/

/-- Whether a broadcast by any of `n` members reaches every other within 320 ticks by way of package 0, over the sideband
tree (R338, R340). -/
def sidebandOk (links : List LinkSpec) (n : Nat) : Bool :=
  let ts := sidebandTree links n
  (List.range n).all fun a => (List.range n).all fun b =>
    a == b || (match ts.getD a none, ts.getD b none with | some x, some y => decide (x.up + y.down ≤ 320) | _, _ => false)

/-- Whether every distance fits in 16 bits (R341). -/
def distancesOk (links : List LinkSpec) (n : Nat) : Bool :=
  (List.range n).all fun sp => (List.range n).all fun dp => (List.range 4).all fun sd => (List.range 4).all fun dd =>
    decide (tableEntry links n sp sd dp dd ≤ 65535)

/-- Whether some die of a member would have more than its 12 Brobor links (R3). -/
def tooManyLinks (links : List LinkSpec) (n : Nat) : Bool :=
  (List.range n).any fun p => (List.range 4).any fun d => decide (12 < linkEnds links p d)

/-- The reason for which formation fails; 0 when it succeeds (R337, R338). A link that ends at no member or at a fenced die, or a
13th link at a die, is one that fails training (log 87). -/
def State.formReason (s : State) (ms : List Nat) (links : List LinkSpec) : Nat :=
  if s.folios.any fun f => recTimed f.record && ms.any f.boundOn then 1
  else if (links.any fun l => !l.trained || !s.linkUp ms l) || tooManyLinks links ms.length then 2
  else if !sidebandOk links ms.length then 3
  else if !distancesOk links ms.length then 4
  else 0

/-- A folio whose package's scc steps forward goes on at its folio cycle. -/
def Folio.shift (f : Folio) (d : Nat) : Folio :=
  { f with start := f.start + d, stop := f.stop.map fun (t : Stop) => { t with y := t.y + d } }

/-- Its cores. -/
def Core.shift (c : Core) (d : Nat) : Core :=
  { c with
    issueAt := c.issueAt + d, lastIssue := c.lastIssue.map (· + d), haltAt := c.haltAt.map (· + d), flagAt := c.flagAt + d }

/-- Its work. -/
def Job.shift (j : Job) (d : Nat) : Job := { j with cyc := j.cyc + d, cut := j.cut.map (· + d) }

/-- A member's scc steps forward by `d` (R338): what runs on it keeps its folio cycle. -/
def State.stepScc (s : State) (i d : Nat) : State :=
  let core (c : Core) : Core := if c.phys = i then c.shift d else c
  { s with
    core := core s.core
    others := s.others.map core
    folios := s.folios.map fun (f : Folio) => if f.owner = i then f.shift d else f
    jobs := s.jobs.map fun (j : Job) => if s.physOf j.core = i then j.shift d else j
    votes := s.votes.map fun (v : Vote) => if v.pkg = i then { v with at_ := v.at_ + d } else v }

/-- The largest of a count among members. -/
def State.largest (s : State) (ms : List Nat) (g : Package → Nat) : Nat :=
  ms.foldl (fun m q => match s.pkgs[q]? with | some p => max m (g p) | none => m) 0

/-- A member joins a group under a logical number (R338), at phase 0 (log 97). Rests agreed, and a rest or hold in force, are gone
(log 80), and a Dissolve that waits completes (log 127). -/
def Package.join (p : Package) (ms : List Nat) (num tick scc formation : Nat) (links : List LinkSpec) (step0 : DWord) : Package :=
  { p with
    group := ms, num := num, tick := tick, scc := scc, formation := formation, links := links, step := step0
    phi := 0, linkPhi := [], slew := 0, commitTick := tick, slewTick := none, rests := [], restLeft := 0, holds := [], stalled := false
    left := false, dissolving := 0, responses := p.responses ++ List.replicate p.dissolving ⟨0x11, 0, []⟩ }

/-- Members join one after another. -/
def State.joinAll (s : State) (ms : List Nat) (tick scc formation : Nat) (links : List LinkSpec) (step0 : DWord) :
    List (Nat × Nat) → State
  | [] => s
  | (q, num) :: r =>
    let s := s.stepScc q (scc - s.sccOf q)
    (s.updPkg q fun p => p.join ms num tick scc formation links step0).joinAll ms tick scc formation links step0 r

/-- Whether a package can be a member: it has power and is ready. -/
def State.canJoin (s : State) (i : Nat) : Bool := match s.pkgs[i]? with | some p => p.powered && p.boot == .ready | none => false

/-- Form on the members in order; package 0 is the one commanded. -/
def State.formGroup (s : State) (i : Nat) (ms : List Nat) (links : List LinkSpec) (step0 : DWord) : State :=
  if ms.head? ≠ some i ∨ ms.Nodup = False ∨ ms.all s.canJoin = false then s
  else
    match s.formReason ms links with
    | 0 =>
      let n := s.largest ms (·.formation) + 1
      (s.joinAll ms (s.largest ms (·.tick)) (s.largest ms (·.scc)) n links step0 ms.zipIdx).updPkg i fun p =>
        p.respond 0x10 0 (leBytes n 8)
    | k => s.updPkg i fun p => p.respond 0x10 k []

/-- Form (R337, R338). -/
def execForm (pkg : Nat) (members : List Nat) (links : List LinkSpec) (step0 : DWord) (s : State) : Out :=
  .next (s.command pkg fun _ => s.formGroup pkg members links step0)

/-- A member becomes a group of one. Rests agreed, and a rest or hold in force, are gone (log 80). -/
def Package.alone (p : Package) (i : Nat) : Package :=
  { p with
    group := [i], num := 0, links := [], phi := 0, linkPhi := [], slew := 0, rests := [], restLeft := 0, holds := []
    stalled := false, left := false }

/-- Whether no timed folio of a package's group runs (R337). -/
def State.groupIdle (s : State) (i : Nat) : Bool := !(s.folios.any fun f => recTimed f.record && (s.members i).any f.boundOn)

/-- The Dissolve commands that wait on a package complete. -/
def State.dissolveGroup (s : State) (i : Nat) : State :=
  match s.pkgs[i]? with
  | none => s
  | some p =>
    if p.dissolving = 0 then s
    else
      ((s.members i).foldl (fun s q => s.updPkg q fun p => p.alone q) s).updPkg i fun p =>
        { p with dissolving := 0, responses := p.responses ++ List.replicate p.dissolving ⟨0x11, 0, []⟩ }

/-- Dissolve: it completes when no timed folio of the group runs, at once where none does (R337). -/
def execDissolve (pkg : Nat) (s : State) : Out :=
  let t := s.inStage pkg .ready fun p => if p.num = 0 then { p with dissolving := p.dissolving + 1 } else p
  .next (if t.groupIdle pkg then t.dissolveGroup pkg else t)

/-- A Dissolve that has waited completes (R337). -/
def execDissolveComplete (pkg : Nat) (s : State) : Out := .next (s.dissolveGroup pkg)

/-- The group distance table's bytes (R341). -/
def Package.table (p : Package) : List Byte :=
  leBytes p.formation 8 ++ leBytes p.group.length 2 ++ List.replicate 54 0 ++
    (List.range (2 ^ 20)).flatMap fun x =>
      leBytes (tableEntry p.links p.group.length (x / 4096) (x / 1024 % 4) (x / 4 % 256) (x % 4)) 2

/-- Read table (R337, R341): the table of the formation in force. -/
def execReadTable (pkg : Nat) (formation : DWord) (s : State) : Out :=
  .next (s.inStage pkg .ready fun p =>
    if formation.toNat = p.formation then p.respond 0x12 0 p.table else p.respond 0x12 1 [])

/-! ### Management registers (R396, R397) -/

/-- The number of a stage (R381). -/
def Boot.code : Boot → Nat
  | .rails => 0 | .fuses => 1 | .awaiting => 2 | .verifying => 3 | .loading => 4 | .ready => 5

/-- The value of a management register; none when the number is unassigned. -/
def Package.register (p : Package) (n : Nat) : Option Nat :=
  match n with
  | 0x000 => some (p.boot.code + 16 * p.reason)
  | 0x001 => some p.fenced.toNat
  | 0x002 => some p.harvest
  | 0x003 => some p.svn
  | 0x004 => some p.formation
  | 0x010 => some p.mpcap
  | 0x011 => some p.mpower
  | 0x012 => some (hottest p.sensors[0])
  | 0x013 => some (hottest p.sensors[1])
  | 0x014 => some (hottest p.sensors[2])
  | 0x015 => some (hottest p.sensors[3])
  | 0x020 => some (shownCount 64 p.mcorr)
  | 0x021 => some (shownCount 32 p.mdrop)
  | _ => none

/-- Read register: 64 bits, or reason 1. -/
def Package.readReg (p : Package) (n : Nat) : Package :=
  match p.register n with
  | some x => p.respond 0x20 0 (leBytes x 8)
  | none => p.respond 0x20 1 []

/-- Read register (R396): accepted in stages 2 and 5, and in stage 3, which mstate could not show otherwise (log 95). -/
def execReadRegister (pkg number : Nat) (s : State) : Out :=
  .next (s.updPkg pkg fun p =>
    if p.powered && (p.boot == .awaiting || p.boot == .verifying || p.boot == .ready) then p.readReg number else p)

/-- A new power cap: the Binder asks for rests when the power is above it (R390). -/
def Package.setCap (p : Package) (x : Nat) : Package :=
  let p := { p with mpcap := x }
  { p with restWanted := p.wantsRest }

/-- Write register: only mpcap, from 1,000 to 4,500. -/
def Package.writeReg (p : Package) (n : Nat) (x : DWord) : Package :=
  if n = 0x010 ∧ 1000 ≤ x.toNat ∧ x.toNat ≤ 4500 then (p.setCap x.toNat).respond 0x21 0 [] else p.respond 0x21 1 []

/-- Write register (R396). -/
def execWriteRegister (pkg number : Nat) (value : DWord) (s : State) : Out :=
  .next (s.inStage pkg .ready fun p => p.writeReg number value)

/-! ### Host accesses (R316, R366, R367) -/

/-- The values that a host read of a byte may return (R366, R367): of a region whose seal it does not hold, those held since it
last released or acquired it; of another byte, what it wrote last, or where a device write has landed since, that or what is
in place (log 93); and of a byte on which a write has landed after the folio's release, also what that write changed (R330). What a
replay writes over is seen as it was at the release (R330). -/
def Package.hostSees (p : Package) (cellar : Bool) (va stack addr : Nat) : List Byte :=
  let now := p.inPlace cellar stack addr
  let mine := p.openWrites.filter fun w => w.on cellar stack addr
  let own (now : Byte) (late : List Byte) : List Byte := match mine.getLast? with
    | some w => if w.covered then now :: mine.map (·.val) ++ late else [w.val]
    | none => now :: late
  let at_ (l : List Held) : List Byte := heldAt l (placeOf cellar stack addr)
  match p.sealOf cellar stack addr va with
  | some k =>
    if k.st = .host then
      match k.stray with
      | some y => own (y.shows (placeOf cellar stack addr) now) (at_ y.held)
      | none => own now []
    else if (at_ k.held).isEmpty then [now] else at_ k.held
  | none => own now []

/-- A value that a host read returns, from those it may. -/
def State.hostChoose (s : State) : List Byte → State × Byte
  | [] => (s, 0)
  | [b] => (s, b)
  | b :: r => ({ s with freeCtr := s.freeCtr + 1 }, choose s.freeCtr b r)

/-- A host read of one byte, of the cellar or of HBM: a non-resident page reads as zero (log 78). -/
def State.hostByte (s : State) (i : Nat) (cellar : Bool) (va : Nat) : State × Byte :=
  match s.pkgs[i]? with
  | none => (s, 0)
  | some p =>
    if cellar then s.hostChoose (p.hostSees true va 0 va)
    else
      match p.translate va false with
      | none => (s, 0)
      | some (key, stack, addr) => (s.updPkg i fun p => p.touch key false).hostChoose (p.hostSees false va stack addr)

/-- A host read. -/
def State.hostRead (s : State) (i : Nat) (cellar : Bool) (va : Nat) : Nat → State × List Byte
  | 0 => (s, [])
  | n + 1 =>
    let x := s.hostByte i cellar va
    let r := x.1.hostRead i cellar (va + 1) n
    (r.1, x.2 :: r.2)

/-- Whether a host write is in place at once: its byte lies in no seal's region, no folio is bound on the package, and no other
host write to it is open (R335, log 93). -/
def Package.settled (p : Package) (cellar : Bool) (stack addr va : Nat) (fs : List Nat) : Bool :=
  fs.isEmpty && (p.sealOf cellar stack addr va).isNone && !p.openWrites.any fun w => w.on cellar stack addr

/-- A host write: in place at once, or open for the folios `fs` bound on the package (R366, log 93). -/
def Package.hostPut (p : Package) (cellar : Bool) (stack addr va : Nat) (b : Byte) (fs : List Nat) : Package :=
  if p.settled cellar stack addr va fs then p.put cellar stack addr va b .host
  else { p with openWrites := p.openWrites ++ [⟨cellar, stack, addr, va, b, false, fs⟩] }

/-- A host write of one byte; one to a non-resident page is dropped (log 78). -/
def State.hostPut (s : State) (i : Nat) (cellar : Bool) (va : Nat) (b : Byte) : State :=
  let fs := (s.folios.filter fun f => f.boundOn i).map (·.id)
  match s.pkgs[i]? with
  | none => s
  | some p =>
    if cellar then s.updPkg i fun p => p.hostPut true 0 va va b fs
    else
      match p.translate va true with
      | none => s
      | some (key, stack, addr) => s.updPkg i fun p => (p.touch key true).hostPut false stack addr va b fs

/-- A host write. -/
def State.hostWrite (s : State) (i : Nat) (cellar : Bool) (va : Nat) : List Byte → State
  | [] => s
  | b :: bs => (s.hostPut i cellar va b).hostWrite i cellar (va + 1) bs

/-- A host access to HBM through the host die, or to the cellar (R316, R331, R366, R367): a read returns its bytes. -/
def execHostAccess (pkg : Nat) (va : HostAddr) (length : Nat) (write : Option (List Byte)) (s : State) : Out :=
  .next (s.command pkg fun _ =>
    match write with
    | some bs => s.hostWrite pkg va.cellar va.va.toNat (bs.take length)
    | none =>
      let r := s.hostRead pkg va.cellar va.va.toNat length
      r.1.updPkg pkg fun p => p.respond 0 0 r.2)

/-! ### Records and counts (R299, R326, R328) -/

/-- The oldest completion record is delivered, as its 128 bytes (R299). -/
def Package.deliver (p : Package) : Package :=
  match p.records with
  | [] => p
  | r :: rs => { p with records := rs, delivered := p.delivered ++ [r.bytes] }

/-- A completion record reaches the host (R328). -/
def execRecordDelivery (pkg : Nat) (s : State) : Out := .next (s.updPkg pkg Package.deliver)

/-- A corrected error is counted, in all and at its place (R326). -/
def Package.countError (p : Package) (site : ErrSite) : Package :=
  let n := ((p.corrected.find? fun x => x.1 == site).map (·.2)).getD 0
  { p with mcorr := p.mcorr + 1, corrected := (p.corrected.filter fun x => x.1 != site) ++ [(site, n + 1)] }

/-- A corrected error (R326). -/
def execCorrectedError (pkg : Nat) (site : ErrSite) (s : State) : Out := .next (s.updPkg pkg fun p => p.countError site)

end Sys2Proof.Machine
end

