-- ==== Sys2Proof/Decode.lean ====
section
/-! DEFINITION. Decoding of a word (R62 to R77), total on every word and on every list of bytes, and the encoder
written from the same opcode map. A word that is not an instruction is refused with a name; the machine then
takes the illegal-instruction trap of R74. -/

namespace Sys2Proof

/-- Why a word is not an instruction (R74). -/
inductive DecodeError where
  | truncated            -- fewer than four bytes are left
  | unassignedOpcode     -- the major opcode is unassigned or reserved
  | unassignedFunction   -- the function code is unassigned, or a field that must be zero is not
  | badForm              -- the form is 11, or not listed for the opcode
  | badImmediate         -- an unassigned system or control register
  | badOffset            -- an offset outside R68
  | reservedMode         -- `mode` contents that break R72
  | equalFields          -- `bacc` with equal vd and vb fields (R202)
  deriving DecidableEq, Repr

/-- The number of a system register (R188). -/
def SysReg.toNat : SysReg → Nat
  | .scc => 0x000 | .tick => 0x001 | .vl => 0x002 | .step => 0x003
  | .stage => 0x004 | .coord => 0x005 | .oob => 0x006 | .period => 0x007
  | .fs => 0x010
  | .fx k => 0x011 + k.val
  | .th k => 0x020 + k.val
  | .m k => 0x030 + k.val
  | .tcause => 0x040 | .tepc => 0x041 | .tval => 0x042 | .tvec => 0x043 | .tstate => 0x044

/-- The system register of a number; every other number is unassigned (R188). -/
def SysReg.ofNat (x : Nat) : Option SysReg :=
  if x = 0x000 then some .scc else if x = 0x001 then some .tick
  else if x = 0x002 then some .vl else if x = 0x003 then some .step
  else if x = 0x004 then some .stage else if x = 0x005 then some .coord
  else if x = 0x006 then some .oob else if x = 0x007 then some .period
  else if x = 0x010 then some .fs
  else if 0x011 ≤ x ∧ x < 0x018 then some (.fx (Fin.ofNat 7 (x - 0x011)))
  else if 0x020 ≤ x ∧ x < 0x024 then some (.th (Fin.ofNat 4 (x - 0x020)))
  else if 0x030 ≤ x ∧ x < 0x034 then some (.m (Fin.ofNat 4 (x - 0x030)))
  else if x = 0x040 then some .tcause else if x = 0x041 then some .tepc
  else if x = 0x042 then some .tval else if x = 0x043 then some .tvec
  else if x = 0x044 then some .tstate
  else none

/-- Bits `lo+w-1 : lo` of a number. -/
def bitsAt (n lo w : Nat) : Nat := n / 2 ^ lo % 2 ^ w

/-- A scalar or vector register field (R64). -/
def reg5 (n lo : Nat) : Fin 32 := Fin.ofNat 32 (n / 2 ^ lo)
/-- A weight or layout register field. -/
def reg3 (n lo : Nat) : Fin 8 := Fin.ofNat 8 (n / 2 ^ lo)
/-- A tile, mode or table register field. -/
def reg2 (n lo : Nat) : Fin 4 := Fin.ofNat 4 (n / 2 ^ lo)
/-- A field value at its place in the word. -/
def put (v lo : Nat) : Nat := v * 2 ^ lo

/-- The form and vb fields of a word with three forms (R65). -/
def VB.ofBits (n : Nat) : Option VB :=
  if bitsAt n 23 2 = 0 then some (.vv (reg5 n 6))
  else if bitsAt n 23 2 = 1 then some (.vs (reg5 n 6))
  else if bitsAt n 23 2 = 2 then some (.vi (BitVec.ofNat 5 (bitsAt n 6 5)))
  else none

/-- The same fields, encoded. -/
def VB.bits : VB → Nat
  | .vv r => put r.val 6
  | .vs r => 2 ^ 23 + put r.val 6
  | .vi i => 2 * 2 ^ 23 + put i.toNat 6

/-- The amount of `vslide`: forms 01 and 10 only (R73). -/
def SlideAmt.ofBits (n : Nat) : Option SlideAmt :=
  if bitsAt n 23 2 = 1 then some (.vs (reg5 n 6))
  else if bitsAt n 23 2 = 2 then some (.vi (BitVec.ofNat 5 (bitsAt n 6 5)))
  else none

/-- The same fields, encoded. -/
def SlideAmt.bits : SlideAmt → Nat
  | .vs r => 2 ^ 23 + put r.val 6
  | .vi i => 2 * 2 ^ 23 + put i.toNat 6

/-- The addressing of `vstw` in fn bits 1:0 and vb (R221). -/
def WAddr.bits : WAddr → Nat
  | .unit => 0
  | .strided r => 1 + put r.val 6
  | .indexed r => 2 + put r.val 6

/-- `vstw` (R221): addressing 3 is unassigned, and vb is zero for unit addressing. -/
def decodeVstw (n : Nat) : Except DecodeError Instr :=
  let mk (x : WAddr) : Instr :=
    .vstw (reg2 n 21) (reg5 n 16) (reg5 n 11) x
      (reg3 n 2)
  if n % 4 = 0 then
    if bitsAt n 6 5 = 0 then .ok (mk .unit) else .error .unassignedFunction
  else if n % 4 = 1 then .ok (mk (.strided (reg5 n 6)))
  else if n % 4 = 2 then .ok (mk (.indexed (reg5 n 6)))
  else .error .unassignedFunction

/-- The reason for a word of an assigned opcode that no row of the map takes: its form is not listed
(V opcodes, 0x30 and above, with a form field other than 00), or its function code or a zero field is wrong. -/
def rejectFields (op n : Nat) : Except DecodeError Instr :=
  if 0x30 ≤ op ∧ bitsAt n 23 2 ≠ 0 then .error .badForm else .error .unassignedFunction

/-- Scalar, control and scalar memory words, 0x01 to 0x29 (R73). -/
def decodeScalar (op n : Nat) : Except DecodeError Instr :=
  match op with
  | 0x01 =>
      if bitsAt n 0 10 = 0 then .ok (.addw (reg5 n 20) (reg5 n 15) (reg5 n 10)) else
      if bitsAt n 0 10 = 1 then .ok (.subw (reg5 n 20) (reg5 n 15) (reg5 n 10)) else
      if bitsAt n 0 10 = 2 then .ok (.andw (reg5 n 20) (reg5 n 15) (reg5 n 10)) else
      if bitsAt n 0 10 = 3 then .ok (.orw (reg5 n 20) (reg5 n 15) (reg5 n 10)) else
      if bitsAt n 0 10 = 4 then .ok (.xorw (reg5 n 20) (reg5 n 15) (reg5 n 10)) else
      if bitsAt n 0 10 = 5 then .ok (.sll (reg5 n 20) (reg5 n 15) (reg5 n 10)) else
      if bitsAt n 0 10 = 6 then .ok (.srl (reg5 n 20) (reg5 n 15) (reg5 n 10)) else
      if bitsAt n 0 10 = 7 then .ok (.sra (reg5 n 20) (reg5 n 15) (reg5 n 10)) else
      if bitsAt n 0 10 = 8 then .ok (.slt (reg5 n 20) (reg5 n 15) (reg5 n 10)) else
      if bitsAt n 0 10 = 9 then .ok (.sltu (reg5 n 20) (reg5 n 15) (reg5 n 10)) else
      if bitsAt n 0 10 = 10 then .ok (.mulw (reg5 n 20) (reg5 n 15) (reg5 n 10)) else
      if bitsAt n 0 10 = 11 then .ok (.mulh (reg5 n 20) (reg5 n 15) (reg5 n 10)) else
      if bitsAt n 0 10 = 12 then .ok (.mulhu (reg5 n 20) (reg5 n 15) (reg5 n 10)) else
      if bitsAt n 0 10 = 13 then .ok (.divw (reg5 n 20) (reg5 n 15) (reg5 n 10)) else
      if bitsAt n 0 10 = 14 then .ok (.divu (reg5 n 20) (reg5 n 15) (reg5 n 10)) else
      if bitsAt n 0 10 = 15 then .ok (.remw (reg5 n 20) (reg5 n 15) (reg5 n 10)) else
      if bitsAt n 0 10 = 16 then .ok (.minw (reg5 n 20) (reg5 n 15) (reg5 n 10)) else
      if bitsAt n 0 10 = 17 then .ok (.maxw (reg5 n 20) (reg5 n 15) (reg5 n 10)) else
      rejectFields op n
  | 0x02 =>
      .ok (.addi (reg5 n 20) (reg5 n 15) (BitVec.ofNat 15 n))
  | 0x03 =>
      .ok (.andi (reg5 n 20) (reg5 n 15) (BitVec.ofNat 15 n))
  | 0x04 =>
      .ok (.ori (reg5 n 20) (reg5 n 15) (BitVec.ofNat 15 n))
  | 0x05 =>
      .ok (.xori (reg5 n 20) (reg5 n 15) (BitVec.ofNat 15 n))
  | 0x06 =>
      .ok (.slti (reg5 n 20) (reg5 n 15) (BitVec.ofNat 15 n))
  | 0x07 =>
      if bitsAt n 6 9 = 0 then .ok (.slli (reg5 n 20) (reg5 n 15) (Fin.ofNat 64 n)) else
      rejectFields op n
  | 0x08 =>
      if bitsAt n 6 9 = 0 then .ok (.srli (reg5 n 20) (reg5 n 15) (Fin.ofNat 64 n)) else
      rejectFields op n
  | 0x09 =>
      if bitsAt n 6 9 = 0 then .ok (.srai (reg5 n 20) (reg5 n 15) (Fin.ofNat 64 n)) else
      rejectFields op n
  | 0x0A =>
      .ok (.lui (reg5 n 20) (BitVec.ofNat 20 n))
  | 0x10 =>
      if branchOffOk (BitVec.ofNat 15 n) then .ok (.beq (reg5 n 20) (reg5 n 15) (BitVec.ofNat 15 n)) else .error .badOffset
  | 0x11 =>
      if branchOffOk (BitVec.ofNat 15 n) then .ok (.bne (reg5 n 20) (reg5 n 15) (BitVec.ofNat 15 n)) else .error .badOffset
  | 0x12 =>
      if branchOffOk (BitVec.ofNat 15 n) then .ok (.blt (reg5 n 20) (reg5 n 15) (BitVec.ofNat 15 n)) else .error .badOffset
  | 0x13 =>
      if branchOffOk (BitVec.ofNat 15 n) then .ok (.bge (reg5 n 20) (reg5 n 15) (BitVec.ofNat 15 n)) else .error .badOffset
  | 0x14 =>
      if branchOffOk (BitVec.ofNat 15 n) then .ok (.bltu (reg5 n 20) (reg5 n 15) (BitVec.ofNat 15 n)) else .error .badOffset
  | 0x15 =>
      if branchOffOk (BitVec.ofNat 15 n) then .ok (.bgeu (reg5 n 20) (reg5 n 15) (BitVec.ofNat 15 n)) else .error .badOffset
  | 0x16 =>
      .ok (.jal (reg5 n 20) (BitVec.ofNat 20 n))
  | 0x17 =>
      .ok (.jalr (reg5 n 20) (reg5 n 15) (BitVec.ofNat 15 n))
  | 0x18 =>
      if bitsAt n 15 5 = 0 then if bodyOffOk (BitVec.ofNat 15 n) then .ok (.loopw (reg5 n 20) (BitVec.ofNat 15 n)) else .error .badOffset else
      rejectFields op n
  | 0x19 =>
      if bodyOffOk (BitVec.ofNat 15 n) then .ok (.loopi (BitVec.ofNat 10 (bitsAt n 15 10)) (BitVec.ofNat 15 n)) else .error .badOffset
  | 0x1A =>
      if bitsAt n 0 25 = 0 then .ok .nop else
      if bitsAt n 0 25 = 1 then .ok .fend else
      if bitsAt n 0 25 = 2 then .ok .rstp else
      if bitsAt n 0 25 = 3 then .ok .tret else
      rejectFields op n
  | 0x1B =>
      if bitsAt n 15 10 = 0 then .ok (.trap (BitVec.ofNat 15 n)) else
      rejectFields op n
  | 0x1C =>
      if modeContentsOk (bitsAt n 0 23) then .ok (.mode (reg2 n 23) (BitVec.ofNat 23 n)) else .error .reservedMode
  | 0x1D =>
      if bitsAt n 0 15 = 0 ∧ bitsAt n 22 3 = 0 then .ok (.modeScalar (reg2 n 20) (reg5 n 15)) else
      rejectFields op n
  | 0x1E =>
      if bitsAt n 15 10 = 0 then .ok (.idle (BitVec.ofNat 15 n)) else
      rejectFields op n
  | 0x1F =>
      if bitsAt n 12 8 = 0 then (SysReg.ofNat (bitsAt n 0 12)).elim (.error .badImmediate) fun r => .ok (.sysr (reg5 n 20) r) else
      if bitsAt n 12 3 = 4 ∧ bitsAt n 20 5 = 0 then (SysReg.ofNat (bitsAt n 0 12)).elim (.error .badImmediate) fun r => .ok (.sysw r (reg5 n 15)) else
      rejectFields op n
  | 0x20 =>
      .ok (.ldd (reg5 n 20) (reg5 n 15) (BitVec.ofNat 15 n))
  | 0x21 =>
      .ok (.ldw (reg5 n 20) (reg5 n 15) (BitVec.ofNat 15 n))
  | 0x22 =>
      .ok (.ldh (reg5 n 20) (reg5 n 15) (BitVec.ofNat 15 n))
  | 0x23 =>
      .ok (.ldb (reg5 n 20) (reg5 n 15) (BitVec.ofNat 15 n))
  | 0x24 =>
      .ok (.std (reg5 n 20) (reg5 n 15) (BitVec.ofNat 15 n))
  | 0x25 =>
      .ok (.stw (reg5 n 20) (reg5 n 15) (BitVec.ofNat 15 n))
  | 0x26 =>
      .ok (.sth (reg5 n 20) (reg5 n 15) (BitVec.ofNat 15 n))
  | 0x27 =>
      .ok (.stb (reg5 n 20) (reg5 n 15) (BitVec.ofNat 15 n))
  | 0x28 =>
      if bitsAt n 0 15 = 0 then .ok (.tlook (reg5 n 20) (reg5 n 15)) else
      if bitsAt n 0 10 = 1 ∧ bitsAt n 20 5 = 0 then .ok (.tset (reg5 n 15) (reg5 n 10)) else
      if bitsAt n 0 15 = 2 ∧ bitsAt n 20 5 = 0 then .ok (.tclr (reg5 n 15)) else
      rejectFields op n
  | 0x29 =>
      if bitsAt n 4 16 = 0 then .ok (.mbr (reg5 n 20) (Fin.ofNat 16 n)) else
      rejectFields op n
  | _ => .error .unassignedOpcode

/-- Lane words, 0x30 to 0x48 (R73). -/
def decodeLane (op n : Nat) : Except DecodeError Instr :=
  match op with
  | 0x30 =>
      if bitsAt n 0 6 = 0 then (VB.ofBits n).elim (.error .badForm) fun b => .ok (.vadd (reg2 n 21) (reg5 n 16) (reg5 n 11) b) else
      rejectFields op n
  | 0x31 =>
      if bitsAt n 0 6 = 0 then (VB.ofBits n).elim (.error .badForm) fun b => .ok (.vsub (reg2 n 21) (reg5 n 16) (reg5 n 11) b) else
      rejectFields op n
  | 0x32 =>
      if bitsAt n 0 6 = 0 then (VB.ofBits n).elim (.error .badForm) fun b => .ok (.vmul (reg2 n 21) (reg5 n 16) (reg5 n 11) b) else
      rejectFields op n
  | 0x33 =>
      if bitsAt n 0 6 = 0 then (VB.ofBits n).elim (.error .badForm) fun b => .ok (.vfma (reg2 n 21) (reg5 n 16) (reg5 n 11) b) else
      rejectFields op n
  | 0x34 =>
      if bitsAt n 0 6 = 0 then (VB.ofBits n).elim (.error .badForm) fun b => .ok (.vfms (reg2 n 21) (reg5 n 16) (reg5 n 11) b) else
      rejectFields op n
  | 0x35 =>
      if bitsAt n 0 6 = 0 then (VB.ofBits n).elim (.error .badForm) fun b => .ok (.vnfma (reg2 n 21) (reg5 n 16) (reg5 n 11) b) else
      rejectFields op n
  | 0x36 =>
      if bitsAt n 0 6 = 0 then (VB.ofBits n).elim (.error .badForm) fun b => .ok (.vmin (reg2 n 21) (reg5 n 16) (reg5 n 11) b) else
      rejectFields op n
  | 0x37 =>
      if bitsAt n 0 6 = 0 then (VB.ofBits n).elim (.error .badForm) fun b => .ok (.vmax (reg2 n 21) (reg5 n 16) (reg5 n 11) b) else
      rejectFields op n
  | 0x38 =>
      if bitsAt n 0 11 = 0 ∧ bitsAt n 23 2 = 0 then .ok (.vabs (reg2 n 21) (reg5 n 16) (reg5 n 11)) else
      if bitsAt n 0 11 = 1 ∧ bitsAt n 23 2 = 0 then .ok (.vneg (reg2 n 21) (reg5 n 16) (reg5 n 11)) else
      if bitsAt n 0 11 = 2 ∧ bitsAt n 23 2 = 0 then .ok (.vrcp (reg2 n 21) (reg5 n 16) (reg5 n 11)) else
      if bitsAt n 0 11 = 3 ∧ bitsAt n 23 2 = 0 then .ok (.vrsq (reg2 n 21) (reg5 n 16) (reg5 n 11)) else
      if bitsAt n 0 11 = 4 ∧ bitsAt n 23 2 = 0 then .ok (.vsqrt (reg2 n 21) (reg5 n 16) (reg5 n 11)) else
      if bitsAt n 0 11 = 5 ∧ bitsAt n 23 2 = 0 then .ok (.vpopc (reg2 n 21) (reg5 n 16) (reg5 n 11)) else
      if bitsAt n 0 11 = 6 ∧ bitsAt n 23 2 = 0 then .ok (.vclz (reg2 n 21) (reg5 n 16) (reg5 n 11)) else
      rejectFields op n
  | 0x39 =>
      if bitsAt n 0 6 = 0 then (VB.ofBits n).elim (.error .badForm) fun b => .ok (.vand (reg2 n 21) (reg5 n 16) (reg5 n 11) b) else
      rejectFields op n
  | 0x3A =>
      if bitsAt n 0 6 = 0 then (VB.ofBits n).elim (.error .badForm) fun b => .ok (.vor (reg2 n 21) (reg5 n 16) (reg5 n 11) b) else
      rejectFields op n
  | 0x3B =>
      if bitsAt n 0 6 = 0 then (VB.ofBits n).elim (.error .badForm) fun b => .ok (.vxor (reg2 n 21) (reg5 n 16) (reg5 n 11) b) else
      rejectFields op n
  | 0x3C =>
      if bitsAt n 0 6 = 0 then (VB.ofBits n).elim (.error .badForm) fun b => .ok (.vshl (reg2 n 21) (reg5 n 16) (reg5 n 11) b) else
      rejectFields op n
  | 0x3D =>
      if bitsAt n 0 6 = 0 then (VB.ofBits n).elim (.error .badForm) fun b => .ok (.vshr (reg2 n 21) (reg5 n 16) (reg5 n 11) b) else
      rejectFields op n
  | 0x3E =>
      if bitsAt n 0 6 = 0 then (VB.ofBits n).elim (.error .badForm) fun b => .ok (.vsra (reg2 n 21) (reg5 n 16) (reg5 n 11) b) else
      rejectFields op n
  | 0x3F =>
      if bitsAt n 0 6 = 0 then (VB.ofBits n).elim (.error .badForm) fun b => .ok (.vmulh (reg2 n 21) (reg5 n 16) (reg5 n 11) b) else
      rejectFields op n
  | 0x40 =>
      if bitsAt n 0 6 = 0 ∧ bitsAt n 19 2 = 0 then (VB.ofBits n).elim (.error .badForm) fun b => .ok (.vceq (reg2 n 21) (reg3 n 16) (reg5 n 11) b) else
      if bitsAt n 0 6 = 1 ∧ bitsAt n 19 2 = 0 then (VB.ofBits n).elim (.error .badForm) fun b => .ok (.vclt (reg2 n 21) (reg3 n 16) (reg5 n 11) b) else
      if bitsAt n 0 6 = 2 ∧ bitsAt n 19 2 = 0 then (VB.ofBits n).elim (.error .badForm) fun b => .ok (.vcle (reg2 n 21) (reg3 n 16) (reg5 n 11) b) else
      rejectFields op n
  | 0x41 =>
      if bitsAt n 4 7 = 0 ∧ bitsAt n 23 2 = 0 then (ETy.ofCode (bitsAt n 0 4)).elim (.error .unassignedFunction) fun u => .ok (.vcvt (reg2 n 21) (reg5 n 16) (reg5 n 11) u) else
      rejectFields op n
  | 0x42 =>
      if bitsAt n 0 11 = 0 ∧ bitsAt n 23 2 = 0 then .ok (.vredsum (reg2 n 21) (reg5 n 16) (reg5 n 11)) else
      if bitsAt n 0 11 = 1 ∧ bitsAt n 23 2 = 0 then .ok (.vredmax (reg2 n 21) (reg5 n 16) (reg5 n 11)) else
      if bitsAt n 0 11 = 2 ∧ bitsAt n 23 2 = 0 then .ok (.vredmin (reg2 n 21) (reg5 n 16) (reg5 n 11)) else
      rejectFields op n
  | 0x43 =>
      if bitsAt n 0 6 = 0 ∧ bitsAt n 9 2 = 0 ∧ bitsAt n 23 2 = 0 then .ok (.vsegsum (reg2 n 21) (reg5 n 16) (reg5 n 11) (reg3 n 6)) else
      if bitsAt n 0 6 = 1 ∧ bitsAt n 9 2 = 0 ∧ bitsAt n 23 2 = 0 then .ok (.vsegredMax (reg2 n 21) (reg5 n 16) (reg5 n 11) (reg3 n 6)) else
      if bitsAt n 0 6 = 2 ∧ bitsAt n 9 2 = 0 ∧ bitsAt n 23 2 = 0 then .ok (.vsegredMin (reg2 n 21) (reg5 n 16) (reg5 n 11) (reg3 n 6)) else
      rejectFields op n
  | 0x44 =>
      if bitsAt n 0 6 = 0 ∧ bitsAt n 23 2 = 0 then .ok (.vperm (reg2 n 21) (reg5 n 16) (reg5 n 11) (reg5 n 6)) else
      if bitsAt n 0 6 = 1 then (SlideAmt.ofBits n).elim (.error .badForm) fun k => .ok (.vslide (reg2 n 21) (reg5 n 16) (reg5 n 11) k) else
      if bitsAt n 0 6 = 2 ∧ bitsAt n 23 2 = 1 then .ok (.vins (reg2 n 21) (reg5 n 16) (reg5 n 11) (reg5 n 6)) else
      if bitsAt n 0 6 = 3 ∧ bitsAt n 23 2 = 1 then .ok (.vext (reg2 n 21) (reg5 n 16) (reg5 n 11) (reg5 n 6)) else
      if bitsAt n 0 11 = 4 ∧ bitsAt n 23 2 = 0 then .ok (.vmov (reg2 n 21) (reg5 n 16) (reg5 n 11)) else
      if bitsAt n 0 6 = 4 ∧ bitsAt n 11 5 = 0 ∧ bitsAt n 23 2 = 1 then .ok (.vmovScalar (reg2 n 21) (reg5 n 16) (reg5 n 6)) else
      rejectFields op n
  | 0x45 =>
      if bitsAt n 0 6 = 0 ∧ bitsAt n 23 2 = 0 then .ok (.vrng (reg2 n 21) (reg5 n 16) (reg5 n 11) (reg5 n 6)) else
      rejectFields op n
  | 0x46 =>
      if bitsAt n 0 6 = 0 ∧ bitsAt n 23 2 = 0 then .ok (.vpfx (reg2 n 21) (reg5 n 16) (reg5 n 11) (reg5 n 6)) else
      if bitsAt n 0 6 = 1 ∧ bitsAt n 23 2 = 0 then .ok (.vxsect (reg2 n 21) (reg5 n 16) (reg5 n 11) (reg5 n 6)) else
      if bitsAt n 0 6 = 2 ∧ bitsAt n 23 2 = 0 then .ok (.vcomp (reg2 n 21) (reg5 n 16) (reg5 n 11) (reg5 n 6)) else
      if bitsAt n 0 6 = 3 ∧ bitsAt n 23 2 = 0 then .ok (.vexpd (reg2 n 21) (reg5 n 16) (reg5 n 11) (reg5 n 6)) else
      rejectFields op n
  | 0x47 =>
      if bitsAt n 2 9 = 0 ∧ bitsAt n 23 2 = 0 then .ok (.vtbl (reg2 n 21) (reg5 n 16) (reg5 n 11) (reg2 n 0)) else
      rejectFields op n
  | 0x48 =>
      if bitsAt n 2 9 = 0 ∧ bitsAt n 16 5 = 0 ∧ bitsAt n 23 2 = 0 then .ok (.vtld (reg2 n 21) (reg5 n 11) (reg2 n 0)) else
      rejectFields op n
  | _ => .error .unassignedOpcode

/-- Weight, arm and join words, 0x50 to 0x54 (R73). -/
def decodeWeight (op n : Nat) : Except DecodeError Instr :=
  match op with
  | 0x50 =>
      if bitsAt n 0 6 = 0 ∧ bitsAt n 19 2 = 0 then (VB.ofBits n).elim (.error .badForm) fun b => .ok (.wsoft (reg2 n 21) (reg3 n 16) (reg5 n 11) b) else
      if bitsAt n 0 6 = 1 ∧ bitsAt n 9 2 = 0 ∧ bitsAt n 23 2 = 0 then .ok (.wsoftg (reg2 n 21) (reg5 n 16) (reg5 n 11) (reg3 n 6)) else
      rejectFields op n
  | 0x51 =>
      if bitsAt n 0 11 = 0 ∧ bitsAt n 19 2 = 0 ∧ bitsAt n 23 2 = 0 then .ok (.wfromv (reg2 n 21) (reg3 n 16) (reg5 n 11)) else
      if bitsAt n 0 11 = 1 ∧ bitsAt n 14 2 = 0 ∧ bitsAt n 23 2 = 0 then .ok (.wtov (reg2 n 21) (reg5 n 16) (reg3 n 11)) else
      if bitsAt n 0 11 = 2 ∧ bitsAt n 14 2 = 0 ∧ bitsAt n 19 2 = 0 ∧ bitsAt n 23 2 = 0 then .ok (.wnot (reg2 n 21) (reg3 n 16) (reg3 n 11)) else
      if bitsAt n 0 6 = 3 ∧ bitsAt n 9 2 = 0 ∧ bitsAt n 14 2 = 0 ∧ bitsAt n 19 2 = 0 ∧ bitsAt n 23 2 = 0 then .ok (.wmul (reg2 n 21) (reg3 n 16) (reg3 n 11) (reg3 n 6)) else
      if bitsAt n 0 11 = 4 ∧ bitsAt n 14 2 = 0 ∧ bitsAt n 19 2 = 0 ∧ bitsAt n 23 2 = 0 then .ok (.wmov (reg2 n 21) (reg3 n 16) (reg3 n 11)) else
      if bitsAt n 0 6 = 5 ∧ bitsAt n 19 2 = 0 ∧ bitsAt n 23 2 = 1 then .ok (.wdrop (reg2 n 21) (reg3 n 16) (reg5 n 11) (reg5 n 6)) else
      rejectFields op n
  | 0x52 =>
      if bitsAt n 15 5 = 0 then if bodyOffOk (BitVec.ofNat 15 n) then .ok (.arm (reg2 n 23) (reg3 n 20) (BitVec.ofNat 15 n)) else .error .badOffset else
      rejectFields op n
  | 0x53 =>
      if bitsAt n 3 3 = 0 ∧ bitsAt n 23 2 = 0 then .ok (.blend (reg2 n 21) (reg5 n 16) (reg5 n 11) (reg5 n 6) (reg3 n 0)) else
      if bitsAt n 3 3 = 1 ∧ bitsAt n 23 2 = 0 then if bitsAt n 16 5 = bitsAt n 6 5 then .error .equalFields else .ok (.bacc (reg2 n 21) (reg5 n 16) (reg5 n 11) (reg5 n 6) (reg3 n 0)) else
      if bitsAt n 0 6 = 16 ∧ bitsAt n 23 2 = 0 then .ok (.bnorm (reg2 n 21) (reg5 n 16) (reg5 n 11) (reg5 n 6)) else
      if bitsAt n 3 3 = 3 ∧ bitsAt n 23 2 = 0 then .ok (.bgrad (reg2 n 21) (reg5 n 16) (reg5 n 11) (reg5 n 6) (reg3 n 0)) else
      rejectFields op n
  | 0x54 =>
      if bodyOffOk (BitVec.ofNat 15 n) then .ok (.wloop (reg2 n 23) (reg3 n 20) (reg5 n 15) (BitVec.ofNat 15 n)) else .error .badOffset
  | _ => .error .unassignedOpcode

/-- Vector memory words, 0x58 to 0x5E (R73). -/
def decodeVMem (op n : Nat) : Except DecodeError Instr :=
  match op with
  | 0x58 =>
      if bitsAt n 0 10 = 0 ∧ bitsAt n 12 3 = 0 then .ok (.setvl (reg5 n 20) (reg5 n 15) (reg2 n 10)) else
      rejectFields op n
  | 0x59 =>
      if bitsAt n 0 11 = 0 ∧ bitsAt n 23 2 = 0 then .ok (.vld (reg2 n 21) (reg5 n 16) (reg5 n 11)) else
      if bitsAt n 0 6 = 1 ∧ bitsAt n 23 2 = 0 then .ok (.vlds (reg2 n 21) (reg5 n 16) (reg5 n 11) (reg5 n 6)) else
      if bitsAt n 0 6 = 2 ∧ bitsAt n 23 2 = 0 then .ok (.vldx (reg2 n 21) (reg5 n 16) (reg5 n 11) (reg5 n 6)) else
      rejectFields op n
  | 0x5A =>
      if bitsAt n 0 11 = 0 ∧ bitsAt n 23 2 = 0 then .ok (.vst (reg2 n 21) (reg5 n 16) (reg5 n 11)) else
      if bitsAt n 0 6 = 1 ∧ bitsAt n 23 2 = 0 then .ok (.vsts (reg2 n 21) (reg5 n 16) (reg5 n 11) (reg5 n 6)) else
      if bitsAt n 0 6 = 2 ∧ bitsAt n 23 2 = 0 then .ok (.vstx (reg2 n 21) (reg5 n 16) (reg5 n 11) (reg5 n 6)) else
      rejectFields op n
  | 0x5B =>
      if bitsAt n 5 1 = 0 ∧ bitsAt n 23 2 = 0 then decodeVstw n else
      rejectFields op n
  | 0x5C =>
      if bitsAt n 3 8 = 0 ∧ bitsAt n 23 2 = 0 then .ok (.vqst (reg2 n 21) (reg5 n 16) (reg5 n 11) (reg3 n 0)) else
      rejectFields op n
  | 0x5D =>
      if bitsAt n 3 8 = 0 ∧ bitsAt n 23 2 = 0 then .ok (.vldq (reg2 n 21) (reg5 n 16) (reg5 n 11) (reg3 n 0)) else
      rejectFields op n
  | 0x5E =>
      if bitsAt n 0 15 = 0 ∧ bitsAt n 23 2 = 0 then .ok (.vlrec (reg3 n 20) (reg5 n 15)) else
      rejectFields op n
  | _ => .error .unassignedOpcode

/-- Matrix words, 0x60 to 0x66 (R73). -/
def decodeMatrix (op n : Nat) : Except DecodeError Instr :=
  match op with
  | 0x60 =>
      if bitsAt n 15 10 = 0 then .ok (.mshape (bitsAt n 14 1 == 1) (Fin.ofNat 128 (n / 2 ^ 7)) (Fin.ofNat 128 n)) else
      rejectFields op n
  | 0x61 =>
      if bitsAt n 0 16 = 0 ∧ bitsAt n 18 3 = 0 ∧ bitsAt n 23 2 = 0 then .ok (.mzero (reg2 n 21) (reg2 n 16)) else
      if bitsAt n 0 16 = 1 ∧ bitsAt n 18 3 = 0 ∧ bitsAt n 23 2 = 0 then .ok (.mtrn (reg2 n 21) (reg2 n 16)) else
      rejectFields op n
  | 0x62 =>
      if bitsAt n 0 6 = 0 ∧ bitsAt n 18 3 = 0 ∧ bitsAt n 23 2 = 0 then .ok (.mopa (reg2 n 21) (reg2 n 16) (reg5 n 11) (reg5 n 6)) else
      rejectFields op n
  | 0x63 =>
      if bitsAt n 0 6 = 0 ∧ bitsAt n 18 3 = 0 ∧ bitsAt n 23 2 = 0 then .ok (.mopaq (reg2 n 21) (reg2 n 16) (reg5 n 11) (reg5 n 6)) else
      rejectFields op n
  | 0x64 =>
      if bitsAt n 18 3 = 0 ∧ bitsAt n 23 2 = 0 then .ok (.mgath (reg2 n 21) (reg2 n 16) (reg5 n 11) (reg5 n 6) (reg3 n 3) (reg3 n 0)) else
      rejectFields op n
  | 0x65 =>
      if bitsAt n 0 6 = 0 ∧ bitsAt n 18 3 = 0 ∧ bitsAt n 23 2 = 0 then .ok (.mscale (reg2 n 21) (reg2 n 16) (reg5 n 11) (reg5 n 6)) else
      rejectFields op n
  | 0x66 =>
      if bitsAt n 0 6 = 0 ∧ bitsAt n 13 3 = 0 ∧ bitsAt n 23 2 = 1 then .ok (.mcolr (reg2 n 21) (reg5 n 16) (reg2 n 11) (reg5 n 6)) else
      if bitsAt n 0 6 = 1 ∧ bitsAt n 18 3 = 0 ∧ bitsAt n 23 2 = 1 then .ok (.mcolw (reg2 n 21) (reg2 n 16) (reg5 n 11) (reg5 n 6)) else
      if bitsAt n 0 6 = 2 ∧ bitsAt n 13 3 = 0 ∧ bitsAt n 23 2 = 1 then .ok (.mrowr (reg2 n 21) (reg5 n 16) (reg2 n 11) (reg5 n 6)) else
      if bitsAt n 0 6 = 3 ∧ bitsAt n 18 3 = 0 ∧ bitsAt n 23 2 = 1 then .ok (.mroww (reg2 n 21) (reg2 n 16) (reg5 n 11) (reg5 n 6)) else
      rejectFields op n
  | _ => .error .unassignedOpcode

/-- Cluster, engine, stream and fabric words, 0x68 to 0x7B (R73). -/
def decodeFabric (op n : Nat) : Except DecodeError Instr :=
  match op with
  | 0x68 =>
      if bitsAt n 0 11 = 0 ∧ bitsAt n 23 2 = 0 then .ok (.vldc (reg2 n 21) (reg5 n 16) (reg5 n 11)) else
      rejectFields op n
  | 0x69 =>
      if bitsAt n 0 11 = 0 ∧ bitsAt n 23 2 = 0 then .ok (.vstc (reg2 n 21) (reg5 n 16) (reg5 n 11)) else
      rejectFields op n
  | 0x6A =>
      if bitsAt n 0 6 = 0 ∧ bitsAt n 23 2 = 0 then .ok (.vstm (reg2 n 21) (reg5 n 16) (reg5 n 11) (reg5 n 6)) else
      rejectFields op n
  | 0x6B =>
      if bitsAt n 0 10 = 0 then .ok (.amoadd (reg5 n 20) (reg5 n 15) (reg5 n 10)) else
      if bitsAt n 0 10 = 1 then .ok (.amomin (reg5 n 20) (reg5 n 15) (reg5 n 10)) else
      if bitsAt n 0 10 = 2 then .ok (.amomax (reg5 n 20) (reg5 n 15) (reg5 n 10)) else
      if bitsAt n 0 10 = 3 then .ok (.amoor (reg5 n 20) (reg5 n 15) (reg5 n 10)) else
      if bitsAt n 0 10 = 4 then .ok (.amoxchg (reg5 n 20) (reg5 n 15) (reg5 n 10)) else
      if bitsAt n 0 10 = 5 then .ok (.amocas (reg5 n 20) (reg5 n 15) (reg5 n 10)) else
      rejectFields op n
  | 0x6C =>
      if bitsAt n 0 6 = 0 ∧ bitsAt n 23 2 = 0 then .ok (.vamoadd (reg2 n 21) (reg5 n 16) (reg5 n 11) (reg5 n 6)) else
      rejectFields op n
  | 0x70 =>
      if bitsAt n 20 5 = 0 then if bitsAt n 0 15 < 8 then .ok (.rkset (reg3 n 0) (reg5 n 15)) else .error .badImmediate else
      rejectFields op n
  | 0x71 =>
      if bitsAt n 0 15 = 0 then .ok (.rkgo (reg5 n 20) (reg5 n 15)) else
      rejectFields op n
  | 0x72 =>
      if bitsAt n 0 10 = 0 ∧ bitsAt n 20 5 = 0 then .ok (.pcard (reg5 n 15) (reg5 n 10)) else
      if bitsAt n 0 10 = 1 ∧ bitsAt n 20 5 = 0 then .ok (.psel (reg5 n 15) (reg5 n 10)) else
      if bitsAt n 0 10 = 2 ∧ bitsAt n 20 5 = 0 then .ok (.pdisp (reg5 n 15) (reg5 n 10)) else
      if bitsAt n 0 10 = 3 ∧ bitsAt n 20 5 = 0 then .ok (.pcomb (reg5 n 15) (reg5 n 10)) else
      rejectFields op n
  | 0x73 =>
      if bitsAt n 0 10 = 0 ∧ bitsAt n 20 5 = 0 then .ok (.flaunch (reg5 n 15) (reg5 n 10)) else
      rejectFields op n
  | 0x74 =>
      if bitsAt n 0 10 = 0 ∧ bitsAt n 20 5 = 0 then .ok (.bgath (reg5 n 15) (reg5 n 10)) else
      if bitsAt n 0 10 = 1 ∧ bitsAt n 20 5 = 0 then .ok (.bscat (reg5 n 15) (reg5 n 10)) else
      if bitsAt n 0 10 = 2 ∧ bitsAt n 20 5 = 0 then .ok (.bstride (reg5 n 15) (reg5 n 10)) else
      if bitsAt n 0 15 = 3 ∧ bitsAt n 20 5 = 0 then .ok (.preq (reg5 n 15)) else
      rejectFields op n
  | 0x78 =>
      if bitsAt n 0 10 = 0 ∧ bitsAt n 20 5 = 0 then .ok (.tsend (reg5 n 15) (reg5 n 10)) else
      rejectFields op n
  | 0x79 =>
      if bitsAt n 0 11 = 0 ∧ bitsAt n 23 2 = 0 then .ok (.tsendv (reg2 n 21) (reg5 n 16) (reg5 n 11)) else
      rejectFields op n
  | 0x7A =>
      if bitsAt n 0 15 = 0 ∧ bitsAt n 20 5 = 0 then .ok (.drift (reg5 n 15)) else
      if bitsAt n 0 25 = 1 then .ok .stepinc else
      rejectFields op n
  | 0x7B =>
      if bitsAt n 6 19 = 0 then .ok (.rel (Fin.ofNat 64 n)) else
      rejectFields op n
  | _ => .error .unassignedOpcode

/-- One word as a number (R73). -/
def decodeNat (n : Nat) : Except DecodeError Instr :=
  let op := bitsAt n 25 7
  if op < 0x30 then decodeScalar op n
  else if op < 0x50 then decodeLane op n
  else if op < 0x58 then decodeWeight op n
  else if op < 0x60 then decodeVMem op n
  else if op < 0x68 then decodeMatrix op n
  else decodeFabric op n

/-- The decoder on one word. -/
def decodeWord (w : Word) : Except DecodeError Instr := decodeNat w.toNat

/-- The word of four bytes, lowest address first (R8). -/
def wordOfBytes (b0 b1 b2 b3 : Byte) : Word :=
  BitVec.ofNat 32 (b0.toNat + b1.toNat * 2 ^ 8 + b2.toNat * 2 ^ 16 + b3.toNat * 2 ^ 24)

/-- The four bytes of a word, lowest address first (R8). -/
def bytesOfWord (w : Word) : List Byte :=
  [BitVec.ofNat 8 w.toNat, BitVec.ofNat 8 (w.toNat / 2 ^ 8), BitVec.ofNat 8 (w.toNat / 2 ^ 16),
    BitVec.ofNat 8 (w.toNat / 2 ^ 24)]

/-- The decoder on bytes: the instruction and the bytes after it. Every instruction is four bytes (R62). -/
def decode : List Byte → Except DecodeError (Instr × List Byte)
  | b0 :: b1 :: b2 :: b3 :: rest =>
    match decodeWord (wordOfBytes b0 b1 b2 b3) with
    | .ok i => .ok (i, rest)
    | .error e => .error e
  | _ => .error .truncated

/-- The instruction that the decoder reads from an instruction whose bits are `w`, numbered as the opcode table
numbers them. Every row with a word has 32 bits; bits above `nbits` are zero. -/
def decodeTableWord (nbits w : Nat) : Option Instr :=
  match decode (bytesOfWord (BitVec.ofNat 32 (w % 2 ^ nbits))) with
  | .ok (i, _) => some i
  | .error _ => none

/-- Scalar, control and scalar memory words, 0x01 to 0x29: the word's number (R73). -/
def encodeScalar : Instr → Option Nat
  | .addw d a b => some (0x02000000 + put d.val 20 + put a.val 15 + put b.val 10)
  | .subw d a b => some (0x02000001 + put d.val 20 + put a.val 15 + put b.val 10)
  | .andw d a b => some (0x02000002 + put d.val 20 + put a.val 15 + put b.val 10)
  | .orw d a b => some (0x02000003 + put d.val 20 + put a.val 15 + put b.val 10)
  | .xorw d a b => some (0x02000004 + put d.val 20 + put a.val 15 + put b.val 10)
  | .sll d a b => some (0x02000005 + put d.val 20 + put a.val 15 + put b.val 10)
  | .srl d a b => some (0x02000006 + put d.val 20 + put a.val 15 + put b.val 10)
  | .sra d a b => some (0x02000007 + put d.val 20 + put a.val 15 + put b.val 10)
  | .slt d a b => some (0x02000008 + put d.val 20 + put a.val 15 + put b.val 10)
  | .sltu d a b => some (0x02000009 + put d.val 20 + put a.val 15 + put b.val 10)
  | .mulw d a b => some (0x0200000A + put d.val 20 + put a.val 15 + put b.val 10)
  | .mulh d a b => some (0x0200000B + put d.val 20 + put a.val 15 + put b.val 10)
  | .mulhu d a b => some (0x0200000C + put d.val 20 + put a.val 15 + put b.val 10)
  | .divw d a b => some (0x0200000D + put d.val 20 + put a.val 15 + put b.val 10)
  | .divu d a b => some (0x0200000E + put d.val 20 + put a.val 15 + put b.val 10)
  | .remw d a b => some (0x0200000F + put d.val 20 + put a.val 15 + put b.val 10)
  | .minw d a b => some (0x02000010 + put d.val 20 + put a.val 15 + put b.val 10)
  | .maxw d a b => some (0x02000011 + put d.val 20 + put a.val 15 + put b.val 10)
  | .addi d a i => some (0x04000000 + put d.val 20 + put a.val 15 + i.toNat)
  | .andi d a i => some (0x06000000 + put d.val 20 + put a.val 15 + i.toNat)
  | .ori d a i => some (0x08000000 + put d.val 20 + put a.val 15 + i.toNat)
  | .xori d a i => some (0x0A000000 + put d.val 20 + put a.val 15 + i.toNat)
  | .slti d a i => some (0x0C000000 + put d.val 20 + put a.val 15 + i.toNat)
  | .slli d a h => some (0x0E000000 + put d.val 20 + put a.val 15 + h.val)
  | .srli d a h => some (0x10000000 + put d.val 20 + put a.val 15 + h.val)
  | .srai d a h => some (0x12000000 + put d.val 20 + put a.val 15 + h.val)
  | .lui d i => some (0x14000000 + put d.val 20 + i.toNat)
  | .beq a b o => some (0x20000000 + put a.val 20 + put b.val 15 + o.toNat)
  | .bne a b o => some (0x22000000 + put a.val 20 + put b.val 15 + o.toNat)
  | .blt a b o => some (0x24000000 + put a.val 20 + put b.val 15 + o.toNat)
  | .bge a b o => some (0x26000000 + put a.val 20 + put b.val 15 + o.toNat)
  | .bltu a b o => some (0x28000000 + put a.val 20 + put b.val 15 + o.toNat)
  | .bgeu a b o => some (0x2A000000 + put a.val 20 + put b.val 15 + o.toNat)
  | .jal d o => some (0x2C000000 + put d.val 20 + o.toNat)
  | .jalr d a i => some (0x2E000000 + put d.val 20 + put a.val 15 + i.toNat)
  | .loopw a o => some (0x30000000 + put a.val 20 + o.toNat)
  | .loopi n o => some (0x32000000 + put n.toNat 15 + o.toNat)
  | .nop => some (0x34000000)
  | .fend => some (0x34000001)
  | .rstp => some (0x34000002)
  | .tret => some (0x34000003)
  | .trap i => some (0x36000000 + i.toNat)
  | .mode k body => some (0x38000000 + put k.val 23 + body.toNat)
  | .modeScalar k a => some (0x3A000000 + put k.val 20 + put a.val 15)
  | .idle n => some (0x3C000000 + n.toNat)
  | .sysr d r => some (0x3E000000 + put d.val 20 + r.toNat)
  | .sysw r a => some (0x3E004000 + put a.val 15 + r.toNat)
  | .ldd d a i => some (0x40000000 + put d.val 20 + put a.val 15 + i.toNat)
  | .ldw d a i => some (0x42000000 + put d.val 20 + put a.val 15 + i.toNat)
  | .ldh d a i => some (0x44000000 + put d.val 20 + put a.val 15 + i.toNat)
  | .ldb d a i => some (0x46000000 + put d.val 20 + put a.val 15 + i.toNat)
  | .std d a i => some (0x48000000 + put d.val 20 + put a.val 15 + i.toNat)
  | .stw d a i => some (0x4A000000 + put d.val 20 + put a.val 15 + i.toNat)
  | .sth d a i => some (0x4C000000 + put d.val 20 + put a.val 15 + i.toNat)
  | .stb d a i => some (0x4E000000 + put d.val 20 + put a.val 15 + i.toNat)
  | .tlook d a => some (0x50000000 + put d.val 20 + put a.val 15)
  | .tset a b => some (0x50000001 + put a.val 15 + put b.val 10)
  | .tclr a => some (0x50000002 + put a.val 15)
  | .mbr d n => some (0x52000000 + put d.val 20 + n.val)
  | _ => none

/-- Lane words, 0x30 to 0x48: the word's number (R73). -/
def encodeLane : Instr → Option Nat
  | .vadd m d a b => some (0x60000000 + put m.val 21 + put d.val 16 + put a.val 11 + b.bits)
  | .vsub m d a b => some (0x62000000 + put m.val 21 + put d.val 16 + put a.val 11 + b.bits)
  | .vmul m d a b => some (0x64000000 + put m.val 21 + put d.val 16 + put a.val 11 + b.bits)
  | .vfma m d a b => some (0x66000000 + put m.val 21 + put d.val 16 + put a.val 11 + b.bits)
  | .vfms m d a b => some (0x68000000 + put m.val 21 + put d.val 16 + put a.val 11 + b.bits)
  | .vnfma m d a b => some (0x6A000000 + put m.val 21 + put d.val 16 + put a.val 11 + b.bits)
  | .vmin m d a b => some (0x6C000000 + put m.val 21 + put d.val 16 + put a.val 11 + b.bits)
  | .vmax m d a b => some (0x6E000000 + put m.val 21 + put d.val 16 + put a.val 11 + b.bits)
  | .vabs m d a => some (0x70000000 + put m.val 21 + put d.val 16 + put a.val 11)
  | .vneg m d a => some (0x70000001 + put m.val 21 + put d.val 16 + put a.val 11)
  | .vrcp m d a => some (0x70000002 + put m.val 21 + put d.val 16 + put a.val 11)
  | .vrsq m d a => some (0x70000003 + put m.val 21 + put d.val 16 + put a.val 11)
  | .vsqrt m d a => some (0x70000004 + put m.val 21 + put d.val 16 + put a.val 11)
  | .vpopc m d a => some (0x70000005 + put m.val 21 + put d.val 16 + put a.val 11)
  | .vclz m d a => some (0x70000006 + put m.val 21 + put d.val 16 + put a.val 11)
  | .vand m d a b => some (0x72000000 + put m.val 21 + put d.val 16 + put a.val 11 + b.bits)
  | .vor m d a b => some (0x74000000 + put m.val 21 + put d.val 16 + put a.val 11 + b.bits)
  | .vxor m d a b => some (0x76000000 + put m.val 21 + put d.val 16 + put a.val 11 + b.bits)
  | .vshl m d a b => some (0x78000000 + put m.val 21 + put d.val 16 + put a.val 11 + b.bits)
  | .vshr m d a b => some (0x7A000000 + put m.val 21 + put d.val 16 + put a.val 11 + b.bits)
  | .vsra m d a b => some (0x7C000000 + put m.val 21 + put d.val 16 + put a.val 11 + b.bits)
  | .vmulh m d a b => some (0x7E000000 + put m.val 21 + put d.val 16 + put a.val 11 + b.bits)
  | .vceq m d a b => some (0x80000000 + put m.val 21 + put d.val 16 + put a.val 11 + b.bits)
  | .vclt m d a b => some (0x80000001 + put m.val 21 + put d.val 16 + put a.val 11 + b.bits)
  | .vcle m d a b => some (0x80000002 + put m.val 21 + put d.val 16 + put a.val 11 + b.bits)
  | .vcvt m d a u => some (0x82000000 + put m.val 21 + put d.val 16 + put a.val 11 + u.code)
  | .vredsum m d a => some (0x84000000 + put m.val 21 + put d.val 16 + put a.val 11)
  | .vredmax m d a => some (0x84000001 + put m.val 21 + put d.val 16 + put a.val 11)
  | .vredmin m d a => some (0x84000002 + put m.val 21 + put d.val 16 + put a.val 11)
  | .vsegsum m d a b => some (0x86000000 + put m.val 21 + put d.val 16 + put a.val 11 + put b.val 6)
  | .vsegredMax m d a b => some (0x86000001 + put m.val 21 + put d.val 16 + put a.val 11 + put b.val 6)
  | .vsegredMin m d a b => some (0x86000002 + put m.val 21 + put d.val 16 + put a.val 11 + put b.val 6)
  | .vperm m d a b => some (0x88000000 + put m.val 21 + put d.val 16 + put a.val 11 + put b.val 6)
  | .vslide m d a k => some (0x88000001 + put m.val 21 + put d.val 16 + put a.val 11 + k.bits)
  | .vins m d a b => some (0x88800002 + put m.val 21 + put d.val 16 + put a.val 11 + put b.val 6)
  | .vext m d a b => some (0x88800003 + put m.val 21 + put d.val 16 + put a.val 11 + put b.val 6)
  | .vmov m d a => some (0x88000004 + put m.val 21 + put d.val 16 + put a.val 11)
  | .vmovScalar m d b => some (0x88800004 + put m.val 21 + put d.val 16 + put b.val 6)
  | .vrng m d a b => some (0x8A000000 + put m.val 21 + put d.val 16 + put a.val 11 + put b.val 6)
  | .vpfx m d a b => some (0x8C000000 + put m.val 21 + put d.val 16 + put a.val 11 + put b.val 6)
  | .vxsect m d a b => some (0x8C000001 + put m.val 21 + put d.val 16 + put a.val 11 + put b.val 6)
  | .vcomp m d a b => some (0x8C000002 + put m.val 21 + put d.val 16 + put a.val 11 + put b.val 6)
  | .vexpd m d a b => some (0x8C000003 + put m.val 21 + put d.val 16 + put a.val 11 + put b.val 6)
  | .vtbl m d a t => some (0x8E000000 + put m.val 21 + put d.val 16 + put a.val 11 + t.val)
  | .vtld m a t => some (0x90000000 + put m.val 21 + put a.val 11 + t.val)
  | _ => none

/-- Weight, arm and join words, 0x50 to 0x54: the word's number (R73). -/
def encodeWeight : Instr → Option Nat
  | .wsoft m d a b => some (0xA0000000 + put m.val 21 + put d.val 16 + put a.val 11 + b.bits)
  | .wsoftg m d a b => some (0xA0000001 + put m.val 21 + put d.val 16 + put a.val 11 + put b.val 6)
  | .wfromv m d a => some (0xA2000000 + put m.val 21 + put d.val 16 + put a.val 11)
  | .wtov m d a => some (0xA2000001 + put m.val 21 + put d.val 16 + put a.val 11)
  | .wnot m d a => some (0xA2000002 + put m.val 21 + put d.val 16 + put a.val 11)
  | .wmul m d a b => some (0xA2000003 + put m.val 21 + put d.val 16 + put a.val 11 + put b.val 6)
  | .wmov m d a => some (0xA2000004 + put m.val 21 + put d.val 16 + put a.val 11)
  | .wdrop m d a b => some (0xA2800005 + put m.val 21 + put d.val 16 + put a.val 11 + put b.val 6)
  | .arm m w o => some (0xA4000000 + put m.val 23 + put w.val 20 + o.toNat)
  | .blend m d a b k => some (0xA6000000 + put m.val 21 + put d.val 16 + put a.val 11 + put b.val 6 + k.val)
  | .bacc m d a b k => some (0xA6000008 + put m.val 21 + put d.val 16 + put a.val 11 + put b.val 6 + k.val)
  | .bnorm m d a b => some (0xA6000010 + put m.val 21 + put d.val 16 + put a.val 11 + put b.val 6)
  | .bgrad m d a b k => some (0xA6000018 + put m.val 21 + put d.val 16 + put a.val 11 + put b.val 6 + k.val)
  | .wloop m w a o => some (0xA8000000 + put m.val 23 + put w.val 20 + put a.val 15 + o.toNat)
  | _ => none

/-- Vector memory words, 0x58 to 0x5E: the word's number (R73). -/
def encodeVMem : Instr → Option Nat
  | .setvl d a k => some (0xB0000000 + put d.val 20 + put a.val 15 + put k.val 10)
  | .vld m d a => some (0xB2000000 + put m.val 21 + put d.val 16 + put a.val 11)
  | .vlds m d a b => some (0xB2000001 + put m.val 21 + put d.val 16 + put a.val 11 + put b.val 6)
  | .vldx m d a b => some (0xB2000002 + put m.val 21 + put d.val 16 + put a.val 11 + put b.val 6)
  | .vst m d a => some (0xB4000000 + put m.val 21 + put d.val 16 + put a.val 11)
  | .vsts m d a b => some (0xB4000001 + put m.val 21 + put d.val 16 + put a.val 11 + put b.val 6)
  | .vstx m d a b => some (0xB4000002 + put m.val 21 + put d.val 16 + put a.val 11 + put b.val 6)
  | .vstw m d a x k => some (0xB6000000 + put m.val 21 + put d.val 16 + put a.val 11 + x.bits + put k.val 2)
  | .vqst m d a l => some (0xB8000000 + put m.val 21 + put d.val 16 + put a.val 11 + l.val)
  | .vldq m d a l => some (0xBA000000 + put m.val 21 + put d.val 16 + put a.val 11 + l.val)
  | .vlrec d a => some (0xBC000000 + put d.val 20 + put a.val 15)
  | _ => none

/-- Matrix words, 0x60 to 0x66: the word's number (R73). -/
def encodeMatrix : Instr → Option Nat
  | .mshape kb n m => some (0xC0000000 + (if kb then 2 ^ 14 else 0) + put n.val 7 + m.val)
  | .mzero m d => some (0xC2000000 + put m.val 21 + put d.val 16)
  | .mtrn m d => some (0xC2000001 + put m.val 21 + put d.val 16)
  | .mopa m d a b => some (0xC4000000 + put m.val 21 + put d.val 16 + put a.val 11 + put b.val 6)
  | .mopaq m d a b => some (0xC6000000 + put m.val 21 + put d.val 16 + put a.val 11 + put b.val 6)
  | .mgath m d a b lb la => some (0xC8000000 + put m.val 21 + put d.val 16 + put a.val 11 + put b.val 6 + put lb.val 3 + la.val)
  | .mscale m d a b => some (0xCA000000 + put m.val 21 + put d.val 16 + put a.val 11 + put b.val 6)
  | .mcolr m d a b => some (0xCC800000 + put m.val 21 + put d.val 16 + put a.val 11 + put b.val 6)
  | .mcolw m d a b => some (0xCC800001 + put m.val 21 + put d.val 16 + put a.val 11 + put b.val 6)
  | .mrowr m d a b => some (0xCC800002 + put m.val 21 + put d.val 16 + put a.val 11 + put b.val 6)
  | .mroww m d a b => some (0xCC800003 + put m.val 21 + put d.val 16 + put a.val 11 + put b.val 6)
  | _ => none

/-- Cluster, engine, stream and fabric words, 0x68 to 0x7B: the word's number (R73). -/
def encodeFabric : Instr → Option Nat
  | .vldc m d a => some (0xD0000000 + put m.val 21 + put d.val 16 + put a.val 11)
  | .vstc m d a => some (0xD2000000 + put m.val 21 + put d.val 16 + put a.val 11)
  | .vstm m d a b => some (0xD4000000 + put m.val 21 + put d.val 16 + put a.val 11 + put b.val 6)
  | .amoadd d a b => some (0xD6000000 + put d.val 20 + put a.val 15 + put b.val 10)
  | .amomin d a b => some (0xD6000001 + put d.val 20 + put a.val 15 + put b.val 10)
  | .amomax d a b => some (0xD6000002 + put d.val 20 + put a.val 15 + put b.val 10)
  | .amoor d a b => some (0xD6000003 + put d.val 20 + put a.val 15 + put b.val 10)
  | .amoxchg d a b => some (0xD6000004 + put d.val 20 + put a.val 15 + put b.val 10)
  | .amocas d a b => some (0xD6000005 + put d.val 20 + put a.val 15 + put b.val 10)
  | .vamoadd m d a b => some (0xD8000000 + put m.val 21 + put d.val 16 + put a.val 11 + put b.val 6)
  | .rkset r a => some (0xE0000000 + r.val + put a.val 15)
  | .rkgo d a => some (0xE2000000 + put d.val 20 + put a.val 15)
  | .pcard a b => some (0xE4000000 + put a.val 15 + put b.val 10)
  | .psel a b => some (0xE4000001 + put a.val 15 + put b.val 10)
  | .pdisp a b => some (0xE4000002 + put a.val 15 + put b.val 10)
  | .pcomb a b => some (0xE4000003 + put a.val 15 + put b.val 10)
  | .flaunch a b => some (0xE6000000 + put a.val 15 + put b.val 10)
  | .bgath a b => some (0xE8000000 + put a.val 15 + put b.val 10)
  | .bscat a b => some (0xE8000001 + put a.val 15 + put b.val 10)
  | .bstride a b => some (0xE8000002 + put a.val 15 + put b.val 10)
  | .preq a => some (0xE8000003 + put a.val 15)
  | .tsend a b => some (0xF0000000 + put a.val 15 + put b.val 10)
  | .tsendv m d a => some (0xF2000000 + put m.val 21 + put d.val 16 + put a.val 11)
  | .drift a => some (0xF4000000 + put a.val 15)
  | .stepinc => some (0xF4000001)
  | .rel k => some (0xF6000000 + k.val)
  | _ => none

/-- The number of the word of an instruction, from the opcode map (R63, R73); events have no word. -/
def encodeNat (i : Instr) : Option Nat :=
  (encodeScalar i).or <| (encodeLane i).or <| (encodeWeight i).or <| (encodeVMem i).or <|
    (encodeMatrix i).or (encodeFabric i)

/-- The word of an instruction, for the rows of the table that have one. -/
def encode (i : Instr) : Option Word := (encodeNat i).map (BitVec.ofNat 32)

end Sys2Proof
end

