-- ==== Sys2Proof/Machine/Issue.lean ====
section
/-! DEFINITION. Whose turn it is and what its slot holds (R5, R25, R76, R150, R301, R302): the next core, the word it
issues, and the placing of a program for a run that starts at a given word (log 2). -/

namespace Sys2Proof.Machine

/-- The word of `rstp` (R177). -/
def rstpWord : Word := 0x34000002

/-- Whether words of a package issue in its cycle: it has power and its cycle is not held before its words (R19). -/
def State.clocked (s : State) (i : Nat) : Bool :=
  match s.pkgs[i]? with
  | some p => p.powered && !p.stalled
  | none => false

/-- Whether a core has a slot to take in the current cycle: its folio runs and has not reached its stop cycle, it has
not ended and no trap has stopped it, and either its next word issues now or a restart line falls in its empty slots
(R25, R150, R176, R301, R302). -/
def State.ready (s : State) (c : Core) : Bool :=
  match s.folio? c.id.folio with
  | none => false
  | some f =>
    let now := s.nowAt c
    f.phase == .running && s.clocked c.phys && decide (f.start ≤ now) && !c.fended && c.lastIssue != some now &&
      (match f.stop with | some t => decide (now < t.y) | none => true) &&
      (match c.haltAt with | some h => decide (now < h) | none => true) &&
      (c.issueAt == now || (decide (now < c.issueAt) && f.listed (now - f.start)))

/-- Whether a core comes before another in a cycle: by folio, then by rank (R114). -/
def State.before (s : State) (a b : Core) : Bool :=
  if a.id.folio = b.id.folio then decide (rankIn (s.extOf a.id.folio) a.id < rankIn (s.extOf b.id.folio) b.id)
  else decide (a.id.folio < b.id.folio)

/-- The first of a list of cores. -/
def State.firstOf (s : State) : List Core → Option Core
  | [] => none
  | c :: r =>
    match s.firstOf r with
    | none => some c
    | some d => if s.before d c then some d else some c

/-- The core whose turn it is. -/
def State.nextCore (s : State) : Option CoreId := (s.firstOf (s.cores.filter s.ready)).map (·.id)

/-- The list with the first core of an identity taken out. -/
def dropCore (id : CoreId) : List Core → List Core
  | [] => []
  | c :: r => if c.id = id then r else c :: dropCore id r

/-- The state with a core focused. -/
def State.focus (s : State) (id : CoreId) : State :=
  if s.core.id = id then s
  else
    match s.others.find? (fun c => c.id == id) with
    | none => s
    | some c => { s with core := c, others := s.core :: dropCore id s.others }

/-- A core's turn: it is focused, and if its word is the first of a later pass of a weighted loop, the live mask is
narrowed (R206). -/
def State.turn (s : State) (id : CoreId) : State :=
  let s := s.focus id
  if s.core.issueAt = s.now then { s with core := s.core.narrow } else s

/-- Whether the focused core's cycle is a listed restart line (R25). -/
def State.onLine (s : State) : Bool :=
  match s.folio? s.core.id.folio with
  | some f => f.listed s.cycle
  | none => false

/-- What the focused core's slot holds: an instruction, or nothing legal (R25, R74, R77): a listed line without `rstp`, an
empty slot on a listed line, or a word that is not an instruction. -/
def State.slot (s : State) : Option Instr :=
  if s.onLine && (s.core.issueAt != s.now || s.fetch != rstpWord) then none
  else
    match decodeWord s.fetch with
    | .ok i => some i
    | .error _ => none

/-- The launch record of a one-core folio that holds its Press and may issue 64 `flaunch` words (log 2). -/
def soloRecord : BitVec 2048 :=
  BitVec.ofNat 2048 (2 ^ (8 * 8) + 2 ^ (8 * 10) + 2 ^ (8 * 11) + 2 ^ (8 * 12) + 2 ^ (8 * 14)
    + 8 * 2 ^ (8 * 25) + 64 * 2 ^ (8 * 26))

/-- A running folio of one core at folio cycle 0 (log 2). -/
def soloFolio (id now : Nat) : Folio where
  id := id
  owner := 0
  record := soloRecord
  image := []
  restarts := []
  holds := true
  tvec := -1
  bind := [⟨0, [⟨0, [0]⟩]⟩]
  phase := .running
  start := now
  lead := 0
  stop := none
  line := 0
  marked := false
  replayInterval := false
  replays := 0
  rejects := 0
  rels := []
  step0 := 0
  stepAtLine := 0
  press := []
  pressAtLine := []
  rackers := []
  rackersAtLine := []
  launches := 0
  launchesAtLine := 0
  pending := []
  preempt := none

/-- A state that issues a word next: into the focused core's instruction memory when that core has its turn, otherwise
into a one-core folio set running on package 0, as the host's Post and a dispatch round would leave it (log 2). -/
def State.place (s : State) (w : Word) : State :=
  if s.nextCore = some s.core.id then
    { s with core := { s.core with imem := Cells.set s.core.imem s.core.pc.toNat w }, inputs := [], due := [] }
  else
    let now := s.sccOf 0
    let id := 1 + (match s.pkgs[0]? with | some p => p.lastId | none => 0)
    { s with
      core := { Core.launch ⟨id, 0, 0, 0, 0⟩ 0 0 0 now with imem := Cells.set [] 0 w }
      others := []
      pkgs := updAt (fun p => { p with powered := true, stalled := false, boot := .ready, lastId := id }) 0 s.pkgs
      folios := [soloFolio id now]
      inputs := []
      due := [] }

end Sys2Proof.Machine
end

