-- ==== Sys2Proof/Machine/Clock.lean ====
section
/-! DEFINITION. The clock (R16 to R19, R358): what a cycle brings about once its words have issued, how the tick and the schedule
cycle count move on, and the events that fall due in the new cycle, in their order (log 11). -/

namespace Sys2Proof.Machine

/-! ### What a cycle's words bring about -/

/-- Whether a folio ends now (R299): every core has issued `fend` and all its work has landed. Where a number that a rule quotes
for one program differs from this, R299 holds (log 86). -/
def State.ended (s : State) (f : Folio) : Bool :=
  f.phase == .running && !f.stopping &&
    (s.cores.all fun c => c.id.folio != f.id || c.fended) &&
    (s.jobs.all fun j => j.core.folio != f.id || s.over_ (s.folioNow f) j)

/-- Whether a folio stands at the line at which it is pre-empted, its `rstp` words issued (R307). -/
def State.preempted (s : State) (f : Folio) : Bool :=
  f.phase == .running && !f.stopping && s.clocked f.owner && decide (f.start ≤ s.folioNow f) &&
    (match f.preempt with | some (_, some l) => l == s.cycleOf f | _ => false)

/-- The first package, with its place, for which something is due. -/
def firstPkg (f : Nat → Package → Option Instr) : Nat → List Package → Option Instr
  | _, [] => none
  | i, p :: r => match f i p with | some x => some x | none => firstPkg f (i + 1) r

/-- A waiting Acquire whose seal is open (R329). -/
def Package.acquireDue (p : Package) (i : Nat) : Option Instr :=
  (p.acquires.find? fun k => p.seals[k].st == .opened).map fun k => .acquireComplete i k

/-- A translation change that waits while no folio holds the calendar (R317). -/
def State.changeDue (s : State) (i : Nat) (p : Package) : Option Instr :=
  if s.calendarFree i then p.changes.head?.map fun c => .translationChange i c.stack c.index else none

/-- A Dissolve that can complete (R337). -/
def State.dissolveDue (s : State) (i : Nat) (p : Package) : Option Instr :=
  if p.dissolving != 0 && s.groupIdle i then some (.dissolveComplete i) else none

/-- The rails of a package that has tripped fall once no folio is bound on it (R390). -/
def State.railsDue (s : State) (i : Nat) (p : Package) : Option Instr :=
  if p.powered && p.tripped && !s.inUse i then some (.powerLoss i) else none

/-- A bundle in verification, whose stage completes (R381). -/
def Package.verifyDue (p : Package) (i : Nat) : Option Instr :=
  if p.powered && p.boot == .verifying then p.bundle.map fun b => .loadFirmware i b else none

/-- Whether a folio stands in the stop cycle of a replay and another trap has come in that cycle: it ends (R302). -/
def State.stopsAfterAll (s : State) (f : Folio) : Bool :=
  match f.stop with
  | some t => f.phase == .restoring && t.y == s.folioNow f && t.traps.any fun r => r.cls != .timing
  | none => false

/-- A drift fault that the stamps of the cycle have brought about (R343, R345): the phase in force is that of all of them. -/
def Package.driftDue (p : Package) (i : Nat) : Option Instr := if p.powered && p.astray then some (.driftFault i) else none

/-- The events of the packages that a cycle has brought about, in order. -/
def State.latePkg (s : State) : Option Instr :=
  ((((firstPkg (fun i p => p.acquireDue i) 0 s.pkgs).or (firstPkg s.changeDue 0 s.pkgs)).or
    (firstPkg (fun i p => p.verifyDue i) 0 s.pkgs)).or (firstPkg s.dissolveDue 0 s.pkgs)).or (firstPkg s.railsDue 0 s.pkgs)

/-- What the cycle has brought about and is still to be done, before the clock moves on. -/
def State.lateEvent (s : State) : Option Instr :=
  (firstPkg (fun i p => p.driftDue i) 0 s.pkgs).or <|
    ((s.folios.find? s.stopsAfterAll).map fun f => .folioStop f.id).or <|
    ((s.folios.find? s.ended).map fun f => .folioEnd f.id).or <|
    ((s.folios.find? s.preempted).map fun f => .preEmption f.id).or s.latePkg

/-! ### The counters (R16 to R19, R356 to R358) -/

/-- Whether a hold is in force at a tick: from its first tick, until the tick of its end. -/
def Hold.inForce (h : Hold) (t : Nat) : Bool :=
  decide (h.from_ ≤ t) && (match h.until_ with | some u => decide (t < u) | none => true)

/-- Whether a hold that began before the next tick is in force in it. -/
def Package.heldNext (p : Package) : Bool := p.holds.any fun h => h.inForce (p.tick + 1) && decide (h.from_ ≤ p.tick)

/-- Whether the scc of a package advances at the next tick: its cycle has issued, no rest has ticks left, and after a rest no
hold that began before is in force (R358). -/
def Package.moves (p : Package) : Bool :=
  p.powered && ((p.restLeft == 1 && !p.heldNext) || (p.restLeft == 0 && !p.stalled))

/-- A package at the next tick. A tick of a rest counts the rest down; the scc stays at the rest's cycle until no hold that began
before is in force, and then moves on; a held cycle issues on the first tick without hold (R356 to R358). -/
def Package.ticked (p : Package) : Package :=
  if !p.powered then p
  else
    let t := p.tick + 1
    let q := { p with tick := t, holds := p.holds.filter fun h => match h.until_ with | some u => decide (t < u) | none => true }
    if 1 < p.restLeft then { q with restLeft := p.restLeft - 1, stalled := true }
    else if p.restLeft = 1 then
      if p.heldNext then { q with stalled := true } else { q with scc := p.scc + 1, stalled := false }
    else if p.stalled then { q with stalled := p.holds.any fun h => h.inForce t }
    else { q with scc := p.scc + 1 }

/-! ### The events of the new cycle -/

/-- A list of events when a condition holds. -/
def dueWhen (b : Bool) (i : Instr) : List Instr := if b then [i] else []

/-- The events of a package's tick, from what it was and what it is: rest and hold. -/
def tickEvents (old new : Package) (i : Nat) : List Instr :=
  let holding := new.holds.any fun h => h.from_ == new.tick
  dueWhen (old.powered && old.restLeft == 1 && old.moves) (.restEnd i) ++
    dueWhen (old.powered && holding) (.holdEffect i) ++
    dueWhen (old.powered && !new.stalled && !holding && new.rests.any fun r => r.at_ == new.scc) (.rest i)

/-- The events of a dispatch round (R293, R391, R395): fences and firmware first, then the round. -/
def State.roundEvents (s : State) (i : Nat) (p : Package) : List Instr :=
  if p.powered && p.boot == .ready && p.tick % 256 == 0 then
    ((List.finRange 4).flatMap fun d => dueWhen (p.fencing.contains d && !s.dieInUse i d.val) (.fenceEffect i d)) ++
      ((List.finRange 4).flatMap fun d => dueWhen (p.switching.contains d && !s.dieInUse i d.val) (.firmwareSwitch i d)) ++
      [.dispatchRound i]
  else []

/-- Translation changes whose line a package's holder has reached, in the order asked for (R317). -/
def State.lineChanges (s : State) (i : Nat) (p : Package) : List Instr :=
  if (s.holder i).isNone then []
  else (p.changes.filter (s.changesNow i)).map fun c => .translationChange i c.stack c.index

/-- The start of a folio. -/
def State.startEvents (s : State) (f : Folio) : List Instr :=
  dueWhen (f.phase == .agreed && f.start == s.folioNow f) (.folioStart f.id)

/-- The stop cycle of a folio, by replay or for good. -/
def State.stopEvents (s : State) (f : Folio) : List Instr :=
  match f.stop with
  | some t =>
    if f.phase != .restoring && t.y == s.folioNow f then [if f.replaysAt then .replay f.id else .folioStop f.id] else []
  | none => []

/-- The resume cycle of a folio: the scc has moved on by 65 (R303, log 103). It comes before the votes of its cycle, which count on
what the line restores (R29, log 141). -/
def State.resumeEvents (s : State) (f : Folio) : List Instr :=
  match f.stop with
  | some t => dueWhen (f.phase == .restoring && t.y + 65 == s.folioNow f) (.replayResume f.id)
  | none => []

/-- Numbers in rising order, each once. -/
def insertNat (n : Nat) : List Nat → List Nat
  | [] => [n]
  | x :: r => if n < x then n :: x :: r else if n = x then x :: r else x :: insertNat n r

/-- Folios whose votes land now, in ascending identifier (R354). -/
def State.voters (s : State) (moved : Nat → Bool) : List Nat :=
  (s.votes.filter fun v => moved v.pkg && s.voteLands v).foldl (fun l v => insertNat v.folio l) []

/-- Each package with its place. -/
def State.eachPkg (s : State) (f : Nat → Package → List Instr) : List Instr := s.pkgs.zipIdx.flatMap fun (p, i) => f i p

/-- The events that fall due in the new cycle. `old` are the packages before the tick and `moved` says whose scc has advanced. -/
def State.raiseDue (s : State) (old : List Package) (moved : Nat → Bool) : State :=
  let mine (j : Job) : Bool := moved (s.physOf j.core)
  let named := s.conflicted mine
  let s := { s with jobs := s.jobs.map fun (j : Job) => if mine j && named.contains j.seq then j.punctual (s.jobNow j) else j }
  let late := (s.jobs.filter fun j => mine j && j.lateAt (s.jobNow j)).map (·.seq)
  let landings := s.landings mine
  let fs := s.folios.filter fun f => moved f.owner
  { s with due := s.due ++
      (List.zip old s.pkgs).zipIdx.flatMap (fun (x, i) => tickEvents x.1 x.2 i) ++
      s.eachPkg s.roundEvents ++
      (named ++ late).map (fun n => .preciseTimingTrap n) ++
      s.eachPkg (fun i p => if moved i then s.lineChanges i p else []) ++
      s.eachPkg (fun i p => dueWhen (p.powered && p.drifting) (.driftFault i)) ++
      landings.map (·.ev) ++
      fs.flatMap s.resumeEvents ++
      (s.voters moved).map (fun f => .stepVote f) ++
      fs.flatMap s.startEvents ++
      fs.flatMap s.stopEvents }

/-! ### The clock moves on -/

/-- Work that is over leaves, but for a `pcard` whose clear a rollback to the last line would take up again (R288). -/
def State.kept (s : State) (j : Job) : Bool :=
  !s.over_ (s.jobNow j) j ||
    (match s.folio? j.core.folio with
     | some f => j.clearKept f.lineAt && !s.over_ f.lineAt j
     | none => false)

/-- Folios that stand at a line that no `rstp` has passed: every core that runs has ended (R25, R300). -/
def State.passLines (s : State) (moved : Nat → Bool) : State :=
  (s.folios.filter fun f => moved f.owner).foldl (fun s f => s.passLine f.id) s

/-- The clock moves on: what work in flight reads in this cycle is read, and the counters, the work and the events become those of
the next tick. -/
def State.nextTick (s : State) : State :=
  let mv := s.pkgs.map Package.moves
  let moved (i : Nat) : Bool := mv.getD i false
  let s := (s.sampleIf fun j => moved (s.physOf j.core)).passLines moved
  let keep (j : Job) : Bool := !moved (s.physOf j.core) || s.kept j
  let s := { s.discard (s.jobs.filter fun j => !keep j) with jobs := s.jobs.filter keep }
  { s with pkgs := s.pkgs.map Package.ticked }.raiseDue s.pkgs moved

/-- TICK (R16): no step is taken while no package has power. -/
def execTick (s : State) : Out := if s.pkgs.any (·.powered) then .next s.nextTick else .fault .unpowered

end Sys2Proof.Machine
end

