-- ==== Sys2Proof/Machine/Bulk.lean ====
section
/-! DEFINITION. Vector memory, layout registers, the matrix engine and the cluster's words (R218 to R226, R229, R234 to
R240, R252 to R257): each puts its work in flight under the mode register it names. -/

namespace Sys2Proof.Machine

/-! ### The core's own scratchpad (R218 to R225) -/

/-- `vld` (R218). -/
def execVld (m : MReg) (d : VReg) (a : SReg) (s : State) : Out :=
  .next (s.issueVector m memAccepts (.vmem .load d (s.sreg a) .unit))

/-- `vlds` (R218). -/
def execVlds (m : MReg) (d : VReg) (a b : SReg) (s : State) : Out :=
  .next (s.issueVector m memAccepts (.vmem .load d (s.sreg a) (.strided (s.sreg b))))

/-- `vldx` (R218). -/
def execVldx (m : MReg) (d : VReg) (a : SReg) (b : VReg) (s : State) : Out :=
  .next (s.issueVector m memAccepts (.vmem .load d (s.sreg a) (.indexed b)))

/-- `vst` (R218). -/
def execVst (m : MReg) (d : VReg) (a : SReg) (s : State) : Out :=
  .next (s.issueVector m memAccepts (.vmem .store d (s.sreg a) .unit))

/-- `vsts` (R218). -/
def execVsts (m : MReg) (d : VReg) (a b : SReg) (s : State) : Out :=
  .next (s.issueVector m memAccepts (.vmem .store d (s.sreg a) (.strided (s.sreg b))))

/-- `vstx` (R218). -/
def execVstx (m : MReg) (d : VReg) (a : SReg) (b : VReg) (s : State) : Out :=
  .next (s.issueVector m memAccepts (.vmem .store d (s.sreg a) (.indexed b)))

/-- `vstw` (R221). -/
def execVstw (m : MReg) (d : VReg) (a : SReg) (x : WAddr) (k : WReg) (s : State) : Out :=
  .next (s.issueVector m isWide (.vmem (.blend k) d (s.sreg a) (s.addressing x)))

/-- `vqst`: the layout register is read at c (R224, R225). -/
def execVqst (m : MReg) (d : VReg) (a : SReg) (l : LReg) (s : State) : Out :=
  .next (s.issueVector m isWide (.vmem (.qstore s.core.ly[l]) d (s.sreg a) .unit))

/-- `vldq`: the layout register is read at c (R224, R225). -/
def execVldq (m : MReg) (d : VReg) (a : SReg) (l : LReg) (s : State) : Out :=
  .next (s.issueVector m isWide (.vmem (.qload s.core.ly[l]) d (s.sreg a) .unit))

/-- `vlrec` (R224). -/
def execVlrec (d : LReg) (a : SReg) (s : State) : Out :=
  .next (s.issue .none (.vlrec d (s.sreg a) none))

/-! ### The matrix engine (R229 to R240) -/

/-- `mshape`: the new shape governs from c+1 (R229). -/
def execMshape (kb : Bool) (n m : Fin 128) (s : State) : Out :=
  .next { s with core := { s.core with shape := ⟨m, n, kb⟩ } }.advance

/-- A matrix word: illegal under a type it does not accept (R234). -/
def State.issueMatrix (s : State) (m : MReg) (op : MatOp) (d : Nat) (a b : Option VReg) : State :=
  s.issueVector m (matAccepts · op) (.matrix op d a b s.core.shape none)

/-- `mzero` (R240). -/
def execMzero (m : MReg) (d : TReg) (s : State) : Out :=
  .next (s.issueMatrix m .mzero d.val none none)

/-- `mtrn` (R240). -/
def execMtrn (m : MReg) (d : TReg) (s : State) : Out :=
  .next (s.issueMatrix m .mtrn d.val none none)

/-- `mopa` (R235). -/
def execMopa (m : MReg) (d : TReg) (a b : VReg) (s : State) : Out :=
  .next (s.issueMatrix m .mopa d.val (some a) (some b))

/-- `mopaq`: ly6 and ly7 are read at c (R236). -/
def execMopaq (m : MReg) (d : TReg) (a b : VReg) (s : State) : Out :=
  .next (s.issueMatrix m (.mopaq s.core.ly[6] s.core.ly[7]) d.val (some a) (some b))

/-- `mgath`: the layout registers are read at c (R224, R237). -/
def execMgath (m : MReg) (d : TReg) (a b : VReg) (lb la : LReg) (s : State) : Out :=
  .next (s.issueMatrix m (.mgath s.core.ly[la] s.core.ly[lb]) d.val (some a) (some b))

/-- `mscale` (R238). -/
def execMscale (m : MReg) (d : TReg) (a b : VReg) (s : State) : Out :=
  .next (s.issueMatrix m .mscale d.val (some a) (some b))

/-- `mcolr` (R239). -/
def execMcolr (m : MReg) (d : VReg) (a : TReg) (b : SReg) (s : State) : Out :=
  .next (s.issueMatrix m (.mcolr (s.sreg b).toNat) a.val (some d) none)

/-- `mrowr` (R239). -/
def execMrowr (m : MReg) (d : VReg) (a : TReg) (b : SReg) (s : State) : Out :=
  .next (s.issueMatrix m (.mrowr (s.sreg b).toNat) a.val (some d) none)

/-- `mcolw` (R239). -/
def execMcolw (m : MReg) (d : TReg) (a : VReg) (b : SReg) (s : State) : Out :=
  .next (s.issueMatrix m (.mcolw (s.sreg b).toNat) d.val (some a) none)

/-- `mroww` (R239). -/
def execMroww (m : MReg) (d : TReg) (a : VReg) (b : SReg) (s : State) : Out :=
  .next (s.issueMatrix m (.mroww (s.sreg b).toNat) d.val (some a) none)

/-! ### The cluster (R252 to R257) -/

/-- `vldc` (R253). -/
def execVldc (m : MReg) (d : VReg) (a : SReg) (s : State) : Out :=
  .next (s.issueVector m memAccepts (.remote .load d (s.sreg a)))

/-- `vstc` (R253). -/
def execVstc (m : MReg) (d : VReg) (a : SReg) (s : State) : Out :=
  .next (s.issueVector m memAccepts (.remote .store d (s.sreg a)))

/-- `vstm` (R253). -/
def execVstm (m : MReg) (d : VReg) (a b : SReg) (s : State) : Out :=
  .next (s.issueVector m memAccepts (.remote (.multi ((s.sreg b).toNat % 2 ^ 12)) d (s.sreg a)))

/-- A scalar atomic: all operands are read at c (R256). -/
def State.atomic (s : State) (op : AmoOp) (d a b : SReg) : Out :=
  .next (s.issue .none (.amo op d (s.sreg a) (s.sreg b) (s.sreg d) none))

/-- `amoadd` (R256). -/
def execAmoadd (d a b : SReg) (s : State) : Out := s.atomic .add d a b

/-- `amomin` (R256). -/
def execAmomin (d a b : SReg) (s : State) : Out := s.atomic .min d a b

/-- `amomax` (R256). -/
def execAmomax (d a b : SReg) (s : State) : Out := s.atomic .max d a b

/-- `amoor` (R256). -/
def execAmoor (d a b : SReg) (s : State) : Out := s.atomic .or d a b

/-- `amoxchg` (R256). -/
def execAmoxchg (d a b : SReg) (s : State) : Out := s.atomic .xchg d a b

/-- `amocas` (R256). -/
def execAmocas (d a b : SReg) (s : State) : Out := s.atomic .cas d a b

/-- The types of `vamoadd` (R257). -/
def amoAccepts (t : ETy) : Bool := isWide t || t == .int32 || t == .n32

/-- `vamoadd` (R257). -/
def execVamoadd (m : MReg) (d : VReg) (a : SReg) (b : VReg) (s : State) : Out :=
  .next (s.issueVector m amoAccepts (.vamo d (s.sreg a) b))

end Sys2Proof.Machine
end

