-- ==== Sys2Proof/Machine/Flags.lean ====
section
/-! DEFINITION. The flags as software sees them (R115 to R117): fs, its index registers and a write of fs. What each word
raises stands with the word's arithmetic (`Flags` in Num.lean). -/

namespace Sys2Proof.Machine

/-- What an index register reads (R116). -/
def FlagIndex.read : Option FlagIndex → DWord
  | none => -1
  | some x => BitVec.ofNat 64 (x.word.toNat * 2 ^ 16 + x.idx % 2 ^ 16)

/-- What fs reads (R115). -/
def Core.readFs (c : Core) : DWord := c.fs.setWidth 64

/-- A write of fs: the classes written as 0 lose their index records (R117). -/
def Core.putFs (c : Core) (x : DWord) : Core :=
  let fs : BitVec 7 := x.setWidth 7
  { c with fs := fs, fx := Vector.ofFn fun k => if fs.getLsbD k.val then c.fx[k] else none }

/-- The flags that landed in a cycle, raised again. -/
def Core.reapply : List (Fin 7 × FlagIndex) → Core → Core
  | [], c => c
  | (k, x) :: r, c => Core.reapply r (c.setFlag k x)

/-- A `sysw` to fs in cycle `now`: the flags that land in that cycle are applied after the write (R117). -/
def Core.writeFs (c : Core) (now : Nat) (x : DWord) : Core :=
  Core.reapply (if c.flagAt = now then c.flagNow else []) (c.putFs x)

end Sys2Proof.Machine
end

