-- ==== Sys2Proof/Machine/Control.lean ====
section
/-! DEFINITION. Control flow and the system words (R20, R51, R72, R167 to R189, R198 to R200, R205, R206, R217). -/

namespace Sys2Proof.Machine

/-! ### Branches and jumps (R167 to R169, R174) -/

/-- A conditional branch: the target is judged whether or not it is taken. -/
def State.branch (s : State) (a b : SReg) (o : BitVec 15) (f : DWord → DWord → Bool) : Out :=
  .next (s.guarded (branchOffOk o && s.reachable (s.ahead o)) fun s =>
    if f (s.sreg a) (s.sreg b) then s.goto (s.ahead o) 3 else s.advance)

/-- `beq`. -/
def execBeq (a b : SReg) (o : BitVec 15) (s : State) : Out := s.branch a b o fun a b => a == b

/-- `bne`. -/
def execBne (a b : SReg) (o : BitVec 15) (s : State) : Out := s.branch a b o fun a b => a != b

/-- `blt`. -/
def execBlt (a b : SReg) (o : BitVec 15) (s : State) : Out := s.branch a b o fun a b => a.slt b

/-- `bge`. -/
def execBge (a b : SReg) (o : BitVec 15) (s : State) : Out := s.branch a b o fun a b => !a.slt b

/-- `bltu`. -/
def execBltu (a b : SReg) (o : BitVec 15) (s : State) : Out := s.branch a b o fun a b => a.ult b

/-- `bgeu`. -/
def execBgeu (a b : SReg) (o : BitVec 15) (s : State) : Out := s.branch a b o fun a b => !a.ult b

/-- A jump (sD is s0) or a call: the link at c+1, the target at c+3. A call leaves every open entry open (R174). -/
def State.jump (s : State) (d : SReg) (t : Int) : Out :=
  .next (s.guarded (s.jumpOk d t) fun s =>
    let s := s.enqueue .none (.scalar d (BitVec.ofNat 64 (s.core.pc.toNat + 1)) 1)
    if d = 0 then s.goto t.toNat 3 else s.callTo t.toNat)

/-- `jal` (R168). -/
def execJal (d : SReg) (o : BitVec 20) (s : State) : Out := s.jump d (s.jalTarget o)

/-- `jalr` (R169): the target is taken from sA as read at c. -/
def execJalr (d a : SReg) (i : BitVec 15) (s : State) : Out := s.jump d (s.ea a i).toNat

/-! ### Loops and arms (R171 to R173, R198 to R200, R205, R206) -/

/-- A loop instruction of `n` passes, with the mask of a weighted loop. -/
def State.openLoop (s : State) (n : Nat) (o : BitVec 15) (live : Option Live) : Out :=
  .next (s.guarded (bodyOffOk o && s.reachable (s.ahead o) && decide (loopCount s.core.cons < 4) && decide (n < 2 ^ 32)) fun s =>
    if n = 0 then s.goto (s.ahead o) 3
    else
      { s with core := { s.core with cons := .loop (s.core.pc.toNat + 1) (s.ahead o) n live :: s.core.cons } }.goto
        (s.core.pc.toNat + 1) 3)

/-- `loop`. -/
def execLoopw (a : SReg) (o : BitVec 15) (s : State) : Out := s.openLoop (s.sreg a).toNat o none

/-- `loopi`. -/
def execLoopi (n : BitVec 10) (o : BitVec 15) (s : State) : Out := s.openLoop n.toNat o none

/-- `wloop`: θ and the first live mask are read at c. -/
def execWloop (m : MReg) (w : WReg) (a : SReg) (o : BitVec 15) (s : State) : Out :=
  s.openLoop (s.sreg a).toNat o (some ⟨w, s.thetaOf m, above (s.core.getW w) (s.thetaOf m), false⟩)

/-- `arm`: the mask is read at c. -/
def execArm (m : MReg) (w : WReg) (o : BitVec 15) (s : State) : Out :=
  .next (s.guarded (bodyOffOk o && s.reachable (s.ahead o) && decide (armCount s.core.cons < 4)) fun s =>
    { s with core := { s.core with cons := .arm (s.ahead o) (above (s.core.getW w) (s.thetaOf m)) :: s.core.cons } }.advance)

/-! ### Idling, ending and restart points (R175 to R177, R227) -/

/-- `nop`. -/
def execNop (s : State) : Out := .next s.advance

/-- `idle`. -/
def execIdle (n : BitVec 15) (s : State) : Out := .next (s.goto (s.core.pc.toNat + 1) (1 + n.toNat))

/-- `fend`: no later word of the core issues; what is in flight still lands. -/
def execFend (s : State) : Out :=
  .next { s with
    core := { s.core with fended := true, cons := [], tstate := false, lastIssue := some s.now }, seq := s.seq + 1 }

/-- Whether a stop of the focused core's folio is pending. -/
def State.inStopWindow (s : State) : Bool := match s.folio? s.core.id.folio with | some f => f.stopping | none => false

/-- `rstp` (R25, R177, R227): illegal off the restart table and inside a handler. A line in a stop window leaves the snapshot
and the folio as they are. -/
def execRstp (s : State) : Out :=
  .next (s.guarded (s.onLine && !s.core.tstate) fun s =>
    let stopping := s.inStopWindow
    let line := s.cycle
    let s := (if stopping then s else s.passLine s.core.id.folio).advance
    { s with core := (if stopping then s.core else s.core.takeSnapshot line).commitFills stopping })

/-! ### Traps (R183 to R185) -/

/-- `trap`: the handler is entered, or the folio stops. -/
def execTrap (i : BitVec 15) (s : State) : Out :=
  let s' := s.takeTrap s.core.id .software i.toNat s.core.pc 0
  .next { s' with core := { s'.core with lastIssue := some s.now }, seq := s.seq + 1 }

/-- `tret`: illegal outside a handler. -/
def execTret (s : State) : Out :=
  .next (s.guarded s.core.tstate fun s => { s with core := s.core.leaveHandler s.now, seq := s.seq + 1 })

/-! ### Modes and the vector length (R51, R72, R180, R217) -/

/-- New contents of a mode register, which govern from c+1; contents with a reserved code are illegal. -/
def State.setMode (s : State) (k : MReg) (x : Nat) : Out :=
  .next (s.guarded (modeContentsOk x) fun s =>
    { s with core := { s.core with m := s.core.m.set k (BitVec.ofNat 32 x) } }.advance)

/-- `mode` with its contents in the word. -/
def execMode (k : MReg) (body : BitVec 23) (s : State) : Out := s.setMode k body.toNat

/-- `mode` with its contents in bits 31:0 of a scalar register (log 21). -/
def execModeScalar (k : MReg) (a : SReg) (s : State) : Out := s.setMode k ((s.sreg a).setWidth 32 : Word).toNat

/-- `setvl` (R217): the grant governs from c+1, and lands in sD at c+1. -/
def execSetvl (d a : SReg) (k : MReg) (s : State) : Out :=
  let n := min (s.sreg a).toNat (vlmax (s.typeOf k))
  .next ({ s with core := { s.core with vl := BitVec.ofNat 13 n } }.result d (BitVec.ofNat 64 n) 1)

/-! ### System registers (R187 to R189) -/

/-- The package of the focused core. -/
def State.pkg? (s : State) : Option Package := s.pkgs[s.core.phys]?

/-- What `sysr` reads at c. oob is read with the offers of the cycle itself (R187, R214). -/
def State.sysValue (s : State) : SysReg → DWord
  | .scc => BitVec.ofNat 64 (s.sccOf s.core.phys)
  | .tick => match s.pkg? with | some p => BitVec.ofNat 64 p.tick | none => 0
  | .vl => s.core.vl.setWidth 64
  | .step => match s.pkg? with | some p => p.step | none => 0
  | .stage => s.core.stage.setWidth 64
  | .coord => BitVec.ofNat 64 (coordOf s.core.id)
  | .oob => s.sample.core.oob
  | .period => s.core.period.setWidth 64
  | .fs => s.core.readFs
  | .fx k => FlagIndex.read s.core.fx[k]
  | .th k => s.core.th[k].setWidth 64
  | .m k => s.core.m[k].setWidth 64
  | .tcause => s.core.tcause
  | .tepc => s.core.tepc
  | .tval => s.core.tval
  | .tvec => s.core.tvec
  | .tstate => if s.core.tstate then 1 else 0

/-- `sysr`. -/
def execSysr (d : SReg) (r : SysReg) (s : State) : Out := .next (s.result d (s.sysValue r) 1)

/-- A threshold as written (R189). -/
def clampTh (x : DWord) : BitVec 16 := if x.toNat ≤ 0x8000 then x.setWidth 16 else 0x8000

/-- A write of a system register; all but fs and the thresholds ignore it. -/
def Core.writeSys (c : Core) (now : Nat) (r : SysReg) (x : DWord) : Core :=
  match r with
  | .fs => c.writeFs now x
  | .th k => { c with th := c.th.set k (clampTh x) }
  | _ => c

/-- `sysw`. -/
def execSysw (r : SysReg) (a : SReg) (s : State) : Out :=
  .next { s with core := s.core.writeSys s.now r (s.sreg a) }.advance

end Sys2Proof.Machine
end

