-- ==== Sys2Proof/Machine/Engines.lean ====
section
/-! DEFINITION. The words that drive engines, streams, the fabric and the Binder (R265 to R268, R281, R300, R311, R319, R321,
R330, R344, R347 to R349, R354). -/

namespace Sys2Proof.Machine

/-! ### The issuing folio -/

/-- The folio of the focused core. -/
def State.mine (s : State) : Option Folio := s.folio? s.core.id.folio

/-- Whether a check holds of the issuing folio; a core of no folio has none. -/
def State.mineHas (s : State) (f : Folio → Bool) : Bool := s.mine.any f

/-- Changes the issuing folio. -/
def State.updMine (s : State) (f : Folio → Folio) : State := s.updFolio s.core.id.folio f

/-! ### The Racker (R267, R268) -/

/-- `rkset`: a shadow register written at c. -/
def execRkset (r : Fin 8) (a : SReg) (s : State) : Out :=
  .next { s with core := { s.core with rk := s.core.rk.set r (s.sreg a) } }.advance

/-- The cluster of a core, as identifier counts are kept. -/
def clusterKey (id : CoreId) : Nat × Nat × Nat := (id.pkg, id.die, id.cluster)

/-- Transfers of the focused core's cluster whose status has not landed; one that a conflict has suppressed counts until the cycle in
which its status would have (R268, log 131). -/
def State.outstanding (s : State) : Nat :=
  (s.jobs.filter fun j =>
    j.core.folio == s.core.id.folio && clusterKey j.core == clusterKey s.core.id &&
      (match j.work with | .racker t => decide (s.now < j.cyc + t.statusAt) | _ => false)).length

/-- The count of `rkgo` words of a cluster. -/
def Folio.rackerCount (f : Folio) (k : Nat × Nat × Nat) : Nat := ((f.rackers.find? fun x => x.1 == k).map (·.2)).getD 0

/-- One more. -/
def Folio.countRacker (f : Folio) (k : Nat × Nat × Nat) : Folio :=
  { f with rackers := (f.rackers.filter fun x => x.1 != k) ++ [(k, f.rackerCount k + 1)] }

/-- The identifier of the next transfer of the focused core's cluster (R268). -/
def State.transferId (s : State) : Nat :=
  let q := match s.mine with | some f => f.rackerCount (clusterKey s.core.id) | none => 0
  s.core.id.cluster * 2 ^ 12 + q % 4096

/-- `rkgo`: illegal in a folio that does not hold its calendar; a 17th transfer in flight is a calendar conflict that names
it. The identifier lands at c+1, and the transfer goes in flight with the shadows and vl as latched. -/
def execRkgo (d a : SReg) (s : State) : Out :=
  .next (s.guarded (s.mineHas (·.holds)) fun s =>
    if 16 ≤ s.outstanding then s.trapTiming
    else
      let id := s.transferId
      let s := s.enqueue .none (.scalar d (BitVec.ofNat 64 id) 1)
      let s := { s with seq := s.seq + 1 }
      let s := s.enqueue .none (.racker { status := a, tid := id, sh := s.core.rk, vl := s.core.vl.toNat })
      (s.updMine fun f => f.countRacker (clusterKey s.core.id)).advance)

/-! ### The Press (R281, R295) -/

/-- The card that governs on the issuing core's die. -/
def State.pressCard (s : State) : Option (BitVec 512) :=
  s.mine.bind fun f => (f.press.find? fun u => u.pkg == s.core.id.pkg && u.die == s.core.id.die).bind (·.card)

/-- A Press word: illegal in a folio that does not hold its die's Press. -/
def State.issuePress (s : State) (op : PressOp) (a b : SReg) : Out :=
  .next (s.guarded (s.mineHas fun f => recPress f.record) fun s =>
    s.issue .none (.press {
      op := op, sa := s.sreg a, sb := s.sreg b, card := match op with | .card => none | _ => s.pressCard }))

/-- `pcard` (R282). -/
def execPcard (a b : SReg) (s : State) : Out := s.issuePress .card a b

/-- `psel` (R283). -/
def execPsel (a b : SReg) (s : State) : Out := s.issuePress .sel a b

/-- `pdisp` (R286). -/
def execPdisp (a b : SReg) (s : State) : Out := s.issuePress .disp a b

/-- `pcomb` (R287). -/
def execPcomb (a b : SReg) (s : State) : Out := s.issuePress .comb a b

/-! ### The Binder's words (R300, R330, R344, R354) -/

/-- `flaunch`: illegal beyond the folio's budget. -/
def execFlaunch (a b : SReg) (s : State) : Out :=
  .next (s.guarded (s.mineHas fun f => decide (f.launches < recBudget f.record)) fun s =>
    (s.updMine fun f => { f with launches := f.launches + 1 }).issue .none (.flaunch (s.sreg a) (s.sreg b)))

/-- `drift`: the commit of the issuing package. Several in one cycle form one, with the smallest limit. -/
def Package.driftCommit (p : Package) (limit : Nat) : Package :=
  if p.slewTick = some p.tick then
    let m : Int := min limit 4295
    { p with slew := if p.slew < -m then -m else if m < p.slew then m else p.slew }
  else p.commit limit

/-- `drift` (R344). -/
def execDrift (a : SReg) (s : State) : Out :=
  .next (s.updPkg s.core.phys fun p => p.driftCommit (s.sreg a).toNat).advance

/-- Packages of the group of the focused core's package. -/
def State.groupSize (s : State) : Nat := match s.pkgs[s.core.phys]? with | some p => p.group.length | none => 0

/-- Adds a core's flag to its folio's vote of the cycle (R354). -/
def addVote (v : Vote) (vs : List Vote) : List Vote :=
  if vs.any fun x => x.folio == v.folio && x.at_ == v.at_ then
    vs.map fun x => if x.folio = v.folio ∧ x.at_ = v.at_ then { x with flag := x.flag || v.flag } else x
  else vs ++ [v]

/-- `stepinc`: illegal in a folio that names fewer packages than its group (R354). -/
def execStepinc (s : State) : Out :=
  .next (s.guarded (s.mineHas fun f => decide (s.groupSize ≤ f.ext.p)) fun s =>
    { s with votes := addVote ⟨s.core.id.folio, s.core.phys, s.sccOf s.core.phys, s.core.fs &&& 0x47 != 0⟩ s.votes }.advance)

/-- The bytes of a seal's region as they stand, read as any device read is. -/
def State.regionBytes (s : State) (id i : Nat) (r : Region) : State × List Byte :=
  if r.cellar then s.cellarBytes id i r.base r.len
  else
    let y := s.hbmBytes id i r.base r.len
    (y.1, y.2.1)

/-- The transfers to a package's cellar whose status cycle is still to come, by their issue numbers: a release does not cover their
writes (R330). -/
def State.uncovered (s : State) (i : Nat) : List Nat :=
  (s.jobs.filter fun j => s.physOf j.core == i && j.unfinished (s.jobNow j)).map (·.seq)

/-- Whether a value is one that a release does not cover: a transfer of the list wrote it, or one that has been discarded. -/
def Held.late (late : List Nat) (h : Held) : Bool :=
  match h.by_ with | .transfer _ n => late.contains n | .discarded => true | _ => false

/-- The values of each place from the last one on that a release covers. -/
def fromCovered (late : List Nat) : List Held → List Held
  | [] => []
  | h :: r => if r.any fun x => x.place == h.place && !x.late late then fromCovered late r else h :: fromCovered late r

/-- The values that places hold for the host because a release does not cover the last writes to them (R329, R330): of each such
place the last value that it covers, and those since. -/
def openHeld (late : List Nat) (l : List Held) : List Held :=
  let l := fromCovered late l
  l.filter fun h => l.any fun x => x.place == h.place && x.late late

/-- A seal that a folio releases at scc `now`: what the release does not cover of a cellar region, the host may see as it was
(R330). -/
def Seal.released (k : Seal) (id now : Nat) (late : List Nat) : Seal :=
  { k with st := .opened, stray := some ⟨id, now, if k.region.any (·.cellar) then openHeld late k.held else [], []⟩ }

/-- A release by the focused core's folio: the seal opens, and the release enters the vintage record with the digest of the
region (R32, R330); that of a seal bound to no region is the digest of no bytes (log 116). -/
def State.releaseSeal (s : State) (k : Fin 64) : State :=
  match s.pkgs[s.core.phys]? with
  | none => s
  | some p =>
    if p.seals[k].st = .folio s.core.id.folio ∧ s.mine.isSome then
      let y := match p.seals[k].region with | some r => s.regionBytes s.core.id.folio s.core.phys r | none => (s, [])
      let s := y.1.updPkg s.core.phys fun p =>
        { p with seals := p.seals.set k (p.seals[k].released s.core.id.folio p.scc (s.uncovered s.core.phys)) }
      s.updMine fun f => { f with rels := f.rels ++ [⟨k.val, s.cycle, coordOf s.core.id, sha3 y.2⟩] }
    else s

/-- `rel` (R330): a seal the folio does not hold is left alone. -/
def execRel (k : Fin 64) (s : State) : Out := .next (s.releaseSeal k).advance

/-! ### Base-die streams and page requests (R311, R319, R321) -/

/-- A word of opcode 0x74: illegal in a folio that does not hold its calendar. -/
def State.issueStream (s : State) (w : Work) : Out := .next (s.guarded (s.mineHas (·.holds)) fun s => s.issue .none w)

/-- `bgath`. -/
def execBgath (a b : SReg) (s : State) : Out := s.issueStream (.stream { op := .gath, sa := s.sreg a, sb := s.sreg b })

/-- `bscat`. -/
def execBscat (a b : SReg) (s : State) : Out := s.issueStream (.stream { op := .scat, sa := s.sreg a, sb := s.sreg b })

/-- `bstride`. -/
def execBstride (a b : SReg) (s : State) : Out := s.issueStream (.stream { op := .stride, sa := s.sreg a, sb := s.sreg b })

/-- `preq` (R319). -/
def execPreq (a : SReg) (s : State) : Out := s.issueStream (.preq (s.sreg a))

/-! ### Sends (R346 to R349) -/

/-- The distance of a send from the focused core. -/
def State.sendDistance (s : State) (a : DWord) : Nat := s.distance s.core.id s.core.phys a

/-- `tsend`. A send to a package outside the table has distance 0, and offers its address at once. -/
def execTsend (a b : SReg) (s : State) : Out :=
  let d := s.sendDistance (s.sreg a)
  let c := if d = 0 then s.core.offer s.cycle s.cycle 0 (s.sreg a) else s.core
  .next ({ s with core := c }.issue .none (.send (s.sreg a) (s.sreg b) d))

/-- `tsendv`. -/
def execTsendv (m : MReg) (d : VReg) (a : SReg) (s : State) : Out :=
  .next (s.issueVector m memAccepts (.sendv d (s.sreg a) (s.sendDistance (s.sreg a))))

end Sys2Proof.Machine
end

