-- ==== Sys2Proof/Machine/Lane.lean ====
section
/-! DEFINITION. Lane words (R118 to R147) and the weight and join words (R192 to R204): each puts its element work in flight
under the mode register it names. -/

namespace Sys2Proof.Machine

/-! ### Arithmetic (R123 to R131) -/

/-- `vadd` (R123, R124). -/
def execVadd (m : MReg) (d a : VReg) (b : VB) (s : State) : Out :=
  .next (s.issueLaneB m .add (.v d) a b none)

/-- `vsub`. -/
def execVsub (m : MReg) (d a : VReg) (b : VB) (s : State) : Out :=
  .next (s.issueLaneB m .sub (.v d) a b none)

/-- `vmul`. -/
def execVmul (m : MReg) (d a : VReg) (b : VB) (s : State) : Out :=
  .next (s.issueLaneB m .mul (.v d) a b none)

/-- `vfma`: vd is a source too (R123). -/
def execVfma (m : MReg) (d a : VReg) (b : VB) (s : State) : Out :=
  .next (s.issueLaneB m .fma (.v d) a b (some d))

/-- `vfms`: vd is a source too (R123). -/
def execVfms (m : MReg) (d a : VReg) (b : VB) (s : State) : Out :=
  .next (s.issueLaneB m .fms (.v d) a b (some d))

/-- `vnfma`: vd is a source too (R123). -/
def execVnfma (m : MReg) (d a : VReg) (b : VB) (s : State) : Out :=
  .next (s.issueLaneB m .nfma (.v d) a b (some d))

/-- `vmin` (R125). -/
def execVmin (m : MReg) (d a : VReg) (b : VB) (s : State) : Out :=
  .next (s.issueLaneB m .min (.v d) a b none)

/-- `vmax` (R125). -/
def execVmax (m : MReg) (d a : VReg) (b : VB) (s : State) : Out :=
  .next (s.issueLaneB m .max (.v d) a b none)

/-- `vabs` (R126). -/
def execVabs (m : MReg) (d a : VReg) (s : State) : Out :=
  .next (s.issueLane m true { op := .abs, dst := .v d, a := some a })

/-- `vneg` (R126). -/
def execVneg (m : MReg) (d a : VReg) (s : State) : Out :=
  .next (s.issueLane m true { op := .neg, dst := .v d, a := some a })

/-- `vrcp` (R127). -/
def execVrcp (m : MReg) (d a : VReg) (s : State) : Out :=
  .next (s.issueLane m true { op := .rcp, dst := .v d, a := some a })

/-- `vrsq` (R127). -/
def execVrsq (m : MReg) (d a : VReg) (s : State) : Out :=
  .next (s.issueLane m true { op := .rsq, dst := .v d, a := some a })

/-- `vsqrt` (R127). -/
def execVsqrt (m : MReg) (d a : VReg) (s : State) : Out :=
  .next (s.issueLane m true { op := .sqrt, dst := .v d, a := some a })

/-- `vpopc` (R128). -/
def execVpopc (m : MReg) (d a : VReg) (s : State) : Out :=
  .next (s.issueLane m true { op := .popc, dst := .v d, a := some a })

/-- `vclz` (R128). -/
def execVclz (m : MReg) (d a : VReg) (s : State) : Out :=
  .next (s.issueLane m true { op := .clz, dst := .v d, a := some a })

/-- `vand` (R129). -/
def execVand (m : MReg) (d a : VReg) (b : VB) (s : State) : Out :=
  .next (s.issueLaneB m .and (.v d) a b none)

/-- `vor` (R129). -/
def execVor (m : MReg) (d a : VReg) (b : VB) (s : State) : Out :=
  .next (s.issueLaneB m .or (.v d) a b none)

/-- `vxor` (R129). -/
def execVxor (m : MReg) (d a : VReg) (b : VB) (s : State) : Out :=
  .next (s.issueLaneB m .xor (.v d) a b none)

/-- `vshl` (R129). -/
def execVshl (m : MReg) (d a : VReg) (b : VB) (s : State) : Out :=
  .next (s.issueLaneB m .shl (.v d) a b none)

/-- `vshr` (R129). -/
def execVshr (m : MReg) (d a : VReg) (b : VB) (s : State) : Out :=
  .next (s.issueLaneB m .shr (.v d) a b none)

/-- `vsra` (R129). -/
def execVsra (m : MReg) (d a : VReg) (b : VB) (s : State) : Out :=
  .next (s.issueLaneB m .sra (.v d) a b none)

/-- `vmulh` (R130). -/
def execVmulh (m : MReg) (d a : VReg) (b : VB) (s : State) : Out :=
  .next (s.issueLaneB m .mulh (.v d) a b none)

/-- `vceq` (R131). -/
def execVceq (m : MReg) (d : WReg) (a : VReg) (b : VB) (s : State) : Out :=
  .next (s.issueLaneB m .ceq (.w d) a b none)

/-- `vclt` (R131). -/
def execVclt (m : MReg) (d : WReg) (a : VReg) (b : VB) (s : State) : Out :=
  .next (s.issueLaneB m .clt (.w d) a b none)

/-- `vcle` (R131). -/
def execVcle (m : MReg) (d : WReg) (a : VReg) (b : VB) (s : State) : Out :=
  .next (s.issueLaneB m .cle (.w d) a b none)

/-! ### Conversion, reductions and movement (R132 to R139) -/

/-- `vcvt` (R132). -/
def execVcvt (m : MReg) (d a : VReg) (u : ETy) (s : State) : Out :=
  .next (s.issueLane m true { op := .cvt u, dst := .v d, a := some a })

/-- `vredsum` (R133). -/
def execVredsum (m : MReg) (d a : VReg) (s : State) : Out :=
  .next (s.issueLane m true { op := .redsum, dst := .v d, a := some a })

/-- `vredmax` (R133). -/
def execVredmax (m : MReg) (d a : VReg) (s : State) : Out :=
  .next (s.issueLane m true { op := .redmax, dst := .v d, a := some a })

/-- `vredmin` (R133). -/
def execVredmin (m : MReg) (d a : VReg) (s : State) : Out :=
  .next (s.issueLane m true { op := .redmin, dst := .v d, a := some a })

/-- `vsegsum` (R134). -/
def execVsegsum (m : MReg) (d a : VReg) (b : WReg) (s : State) : Out :=
  .next (s.issueLane m true { op := .segsum, dst := .v d, a := some a, wb := some b })

/-- `vsegred` with `max` (R134). -/
def execVsegredMax (m : MReg) (d a : VReg) (b : WReg) (s : State) : Out :=
  .next (s.issueLane m true { op := .segmax, dst := .v d, a := some a, wb := some b })

/-- `vsegred` with `min` (R134). -/
def execVsegredMin (m : MReg) (d a : VReg) (b : WReg) (s : State) : Out :=
  .next (s.issueLane m true { op := .segmin, dst := .v d, a := some a, wb := some b })

/-- `vperm` (R135). -/
def execVperm (m : MReg) (d a b : VReg) (s : State) : Out :=
  .next (s.issueLane m true { op := .perm, dst := .v d, a := some a, b := some b })

/-- `vslide` (R136). -/
def execVslide (m : MReg) (d a : VReg) (k : SlideAmt) (s : State) : Out :=
  .next (s.issueLane m (slideLegal (s.typeOf m) k) { op := .slide, dst := .v d, a := some a, sb := s.slideBy k })

/-- `vins` (R137). -/
def execVins (m : MReg) (d : VReg) (a b : SReg) (s : State) : Out :=
  .next (s.issueLane m true { op := .ins, dst := .v d, sa := s.sreg a, sb := s.sreg b })

/-- `vext` (R137). -/
def execVext (m : MReg) (d : SReg) (a : VReg) (b : SReg) (s : State) : Out :=
  .next (s.issueLane m true { op := .ext, dst := .s d, a := some a, sb := s.sreg b })

/-- `vmov` of a register (R138). -/
def execVmov (m : MReg) (d a : VReg) (s : State) : Out :=
  .next (s.issueLane m true { op := .mov, dst := .v d, a := some a })

/-- `vmov` of a scalar (R138). -/
def execVmovScalar (m : MReg) (d : VReg) (b : SReg) (s : State) : Out :=
  .next (s.issueLane m true { op := .movs, dst := .v d, imm := some (scalarCode (s.typeOf m) (s.sreg b)) })

/-- `vrng`: vd is a source too (R139). -/
def execVrng (m : MReg) (d a b : VReg) (s : State) : Out :=
  .next (s.issueLane m true { op := .rng, dst := .v d, a := some a, b := some b, d := some d })

/-! ### Bitmaps and tables (R140 to R147) -/

/-- `vpfx` (R142). -/
def execVpfx (m : MReg) (d a b : VReg) (s : State) : Out :=
  .next (s.issueLane m true { op := .pfx, dst := .v d, a := some a, b := some b })

/-- `vxsect` (R141). -/
def execVxsect (m : MReg) (d a b : VReg) (s : State) : Out :=
  .next (s.issueLane m true { op := .xsect, dst := .v d, a := some a, b := some b })

/-- `vcomp` (R143). -/
def execVcomp (m : MReg) (d a b : VReg) (s : State) : Out :=
  .next (s.issueLane m true { op := .comp, dst := .v d, a := some a, b := some b })

/-- `vexpd` (R144). -/
def execVexpd (m : MReg) (d a b : VReg) (s : State) : Out :=
  .next (s.issueLane m true { op := .expd, dst := .v d, a := some a, b := some b })

/-- `vtbl`: the table is the one that governs at c (R146, R147). -/
def execVtbl (m : MReg) (d a : VReg) (t : TblReg) (s : State) : Out :=
  .next (s.issueLane m true { op := .tbl s.core.tbl[t], dst := .v d, a := some a })

/-- `vtld`, under any type (R146). -/
def execVtld (m : MReg) (a : SReg) (t : TblReg) (s : State) : Out :=
  .next (s.issue (s.core.capture m) (.vtld t (s.sreg a)))

/-! ### Weights and joins (R192 to R204) -/

/-- `wsoft` (R193). -/
def execWsoft (m : MReg) (d : WReg) (a : VReg) (b : VB) (s : State) : Out :=
  .next (s.issueLaneB m .wsoft (.w d) a b none)

/-- `wsoftg` (R194). -/
def execWsoftg (m : MReg) (d a : VReg) (b : WReg) (s : State) : Out :=
  .next (s.issueLane m true { op := .wsoftg, dst := .v d, a := some a, wb := some b })

/-- `wfromv` (R195). -/
def execWfromv (m : MReg) (d : WReg) (a : VReg) (s : State) : Out :=
  .next (s.issueLane m true { op := .wfromv, dst := .w d, a := some a })

/-- `wtov` (R195). -/
def execWtov (m : MReg) (d : VReg) (a : WReg) (s : State) : Out :=
  .next (s.issueLane m true { op := .wtov, dst := .v d, wa := some a })

/-- `wnot` (R196). -/
def execWnot (m : MReg) (d a : WReg) (s : State) : Out :=
  .next (s.issueLane m true { op := .wnot, dst := .w d, wa := some a })

/-- `wmul` (R196). -/
def execWmul (m : MReg) (d a b : WReg) (s : State) : Out :=
  .next (s.issueLane m true { op := .wmul, dst := .w d, wa := some a, wb := some b })

/-- `wmov` (R196). -/
def execWmov (m : MReg) (d a : WReg) (s : State) : Out :=
  .next (s.issueLane m true { op := .wmov, dst := .w d, wa := some a })

/-- `wdrop` (R197). -/
def execWdrop (m : MReg) (d : WReg) (a : VReg) (b : SReg) (s : State) : Out :=
  .next (s.issueLane m true { op := .wdrop, dst := .w d, a := some a, sb := s.sreg b })

/-- `blend` (R201). -/
def execBlend (m : MReg) (d a b : VReg) (k : WReg) (s : State) : Out :=
  .next (s.issueLane m true { op := .blend, dst := .v d, a := some a, b := some b, wb := some k })

/-- `bacc`: vd and vb are sources and destinations; one register for both is illegal (R202). -/
def execBacc (m : MReg) (d a b : VReg) (k : WReg) (s : State) : Out :=
  .next (s.issueLane m (d != b) { op := .bacc, dst := .v d, a := some a, b := some b, d := some d, wb := some k })

/-- `bnorm` (R203). -/
def execBnorm (m : MReg) (d a b : VReg) (s : State) : Out :=
  .next (s.issueLane m true { op := .bnorm, dst := .v d, a := some a, b := some b })

/-- `bgrad`: vd is a source too (R204). -/
def execBgrad (m : MReg) (d a b : VReg) (k : WReg) (s : State) : Out :=
  .next (s.issueLane m true { op := .bgrad, dst := .v d, a := some a, b := some b, d := some d, wb := some k })

end Sys2Proof.Machine
end

