-- ==== Sys2Proof/Machine/Scalar.lean ====
section
/-! DEFINITION. Scalar arithmetic, loads and stores, the tag table and the mailboxes (R159 to R166, R181, R215, R216). -/

namespace Sys2Proof.Machine

/-! ### Arithmetic (R159 to R163) -/

/-- 1 or 0. -/
def truth (b : Bool) : DWord := if b then 1 else 0

/-- A register-register word: operands read at c, the result `lat` cycles later. -/
def State.alu (s : State) (d a b : SReg) (lat : Nat) (f : DWord → DWord → DWord) : Out :=
  .next (s.result d (f (s.sreg a) (s.sreg b)) lat)

/-- An immediate word. -/
def State.aluImm (s : State) (d a : SReg) (f : DWord → DWord) : Out := .next (s.result d (f (s.sreg a)) 1)

/-- `add` (R160). -/
def execAddw (d a b : SReg) (s : State) : Out := s.alu d a b 1 fun a b => a + b

/-- `sub`. -/
def execSubw (d a b : SReg) (s : State) : Out := s.alu d a b 1 fun a b => a - b

/-- `and`. -/
def execAndw (d a b : SReg) (s : State) : Out := s.alu d a b 1 fun a b => a &&& b

/-- `or`. -/
def execOrw (d a b : SReg) (s : State) : Out := s.alu d a b 1 fun a b => a ||| b

/-- `xor`. -/
def execXorw (d a b : SReg) (s : State) : Out := s.alu d a b 1 fun a b => a ^^^ b

/-- `sll`: bits 5:0 of b count. -/
def execSll (d a b : SReg) (s : State) : Out := s.alu d a b 1 fun a b => a <<< (b.toNat % 64)

/-- `srl`. -/
def execSrl (d a b : SReg) (s : State) : Out := s.alu d a b 1 fun a b => a >>> (b.toNat % 64)

/-- `sra`. -/
def execSra (d a b : SReg) (s : State) : Out := s.alu d a b 1 fun a b => a.sshiftRight (b.toNat % 64)

/-- `slt`, signed. -/
def execSlt (d a b : SReg) (s : State) : Out := s.alu d a b 1 fun a b => truth (a.slt b)

/-- `sltu`, unsigned. -/
def execSltu (d a b : SReg) (s : State) : Out := s.alu d a b 1 fun a b => truth (a.ult b)

/-- `mul`: bits 63:0 of the product. -/
def execMulw (d a b : SReg) (s : State) : Out := s.alu d a b 3 fun a b => a * b

/-- `mulh`: bits 127:64 of the signed product. -/
def execMulh (d a b : SReg) (s : State) : Out := s.alu d a b 3 fun a b => BitVec.ofInt 64 (a.toInt * b.toInt / 2 ^ 64)

/-- `mulhu`: bits 127:64 of the unsigned product. -/
def execMulhu (d a b : SReg) (s : State) : Out := s.alu d a b 3 fun a b => BitVec.ofNat 64 (a.toNat * b.toNat / 2 ^ 64)

/-- `div`, truncated toward zero, with the cases of R161. -/
def execDivw (d a b : SReg) (s : State) : Out := s.alu d a b 34 fun a b => if b = 0 then -1 else a.sdiv b

/-- `divu`, with the cases of R161. -/
def execDivu (d a b : SReg) (s : State) : Out := s.alu d a b 34 fun a b => if b = 0 then -1 else a / b

/-- `rem`, with the sign of a and the cases of R161. -/
def execRemw (d a b : SReg) (s : State) : Out := s.alu d a b 34 fun a b => if b = 0 then a else a.srem b

/-- `min`, signed. -/
def execMinw (d a b : SReg) (s : State) : Out := s.alu d a b 1 fun a b => if a.slt b then a else b

/-- `max`, signed. -/
def execMaxw (d a b : SReg) (s : State) : Out := s.alu d a b 1 fun a b => if a.slt b then b else a

/-- `addi` (R162). -/
def execAddi (d a : SReg) (i : BitVec 15) (s : State) : Out := s.aluImm d a fun a => a + imm64 i

/-- `andi`. -/
def execAndi (d a : SReg) (i : BitVec 15) (s : State) : Out := s.aluImm d a fun a => a &&& imm64 i

/-- `ori`. -/
def execOri (d a : SReg) (i : BitVec 15) (s : State) : Out := s.aluImm d a fun a => a ||| imm64 i

/-- `xori`. -/
def execXori (d a : SReg) (i : BitVec 15) (s : State) : Out := s.aluImm d a fun a => a ^^^ imm64 i

/-- `slti`, signed. -/
def execSlti (d a : SReg) (i : BitVec 15) (s : State) : Out := s.aluImm d a fun a => truth (a.slt (imm64 i))

/-- `slli`. -/
def execSlli (d a : SReg) (h : Fin 64) (s : State) : Out := s.aluImm d a fun a => a <<< h.val

/-- `srli`. -/
def execSrli (d a : SReg) (h : Fin 64) (s : State) : Out := s.aluImm d a fun a => a >>> h.val

/-- `srai`. -/
def execSrai (d a : SReg) (h : Fin 64) (s : State) : Out := s.aluImm d a fun a => a.sshiftRight h.val

/-- `lui` (R163). -/
def execLui (d : SReg) (i : BitVec 20) (s : State) : Out := .next (s.result d (((i ++ (0 : BitVec 12)).signExtend 64)) 1)

/-- `mbr` (R181). -/
def execMbr (d : SReg) (n : Fin 16) (s : State) : Out := .next (s.result d s.core.mb[n] 1)

/-! ### Loads and stores (R164 to R166) -/

/-- `ldd`. -/
def execLdd (d a : SReg) (i : BitVec 15) (s : State) : Out := .next (s.load d (s.ea a i) 8 leWord)

/-- `ldw`, sign-extended. -/
def execLdw (d a : SReg) (i : BitVec 15) (s : State) : Out :=
  .next (s.load d (s.ea a i) 4 fun bs => ((leWord bs).setWidth 32).signExtend 64)

/-- `ldh`, sign-extended. -/
def execLdh (d a : SReg) (i : BitVec 15) (s : State) : Out :=
  .next (s.load d (s.ea a i) 2 fun bs => ((leWord bs).setWidth 16).signExtend 64)

/-- `ldb`, sign-extended. -/
def execLdb (d a : SReg) (i : BitVec 15) (s : State) : Out :=
  .next (s.load d (s.ea a i) 1 fun bs => ((leWord bs).setWidth 8).signExtend 64)

/-- `std`. -/
def execStd (d a : SReg) (i : BitVec 15) (s : State) : Out := .next (s.store (s.ea a i) (s.sreg d) 8)

/-- `stw`. -/
def execStw (d a : SReg) (i : BitVec 15) (s : State) : Out := .next (s.store (s.ea a i) (s.sreg d) 4)

/-- `sth`. -/
def execSth (d a : SReg) (i : BitVec 15) (s : State) : Out := .next (s.store (s.ea a i) (s.sreg d) 2)

/-- `stb`. -/
def execStb (d a : SReg) (i : BitVec 15) (s : State) : Out := .next (s.store (s.ea a i) (s.sreg d) 1)

/-! ### The tag table (R215, R216) -/

/-- The lowest slot whose entry holds a tag; the miss code where none does. -/
def Core.tagSlot (c : Core) (tag : BitVec 48) : DWord :=
  match (List.finRange 256).find? fun k => c.tags[k] == some tag with
  | some k => BitVec.ofNat 64 k.val
  | none => 0xFFFF

/-- `tlook`. -/
def execTlook (d a : SReg) (s : State) : Out := .next (s.result d (s.core.tagSlot ((s.sreg a).setWidth 48)) 4)

/-- An entry of the table written: a later `tlook` sees it. -/
def State.putTag (s : State) (slot : DWord) (x : Option (BitVec 48)) : State :=
  if h : slot.toNat < 256 then { s with core := { s.core with tags := s.core.tags.set slot.toNat x h } }.advance
  else s.trapIllegal

/-- `tset`: a slot of 256 or more is illegal. -/
def execTset (a b : SReg) (s : State) : Out := .next (s.putTag (s.sreg a) (some ((s.sreg b).setWidth 48)))

/-- `tclr`. -/
def execTclr (a : SReg) (s : State) : Out := .next (s.putTag (s.sreg a) none)

end Sys2Proof.Machine
end

