-- ==== Sys2Proof/Machine/Dispatch.lean ====
section
/-! DEFINITION. The meaning of each step of the table: one arm per constructor of `Instr`. -/

namespace Sys2Proof.Machine

/-- The effect of a step on the state. -/
def exec (i : Instr) (s : State) : Host.Outcome State Fault Refusal :=
  match i with
  | .addw d a b => Sys2Proof.Machine.execAddw d a b s
  | .subw d a b => Sys2Proof.Machine.execSubw d a b s
  | .andw d a b => Sys2Proof.Machine.execAndw d a b s
  | .orw d a b => Sys2Proof.Machine.execOrw d a b s
  | .xorw d a b => Sys2Proof.Machine.execXorw d a b s
  | .sll d a b => Sys2Proof.Machine.execSll d a b s
  | .srl d a b => Sys2Proof.Machine.execSrl d a b s
  | .sra d a b => Sys2Proof.Machine.execSra d a b s
  | .slt d a b => Sys2Proof.Machine.execSlt d a b s
  | .sltu d a b => Sys2Proof.Machine.execSltu d a b s
  | .mulw d a b => Sys2Proof.Machine.execMulw d a b s
  | .mulh d a b => Sys2Proof.Machine.execMulh d a b s
  | .mulhu d a b => Sys2Proof.Machine.execMulhu d a b s
  | .divw d a b => Sys2Proof.Machine.execDivw d a b s
  | .divu d a b => Sys2Proof.Machine.execDivu d a b s
  | .remw d a b => Sys2Proof.Machine.execRemw d a b s
  | .minw d a b => Sys2Proof.Machine.execMinw d a b s
  | .maxw d a b => Sys2Proof.Machine.execMaxw d a b s
  | .addi d a imm => Sys2Proof.Machine.execAddi d a imm s
  | .andi d a imm => Sys2Proof.Machine.execAndi d a imm s
  | .ori d a imm => Sys2Proof.Machine.execOri d a imm s
  | .xori d a imm => Sys2Proof.Machine.execXori d a imm s
  | .slti d a imm => Sys2Proof.Machine.execSlti d a imm s
  | .slli d a h => Sys2Proof.Machine.execSlli d a h s
  | .srli d a h => Sys2Proof.Machine.execSrli d a h s
  | .srai d a h => Sys2Proof.Machine.execSrai d a h s
  | .lui d imm => Sys2Proof.Machine.execLui d imm s
  | .beq a b o => Sys2Proof.Machine.execBeq a b o s
  | .bne a b o => Sys2Proof.Machine.execBne a b o s
  | .blt a b o => Sys2Proof.Machine.execBlt a b o s
  | .bge a b o => Sys2Proof.Machine.execBge a b o s
  | .bltu a b o => Sys2Proof.Machine.execBltu a b o s
  | .bgeu a b o => Sys2Proof.Machine.execBgeu a b o s
  | .jal d o => Sys2Proof.Machine.execJal d o s
  | .jalr d a imm => Sys2Proof.Machine.execJalr d a imm s
  | .loopw a o => Sys2Proof.Machine.execLoopw a o s
  | .loopi n o => Sys2Proof.Machine.execLoopi n o s
  | .nop => Sys2Proof.Machine.execNop s
  | .fend => Sys2Proof.Machine.execFend s
  | .rstp => Sys2Proof.Machine.execRstp s
  | .tret => Sys2Proof.Machine.execTret s
  | .trap imm => Sys2Proof.Machine.execTrap imm s
  | .mode k body => Sys2Proof.Machine.execMode k body s
  | .modeScalar k a => Sys2Proof.Machine.execModeScalar k a s
  | .idle n => Sys2Proof.Machine.execIdle n s
  | .sysr d r => Sys2Proof.Machine.execSysr d r s
  | .sysw r a => Sys2Proof.Machine.execSysw r a s
  | .ldd d a imm => Sys2Proof.Machine.execLdd d a imm s
  | .ldw d a imm => Sys2Proof.Machine.execLdw d a imm s
  | .ldh d a imm => Sys2Proof.Machine.execLdh d a imm s
  | .ldb d a imm => Sys2Proof.Machine.execLdb d a imm s
  | .std d a imm => Sys2Proof.Machine.execStd d a imm s
  | .stw d a imm => Sys2Proof.Machine.execStw d a imm s
  | .sth d a imm => Sys2Proof.Machine.execSth d a imm s
  | .stb d a imm => Sys2Proof.Machine.execStb d a imm s
  | .tlook d a => Sys2Proof.Machine.execTlook d a s
  | .tset a b => Sys2Proof.Machine.execTset a b s
  | .tclr a => Sys2Proof.Machine.execTclr a s
  | .mbr d n => Sys2Proof.Machine.execMbr d n s
  | .vadd m d a b => Sys2Proof.Machine.execVadd m d a b s
  | .vsub m d a b => Sys2Proof.Machine.execVsub m d a b s
  | .vmul m d a b => Sys2Proof.Machine.execVmul m d a b s
  | .vfma m d a b => Sys2Proof.Machine.execVfma m d a b s
  | .vfms m d a b => Sys2Proof.Machine.execVfms m d a b s
  | .vnfma m d a b => Sys2Proof.Machine.execVnfma m d a b s
  | .vmin m d a b => Sys2Proof.Machine.execVmin m d a b s
  | .vmax m d a b => Sys2Proof.Machine.execVmax m d a b s
  | .vabs m d a => Sys2Proof.Machine.execVabs m d a s
  | .vneg m d a => Sys2Proof.Machine.execVneg m d a s
  | .vrcp m d a => Sys2Proof.Machine.execVrcp m d a s
  | .vrsq m d a => Sys2Proof.Machine.execVrsq m d a s
  | .vsqrt m d a => Sys2Proof.Machine.execVsqrt m d a s
  | .vpopc m d a => Sys2Proof.Machine.execVpopc m d a s
  | .vclz m d a => Sys2Proof.Machine.execVclz m d a s
  | .vand m d a b => Sys2Proof.Machine.execVand m d a b s
  | .vor m d a b => Sys2Proof.Machine.execVor m d a b s
  | .vxor m d a b => Sys2Proof.Machine.execVxor m d a b s
  | .vshl m d a b => Sys2Proof.Machine.execVshl m d a b s
  | .vshr m d a b => Sys2Proof.Machine.execVshr m d a b s
  | .vsra m d a b => Sys2Proof.Machine.execVsra m d a b s
  | .vmulh m d a b => Sys2Proof.Machine.execVmulh m d a b s
  | .vceq m d a b => Sys2Proof.Machine.execVceq m d a b s
  | .vclt m d a b => Sys2Proof.Machine.execVclt m d a b s
  | .vcle m d a b => Sys2Proof.Machine.execVcle m d a b s
  | .vcvt m d a u => Sys2Proof.Machine.execVcvt m d a u s
  | .vredsum m d a => Sys2Proof.Machine.execVredsum m d a s
  | .vredmax m d a => Sys2Proof.Machine.execVredmax m d a s
  | .vredmin m d a => Sys2Proof.Machine.execVredmin m d a s
  | .vsegsum m d a b => Sys2Proof.Machine.execVsegsum m d a b s
  | .vsegredMax m d a b => Sys2Proof.Machine.execVsegredMax m d a b s
  | .vsegredMin m d a b => Sys2Proof.Machine.execVsegredMin m d a b s
  | .vperm m d a b => Sys2Proof.Machine.execVperm m d a b s
  | .vslide m d a k => Sys2Proof.Machine.execVslide m d a k s
  | .vins m d a b => Sys2Proof.Machine.execVins m d a b s
  | .vext m d a b => Sys2Proof.Machine.execVext m d a b s
  | .vmov m d a => Sys2Proof.Machine.execVmov m d a s
  | .vmovScalar m d b => Sys2Proof.Machine.execVmovScalar m d b s
  | .vrng m d a b => Sys2Proof.Machine.execVrng m d a b s
  | .vpfx m d a b => Sys2Proof.Machine.execVpfx m d a b s
  | .vxsect m d a b => Sys2Proof.Machine.execVxsect m d a b s
  | .vcomp m d a b => Sys2Proof.Machine.execVcomp m d a b s
  | .vexpd m d a b => Sys2Proof.Machine.execVexpd m d a b s
  | .vtbl m d a t => Sys2Proof.Machine.execVtbl m d a t s
  | .vtld m a t => Sys2Proof.Machine.execVtld m a t s
  | .wsoft m d a b => Sys2Proof.Machine.execWsoft m d a b s
  | .wsoftg m d a b => Sys2Proof.Machine.execWsoftg m d a b s
  | .wfromv m d a => Sys2Proof.Machine.execWfromv m d a s
  | .wtov m d a => Sys2Proof.Machine.execWtov m d a s
  | .wnot m d a => Sys2Proof.Machine.execWnot m d a s
  | .wmul m d a b => Sys2Proof.Machine.execWmul m d a b s
  | .wmov m d a => Sys2Proof.Machine.execWmov m d a s
  | .wdrop m d a b => Sys2Proof.Machine.execWdrop m d a b s
  | .arm m w o => Sys2Proof.Machine.execArm m w o s
  | .blend m d a b k => Sys2Proof.Machine.execBlend m d a b k s
  | .bacc m d a b k => Sys2Proof.Machine.execBacc m d a b k s
  | .bnorm m d a b => Sys2Proof.Machine.execBnorm m d a b s
  | .bgrad m d a b k => Sys2Proof.Machine.execBgrad m d a b k s
  | .wloop m w a o => Sys2Proof.Machine.execWloop m w a o s
  | .setvl d a k => Sys2Proof.Machine.execSetvl d a k s
  | .vld m d a => Sys2Proof.Machine.execVld m d a s
  | .vlds m d a b => Sys2Proof.Machine.execVlds m d a b s
  | .vldx m d a b => Sys2Proof.Machine.execVldx m d a b s
  | .vst m d a => Sys2Proof.Machine.execVst m d a s
  | .vsts m d a b => Sys2Proof.Machine.execVsts m d a b s
  | .vstx m d a b => Sys2Proof.Machine.execVstx m d a b s
  | .vstw m d a x k => Sys2Proof.Machine.execVstw m d a x k s
  | .vqst m d a l => Sys2Proof.Machine.execVqst m d a l s
  | .vldq m d a l => Sys2Proof.Machine.execVldq m d a l s
  | .vlrec d a => Sys2Proof.Machine.execVlrec d a s
  | .mshape kb n m => Sys2Proof.Machine.execMshape kb n m s
  | .mzero m d => Sys2Proof.Machine.execMzero m d s
  | .mtrn m d => Sys2Proof.Machine.execMtrn m d s
  | .mopa m d a b => Sys2Proof.Machine.execMopa m d a b s
  | .mopaq m d a b => Sys2Proof.Machine.execMopaq m d a b s
  | .mgath m d a b lb la => Sys2Proof.Machine.execMgath m d a b lb la s
  | .mscale m d a b => Sys2Proof.Machine.execMscale m d a b s
  | .mcolr m d a b => Sys2Proof.Machine.execMcolr m d a b s
  | .mcolw m d a b => Sys2Proof.Machine.execMcolw m d a b s
  | .mrowr m d a b => Sys2Proof.Machine.execMrowr m d a b s
  | .mroww m d a b => Sys2Proof.Machine.execMroww m d a b s
  | .matrixStep job k => Sys2Proof.Machine.execMatrixStep job k s
  | .vldc m d a => Sys2Proof.Machine.execVldc m d a s
  | .vstc m d a => Sys2Proof.Machine.execVstc m d a s
  | .vstm m d a b => Sys2Proof.Machine.execVstm m d a b s
  | .amoadd d a b => Sys2Proof.Machine.execAmoadd d a b s
  | .amomin d a b => Sys2Proof.Machine.execAmomin d a b s
  | .amomax d a b => Sys2Proof.Machine.execAmomax d a b s
  | .amoor d a b => Sys2Proof.Machine.execAmoor d a b s
  | .amoxchg d a b => Sys2Proof.Machine.execAmoxchg d a b s
  | .amocas d a b => Sys2Proof.Machine.execAmocas d a b s
  | .vamoadd m d a b => Sys2Proof.Machine.execVamoadd m d a b s
  | .rmwSlot job => Sys2Proof.Machine.execRmwSlot job s
  | .rkset r a => Sys2Proof.Machine.execRkset r a s
  | .rkgo d a => Sys2Proof.Machine.execRkgo d a s
  | .rackerBeat job k => Sys2Proof.Machine.execRackerBeat job k s
  | .statusWord job => Sys2Proof.Machine.execStatusWord job s
  | .pcard a b => Sys2Proof.Machine.execPcard a b s
  | .pcardClear job k => Sys2Proof.Machine.execPcardClear job k s
  | .psel a b => Sys2Proof.Machine.execPsel a b s
  | .selectionRecord job k => Sys2Proof.Machine.execSelectionRecord job k s
  | .pdisp a b => Sys2Proof.Machine.execPdisp a b s
  | .dispatchLanding job q b => Sys2Proof.Machine.execDispatchLanding job q b s
  | .pcomb a b => Sys2Proof.Machine.execPcomb a b s
  | .combinedRow job t b => Sys2Proof.Machine.execCombinedRow job t b s
  | .flaunch a b => Sys2Proof.Machine.execFlaunch a b s
  | .bgath a b => Sys2Proof.Machine.execBgath a b s
  | .bscat a b => Sys2Proof.Machine.execBscat a b s
  | .bstride a b => Sys2Proof.Machine.execBstride a b s
  | .preq a => Sys2Proof.Machine.execPreq a s
  | .streamWindow job k => Sys2Proof.Machine.execStreamWindow job k s
  | .streamStatus job => Sys2Proof.Machine.execStreamStatus job s
  | .tsend a b => Sys2Proof.Machine.execTsend a b s
  | .tsendv m d a => Sys2Proof.Machine.execTsendv m d a s
  | .sendLanding job g => Sys2Proof.Machine.execSendLanding job g s
  | .drift a => Sys2Proof.Machine.execDrift a s
  | .stepinc => Sys2Proof.Machine.execStepinc s
  | .stepVote folio => Sys2Proof.Machine.execStepVote folio s
  | .rel k => Sys2Proof.Machine.execRel k s
  | .resultLanding job k => Sys2Proof.Machine.execResultLanding job k s
  | .storeLanding job k => Sys2Proof.Machine.execStoreLanding job k s
  | .remoteLanding job k => Sys2Proof.Machine.execRemoteLanding job k s
  | .preciseTimingTrap job => Sys2Proof.Machine.execPreciseTimingTrap job s
  | .baseDieRetry job k ok => Sys2Proof.Machine.execBaseDieRetry job k ok s
  | .reRead job k => Sys2Proof.Machine.execReRead job k s
  | .fecSecondDecode job g ok => Sys2Proof.Machine.execFecSecondDecode job g ok s
  | .machineCheck core => Sys2Proof.Machine.execMachineCheck core s
  | .replay folio => Sys2Proof.Machine.execReplay folio s
  | .replayResume folio => Sys2Proof.Machine.execReplayResume folio s
  | .folioStop folio => Sys2Proof.Machine.execFolioStop folio s
  | .driftFault pkg => Sys2Proof.Machine.execDriftFault pkg s
  | .phaseEstimate pkg link stamp => Sys2Proof.Machine.execPhaseEstimate pkg link stamp s
  | .dispatchRound pkg => Sys2Proof.Machine.execDispatchRound pkg s
  | .folioStart folio => Sys2Proof.Machine.execFolioStart folio s
  | .startAgreement folio => Sys2Proof.Machine.execStartAgreement folio s
  | .folioEnd folio => Sys2Proof.Machine.execFolioEnd folio s
  | .preEmption folio => Sys2Proof.Machine.execPreEmption folio s
  | .translationChange pkg stack index => Sys2Proof.Machine.execTranslationChange pkg stack index s
  | .restAgreement pkg start length => Sys2Proof.Machine.execRestAgreement pkg start length s
  | .restRequest pkg power t0 t1 t2 t3 => Sys2Proof.Machine.execRestRequest pkg power t0 t1 t2 t3 s
  | .rest pkg => Sys2Proof.Machine.execRest pkg s
  | .restEnd pkg => Sys2Proof.Machine.execRestEnd pkg s
  | .hold pkg => Sys2Proof.Machine.execHold pkg s
  | .holdEffect pkg => Sys2Proof.Machine.execHoldEffect pkg s
  | .holdRelease pkg => Sys2Proof.Machine.execHoldRelease pkg s
  | .thermalTrip pkg => Sys2Proof.Machine.execThermalTrip pkg s
  | .powerUp pkg => Sys2Proof.Machine.execPowerUp pkg s
  | .fuses pkg => Sys2Proof.Machine.execFuses pkg s
  | .awaitingFirmware pkg => Sys2Proof.Machine.execAwaitingFirmware pkg s
  | .training pkg ok => Sys2Proof.Machine.execTraining pkg ok s
  | .powerLoss pkg => Sys2Proof.Machine.execPowerLoss pkg s
  | .post pkg record => Sys2Proof.Machine.execPost pkg record s
  | .bind pkg k cellar base length => Sys2Proof.Machine.execBind pkg k cellar base length s
  | .acquire pkg k => Sys2Proof.Machine.execAcquire pkg k s
  | .acquireComplete pkg k => Sys2Proof.Machine.execAcquireComplete pkg k s
  | .release pkg k => Sys2Proof.Machine.execRelease pkg k s
  | .map pkg stack index entry => Sys2Proof.Machine.execMap pkg stack index entry s
  | .invalidate pkg stack index => Sys2Proof.Machine.execInvalidate pkg stack index s
  | .preEmpt pkg folio va => Sys2Proof.Machine.execPreEmpt pkg folio va s
  | .readEntry pkg stack index => Sys2Proof.Machine.execReadEntry pkg stack index s
  | .drain pkg => Sys2Proof.Machine.execDrain pkg s
  | .form pkg members links step0 => Sys2Proof.Machine.execForm pkg members links step0 s
  | .dissolve pkg => Sys2Proof.Machine.execDissolve pkg s
  | .dissolveComplete pkg => Sys2Proof.Machine.execDissolveComplete pkg s
  | .readTable pkg formation => Sys2Proof.Machine.execReadTable pkg formation s
  | .readRegister pkg number => Sys2Proof.Machine.execReadRegister pkg number s
  | .writeRegister pkg number value => Sys2Proof.Machine.execWriteRegister pkg number value s
  | .fence pkg die => Sys2Proof.Machine.execFence pkg die s
  | .fenceEffect pkg die => Sys2Proof.Machine.execFenceEffect pkg die s
  | .unfence pkg die => Sys2Proof.Machine.execUnfence pkg die s
  | .loadFirmware pkg bundle => Sys2Proof.Machine.execLoadFirmware pkg bundle s
  | .firmwareSwitch pkg die => Sys2Proof.Machine.execFirmwareSwitch pkg die s
  | .attest pkg nonce => Sys2Proof.Machine.execAttest pkg nonce s
  | .tick => Sys2Proof.Machine.execTick s
  | .hostAccess pkg va length write => Sys2Proof.Machine.execHostAccess pkg va length write s
  | .recordDelivery pkg => Sys2Proof.Machine.execRecordDelivery pkg s
  | .correctedError pkg site => Sys2Proof.Machine.execCorrectedError pkg site s

end Sys2Proof.Machine
end

