-- ==== Sys2Proof/Machine/Step.lean ====
section
/-! DEFINITION. One step of the machine: an outside occurrence, an event of the cycle, a word, or the clock. -/

namespace Sys2Proof.Machine

/-- One step. Outside occurrences come first, then the events due in the cycle, then the words of the cycle in order of
rank, then what the cycle's words bring about, and then the clock advances (log 11). -/
def step (s : State) : Host.Outcome State Fault Refusal :=
  match s.inputs with
  | i :: r => exec i { s with inputs := r }
  | [] =>
    match s.due with
    | i :: r => exec i { s with due := r }
    | [] =>
      match s.nextCore with
      | some id =>
        match (s.turn id).slot with
        | some i => exec i (s.turn id)
        | none => .next (s.turn id).trapIllegal
      | none =>
        match s.lateEvent with
        | some i => exec i s
        | none => exec .tick s

/-- The state that runs an instruction of the table next: its bits are the word that is fetched. -/
def State.withFetchWord (s : State) (nbits w : Nat) : State := s.place (BitVec.ofNat 32 (w % 2 ^ nbits))

end Sys2Proof.Machine
end

