-- ==== Sys2Proof/Safety.lean ====
section
/-! DEFINITION. The terms in which claims are stated: what a word that issues leaves, what changes one core or one package
alone, and the invariants of the state. -/

namespace Sys2Proof.Machine

/-! ### What a step leaves -/

/-- The work of the word that issues now: numbered, stamped with its core, cycle and word index, with nothing read yet. -/
def State.newJob (s : State) (cap : Cap) (w : Work) : Job where
  seq := s.seq
  core := s.core.id
  cyc := s.now
  word := s.core.pc
  cap := cap
  work := w
  smp := {}
  cut := none
  late := []
  failed := []
  bad := []

/-- The state a word leaves that puts one piece of work in flight and goes on to the next word in the next cycle: nothing
else changes but what `advance` names. -/
def State.issued (s : State) (cap : Cap) (w : Work) : State := { s with jobs := s.jobs ++ [s.newJob cap w] }.advance

/-- Nothing but cores differs. -/
def State.sameElsewhere (s t : State) : Prop :=
  t.pkgs = s.pkgs ∧ t.folios = s.folios ∧ t.jobs = s.jobs ∧ t.votes = s.votes ∧ t.contexts = s.contexts ∧
    t.inputs = s.inputs ∧ t.due = s.due ∧ t.seq = s.seq ∧ t.freeCtr = s.freeCtr

/-- One core becomes `c`; every other core, and everything else, is as before. -/
def State.onlyCore (s t : State) (id : CoreId) (c : Core) : Prop :=
  t.core? id = some c ∧ (∀ i, i ≠ id → t.core? i = s.core? i) ∧ s.sameElsewhere t

/-- One package becomes `p`; every other package, and everything else, is as before. -/
def State.onlyPkg (s t : State) (i : Nat) (p : Package) : Prop := t = { s with pkgs := s.pkgs.set i p }

/-- A core with flags landed, and nothing else changed. -/
def Core.sameButFlags (c c' : Core) : Prop :=
  c' = { c with fs := c'.fs, fx := c'.fx, flagNow := c'.flagNow, flagAt := c'.flagAt }

/-- The flags of fs by class (R115). -/
def Flags.has (f : Flags) (q : Fin 7) : Bool := #v[f.inv, f.dz, f.ovf, f.unf, f.inx, f.sat, f.gate][q]

/-- What an index register that held `o` names once the word that issued as `t` says has raised its class, at index `e` as its
lowest: that word, unless the register names an earlier one; of the word itself, the lower index (R116). -/
def FlagIndex.after (o : Option FlagIndex) (t : Stamp) (e : Nat) : FlagIndex :=
  match o with
  | none => ⟨t.c0, t.seq, t.word, e⟩
  | some o => if t.c0 < o.cycle then ⟨t.c0, t.seq, t.word, e⟩ else if o.seq = t.seq then { o with idx := min o.idx e } else o

/-- Core `c'` has, beside what `c` has, the flags that `hit` names by class and index, from the word that issued as `t` says
(R115, R116). -/
def Core.raised (c c' : Core) (t : Stamp) (hit : Fin 7 → Nat → Prop) : Prop :=
  ∀ q : Fin 7,
    (c'.fs.getLsbD q.val = true ↔ c.fs.getLsbD q.val = true ∨ ∃ e, hit q e) ∧
    ((∀ e, ¬ hit q e) → c'.fx[q] = c.fx[q]) ∧
    ∀ e, hit q e → (∀ e', hit q e' → e ≤ e') → c'.fx[q] = some (FlagIndex.after c.fx[q] t e)

/-- One piece of work in flight becomes `k`; every other field of the state is as before. -/
def State.onlyJob (s t : State) (n : Nat) (k : Job) : Prop := t = s.updJob n fun _ => k

/-! ### What work in flight reads -/

/-- Elements lo to lo+len-1 of register `y` are those of `x`, and its other elements are those of `old`. -/
def taken (x y old : VecBits) (w lo len : Nat) : Prop :=
  ∀ e, e < 16384 / w → elem y w e = if lo ≤ e ∧ e < lo + len then elem x w e else elem old w e

/-- Positions lo to lo+len-1 of weights `y` are those of `x`, and its other positions are those of `old`. -/
def weighed (x y old : WeightBits) (lo len : Nat) : Prop :=
  ∀ p, p < 2048 → weightAt y p = if lo ≤ p ∧ p < lo + len then weightAt x p else weightAt old p

/-- The reads of a piece of work at scc `x` change that piece of the work in flight as `f` says. -/
def State.reads (s : State) (x : Nat) (j : Job) (f : Job → Job) : Prop := (s.sampleJob x j).jobs = (s.updJob j.seq f).jobs

/-! ### Bytes stored -/

/-- The bytes that pieces store, in order, each with its address, which is modulo 2^64. -/
def cellsOf (ps : List (Nat × List Byte)) : List (Nat × Byte) :=
  ps.flatMap fun p => p.2.zipIdx.map fun x => ((p.1 + x.2) % 2 ^ 64, x.1)

/-- The byte that pieces stored in order leave at an address: the last one stored there, if any is. -/
def lastStored (ps : List (Nat × List Byte)) (a : Nat) : Option Byte :=
  ((cellsOf ps).reverse.find? fun x => x.1 == a).map (·.2)

/-- `m'` is the scratchpad `m` after pieces of bytes are stored in order: a byte in range is the last one stored there, or as
before where none is; what lies out of range is dropped (R213). -/
def storedIn (m m' : Memory) (ps : List (Nat × List Byte)) : Prop :=
  ∀ a, a < 2 ^ 20 → spadRead m' a = (lastStored ps a).getD (spadRead m a)

/-! ### Types and integers as the tables name them (R78, R83, R121) -/

/-- F of R121. -/
def typesF : List ETy := [.fp32, .fp16, .bf16, .e5m2, .e4m3]
/-- I of R121. -/
def typesI : List ETy := [.int8, .int16, .int32, .n8, .n16, .n32]
/-- The floating types of 16 and 32 bits. -/
def typesW : List ETy := [.fp32, .fp16, .bf16]
/-- The types that only an MX block stores. -/
def typesMx : List ETy := [.e3m2, .e2m3, .e2m1]
/-- Every type. -/
def typesAll : List ETy := typesF ++ typesI ++ typesMx

/-- The bits of an element in a register (R78). -/
def bitsOf (t : ETy) : Nat :=
  if t ∈ [.fp32, .int32, .n32] then 32 else if t ∈ [.fp16, .bf16, .int16, .n16] then 16 else if t = .e2m1 then 4 else 8

/-- The integer a code means: two's complement for the int types, unsigned for the n types (R83). -/
def intOf (t : ETy) (c : Nat) : Int :=
  if t ∈ [.int8, .int16, .int32] ∧ 2 ^ (bitsOf t - 1) ≤ c then (c : Int) - 2 ^ bitsOf t else c

/-- An integer clamped to the range of its type (R83, R124). -/
def clampInt (t : ETy) (x : Int) : Int :=
  let lo : Int := if t ∈ [.int8, .int16, .int32] then -(2 ^ (bitsOf t - 1)) else 0
  let hi : Int := if t ∈ [.int8, .int16, .int32] then 2 ^ (bitsOf t - 1) - 1 else 2 ^ bitsOf t - 1
  max lo (min hi x)

/-- Whether element `e` is in the body and admitted (R118, R190): its position in the guard weights is above the threshold and
every open mask has it. -/
def isActive (cap : Cap) (body : Nat) (guard : WeightBits) (e : Nat) : Prop :=
  let p := if cap.ty = .e2m1 then e / 2 else e
  e < body ∧ cap.theta < weightAt guard p ∧ cap.mask.getLsbD p = true

/-- Element `e` is one that slot `k` of `len` elements lands: it lies in the slot, and it is active in the body. -/
def Job.lands (j : Job) (len body k e : Nat) : Prop := len * k ≤ e ∧ e < len * (k + 1) ∧ isActive j.cap body j.smp.g e

/-- The active elements of slot `k` of `len` elements, in ascending order. -/
def Job.slotElems (j : Job) (len body k : Nat) : List Nat :=
  ((List.range len).map (· + k * len)).filter (active j.cap body j.smp.g)

/-! ### Invariants -/

/-- A scratchpad keeps its canonical form and lists no byte beyond its size (R210). -/
def spadOk (m : Memory) : Bool := Memory.wf m && m.all fun x => decide (x.1 < spadSize)

/-- The memories of a core keep their canonical form. -/
def Core.memOk (c : Core) : Bool := spadOk c.spad && Cells.wf c.imem && c.imemLine.all fun m => Cells.wf m

/-- The memories and the translation arrays of a package keep their canonical form. -/
def Package.memOk (p : Package) : Bool :=
  p.hbm.toList.all (fun m => Memory.wf m) && Memory.wf p.cellar && Cells.wf p.trans

/-- A property of every core, those of saved contexts too. -/
def State.everyCore (s : State) (f : Core → Bool) : Bool :=
  s.cores.all f && s.contexts.all fun x => x.cores.all f

/-- Every memory of the state keeps its canonical form. -/
def State.memOk (s : State) : Bool := s.everyCore Core.memOk && s.pkgs.all Package.memOk

/-- At most four loops and four arms (R172, R200). -/
def depthOk (cons : List Construct) : Bool := decide (loopCount cons ≤ 4) && decide (armCount cons ≤ 4)

/-- The control registers of a core hold only what R70 to R72, R189, R217, R172 and R200 let them hold, and so do the copies
that a return from a handler or a replay takes up. -/
def Core.legal (c : Core) : Bool :=
  c.m.toList.all (fun x => modeContentsOk x.toNat) && c.shadowM.toList.all (fun x => modeContentsOk x.toNat) &&
    c.th.toList.all (fun x => decide (x.toNat ≤ 0x8000)) && decide (c.vl.toNat ≤ 4096) && decide (c.shadowVl.toNat ≤ 4096) &&
    depthOk c.cons && depthOk c.snap.cons

/-- Every core is legal. -/
def State.legal (s : State) : Bool := s.everyCore Core.legal

end Sys2Proof.Machine
end

