-- ==== Sys2Proof/Certificates/Slice0/Obligations.lean ====
section
/-! DEFINITION. The statements about the model, each after the rules of the spec that its docstring names. A statement that gives
the state an instruction leaves gives all of it: `s.issued` adds one piece of work and goes on to the next word, `s.goto`
fixes the next word, and every field not named is as before. -/

section
open Sys2Proof Sys2Proof.Machine

/-! ### One step (R5, R25, R74, R76, R150) -/

/-- R150, R206: when nothing outside and no event is due, the core whose turn it is issues the word at its program counter: the
step is `exec` of the decoded instruction on the state in which that core is focused. On a listed restart line (R25) the
word is `rstp`. -/
def Obligations.StepRunsDecodedWord : Prop :=
  ∀ (s : State) (id : CoreId) (i : Instr),
    s.inputs = [] → s.due = [] → s.nextCore = some id → (s.turn id).core.issueAt = (s.turn id).now →
    decodeWord (s.turn id).fetch = .ok i → ((s.turn id).onLine = true → (s.turn id).fetch = 0x34000002) →
    step s = exec i (s.turn id)

/-- The model's order within a cycle (log 11): what comes from outside, then the events that are due, then the words, then what the
words bring about, then the clock. -/
def Obligations.StepTakesWhatIsDue : Prop :=
  (∀ (s : State) (i : Instr) (r : List Instr), s.inputs = i :: r → step s = exec i { s with inputs := r }) ∧
  (∀ (s : State) (i : Instr) (r : List Instr), s.inputs = [] → s.due = i :: r → step s = exec i { s with due := r }) ∧
  (∀ (s : State) (i : Instr), s.inputs = [] → s.due = [] → s.nextCore = none → s.lateEvent = some i → step s = exec i s) ∧
  (∀ s : State, s.inputs = [] → s.due = [] → s.nextCore = none → s.lateEvent = none → step s = exec .tick s)

/-- R5, R206: a core's turn focuses it and, at the first word of a later pass of a weighted loop, narrows that loop's live mask:
a position stays live when wK, as read then, is above θ there; every other loop and arm, every other register of the core,
every other core, and everything else, is as before. -/
def Obligations.TurnFocusesOneCore : Prop :=
  (∀ (s : State) (id : CoreId) (c : Core), s.core? id = some c →
    (s.turn id).core = (if c.issueAt = s.nowAt c then c.narrow else c) ∧
    (∀ i, i ≠ id → (s.turn id).core? i = s.core? i) ∧ s.sameElsewhere (s.turn id)) ∧
  (∀ c : Core, c.narrow = { c with cons := c.narrow.cons } ∧ c.narrow.cons.length = c.cons.length ∧
    ∀ (n : Nat) (x : Construct), c.cons[n]? = some x → ∃ y, c.narrow.cons[n]? = some y ∧
      match x with
      | .loop first last left (some v) =>
        if v.refresh then ∃ mask : MaskBits, y = .loop first last left (some { v with mask := mask, refresh := false }) ∧
          ∀ p, p < 2048 → mask.getLsbD p = (v.mask.getLsbD p && decide (v.theta < weightAt (c.getW v.k) p))
        else y = x
      | _ => y = x)

/-- R25, R74, R76, R182, R186, R306: a slot holds no legal word when its word does not decode, or when its cycle is a listed
restart line and it is empty or its word is not `rstp`. Such a slot raises an illegal-instruction trap: tcause, tepc and tval
are written, the core stops, the folio's stop is fixed 320 cycles on, and nothing else changes. -/
def Obligations.IllegalWordTraps : Prop :=
  (∀ s : State, s.slot = none ↔
    (s.onLine = true ∧ (s.core.issueAt ≠ s.now ∨ s.fetch ≠ 0x34000002)) ∨ ∀ i, decodeWord s.fetch ≠ .ok i) ∧
  ∀ (s : State) (id : CoreId), s.inputs = [] → s.due = [] → s.nextCore = some id → (s.turn id).slot = none →
    (∀ f ∈ s.folios, f.id = (s.turn id).core.id.folio → f.stop = none) →
    let t := s.turn id
    let c := t.core
    step s = .next { t with
      core := { c with
        tcause := 0x20000
        tepc := c.pc.setWidth 64
        tval := (Cells.get c.imem c.pc.toNat).setWidth 64
        haltAt := some (match c.haltAt with | some h => min h t.now | none => t.now)
        lastIssue := some t.now }
      folios := t.folios.map fun f =>
        if f.id = c.id.folio then
          { f with stop := some ⟨t.now + 320, [{ cls := .illegal, cycle := t.now - f.start, coord := coordOf c.id, word := c.pc.toNat, code := 0,
                                                 tval := (Cells.get c.imem c.pc.toNat).setWidth 64 }]⟩ }
        else f
      seq := t.seq + 1 }

/-! ### Encoding (R62 to R74) -/

/-- Words that the spec writes out, by family, and the instructions they stand for. -/
def Obligations.SampleWordsDecode : Prop :=
  decodeWord 0x02308800 = .ok (.addw 3 1 2) ∧ decodeWord 0x04507FFF = .ok (.addi 5 0 (-1)) ∧
  decodeWord 0x14480000 = .ok (.lui 4 0x80000) ∧ decodeWord 0x20100003 = .ok (.beq 1 0 3) ∧
  decodeWord 0x2E0F8000 = .ok (.jalr 0 31 0) ∧ decodeWord 0x30400004 = .ok (.loopw 4 4) ∧
  decodeWord 0x32018002 = .ok (.loopi 3 2) ∧ decodeWord 0x34000001 = .ok .fend ∧ decodeWord 0x3C000064 = .ok (.idle 100) ∧
  decodeWord 0x3E900040 = .ok (.sysr 9 .tcause) ∧ decodeWord 0x3E01C010 = .ok (.sysw .fs 3) ∧
  decodeWord 0x4A208008 = .ok (.stw 2 1 8) ∧ decodeWord 0x52100002 = .ok (.mbr 1 2) ∧
  decodeWord 0xB0520400 = .ok (.setvl 5 4 1)

/-- R63, R73: for every instruction that has a word, every operand at every value: decoding the word gives it back. -/
def Obligations.DecodeOfEncode : Prop :=
  ∀ (i : Instr) (w : Word), i.wf = true → encode i = some w → decodeWord w = .ok i

/-- R73, R74: a word that decodes is the word of a well-formed instruction: no bit of it is without meaning. -/
def Obligations.EncodeOfDecode : Prop :=
  ∀ (w : Word) (i : Instr), decodeWord w = .ok i → i.wf = true ∧ encode i = some w

/-! ### Scalar words (R151, R158 to R166, R181, R216) -/

/-- R159 to R163, R181: the 18 register-register words, the immediate words, `lui` and `mbr`. The operands are read at c; one result goes
in flight, landing 1, 3 or 34 cycles later; nothing else changes but the next word. -/
def Obligations.ScalarArithmetic : Prop :=
  (∀ (s : State) (d a b : SReg),
     let x := s.sreg a
     let y := s.sreg b
     let sh := y.toNat % 64
     let gives (i : Instr) (v : DWord) (lat : Nat) : Prop := exec i s = .next (s.issued .none (.scalar d v lat))
     gives (.addw d a b) (BitVec.ofInt 64 (x.toInt + y.toInt)) 1 ∧
     gives (.subw d a b) (BitVec.ofInt 64 (x.toInt - y.toInt)) 1 ∧
     gives (.andw d a b) (BitVec.ofNat 64 (x.toNat &&& y.toNat)) 1 ∧
     gives (.orw d a b) (BitVec.ofNat 64 (x.toNat ||| y.toNat)) 1 ∧
     gives (.xorw d a b) (BitVec.ofNat 64 (x.toNat ^^^ y.toNat)) 1 ∧
     gives (.sll d a b) (BitVec.ofNat 64 (x.toNat * 2 ^ sh)) 1 ∧
     gives (.srl d a b) (BitVec.ofNat 64 (x.toNat / 2 ^ sh)) 1 ∧
     gives (.sra d a b) (BitVec.ofInt 64 (x.toInt / 2 ^ sh)) 1 ∧
     gives (.slt d a b) (if x.toInt < y.toInt then 1 else 0) 1 ∧
     gives (.sltu d a b) (if x.toNat < y.toNat then 1 else 0) 1 ∧
     gives (.mulw d a b) (BitVec.ofInt 64 (x.toInt * y.toInt)) 3 ∧
     gives (.mulh d a b) ((x.signExtend 128 * y.signExtend 128).extractLsb' 64 64) 3 ∧
     gives (.mulhu d a b) ((x.setWidth 128 * y.setWidth 128).extractLsb' 64 64) 3 ∧
     gives (.divw d a b) (if y = 0 then BitVec.allOnes 64 else BitVec.ofInt 64 (x.toInt.tdiv y.toInt)) 34 ∧
     gives (.divu d a b) (if y = 0 then BitVec.allOnes 64 else BitVec.ofNat 64 (x.toNat / y.toNat)) 34 ∧
     gives (.remw d a b) (if y = 0 then x else BitVec.ofInt 64 (x.toInt.tmod y.toInt)) 34 ∧
     gives (.minw d a b) (if x.toInt ≤ y.toInt then x else y) 1 ∧
     gives (.maxw d a b) (if x.toInt ≤ y.toInt then y else x) 1) ∧
  (∀ (s : State) (d a : SReg) (i : BitVec 15) (h : Fin 64) (u : BitVec 20) (n : Fin 16),
     let x := s.sreg a
     let y : DWord := BitVec.ofInt 64 i.toInt
     let gives (i : Instr) (v : DWord) : Prop := exec i s = .next (s.issued .none (.scalar d v 1))
     gives (.addi d a i) (BitVec.ofInt 64 (x.toInt + i.toInt)) ∧
     gives (.andi d a i) (x &&& y) ∧ gives (.ori d a i) (x ||| y) ∧ gives (.xori d a i) (x ^^^ y) ∧
     gives (.slti d a i) (if x.toInt < i.toInt then 1 else 0) ∧
     gives (.slli d a h) (BitVec.ofNat 64 (x.toNat * 2 ^ h.val)) ∧
     gives (.srli d a h) (BitVec.ofNat 64 (x.toNat / 2 ^ h.val)) ∧
     gives (.srai d a h) (BitVec.ofInt 64 (x.toInt / 2 ^ h.val)) ∧
     gives (.lui d u) (BitVec.ofInt 64 (u.toInt * 2 ^ 12)) ∧
     gives (.mbr d n) (s.core.mb[n]))

/-- R64, R148, R151: a scalar result lands: its register holds it from this cycle on, a write to s0 is discarded, and nothing
else changes. -/
def Obligations.ScalarResultLands : Prop :=
  ∀ (s : State) (n k : Nat) (j : Job) (c : Core) (d : SReg) (x : DWord) (lat : Nat),
    s.job? n = some j → j.work = .scalar d x lat → s.core? j.core = some c →
    ∃ t, exec (.resultLanding n k) s = .next t ∧
      s.onlyCore t j.core { c with s := if d = 0 then c.s else c.s.set d x } ∧
      (∀ c', t.core? j.core = some c' → c'.getS d = if d = 0 then 0 else x)

/-- R121, R145, R146, R150, R151, R158, R192, R219, R221, R225, R230, R253, R255, R257, R273, R278, R282, R285 to R287, R300, R301, R319,
R324, R325, R326, R339, R348, R349: when what is in flight lands: as the clock reaches the cycle that a table gives, the landing is
due. A scalar result comes L cycles after issue; slot g of a lane, weight, join or vector memory word g cycles after slot 0; the
steps of a matrix word from c+22 on and its effect at c+33+S; groups of a cluster access at c+30+g or c+18+g, and the write of an
atomic at c+14 or c+35; beats of a transfer from T0 on, then its status; the beats of Press words, a stream's window, beats and
status, and groups of a send at c+d+g. A part that is read or decoded again comes 64 cycles late. A result that no register takes
is discarded (log 69). The model's choice: where the second attempt failed, the late landing is the cycle of the machine check and
falls due too, and no rule gives that cycle (log 79); a stream block whose stack byte is 8 or more is invalid (log 123). -/
def Obligations.LandingsDueAtTheirCycles : Prop :=
  (∀ (s t : State) (j : Job) (c : Core),
    exec .tick s = .next t → j ∈ s.jobs → (∀ i ∈ s.jobs, i.seq = j.seq → i = j) → j.late = [] → s.core? j.core = some c →
    let ty := j.cap.ty
    let due (r : Nat) (i : Instr) : Prop := s.jobNow j < j.cyc + r → t.jobNow j = j.cyc + r → i ∈ t.due
    let res (r : Nat) : Prop := due r (.resultLanding j.seq 0)
    let slots (r : Nat) : Prop := ∀ g, g < 16 → due (r + g) (.resultLanding j.seq g)
    let stores (r : Nat) : Prop := ∀ g, g < 16 → due (r + g) (.storeLanding j.seq g)
    (∀ d x lat, j.work = .scalar d x lat → d ≠ 0 → 0 < lat → res lat) ∧
    (∀ a bs, j.work = .sstore a bs → due 2 (.storeLanding j.seq 0)) ∧
    (∀ l, j.work = .lane l → l.discarded = false →
      let tree := (16384 / bitsOf ty).log2
      (l.op ∈ [.add, .sub, .mul, .fma, .fms, .nfma, .min, .max] → (ty ∈ typesF → slots 10) ∧ (ty ∈ typesI → slots 8)) ∧
      (l.op ∈ [.abs, .neg, .popc, .clz, .and, .or, .xor, .shl, .shr, .sra, .mulh, .mov, .movs, .wnot, .wmov] → slots 8) ∧
      (l.op ∈ [.ceq, .clt, .cle, .wsoft, .wfromv, .wtov, .wmul] → slots 9) ∧ (∀ u, l.op = .cvt u → slots 9) ∧
      (l.op ∈ [.wsoftg, .bacc] → slots 10) ∧ (l.op ∈ [.rng, .wdrop] → slots 11) ∧ (∀ tb, l.op = .tbl tb → slots 12) ∧
      (l.op ∈ [.rcp, .rsq, .sqrt, .blend, .bnorm, .bgrad] → slots 18) ∧ (l.op ∈ [.perm, .slide, .comp, .expd] → slots 24) ∧
      (l.op ∈ [.pfx, .xsect] → slots 28) ∧ (l.op ∈ [.ins, .ext] → res 24) ∧
      (l.op ∈ [.redsum, .segsum] → (ty ∈ typesF → res (22 + 4 * tree)) ∧ (ty ∈ typesI → res (22 + 2 * tree))) ∧
      (l.op ∈ [.redmax, .redmin, .segmax, .segmin] → res (22 + 2 * tree))) ∧
    (∀ kind d a x, j.work = .vmem kind d a x → match kind with
      | .load => slots 14 | .store => stores 8 | .blend _ => stores 10 | .qstore _ => stores 11 | .qload _ => slots 16) ∧
    (∀ d a, j.work = .vtld d a → res 12) ∧ (∀ d a x, j.work = .vlrec d a x → res 8) ∧
    (∀ op d a b sh img, j.work = .matrix op d a b sh img →
      let n := matSteps j.cap op sh
      (∀ k, k < n → due (22 + k) (.matrixStep j.seq k)) ∧
      match op with
      | .mcolr _ | .mrowr _ => ∀ g, g < moveGroups ty → due (30 + g) (.resultLanding j.seq g)
      | _ => n ≠ 0 → res (33 + n)) ∧
    (∀ op d a, j.work = .remote op d a → ∀ g, g < 16 → match op with
      | .load => due (30 + g) (.remoteLanding j.seq g) | _ => due (18 + g) (.remoteLanding j.seq g)) ∧
    (∀ op d a x y o, j.work = .amo op d a x y o → due 14 (.rmwSlot j.seq) ∧ (d ≠ 0 → res 24)) ∧
    (∀ d a v, j.work = .vamo d a v → due 35 (.rmwSlot j.seq)) ∧
    (∀ a start, j.work = .flaunch a start → res 8) ∧ (∀ va, j.work = .preq va → res 1) ∧
    (∀ a v dist, j.work = .send a v dist → dist ≠ 0 → due dist (.sendLanding j.seq 0)) ∧
    (∀ d a dist, j.work = .sendv d a dist → dist ≠ 0 → ∀ g, g < 16 → due (dist + g) (.sendLanding j.seq g))) ∧
  (∀ (s t : State) (j : Job) (c : Core) (r : Nat),
    exec .tick s = .next t → j ∈ t.jobs → t.core? j.core = some c → s.jobNow j < t.jobNow j → t.jobNow j = j.cyc + r →
    (j.late = [] → 2 ≤ r →
      (∀ x, j.work = .racker x →
        let t0 := (if x.sHbm then 560 else if x.mode = 3 then 900 else 14) + (if x.dHbm then 24 else if x.mode = 3 then 320 else 2) +
          48 * x.dist + (if x.mode = 2 then 6 else 0)
        let step := if x.mode = 3 then 205 else 1
        let n := x.rows * x.beatsPerRow
        (∀ k, k < n → r = t0 + step * k → .rackerBeat j.seq k ∈ t.due) ∧
        (r = (if n = 0 then t0 else t0 + step * (n - 1) + 1) → .statusWord j.seq ∈ t.due)) ∧
      (∀ p, j.work = .press p →
        (p.op = .card → ∀ cd k, t.cardClears j = some cd → k < cd.clearBeats → r = 48 + k → .pcardClear j.seq k ∈ t.due) ∧
        (r = p.last (p.govern (t.extOf j.core.folio) j.core) → .resultLanding j.seq 0 ∈ t.due) ∧
        ∀ cd n, p.govern (t.extOf j.core.folio) j.core = some (cd, n) →
          (p.op = .sel → ∀ b, b < cd.bs n → r = 46 + cd.bl n + cd.bits + b → .selectionRecord j.seq b ∈ t.due) ∧
          (p.op = .disp → ∀ q, q < n * cd.k →
            (∀ b, b < cd.br → r = 8 + q * cd.br + 40 + b → .dispatchLanding j.seq q b ∈ t.due) ∧
            (0 < cd.br → r = 8 + q * cd.br + 80 → .storeLanding j.seq q ∈ t.due)) ∧
          (p.op = .comb → ∀ i b, i < n → b < cd.bc → r = 92 + (i + 1) * cd.rc + b → .combinedRow j.seq i b ∈ t.due)) ∧
      (∀ x, j.work = .stream x →
        let w := if x.listHbm then x.n + ceilDiv x.n 64 + 112 else x.n + 48
        (x.valid j.core.die = false → r = 600 → .streamStatus j.seq ∈ t.due) ∧
        (x.valid j.core.die = true →
          (r = 64 + 48 * x.dist → .streamWindow j.seq 0 ∈ t.due) ∧
          (x.op = .scat → r = 64 + 48 * x.dist + w → .streamWindow j.seq 1 ∈ t.due) ∧
          (x.op ≠ .scat → ∀ k, k < x.dataBeats → r = 600 + 96 * x.dist + w + k → .storeLanding j.seq k ∈ t.due) ∧
          (r = 600 + 96 * x.dist + w + (if x.op = .scat then 0 else x.dataBeats) →
            .streamStatus j.seq ∈ t.due ∧ (x.wr ≠ 0 → .resultLanding j.seq 0 ∈ t.due))))) ∧
    (∀ k ∈ j.late, r = j.lateLanding k + 64 →
      (j.sending = true → .sendLanding j.seq k ∈ t.due ∧ (k ∈ j.failed → .fecSecondDecode j.seq k false ∈ t.due)) ∧
      (j.sending = false → (k ∉ j.failed → .reRead j.seq k ∈ t.due) ∧ (k ∈ j.failed → .baseDieRetry j.seq k false ∈ t.due))))

/-- R164 to R166, R214: a scalar load reads its bytes at c, little-endian and sign-extended, an out-of-range byte as 0; the result
goes in flight for c+4, and the address is offered to oob when some byte is out of range. It names itself, with a
precise timing trap, when its visits overflow (R251). -/
def Obligations.LoadsRead : Prop :=
  ∀ (s : State) (d a : SReg) (i : BitVec 15),
    let ea : DWord := BitVec.ofInt 64 ((s.sreg a).toInt + i.toInt)
    let byte (k : Nat) : Nat := (spadRead s.core.spad ((ea.toNat + k) % 2 ^ 64)).toNat
    let value (n : Nat) : Nat := ((List.range n).map fun k => byte k * 2 ^ (8 * k)).sum
    let after (n : Nat) (x : DWord) : State :=
      ({ s with core := if ∃ k < n, 2 ^ 20 ≤ (ea.toNat + k) % 2 ^ 64 then s.core.offer s.cycle s.cycle 0 ea else s.core }).issued
        .none (.scalar d x 4)
    (s.loadConflict ea.toNat 8 = false → exec (.ldd d a i) s = .next (after 8 (BitVec.ofNat 64 (value 8)))) ∧
    (s.loadConflict ea.toNat 4 = false →
      exec (.ldw d a i) s = .next (after 4 ((BitVec.ofNat 32 (value 4)).signExtend 64))) ∧
    (s.loadConflict ea.toNat 2 = false →
      exec (.ldh d a i) s = .next (after 2 ((BitVec.ofNat 16 (value 2)).signExtend 64))) ∧
    (s.loadConflict ea.toNat 1 = false →
      exec (.ldb d a i) s = .next (after 1 ((BitVec.ofNat 8 (value 1)).signExtend 64))) ∧
    (s.loadConflict ea.toNat 8 = true → exec (.ldd d a i) s = .next s.trapTiming) ∧
    (s.loadConflict ea.toNat 4 = true → exec (.ldw d a i) s = .next s.trapTiming) ∧
    (s.loadConflict ea.toNat 2 = true → exec (.ldh d a i) s = .next s.trapTiming) ∧
    (s.loadConflict ea.toNat 1 = true → exec (.ldb d a i) s = .next s.trapTiming)

/-- R164 to R166, R213, R214: a scalar store reads its data at c and puts the low bytes in flight, and no byte of memory has changed
yet. When it lands, byte k goes to address EA + k mod 2^64 where that is below 2^20 and is dropped otherwise, every other
byte of the scratchpad reads as before, and no register changes but oob. -/
def Obligations.ScalarStores : Prop :=
  (∀ (s : State) (d a : SReg) (i : BitVec 15),
     let ea : DWord := BitVec.ofInt 64 ((s.sreg a).toInt + i.toInt)
     let bytes (n : Nat) : List Byte := (List.range n).map fun k => (s.sreg d).extractLsb' (8 * k) 8
     let after (n : Nat) : State := s.issued .none (.sstore ea (bytes n))
     exec (.std d a i) s = .next (after 8) ∧ exec (.stw d a i) s = .next (after 4) ∧
     exec (.sth d a i) s = .next (after 2) ∧ exec (.stb d a i) s = .next (after 1)) ∧
  (∀ (s : State) (n k : Nat) (j : Job) (c : Core) (ea : DWord) (bs : List Byte),
     s.memOk = true → s.job? n = some j → j.work = .sstore ea bs → bs.length ≤ 8 → j.cut = none → s.core? j.core = some c →
     ∃ (t : State) (m : Memory) (oob : DWord) (from_ : Option (Nat × Nat × Nat)),
       exec (.storeLanding n k) s = .next t ∧ s.onlyCore t j.core { c with spad := m, oob := oob, oobFrom := from_ } ∧
       (∀ i (hi : i < bs.length), spadRead m ((ea.toNat + i) % 2 ^ 64) = if (ea.toNat + i) % 2 ^ 64 < 2 ^ 20 then bs[i] else 0) ∧
       (∀ x, (∀ i, i < bs.length → x ≠ (ea.toNat + i) % 2 ^ 64) → spadRead m x = spadRead c.spad x) ∧
       ((∀ i, i < bs.length → (ea.toNat + i) % 2 ^ 64 < 2 ^ 20) → oob = c.oob ∧ from_ = c.oobFrom))

/-- R215, R216: `tlook` puts in flight, for c+4, the lowest slot whose entry holds the tag, or 0xFFFF; `tset` and `tclr` write their
entry and nothing else; a slot of 256 or more is illegal. The three words that R216 writes out decode to them. R216 lands
the entry at c+1: that it is written in the issue cycle, after which alone a `tlook` can read it, is the model's reading
(log 77). -/
def Obligations.TagTable : Prop :=
  (decodeWord 0x50530000 = .ok (.tlook 5 6) ∧ decodeWord 0x50008801 = .ok (.tset 1 2) ∧ decodeWord 0x50008002 = .ok (.tclr 1)) ∧
  (∀ (s : State) (d a : SReg), ∃ x : DWord,
    exec (.tlook d a) s = .next (s.issued .none (.scalar d x 4)) ∧
    ((∃ k : Fin 256, x = BitVec.ofNat 64 k.val ∧ s.core.tags[k] = some ((s.sreg a).setWidth 48) ∧
        ∀ i : Fin 256, i < k → s.core.tags[i] ≠ some ((s.sreg a).setWidth 48)) ∨
     (x = 0xFFFF ∧ ∀ i : Fin 256, s.core.tags[i] ≠ some ((s.sreg a).setWidth 48)))) ∧
  (∀ (s : State) (a b : SReg) (k : Fin 256), (s.sreg a).toNat = k.val →
    exec (.tset a b) s =
      .next ({ s with core := { s.core with tags := s.core.tags.set k (some ((s.sreg b).setWidth 48)) } }).advance) ∧
  (∀ (s : State) (a : SReg) (k : Fin 256), (s.sreg a).toNat = k.val →
    exec (.tclr a) s = .next ({ s with core := { s.core with tags := s.core.tags.set k none } }).advance) ∧
  (∀ (s : State) (a b : SReg), 256 ≤ (s.sreg a).toNat →
    exec (.tset a b) s = .next s.trapIllegal ∧ exec (.tclr a) s = .next s.trapIllegal)

/-! ### Control (R167 to R177, R199, R200, R205) -/

/-- R150, R173, R174, R200: fixing the next word. Where no open construct ends at it, it issues next; where the innermost arm ends
there, the arm closes (R200); where a loop ends there with passes left, the first word of its body issues instead; a loop on
its last pass closes; what has closed leaves the same question to the construct around it. That the word after word 32,767
is word 0 is the model's choice (log 3). -/
def Obligations.NextWordEndsConstructs : Prop :=
  ∀ (c : Core) (now next gap : Nat),
    ((∀ k r, c.cons = k :: r → k.last ≠ next) →
      c.goto now next gap = { c with pc := BitVec.ofNat 15 next, issueAt := now + gap, lastIssue := some now }) ∧
    (∀ mask r, c.cons = .arm next mask :: r → c.goto now next gap = ({ c with cons := r }).goto now next gap) ∧
    (∀ first left live r, c.cons = .loop first next left live :: r → left ≤ 1 →
      c.goto now next gap = ({ c with cons := r }).goto now next gap) ∧
    (∀ first left live r, c.cons = .loop first next left live :: r → 1 < left →
      c.goto now next gap = { c with
        pc := BitVec.ofNat 15 first
        cons := .loop first next (left - 1) (live.map fun l => { l with refresh := true }) :: r
        issueAt := now + gap
        lastIssue := some now })

/-- R167, R68: a conditional branch compares sA and sB as read at c; taken, its target issues at c+3; otherwise the next word
issues at c+1. A target beyond the end word of the innermost open construct is illegal either way. -/
def Obligations.BranchesComplete : Prop :=
  ∀ (s : State) (a b : SReg) (o : BitVec 15),
    let x := s.sreg a
    let y := s.sreg b
    let target := s.core.pc.toNat + o.toNat
    let goes (p : Prop) [Decidable p] : Out := .next (if p then s.goto target 3 else s.goto (s.core.pc.toNat + 1) 1)
    (1 ≤ o.toNat → o.toNat ≤ 16383 → target ≤ 32767 → (∀ k r, s.core.cons = k :: r → target ≤ k.last) →
      exec (.beq a b o) s = goes (x = y) ∧ exec (.bne a b o) s = goes (x ≠ y) ∧
      exec (.blt a b o) s = goes (x.toInt < y.toInt) ∧ exec (.bge a b o) s = goes (y.toInt ≤ x.toInt) ∧
      exec (.bltu a b o) s = goes (x.toNat < y.toNat) ∧ exec (.bgeu a b o) s = goes (y.toNat ≤ x.toNat)) ∧
    ((32767 < target ∨ ∃ k r, s.core.cons = k :: r ∧ k.last < target) →
      exec (.beq a b o) s = .next s.trapIllegal ∧ exec (.bne a b o) s = .next s.trapIllegal ∧
      exec (.blt a b o) s = .next s.trapIllegal ∧ exec (.bge a b o) s = .next s.trapIllegal ∧
      exec (.bltu a b o) s = .next s.trapIllegal ∧ exec (.bgeu a b o) s = .next s.trapIllegal)

/-- R168, R169, R174: `jal` and `jalr` put the link in flight for c+1 and issue their target at c+3: a jump (sD is s0) as every word
that is fixed, which may end a pass; a call to any target leaves every open construct open. A target outside instruction
memory, or a jump past the innermost open end word, is illegal. -/
def Obligations.JumpsComplete : Prop :=
  ∀ (s : State) (d a : SReg) (o : BitVec 20) (i : BitVec 15) (t : Nat),
    let link : Work := .scalar d (BitVec.ofNat 64 (s.core.pc.toNat + 1)) 1
    let linked : State := { s with jobs := s.jobs ++ [s.newJob .none link] }
    let goes : Out := .next (if d = 0 then linked.goto t 3 else { linked with
      core := { s.core with pc := BitVec.ofNat 15 t, issueAt := s.now + 3, lastIssue := some s.now }, seq := s.seq + 1 })
    let blocked : Prop := d = 0 ∧ ∃ k r, s.core.cons = k :: r ∧ k.last < t
    let jal : Prop := (s.core.pc.toNat : Int) + o.toInt = t
    let jalr : Prop := BitVec.ofInt 64 ((s.sreg a).toInt + i.toInt) = BitVec.ofNat 64 t
    (t ≤ 32767 → ¬ blocked → (jal → exec (.jal d o) s = goes) ∧ (jalr → exec (.jalr d a i) s = goes)) ∧
    (32767 < t ∨ blocked → t < 2 ^ 64 →
      (jal → exec (.jal d o) s = .next s.trapIllegal) ∧ (jalr → exec (.jalr d a i) s = .next s.trapIllegal)) ∧
    ((s.core.pc.toNat : Int) + o.toInt < 0 → exec (.jal d o) s = .next s.trapIllegal)

/-- R171, R172, R205, R206: a loop word of n passes takes three cycles; with n ≥ 1 it opens its body, with n = 0 its end word
issues; `wloop` also keeps θ and the live mask of its weight register, as read at c. A fifth loop, an end word beyond the
innermost open one, or a count of 2^32 or more, is illegal. -/
def Obligations.LoopsOpen : Prop :=
  (∀ (s : State) (m : MReg) (w : WReg) (a : SReg) (n : BitVec 10) (o : BitVec 15),
     let last := s.core.pc.toNat + o.toNat
     let opens (n : Nat) (live : Option Live) : Out :=
       .next (if n = 0 then s.goto last 3
         else ({ s with core := { s.core with cons := .loop (s.core.pc.toNat + 1) last n live :: s.core.cons } }).goto
           (s.core.pc.toNat + 1) 3)
     let theta := (s.core.th[modeTh s.core.m[m]]).toNat
     2 ≤ o.toNat → o.toNat ≤ 16383 → last ≤ 32767 → (∀ k r, s.core.cons = k :: r → last ≤ k.last) → loopCount s.core.cons < 4 →
     exec (.loopi n o) s = opens n.toNat none ∧
     ((s.sreg a).toNat < 2 ^ 32 → exec (.loopw a o) s = opens (s.sreg a).toNat none ∧
       ∃ mask : MaskBits, exec (.wloop m w a o) s = opens (s.sreg a).toNat (some ⟨w, theta, mask, false⟩) ∧
         ∀ p, p < 2048 → mask.getLsbD p = decide (theta < weightAt (s.core.getW w) p))) ∧
  (∀ (s : State) (m : MReg) (w : WReg) (a : SReg) (n : BitVec 10) (o : BitVec 15),
     let last := s.core.pc.toNat + o.toNat
     let deep : Prop := 4 ≤ loopCount s.core.cons ∨ 32767 < last ∨ ∃ k r, s.core.cons = k :: r ∧ k.last < last
     (deep → exec (.loopi n o) s = .next s.trapIllegal) ∧
     (deep ∨ 2 ^ 32 ≤ (s.sreg a).toNat →
       exec (.loopw a o) s = .next s.trapIllegal ∧ exec (.wloop m w a o) s = .next s.trapIllegal))

/-- R199, R200: `arm` opens with the mask of the positions whose weight, as read at c, is above the threshold its mode register
selects; a fifth arm, or an end word beyond the innermost open one, is illegal. -/
def Obligations.ArmsOpen : Prop :=
  ∀ (s : State) (m : MReg) (w : WReg) (o : BitVec 15),
    let last := s.core.pc.toNat + o.toNat
    let theta := (s.core.th[modeTh s.core.m[m]]).toNat
    (2 ≤ o.toNat → o.toNat ≤ 16383 → last ≤ 32767 → (∀ k r, s.core.cons = k :: r → last ≤ k.last) → armCount s.core.cons < 4 →
      ∃ mask : MaskBits,
        exec (.arm m w o) s = .next ({ s with core := { s.core with cons := .arm last mask :: s.core.cons } }).advance ∧
        ∀ p, p < 2048 → mask.getLsbD p = decide (theta < weightAt (s.core.getW w) p)) ∧
    ((4 ≤ armCount s.core.cons ∨ 32767 < last ∨ ∃ k r, s.core.cons = k :: r ∧ k.last < last) →
      exec (.arm m w o) s = .next s.trapIllegal)

/-- R175, R176: `nop` spends one slot and `idle n` spends n more, with no other effect; after `fend` no word issues, the loop stack
and the handler state are discarded, and work in flight stays. -/
def Obligations.IdlingAndEnding : Prop :=
  ∀ (s : State) (n : BitVec 15),
    exec .nop s = .next (s.goto (s.core.pc.toNat + 1) 1) ∧
    exec (.idle n) s = .next (s.goto (s.core.pc.toNat + 1) (1 + n.toNat)) ∧
    exec .fend s = .next { s with
      core := { s.core with fended := true, cons := [], tstate := false, lastIssue := some s.now }
      seq := s.seq + 1 }

/-- R25, R177, R227: `rstp` at a listed cycle, outside a handler and with no stop pending, replaces the snapshot by the next word,
the scalar registers as read at c, the loop stack and the stage; filled words become fetchable; it is illegal off the
restart table and inside a handler. The first core to pass the line has the folio pass it (R25, R277, R288, R300, R353):
cores that have ended commit their fills, pending `flaunch` records arrive in the queue of the folio's package, and what a
rollback returns to is noted: the line, the step counter, the Press, the Rackers and the count of `flaunch` words. Nothing
else changes, and no other core. With a stop pending the folio, the snapshot and all else stay, but that the core's filled
words become fetchable; instruction memory as of the line is kept for the rollback (R227, R302). -/
def Obligations.RestartPoint : Prop :=
  (∀ (s : State), s.onLine = true → s.core.tstate = false → (∀ f ∈ s.folios, f.stop = none) →
    ∃ t, exec .rstp s = .next t ∧
      t.core = { s.advance.core with
        snap := ⟨s.advance.core.pc, s.core.s, s.advance.core.cons, s.core.stage, s.cycle⟩
        imem := s.core.fill.foldl (fun m x => Cells.set m x.1 x.2) s.core.imem
        fill := [] } ∧
      t.jobs = s.jobs ∧ t.votes = s.votes ∧ t.contexts = s.contexts ∧ t.seq = s.seq + 1) ∧
  (∀ (s : State) (f : Folio) (p : Package), s.onLine = true → s.core.tstate = false → s.folio? s.core.id.folio = some f →
    f.stop = none → s.pkgs[f.owner]? = some p →
      let passed : Prop := f.phase = .running ∧ f.start ≤ s.folioNow f ∧ f.listed (s.cycleOf f) = true ∧
        ¬ (f.marked = true ∧ f.line = s.cycleOf f)
      ∃ t, exec .rstp s = .next t ∧ t.inputs = s.inputs ∧ t.due = s.due ∧ t.freeCtr = s.freeCtr ∧
        (¬ passed → t.others = s.others ∧ t.folios = s.folios ∧ t.pkgs = s.pkgs) ∧
        (passed →
          t.others = s.others.map (fun c => if c.id.folio = f.id ∧ c.fended = true then
            { c with imem := c.fill.foldl (fun m x => Cells.set m x.1 x.2) c.imem, fill := [] } else c) ∧
          t.folios = s.folios.map (fun g => if g.id = f.id then
            { g with
              pending := [], line := s.cycleOf g, marked := true, replayInterval := false, stepAtLine := s.stepOf g.owner
              pressAtLine := g.press, rackersAtLine := g.rackers, launchesAtLine := g.launches } else g) ∧
          t.pkgs = s.pkgs.set f.owner { p with queue := p.queue ++ f.pending.map fun w =>
            { id := w.id, record := w.record, host := false, prio := recPrio w.record, passes := 0, notBefore := w.notBefore
              extraDep := if recAfter w.record then f.id % 2 ^ 64 else 0 } })) ∧
  (∀ (s : State) (f : Folio), s.onLine = true → s.core.tstate = false → s.folio? s.core.id.folio = some f → f.stop ≠ none →
    exec .rstp s = .next { s.advance with core := { s.advance.core with
      imemLine := if s.core.fill = [] then s.core.imemLine else some (s.core.imemLine.getD s.core.imem)
      imem := s.core.fill.foldl (fun m x => Cells.set m x.1 x.2) s.core.imem
      fill := [] } }) ∧
  (∀ (s : State), s.onLine = false ∨ s.core.tstate = true → exec .rstp s = .next s.trapIllegal)

/-! ### Traps and the system words (R51, R72, R182 to R189, R217) -/

/-- R182 to R186, R306: `trap` with a handler and outside one enters the handler; `tret` restores m0 to m3 and vl, leaves the handler,
and issues word tepc at c+3; a `tret` outside a handler is illegal. After both, the mode registers and vl are those of the
entry, and where no construct is open the word after the `trap` issues. A `trap` without a handler, or inside one, stops
the core and the folio: class 1, or class 5 with tepc as before; the stop cycle is 320 cycles on. The model's choice: the word
after word 32,767, which tepc holds and to which the return goes, is word 0 (log 3), a handler whose tvec is above 32,767 is entered at
tvec modulo 2^15 (log 106), and a handler that begins at the end word of the innermost open construct ends that construct's
pass, as every word that is fixed does (log 85). -/
def Obligations.Traps : Prop :=
  ((∀ (s : State) (i : BitVec 15), s.core.tvec ≠ BitVec.allOnes 64 → s.core.tstate = false →
     let c := s.core
     exec (.trap i) s = .next ({ s with core := { c with
       tcause := BitVec.ofNat 64 (0x10000 + i.toNat)
       tepc := BitVec.ofNat 64 ((c.pc.toNat + 1) % 32768)
       tval := 0
       tstate := true
       shadowM := c.m
       shadowVl := c.vl } }.goto c.tvec.toNat 3)) ∧
   (∀ (s : State), s.core.tstate = true →
     let c := s.core
     exec .tret s =
       .next ({ s with core := { c with m := c.shadowM, vl := c.shadowVl, tstate := false } }.goto (c.tepc.toNat % 32768) 3)) ∧
   (∀ (s : State), s.core.tstate = false → exec .tret s = .next s.trapIllegal) ∧
   (∀ (s t u : State) (i : BitVec 15), s.core.tvec ≠ BitVec.allOnes 64 → s.core.tstate = false → s.core.cons = [] →
     exec (.trap i) s = .next t → exec .tret t = .next u →
     u.core.pc = s.core.pc + 1 ∧ u.core.m = s.core.m ∧ u.core.vl = s.core.vl ∧ u.core.tstate = false ∧ u.core.s = s.core.s)) ∧
  (∀ (s : State) (i : BitVec 15), (s.core.tvec = BitVec.allOnes 64 ∨ s.core.tstate = true) →
     (∀ f ∈ s.folios, f.id = s.core.id.folio → f.stop = none) →
     let c := s.core
     let nested := c.tstate
     exec (.trap i) s = .next { s with
       core := { c with
         tcause := BitVec.ofNat 64 ((if nested then 0x50000 else 0x10000) + i.toNat)
         tepc := if nested then c.tepc else BitVec.ofNat 64 ((c.pc.toNat + 1) % 32768)
         tval := 0
         haltAt := some (match c.haltAt with | some h => min h s.now | none => s.now)
         lastIssue := some s.now }
       folios := s.folios.map fun f =>
         if f.id = c.id.folio then
           { f with stop := some ⟨s.now + 320, [{ cls := if nested then .nested else .software, cycle := s.now - f.start, coord := coordOf c.id,
                                                  word := c.pc.toNat, code := i.toNat, tval := 0 }]⟩ }
         else f
       seq := s.seq + 1 })

/-- R4, R70 to R72, R180, R217: `mode` writes its mode register, which governs the next word; contents with a reserved type, rounding
or τ code, or with bits 31:23 not zero, are illegal and leave it. Which bits of sA the second form reads is log 21.
`setvl` grants min(sA, VLMAX) under the type of its mode register: vl governs from the next word, and sD gets the grant at
c+1. -/
def Obligations.ModeAndVl : Prop :=
  (∀ (s : State) (k : MReg) (body : BitVec 23) (a : SReg),
     let legal (x : Nat) : Prop :=
       x < 2 ^ 23 ∧ x % 16 ≤ 0xD ∧ x / 16 % 8 ≤ 4 ∧ x / 2 ^ 15 ≠ 255 ∧ (x / 2 ^ 15 = 0 → x / 2 ^ 12 % 8 = 0)
     let sets (x : Nat) : Out := .next ({ s with core := { s.core with m := s.core.m.set k (BitVec.ofNat 32 x) } }).advance
     let low := (s.sreg a).toNat % 2 ^ 32
     (legal body.toNat → exec (.mode k body) s = sets body.toNat) ∧ (¬ legal body.toNat → exec (.mode k body) s = .next s.trapIllegal) ∧
     (legal low → exec (.modeScalar k a) s = sets low) ∧ (¬ legal low → exec (.modeScalar k a) s = .next s.trapIllegal)) ∧
  (∀ (s : State) (d a : SReg) (k : MReg) (w : Nat),
     (match (s.core.m[k]).toNat % 16 with | 0 | 10 | 13 => w = 32 | 1 | 2 | 9 | 12 => w = 16 | 7 => w = 4 | 14 | 15 => False | _ => w = 8) →
     let n := min (s.sreg a).toNat (16384 / w)
     exec (.setvl d a k) s =
       .next ({ s with core := { s.core with vl := BitVec.ofNat 13 n } }.issued .none (.scalar d (BitVec.ofNat 64 n) 1)))

/-- R115 to R117, R182, R187 to R189: `sysr` reads the register at c, for c+1; oob is read with the offers of the cycle, none of which
there are with no work in flight. `sysw` to a threshold writes sA, or 0x8000 where sA is larger; to fs it writes the seven
classes and clears the index records of those written as 0, and the flags that have landed in the cycle are applied after
the write, with their index records; to any other register it changes nothing. -/
def Obligations.SystemRegisters : Prop :=
  (∀ (s : State) (d : SReg) (p : Package), s.pkgs[s.core.phys]? = some p →
     let c := s.core
     let gives (r : SysReg) (v : DWord) : Prop := exec (.sysr d r) s = .next (s.issued .none (.scalar d v 1))
     gives .scc (BitVec.ofNat 64 p.scc) ∧ gives .tick (BitVec.ofNat 64 p.tick) ∧ gives .vl (c.vl.setWidth 64) ∧
     gives .step p.step ∧ gives .stage (c.stage.setWidth 64) ∧ gives .period (c.period.setWidth 64) ∧
     gives .coord (BitVec.ofNat 64 (c.id.pkg * 1024 + c.id.die * 256 + c.id.cluster * 16 + c.id.core)) ∧
     gives .fs (c.fs.setWidth 64) ∧
     (∀ k, gives (.fx k) (match c.fx[k] with | none => BitVec.allOnes 64 | some x => BitVec.ofNat 64 (x.word.toNat * 65536 + x.idx % 65536))) ∧
     (∀ k, gives (.th k) (c.th[k].setWidth 64)) ∧ (∀ k, gives (.m k) (c.m[k].setWidth 64)) ∧
     gives .tcause c.tcause ∧ gives .tepc c.tepc ∧ gives .tval c.tval ∧ gives .tvec c.tvec ∧
     gives .tstate (if c.tstate then 1 else 0) ∧ (∃ v, gives .oob v) ∧ (s.jobs = [] → gives .oob c.oob)) ∧
  (∀ (s : State) (a : SReg),
     let c := s.core
     let x := s.sreg a
     (∀ k, exec (.sysw (.th k) a) s =
       .next ({ s with core := { c with th := c.th.set k (BitVec.ofNat 16 (min x.toNat 0x8000)) } }).advance) ∧
     (c.flagAt ≠ s.now → exec (.sysw .fs a) s =
       .next ({ s with core := { c with
         fs := x.setWidth 7
         fx := Vector.ofFn fun k : Fin 7 => if x.getLsbD k.val then c.fx[k] else none } }).advance) ∧
     (c.flagAt = s.now → ∃ c' : Core, exec (.sysw .fs a) s = .next ({ s with core := c' }).advance ∧
       c' = { c with fs := c'.fs, fx := c'.fx } ∧
       ∀ k : Fin 7,
         c'.fs.getLsbD k.val = (x.getLsbD k.val || c.flagNow.any fun y => y.1 == k) ∧
         ((∀ y ∈ c.flagNow, y.1 ≠ k) → c'.fx[k] = if x.getLsbD k.val then c.fx[k] else none) ∧
         (∀ y, (c.flagNow.filter fun z => z.1 == k) = [(k, y)] → x.getLsbD k.val = false → c'.fx[k] = some y)) ∧
     (∀ r, (∀ k, r ≠ .th k) → r ≠ .fs → exec (.sysw r a) s = .next s.advance))

/-! ### Lane, weight and join words (R65 to R67, R75, R118 to R147, R190 to R204) -/

/-- R67, R118, R153, R219, R222, R224, R225, R253: what a vector word captures at its issue cycle: the fields of its mode register,
the threshold that selects, vl, and the AND of the open masks. The code of an immediate operand is the immediate modulo 2^w
for the integer types, and exact in fp32, fp16, bf16 and e4m3; e5m2, with three significant bits, rounds an odd one of 9 or
more to the nearest multiple of 4. What it reads later: slot k takes the elements of its source registers and the weights of
its guard and weight registers in cycle c+6+k, a vector load its bytes from the scratchpad in that cycle, a `vldq` the
values that its layout register leads to, `vlrec` its record at c+1, and group g of a `vldc` its bytes from the target at
c+18+g. A matrix word takes group g of its sources at c+6+g, 16 groups for a product, 4 for `mgath`, 1 for `mscale` and the
first 128 elements for `mcolw` and `mroww`; a product its guard whole at c+6, a move word group by group (R230, R233, R234,
R239). `vtld` reads 16 bytes at c+1 and, behind a valid header, its first 128 knots at c+2 and the rest at c+3 (R146). The
clock's step makes the reads of its cycle. That the boundaries of `vsegsum` and `vsegred` in wB are read at
c+6+k, as guards are, is the model's reading (log 105): no rule dates that read. -/
def Obligations.CaptureAtIssue : Prop :=
  (∀ (s : State) (m : MReg), modeContentsOk (s.core.m[m]).toNat = true →
     let x := (s.core.m[m]).toNat
     let cap := s.core.capture m
     cap.ty.code = x % 16 ∧ Rnd.ofCode (x / 16 % 8) = some cap.rnd ∧ cap.guard.val = x / 2 ^ 7 % 8 ∧
     cap.theta = (s.core.th[x / 2 ^ 10 % 4]'(Nat.mod_lt _ (by decide))).toNat ∧ cap.tau = x / 2 ^ 12 % 2 ^ 11 ∧
     cap.vl = s.core.vl.toNat ∧
     (∀ p, p < 2048 → (cap.mask.getLsbD p = true ↔ ∀ k ∈ s.core.cons,
       match k with
       | .arm _ mask => mask.getLsbD p = true
       | .loop _ _ _ (some l) => l.mask.getLsbD p = true
       | .loop _ _ _ none => True))) ∧
  (∀ (i : BitVec 5),
     (∀ t ∈ typesI, (immCode t i.toInt : Int) = i.toInt % 2 ^ bitsOf t) ∧
     (∀ t ∈ typesW, eqV (decF t (immCode t i.toInt)) (.ofInt i.toInt) = true) ∧
     eqV (decF .e4m3 (immCode .e4m3 i.toInt)) (.ofInt i.toInt) = true ∧
     eqV (decF .e5m2 (immCode .e5m2 i.toInt))
       (.ofInt (if i.toInt.natAbs < 8 ∨ i.toInt % 2 = 0 then i.toInt else (i.toInt + 2) / 4 * 4)) = true ∧
    (∀ t ∈ typesMx, vbLegal t (.vi i) = false)) ∧
  (∀ (s : State) (j : Job) (c : Core) (k : Nat), s.core? j.core = some c → j.cut = none → k < 16 →
     let ty := j.cap.ty
     let w := bitsOf ty
     let takes (x y old : VecBits) (w lo len : Nat) : Prop := taken x y old w lo len
     let weighs (x y old : WeightBits) (len : Nat) : Prop := weighed x y old (len * k) len
     (∀ l : Lane, j.work = .lane l →
       let len := 1024 / (match l.op with | .cvt u => max w (bitsOf u) | _ => w)
       let half := if ty = .e2m1 then len / 2 else len
       ∃ sm : Samples, s.sampleJob (j.cyc + 6 + k) j = s.updJob j.seq (fun i => { i with smp := sm }) ∧
         (∀ r, l.a = some r → l.op ≠ .wdrop ∨ k = 0 → takes c.v[r] sm.a j.smp.a w (len * k) len) ∧
         (∀ r, l.b = some r → l.op ≠ .rng ∨ k = 0 → takes c.v[r] sm.b j.smp.b w (len * k) len) ∧
         (∀ r, l.d = some r → takes c.v[r] sm.d j.smp.d w (len * k) len) ∧
         weighs (c.getW j.cap.guard) sm.g j.smp.g half ∧
         (∀ r, l.wa = some r → weighs (c.getW r) sm.wa j.smp.wa half) ∧
         (∀ r, l.wb = some r → weighs (c.getW r) sm.wb j.smp.wb half)) ∧
     (∀ (kind : VMemKind) (d : VReg) (base : DWord) (x : VMode), j.work = .vmem kind d base x → ty ∈ typesF ++ typesI →
       let len := match x with | .indexed _ => 32 | _ => 1024 / w
       let body := match x with | .indexed _ => min (min j.cap.vl (16384 / w)) 512 | _ => min j.cap.vl (16384 / w)
       ∃ sm : Samples, (s.sampleJob (j.cyc + 6 + k) j).jobs = (s.updJob j.seq fun i => { i with smp := sm }).jobs ∧
         weighs (c.getW j.cap.guard) sm.g j.smp.g len ∧
         (∀ r, x = .indexed r → takes c.v[r] sm.b j.smp.b 32 (32 * k) 32) ∧
         (kind = .load ∨ (∃ q, kind = .blend q) → ∀ e, len * k ≤ e → e < len * (k + 1) → isActive j.cap body sm.g e →
           elem sm.mem w e = ((List.range (w / 8)).map fun i => 2 ^ (8 * i) * (spadRead c.spad ((base.toNat + (match x with
             | .unit => e * (w / 8) | .strided st => e * st.toNat | .indexed _ => elem sm.b 32 e) + i) % 2 ^ 64)).toNat).sum) ∧
         (∀ q, kind = .blend q → weighs (c.getW q) sm.wb j.smp.wb len) ∧
         (kind = .store ∨ (∃ q, kind = .blend q) ∨ (∃ l, kind = .qstore l) → takes c.v[d] sm.d j.smp.d w (len * k) len) ∧
         (∀ l, kind = .qload l → x = .unit →
           (∀ e, len * k ≤ e → e < len * (k + 1) → isActive j.cap body sm.g e →
             elem sm.mem w e = match l.pairAt (base.toNat + e) with
               | none => 0
               | some p => (rnV ty j.cap.rnd (l.readSpad c.spad p).1).1 % 2 ^ w) ∧
           ∃ more, sm.hits = j.smp.hits ++ more ∧ ∀ g q e, (g, (⟨q, e⟩ : FlagHit)) ∈ more ↔
             g = k ∧ len * k ≤ e ∧ e < len * (k + 1) ∧ isActive j.cap body sm.g e ∧
               ∃ p, l.pairAt (base.toNat + e) = some p ∧ (rnV ty j.cap.rnd (l.readSpad c.spad p).1).2.has q = true)) ∧
     (∀ op d a b sh img, j.work = .matrix op d a b sh img →
       let len := if ty = .e2m1 then 1024 / w / 2 else 1024 / w
       let groups := match op with
         | .mopa | .mopaq .. => 16
         | .mgath .. => 4
         | .mscale => 1
         | .mcolw _ | .mroww _ => (128 * w + 1023) / 1024
         | _ => 0
       ∃ sm : Samples, s.sampleJob (j.cyc + 6 + k) j = s.updJob j.seq (fun i => { i with smp := sm }) ∧ sm.hits = j.smp.hits ∧
         (∀ r, a = some r → takes c.v[r] sm.a j.smp.a 1024 k (if k < groups then 1 else 0)) ∧
         (∀ r, b = some r → takes c.v[r] sm.b j.smp.b 1024 k (if k < groups then 1 else 0)) ∧
         (match op with
          | .mopa | .mopaq .. | .mgath .. => sm.g = if k = 0 then c.getW j.cap.guard else j.smp.g
          | .mcolr _ | .mcolw _ | .mrowr _ | .mroww _ => weighs (c.getW j.cap.guard) sm.g j.smp.g len
          | _ => sm.g = j.smp.g)) ∧
     (∀ r a, j.work = .vtld r a →
       let at_ := a.toNat / 16 * 16
       let knots := j.smp.mem.toNat / 2 ^ 48 % 2 ^ 16
       let reads (x : Nat) (m : VecBits) : Prop := s.reads (j.cyc + x) j fun i => { i with smp := { j.smp with mem := m } }
       reads 1 (BitVec.ofNat 16384 (leNat (spadBytes c.spad at_ 16))) ∧
       (headerOk j.smp.mem = true →
         reads 2 (j.smp.mem ||| BitVec.ofNat 16384 (leNat (spadBytes c.spad (at_ + 16) (4 * min 128 knots))) <<< 128) ∧
         reads 3 (j.smp.mem ||| BitVec.ofNat 16384 (leNat (spadBytes c.spad (at_ + 528) (4 * (knots - 128)))) <<< 4224)) ∧
       (headerOk j.smp.mem = false → reads 2 j.smp.mem ∧ reads 3 j.smp.mem)) ∧
     (∀ d a v, j.work = .vlrec d a v →
       (s.sampleJob (j.cyc + 1) j).jobs = (s.updJob j.seq fun i => { i with work := .vlrec d a (some (loadLayout c.spad a.toNat).1) }).jobs) ∧
     (∀ op d a, j.work = .remote op d a → ty ∈ typesF ++ typesI →
       let target := clusterTarget j.core a
       (∃ sm : Samples, (s.sampleJob (j.cyc + 6 + k) j).jobs = (s.updJob j.seq fun i => { i with smp := sm }).jobs ∧
         weighs (c.getW j.cap.guard) sm.g j.smp.g (1024 / w) ∧ (op ≠ .load → takes c.v[d] sm.d j.smp.d w (1024 / w * k) (1024 / w))) ∧
       (op = .load → ∃ sm : Samples, (s.sampleJob (j.cyc + 18 + k) j).jobs = (s.updJob j.seq fun i => { i with smp := sm }).jobs ∧
         ∀ e, j.lands (1024 / w) (min j.cap.vl (16384 / w)) k e → elem sm.mem w e =
           if a.toNat < 2 ^ 24 ∧ target.core < (s.extOf j.core.folio).k then
             match s.core? target with
             | some o => ((List.range (w / 8)).map fun i => 2 ^ (8 * i) * (spadRead o.spad (a.toNat % 2 ^ 20 + e * (w / 8) + i)).toNat).sum
             | none => 0
           else 0))) ∧
  (∀ (s : State) (j i : Job) (c : Core) (p : Package), s.jobs = [j] → s.core? j.core = some c → s.pkgs[c.phys]? = some p →
     p.powered = true → p.stalled = false → p.restLeft = 0 → (s.sampleJob (s.jobNow j) j).jobs = [i] →
     ∃ t, exec .tick s = .next t ∧ ∀ x ∈ t.jobs, x.smp = i.smp ∧ x.work = i.work)

/-- R66, R75, R121 to R131: the lane words with the three forms of vb. Under an accepted type the word puts its element work in
flight with what it captures at c, its scalar or immediate operand included, and goes on; under any other type it is
illegal. -/
def Obligations.LaneArithmeticIssues : Prop :=
  ∀ (s : State) (m : MReg) (d a : VReg) (w : WReg) (vb : VB),
    let ty := s.typeOf m
    let on (ok : List ETy) (i : Instr) (op : LaneOp) (dst : Dest) (src : Option VReg) : Prop :=
      (ty ∈ ok → exec i s = .next (s.issued (s.core.capture m)
        (.lane { op := op, dst := dst, a := some a
                 b := match vb with | .vv r => some r | _ => none
                 d := src
                 imm := match vb with
                   | .vv _ => none
                   | .vs r => some ((s.sreg r).toNat % 2 ^ bitsOf ty)
                   | .vi x => some (immCode ty x.toInt) }))) ∧
      (ty ∉ ok → exec i s = .next s.trapIllegal)
    on (typesF ++ typesI) (.vadd m d a vb) .add (.v d) none ∧ on (typesF ++ typesI) (.vsub m d a vb) .sub (.v d) none ∧
    on (typesF ++ typesI) (.vmul m d a vb) .mul (.v d) none ∧ on (typesF ++ typesI) (.vfma m d a vb) .fma (.v d) (some d) ∧
    on (typesF ++ typesI) (.vfms m d a vb) .fms (.v d) (some d) ∧ on (typesF ++ typesI) (.vnfma m d a vb) .nfma (.v d) (some d) ∧
    on (typesF ++ typesI) (.vmin m d a vb) .min (.v d) none ∧ on (typesF ++ typesI) (.vmax m d a vb) .max (.v d) none ∧
    on typesI (.vand m d a vb) .and (.v d) none ∧ on typesI (.vor m d a vb) .or (.v d) none ∧
    on typesI (.vxor m d a vb) .xor (.v d) none ∧ on typesI (.vshl m d a vb) .shl (.v d) none ∧
    on typesI (.vshr m d a vb) .shr (.v d) none ∧ on typesI (.vsra m d a vb) .sra (.v d) none ∧
    on typesI (.vmulh m d a vb) .mulh (.v d) none ∧
    on (typesF ++ typesI) (.vceq m w a vb) .ceq (.w w) none ∧ on (typesF ++ typesI) (.vclt m w a vb) .clt (.w w) none ∧
    on (typesF ++ typesI) (.vcle m w a vb) .cle (.w w) none ∧ on typesW (.wsoft m w a vb) .wsoft (.w w) none

/-- R75, R121, R126 to R147, R192 to R204: the other lane words, under the types of R121 (`vcvt` takes F or I on both sides), and the
weight and join words, under the types of R192; `bacc` with one register for vd and vb is illegal. -/
def Obligations.LaneWordsIssue : Prop :=
  (∀ (s : State) (m : MReg) (d a b : VReg) (k : WReg) (x y z : SReg) (u : ETy) (t : TblReg) (n : BitVec 5),
     let ty := s.typeOf m
     let on (ok : List ETy) (i : Instr) (l : Lane) : Prop :=
       (ty ∈ ok → exec i s = .next (s.issued (s.core.capture m) (.lane l))) ∧ (ty ∉ ok → exec i s = .next s.trapIllegal)
     let one (op : LaneOp) : Lane := { op := op, dst := .v d, a := some a }
     let two (op : LaneOp) : Lane := { op := op, dst := .v d, a := some a, b := some b }
     let seg (op : LaneOp) : Lane := { op := op, dst := .v d, a := some a, wb := some k }
     let FI := typesF ++ typesI
     on FI (.vabs m d a) (one .abs) ∧ on FI (.vneg m d a) (one .neg) ∧
     on typesW (.vrcp m d a) (one .rcp) ∧ on typesW (.vrsq m d a) (one .rsq) ∧ on typesW (.vsqrt m d a) (one .sqrt) ∧
     on typesI (.vpopc m d a) (one .popc) ∧ on typesI (.vclz m d a) (one .clz) ∧
     on (if u ∈ typesMx then [] else FI) (.vcvt m d a u) (one (.cvt u)) ∧
     on FI (.vredsum m d a) (one .redsum) ∧ on FI (.vredmax m d a) (one .redmax) ∧ on FI (.vredmin m d a) (one .redmin) ∧
     on FI (.vsegsum m d a k) (seg .segsum) ∧ on FI (.vsegredMax m d a k) (seg .segmax) ∧ on FI (.vsegredMin m d a k) (seg .segmin) ∧
     on (typesAll.erase .e2m1) (.vperm m d a b) (two .perm) ∧
     on (typesAll.erase .e2m1) (.vslide m d a (.vs x)) { op := .slide, dst := .v d, a := some a, sb := s.sreg x } ∧
     on FI (.vslide m d a (.vi n)) { op := .slide, dst := .v d, a := some a, sb := BitVec.ofInt 64 n.toInt } ∧
     on typesAll (.vins m d x y) { op := .ins, dst := .v d, sa := s.sreg x, sb := s.sreg y } ∧
     on typesAll (.vext m z a x) { op := .ext, dst := .s z, a := some a, sb := s.sreg x } ∧
     on typesAll (.vmov m d a) (one .mov) ∧
     on typesAll (.vmovScalar m d x) { op := .movs, dst := .v d, imm := some ((s.sreg x).toNat % 2 ^ bitsOf ty) } ∧
     on [.int32, .n32] (.vrng m d a b) { op := .rng, dst := .v d, a := some a, b := some b, d := some d } ∧
     on [.n32] (.vpfx m d a b) (two .pfx) ∧ on [.n32] (.vxsect m d a b) (two .xsect) ∧
     on FI (.vcomp m d a b) (two .comp) ∧ on FI (.vexpd m d a b) (two .expd) ∧
     on typesW (.vtbl m d a t) (one (.tbl s.core.tbl[t])) ∧
     exec (.vtld m x t) s = .next (s.issued (s.core.capture m) (.vtld t (s.sreg x)))) ∧
  (∀ (s : State) (m : MReg) (d a b : VReg) (w v k : WReg) (x : SReg),
     let ty := s.typeOf m
     let on (ok : List ETy) (i : Instr) (l : Lane) : Prop :=
       (ty ∈ ok → exec i s = .next (s.issued (s.core.capture m) (.lane l))) ∧ (ty ∉ ok → exec i s = .next s.trapIllegal)
     let FI := typesF ++ typesI
     on typesW (.wsoftg m d a k) { op := .wsoftg, dst := .v d, a := some a, wb := some k } ∧
     on FI (.wfromv m w a) { op := .wfromv, dst := .w w, a := some a } ∧ on FI (.wtov m d v) { op := .wtov, dst := .v d, wa := some v } ∧
     on FI (.wnot m w v) { op := .wnot, dst := .w w, wa := some v } ∧
     on FI (.wmul m w v k) { op := .wmul, dst := .w w, wa := some v, wb := some k } ∧
     on FI (.wmov m w v) { op := .wmov, dst := .w w, wa := some v } ∧
     on FI (.wdrop m w a x) { op := .wdrop, dst := .w w, a := some a, sb := s.sreg x } ∧
     on typesW (.blend m d a b k) { op := .blend, dst := .v d, a := some a, b := some b, wb := some k } ∧
     on (if d = b then [] else typesW) (.bacc m d a b k) { op := .bacc, dst := .v d, a := some a, b := some b, d := some d, wb := some k } ∧
     on typesW (.bnorm m d a b) { op := .bnorm, dst := .v d, a := some a, b := some b } ∧
     on typesW (.bgrad m d a b k) { op := .bgrad, dst := .v d, a := some a, b := some b, d := some d, wb := some k })

/-- R119, R124: an integer add, subtract, multiply or multiply-add lands a slot: each active body element of the slot becomes the
exact result clamped to the type, every other element keeps its code, saturate is raised exactly when a clamp changed a
result, and no other register and no memory changes. -/
def Obligations.IntegerResultsLand : Prop :=
  ∀ (s : State) (n k : Nat) (j : Job) (c : Core) (l : Lane) (r : VReg) (f : Int → Int → Int → Int),
    s.job? n = some j → j.work = .lane l → l.dst = .v r → k < 16 → j.cut = none → s.core? j.core = some c → j.cap.ty ∈ typesI →
    (l.op = .add ∧ f = (fun a b _ => a + b) ∨ l.op = .sub ∧ f = (fun a b _ => a - b) ∨ l.op = .mul ∧ f = (fun a b _ => a * b) ∨
      l.op = .fma ∧ f = (fun a b d => a * b + d) ∨ l.op = .fms ∧ f = (fun a b d => a * b - d) ∨ l.op = .nfma ∧ f = (fun a b d => d - a * b)) →
    (∀ x, l.imm = some x → x < 2 ^ bitsOf j.cap.ty) →
    let ty := j.cap.ty
    let w := bitsOf ty
    let b (e : Nat) : Nat := l.imm.getD (elem j.smp.b w e)
    let exact (e : Nat) : Int := f (intOf ty (elem j.smp.a w e)) (intOf ty (b e)) (intOf ty (elem j.smp.d w e))
    let writes (e : Nat) : Prop := 1024 / w * k ≤ e ∧ e < 1024 / w * (k + 1) ∧ isActive j.cap (min j.cap.vl (16384 / w)) j.smp.g e
    let saturates : Prop := ∃ e, writes e ∧ clampInt ty (exact e) ≠ exact e
    ∃ (t : State) (x : VecBits) (fs : BitVec 7) (fx : Vector (Option FlagIndex) 7) (now : List (Fin 7 × FlagIndex)) (at_ : Nat),
      exec (.resultLanding n k) s = .next t ∧
      s.onlyCore t j.core { c with v := c.v.set r x, fs := fs, fx := fx, flagNow := now, flagAt := at_ } ∧
      (∀ e, writes e → intOf ty (elem x w e) = clampInt ty (exact e)) ∧
      (∀ e, e < 16384 / w → ¬ writes e → elem x w e = elem c.v[r] w e) ∧
      (saturates → fs = c.fs ||| 0x20) ∧ (¬ saturates → fs = c.fs ∧ fx = c.fx)

/-- R128, R129: the bitwise words, the shifts and the counts land a slot: each active body element of the slot becomes the result on
codes, a shift by the width or more included; every other element keeps its code; nothing else changes. -/
def Obligations.BitwiseResultsLand : Prop :=
  ∀ (s : State) (n k : Nat) (j : Job) (c : Core) (l : Lane) (r : VReg) (f : Nat → Nat → Nat → Nat),
    s.job? n = some j → j.work = .lane l → l.dst = .v r → k < 16 → j.cut = none → s.core? j.core = some c → j.cap.ty ∈ typesI →
    (l.op = .and ∧ f = (fun _ a b => a &&& b) ∨ l.op = .or ∧ f = (fun _ a b => a ||| b) ∨ l.op = .xor ∧ f = (fun _ a b => a ^^^ b) ∨
      l.op = .shl ∧ f = (fun w a b => a * 2 ^ b % 2 ^ w) ∨ l.op = .shr ∧ f = (fun _ a b => a / 2 ^ b) ∨
      l.op = .sra ∧ f = (fun w a b => (((if 2 ^ (w - 1) ≤ a then (a : Int) - 2 ^ w else a) / 2 ^ b) % 2 ^ w).toNat) ∨
      l.op = .popc ∧ f = (fun w a _ => ((List.range w).filter fun i => a.testBit i).length) ∨
      l.op = .clz ∧ f = (fun w a _ => if a = 0 then w else w - 1 - a.log2)) →
    (∀ x, l.imm = some x → x < 2 ^ bitsOf j.cap.ty) →
    let w := bitsOf j.cap.ty
    let b (e : Nat) : Nat := l.imm.getD (elem j.smp.b w e)
    let writes (e : Nat) : Prop := 1024 / w * k ≤ e ∧ e < 1024 / w * (k + 1) ∧ isActive j.cap (min j.cap.vl (16384 / w)) j.smp.g e
    ∃ (t : State) (x : VecBits), exec (.resultLanding n k) s = .next t ∧
      s.onlyCore t j.core { c with v := c.v.set r x } ∧
      (∀ e, writes e → elem x w e = f w (elem j.smp.a w e) (b e)) ∧
      (∀ e, e < 16384 / w → ¬ writes e → elem x w e = elem c.v[r] w e)

/-- R84, R119, R122, R131, R196: integer compares, `wnot` and `wmov` land a slot: each active position of the slot becomes 0x8000 or
0, the complement, or the copy; every other position keeps its weight; a write to w0 is discarded; nothing else changes. -/
def Obligations.WeightResultsLand : Prop :=
  ∀ (s : State) (n k : Nat) (j : Job) (c : Core) (l : Lane) (r : WReg) (f : Int → Int → Nat → Nat),
    s.job? n = some j → j.work = .lane l → l.dst = .w r → k < 16 → j.cut = none → s.core? j.core = some c →
    (j.cap.ty ∈ typesI ∨ j.cap.ty ∈ typesF ∧ (l.op = .wnot ∨ l.op = .wmov)) →
    (l.op = .ceq ∧ f = (fun a b _ => if a = b then 0x8000 else 0) ∨ l.op = .clt ∧ f = (fun a b _ => if a < b then 0x8000 else 0) ∨
      l.op = .cle ∧ f = (fun a b _ => if a ≤ b then 0x8000 else 0) ∨ l.op = .wnot ∧ f = (fun _ _ w => 0x8000 - w) ∨
      l.op = .wmov ∧ f = (fun _ _ w => w)) →
    (∀ x, l.imm = some x → x < 2 ^ bitsOf j.cap.ty) →
    let ty := j.cap.ty
    let w := bitsOf ty
    let b (e : Nat) : Nat := l.imm.getD (elem j.smp.b w e)
    let writes (e : Nat) : Prop := 1024 / w * k ≤ e ∧ e < 1024 / w * (k + 1) ∧ isActive j.cap (min j.cap.vl (16384 / w)) j.smp.g e
    ∃ (t : State) (x : WeightBits), exec (.resultLanding n k) s = .next t ∧
      s.onlyCore t j.core { c with w := if r = 0 then c.w else c.w.set r x } ∧
      (∀ e, writes e → weightAt x e = f (intOf ty (elem j.smp.a w e)) (intOf ty (b e)) (weightAt j.smp.wa e)) ∧
      (∀ e, e < 2048 → ¬ writes e → weightAt x e = weightAt (c.getW r) e)

/-- R119, R122, R123, R125 to R127, R130 to R147, R193 to R197, R201 to R204: whatever a lane, weight or join word lands, no register
changes but its destination, vb for `bacc` and `vcomp`, and the flags; no memory changes. And what it lands: the active body
elements of the slot take the value that the word's rule gives, the exact result rounded once where it is a real, and every
other element keeps its code; a reduction lands in element 0, a segment's in its active elements, `vins` in one element,
`vext` in its scalar register, `vcomp`, `vxsect` and `vpfx` in every element they pack. What an infinity of e5m2 becomes in
`vmin`, `vmax`, `vabs`, `vneg` and the reductions is the model's reading (logs 23, 26). R115 to R117: a landing raises the classes
that its active elements raise, each by element index, and no class that the flag column of R121 or R192 does not list for the
word; an index register names the earliest word and its lowest index. That `bgrad` raises inv for an invalid product where vd
is a NaN is the model's reading (log 108). -/
def Obligations.LaneLandingFrame : Prop :=
  (∀ (s : State) (n k : Nat) (j : Job) (c : Core) (l : Lane),
    s.job? n = some j → j.work = .lane l → s.core? j.core = some c →
    ∃ (t : State) (c' : Core), exec (.resultLanding n k) s = .next t ∧ s.onlyCore t j.core c' ∧
      c' = { c with s := c'.s, v := c'.v, w := c'.w, fs := c'.fs, fx := c'.fx, flagNow := c'.flagNow, flagAt := c'.flagAt } ∧
      (∀ r, l.dst ≠ .s r → c'.s[r] = c.s[r]) ∧ (∀ r, l.dst ≠ .w r → c'.w[r] = c.w[r]) ∧ c'.w[0] = c.w[0] ∧ c'.s[0] = c.s[0] ∧
      (∀ r, l.dst ≠ .v r → ((l.op = .bacc ∨ l.op = .comp) → l.b ≠ some r) → c'.v[r] = c.v[r])) ∧
  (∀ (s : State) (n k : Nat) (j : Job) (c : Core) (l : Lane),
    s.job? n = some j → j.work = .lane l → k < 16 → j.cut = none → s.core? j.core = some c →
    let ty := j.cap.ty
    let rnd := j.cap.rnd
    let theta := j.cap.theta
    let w := bitsOf ty
    let a (e : Nat) : Nat := elem j.smp.a w e
    let b (e : Nat) : Nat := l.imm.getD (elem j.smp.b w e)
    let d (e : Nat) : Nat := elem j.smp.d w e
    let wa (e : Nat) : Nat := weightAt j.smp.wa e
    let wb (e : Nat) : Nat := weightAt j.smp.wb e
    let x (e : Nat) : FVal := decF ty (a e)
    let y (e : Nat) : FVal := decF ty (b e)
    let z (e : Nat) : FVal := decF ty (d e)
    let body := min j.cap.vl (16384 / w)
    let on (e : Nat) : Bool := active j.cap body j.smp.g e
    -- the landing leaves core `c'`
    let leaves (c' : Core → Prop) : Prop := ∃ t k', exec (.resultLanding n k) s = .next t ∧ s.onlyCore t j.core k' ∧ c' k'
    -- slot k of `m` elements of `u` bits, of a body of `h`, takes the values `V` in vector register r
    let lands (r : VReg) (u m h : Nat) (V : Nat → Nat) (c' : Core) : Prop := ∀ e, e < 16384 / u →
      (j.lands m h k e → elem c'.v[r] u e = V e % 2 ^ u) ∧ (¬ j.lands m h k e → elem c'.v[r] u e = elem c.v[r] u e)
    let gives (r : VReg) (V : Nat → Nat) : Prop := leaves (lands r w (1024 / w) body V)
    (∀ r, l.dst = .v r → ty ∈ typesF →
      (l.op = .add → gives r fun e => (finish ty rnd (addV rnd (x e) (y e))).1) ∧
      (l.op = .sub → gives r fun e => (finish ty rnd (addV rnd (x e) (negV (y e)))).1) ∧
      (l.op = .mul → gives r fun e => (finish ty rnd (mulV (x e) (y e))).1) ∧
      (l.op = .fma → gives r fun e => (finish ty rnd (addProd rnd (mulV (x e) (y e)) (z e))).1) ∧
      (l.op = .fms → gives r fun e => (finish ty rnd (addProd rnd (mulV (x e) (y e)) (negV (z e)))).1) ∧
      (l.op = .nfma → gives r fun e => (finish ty rnd (addProd rnd (mulV (negV (x e)) (y e)) (z e))).1) ∧
      (l.op = .min → gives r fun e => if x e = .nan ∨ y e = .nan then nanCode ty
        else codeOf ty (if ltZ (x e) (y e) then a e else b e)) ∧
      (l.op = .max → gives r fun e => if x e = .nan ∨ y e = .nan then nanCode ty
        else codeOf ty (if ltZ (x e) (y e) then b e else a e)) ∧
      (l.op = .abs → gives r fun e => if x e = .nan then nanCode ty else a e % 2 ^ (w - 1)) ∧
      (l.op = .neg → gives r fun e => if x e = .nan then nanCode ty else a e ^^^ 2 ^ (w - 1))) ∧
    (∀ r, l.dst = .v r → ty ∈ typesI →
      (l.op = .min → gives r fun e => if decI ty (a e) < decI ty (b e) then a e else b e) ∧
      (l.op = .max → gives r fun e => if decI ty (a e) < decI ty (b e) then b e else a e) ∧
      (l.op = .abs → gives r fun e => (clampInt ty |intOf ty (a e)| % 2 ^ w).toNat) ∧
      (l.op = .neg → gives r fun e => (clampInt ty (-(intOf ty (a e))) % 2 ^ w).toNat) ∧
      (l.op = .mulh → gives r fun e => (decI ty (a e) * decI ty (b e) / 2 ^ w % 2 ^ w).toNat) ∧
      (l.op = .rng → gives r fun e =>
        cgNat (elem j.smp.b 32 0) (elem j.smp.b 32 1) (a e) (d e) (elem j.smp.b 32 2) (elem j.smp.b 32 3)) ∧
      (l.op = .pfx → ty = .n32 → leaves (lands r 32 32 512 fun e =>
        ((List.range (min (elem j.smp.b 32 e) (32 * min j.cap.vl 512))).filter fun i => j.smp.a.getLsbD i).length)) ∧
      (l.op = .xsect → ty = .n32 → ¬ (j.cap.inside = true ∧ ∀ m, m < min j.cap.vl 512 → active j.cap (min j.cap.vl 512) j.smp.g m = false) →
        let found := ((List.range (32 * min j.cap.vl 512)).filter fun i =>
          active j.cap (min j.cap.vl 512) j.smp.g (i / 32) && j.smp.a.getLsbD i && j.smp.b.getLsbD i)
        leaves fun c' => ∀ e, e < 512 → elem c'.v[r] 32 e = if 32 * k ≤ e ∧ e < 32 * (k + 1) then found.getD e 0xFFFFFFFF else elem c.v[r] 32 e)) ∧
    (∀ r, l.dst = .v r → ty ∈ typesW →
      (l.op = .rcp → gives r fun e => (rcpV ty rnd (x e)).1) ∧
      (l.op = .rsq → gives r fun e => (rsqV ty rnd (x e)).1) ∧
      (l.op = .sqrt → gives r fun e => (sqrtV ty rnd (x e)).1) ∧
      (∀ tb, l.op = .tbl tb → gives r fun e => (vtblC ty rnd tb (a e)).1) ∧
      (l.op = .wsoftg → gives r fun e => if j.cap.tau ≠ 0 ∧ 0 < wb e ∧ wb e < 0x8000 then (divTau ty rnd j.cap.tau (a e)).1 else 0) ∧
      (l.op = .blend → gives r fun e =>
        if theta < wb e ∧ theta < 0x8000 - wb e then (finish ty rnd (addProd rnd (mulV (weightV (wb e)) (x e)) (mulV (weightV (0x8000 - wb e)) (y e)).1)).1
        else if theta < wb e then canonC ty (a e) else if theta < 0x8000 - wb e then canonC ty (b e) else 0) ∧
      (l.op = .bnorm → gives r fun e => if isZeroCode ty (b e) = true then 0 else (divV ty rnd (x e) (y e)).1) ∧
      (l.op = .bgrad → gives r fun e => if wb e ≤ theta ∨ isZeroCode ty (d e) = true then 0
        else if (mulV (x e) (y e)).2 = true then nanCode ty else (divV ty rnd (mulV (x e) (y e)).1 (z e)).1) ∧
      (∀ q, l.op = .bacc → l.b = some q → q ≠ r → leaves fun c' => ∀ e, e < 16384 / w →
        if 1024 / w * k ≤ e ∧ e < 1024 / w * (k + 1) ∧ on e = true ∧ theta < wb e then
          elem c'.v[r] w e = (finish ty rnd (addProd rnd (mulV (weightV (wb e)) (x e)) (z e))).1 % 2 ^ w ∧
          elem c'.v[q] w e = (finish ty rnd (addV rnd (decF ty (elem j.smp.b w e)) (weightV (wb e)))).1 % 2 ^ w
        else elem c'.v[r] w e = elem c.v[r] w e ∧ elem c'.v[q] w e = elem c.v[q] w e)) ∧
    (∀ r, l.dst = .v r → ty ∈ typesF ++ typesI →
      (∀ u ∈ typesF ++ typesI, l.op = .cvt u →
        leaves (lands r (bitsOf u) (1024 / max w (bitsOf u)) (min j.cap.vl (16384 / max w (bitsOf u))) fun e =>
          if ty ∈ typesI ∧ u ∈ typesI then (clampInt u (intOf ty (a e)) % 2 ^ bitsOf u).toNat else (convV u rnd (decV ty (a e))).1)) ∧
      (l.op = .wtov → gives r fun e => (convV ty rnd (weightV (wa e))).1) ∧
      (∀ o, (l.op = .redsum ∧ o = .sum ∨ l.op = .redmax ∧ o = .max ∨ l.op = .redmin ∧ o = .min) →
        ¬ (j.cap.inside = true ∧ ∀ e, e < body → on e = false) →
        leaves fun c' => elem c'.v[r] w 0 =
            (reduce ty rnd o ((List.range body).map fun e => if on e then some (a e) else none)).1 % 2 ^ w ∧
          ∀ e, 0 < e → e < 16384 / w → elem c'.v[r] w e = elem c.v[r] w e) ∧
      (∀ o, (l.op = .segsum ∧ o = .sum ∨ l.op = .segmax ∧ o = .max ∨ l.op = .segmin ∧ o = .min) →
        let starts (e : Nat) : Prop := e = 0 ∨ theta < wb e
        leaves fun c' =>
          (∀ lo hi, starts lo → lo < hi → hi ≤ body → (hi = body ∨ starts hi) → (∀ e, lo < e → e < hi → ¬ starts e) →
            ∀ e, lo ≤ e → e < hi → on e = true → elem c'.v[r] w e =
              (reduce ty rnd o ((List.range (hi - lo)).map fun i => if on (lo + i) then some (a (lo + i)) else none)).1 % 2 ^ w) ∧
          ∀ e, e < 16384 / w → on e = false → elem c'.v[r] w e = elem c.v[r] w e) ∧
      (l.op = .expd → gives r fun e => if j.smp.b.getLsbD e then a ((List.range e).filter fun i => j.smp.b.getLsbD i).length else 0) ∧
      (∀ q, l.op = .comp → l.b = some q → q ≠ r → ¬ (j.cap.inside = true ∧ ∀ e, e < body → on e = false) →
        let kept := (List.range body).filter fun e => on e && !isZeroCode ty (a e)
        leaves fun c' =>
          (∀ e, e < 16384 / w → elem c'.v[r] w e =
            if 1024 / w * k ≤ e ∧ e < 1024 / w * (k + 1) then (kept.map a).getD e 0 else elem c.v[r] w e) ∧
          (∀ i, i < 16384 → c'.v[q].getLsbD i = if 1024 * k ≤ i ∧ i < 1024 * (k + 1) then kept.contains i else c.v[q].getLsbD i))) ∧
    (∀ r, l.dst = .v r →
      (l.op = .mov → gives r fun e => codeOf ty (a e)) ∧ (l.op = .movs → gives r fun e => codeOf ty (b e)) ∧
      (l.op = .perm → gives r fun e => if elem j.smp.b w e < body then codeOf ty (a (elem j.smp.b w e)) else 0) ∧
      (l.op = .slide → gives r fun e => if 0 ≤ (e : Int) + l.sb.toInt ∧ (e : Int) + l.sb.toInt < body
        then codeOf ty (a ((e : Int) + l.sb.toInt).toNat) else 0) ∧
      (l.op = .ins → leaves fun c' => ∀ e, e < 16384 / w → elem c'.v[r] w e =
        if e = l.sa.toNat ∧ on e = true then codeOf ty (l.sb.toNat % 2 ^ w) else elem c.v[r] w e)) ∧
    (∀ r, l.dst = .s r → r ≠ 0 → l.op = .ext → leaves fun c' => c'.s[r] = if l.sb.toNat < body then
        (if ty ∈ [.int8, .int16, .int32] then BitVec.ofInt 64 (intOf ty (a l.sb.toNat)) else BitVec.ofNat 64 (codeOf ty (a l.sb.toNat)))
      else 0) ∧
    (∀ r : WReg, l.dst = .w r → r ≠ 0 → ty ∈ typesF ++ typesI →
      let weighs (V : Nat → Nat) : Prop := leaves fun c' => ∀ p, p < 2048 →
        (j.lands (1024 / w) body k p → weightAt c'.w[r] p = V p % 2 ^ 16) ∧ (¬ j.lands (1024 / w) body k p → weightAt c'.w[r] p = weightAt c.w[r] p)
      (ty ∈ typesF →
        (l.op = .ceq → weighs fun e => if x e ≠ .nan ∧ y e ≠ .nan ∧ eqV (x e) (y e) = true then 0x8000 else 0) ∧
        (l.op = .clt → weighs fun e => if ltV (x e) (y e) = some true then 0x8000 else 0) ∧
        (l.op = .cle → weighs fun e => if ltV (y e) (x e) = some false then 0x8000 else 0)) ∧
      (l.op = .wsoft → weighs fun e => (wsoftC ty j.cap.tau (a e) (b e)).1) ∧
      (l.op = .wfromv → weighs fun e => (toWeight (decV ty (a e))).1) ∧
      (l.op = .wmul → weighs fun e =>
        let p := wa e * wb e
        let q := p / 2 ^ 15
        if 2 ^ 15 < 2 * (p % 2 ^ 15) ∨ 2 * (p % 2 ^ 15) = 2 ^ 15 ∧ q % 2 = 1 then q + 1 else q) ∧
      (l.op = .wdrop → weighs fun e => wdropC j.smp.a l.sb.toNat e))) ∧
  (∀ (s : State) (n k : Nat) (j : Job) (c : Core) (l : Lane),
    s.job? n = some j → j.work = .lane l → k < 16 → j.cut = none → s.core? j.core = some c →
    let ty := j.cap.ty
    let rnd := j.cap.rnd
    let theta := j.cap.theta
    let w := bitsOf ty
    let a (e : Nat) : Nat := elem j.smp.a w e
    let b (e : Nat) : Nat := l.imm.getD (elem j.smp.b w e)
    let d (e : Nat) : Nat := elem j.smp.d w e
    let wa (e : Nat) : Nat := weightAt j.smp.wa e
    let wb (e : Nat) : Nat := weightAt j.smp.wb e
    let x (e : Nat) : FVal := decF ty (a e)
    let y (e : Nat) : FVal := decF ty (b e)
    let z (e : Nat) : FVal := decF ty (d e)
    let body := min j.cap.vl (16384 / w)
    let on (e : Nat) : Bool := active j.cap body j.smp.g e
    let dry : Prop := j.cap.inside = true ∧ ∀ e, e < body → on e = false
    -- the landing raises the classes and indexes that `hit` holds of, and no other
    let raises (hit : Fin 7 → Nat → Prop) : Prop := ∃ t c', exec (.resultLanding n k) s = .next t ∧ s.onlyCore t j.core c' ∧
      c.raised c' (s.stampOf j) hit
    -- slot k of `m` elements of a body of `h` raises the flags `F`
    let flags (m h : Nat) (F : Nat → Flags) : Prop := raises fun q e => j.lands m h k e ∧ (F e).has q = true
    let each (F : Nat → Flags) : Prop := flags (1024 / w) body F
    let quiet : Prop := raises fun _ _ => False
    (l.op ∈ [.popc, .clz, .and, .or, .xor, .shl, .shr, .sra, .mulh, .perm, .slide, .ins, .ext, .mov, .movs, .rng, .pfx, .comp, .expd,
      .wnot, .wmov, .wdrop] → quiet) ∧
    (ty ∈ typesF →
      (l.op = .add → each fun e => (finish ty rnd (addV rnd (x e) (y e))).2) ∧
      (l.op = .sub → each fun e => (finish ty rnd (addV rnd (x e) (negV (y e)))).2) ∧
      (l.op = .mul → each fun e => (finish ty rnd (mulV (x e) (y e))).2) ∧
      (l.op = .fma → each fun e => (finish ty rnd (addProd rnd (mulV (x e) (y e)) (z e))).2) ∧
      (l.op = .fms → each fun e => (finish ty rnd (addProd rnd (mulV (x e) (y e)) (negV (z e)))).2) ∧
      (l.op = .nfma → each fun e => (finish ty rnd (addProd rnd (mulV (negV (x e)) (y e)) (z e))).2) ∧
      (l.op ∈ [.min, .max, .clt, .cle] → each fun e => { inv := decide (x e = .nan ∨ y e = .nan) }) ∧
      (l.op ∈ [.abs, .neg, .ceq] → quiet)) ∧
    (ty ∈ typesI →
      (l.op = .abs → each fun e => { sat := decide (clampInt ty |intOf ty (a e)| ≠ |intOf ty (a e)|) }) ∧
      (l.op = .neg → each fun e => { sat := decide (clampInt ty (-(intOf ty (a e))) ≠ -(intOf ty (a e))) }) ∧
      (l.op ∈ [.min, .max, .ceq, .clt, .cle] → quiet) ∧
      (l.op = .xsect → ty = .n32 →
        let found := ((List.range (32 * min j.cap.vl 512)).filter fun i =>
          active j.cap (min j.cap.vl 512) j.smp.g (i / 32) && j.smp.a.getLsbD i && j.smp.b.getLsbD i)
        raises fun q e => ¬ dry ∧ k = 15 ∧ 512 < found.length ∧ q = 5 ∧ e = 511)) ∧
    (ty ∈ typesW →
      (l.op = .rcp → each fun e => (rcpV ty rnd (x e)).2) ∧ (l.op = .rsq → each fun e => (rsqV ty rnd (x e)).2) ∧
      (l.op = .sqrt → each fun e => (sqrtV ty rnd (x e)).2) ∧ (∀ tb, l.op = .tbl tb → each fun e => (vtblC ty rnd tb (a e)).2) ∧
      (l.op = .wsoft → each fun e => (wsoftC ty j.cap.tau (a e) (b e)).2) ∧
      (l.op = .wsoftg → each fun e => if j.cap.tau ≠ 0 ∧ 0 < wb e ∧ wb e < 0x8000 then (divTau ty rnd j.cap.tau (a e)).2 else {}) ∧
      (l.op = .blend → each fun e => if theta < wb e ∧ theta < 0x8000 - wb e
        then (finish ty rnd (addProd rnd (mulV (weightV (wb e)) (x e)) (mulV (weightV (0x8000 - wb e)) (y e)).1)).2 else {}) ∧
      (l.op = .bacc → raises fun q e => j.lands (1024 / w) body k e ∧ theta < wb e ∧
        ((finish ty rnd (addProd rnd (mulV (weightV (wb e)) (x e)) (z e))).2.has q = true ∨
          (finish ty rnd (addV rnd (decF ty (elem j.smp.b w e)) (weightV (wb e)))).2.has q = true)) ∧
      (l.op = .bnorm → each fun e => if isZeroCode ty (b e) = true then {} else (divV ty rnd (x e) (y e)).2) ∧
      (l.op = .bgrad → each fun e => if wb e ≤ theta ∨ isZeroCode ty (d e) = true then {}
        else if (mulV (x e) (y e)).2 = true then { inv := true } else (divV ty rnd (mulV (x e) (y e)).1 (z e)).2)) ∧
    (ty ∈ typesF ++ typesI →
      (∀ u ∈ typesF ++ typesI, l.op = .cvt u →
        flags (1024 / max w (bitsOf u)) (min j.cap.vl (16384 / max w (bitsOf u))) fun e =>
          if ty ∈ typesI ∧ u ∈ typesI then { sat := decide (clampInt u (intOf ty (a e)) ≠ intOf ty (a e)) }
          else (convV u rnd (decV ty (a e))).2) ∧
      (l.op = .wfromv → each fun e => (toWeight (decV ty (a e))).2) ∧ (l.op = .wtov → each fun e => (convV ty rnd (weightV (wa e))).2) ∧
      (l.op = .wmul → each fun e => { inx := decide (wa e * wb e % 2 ^ 15 ≠ 0) }) ∧
      (∀ o, (l.op = .redsum ∧ o = .sum ∨ l.op = .redmax ∧ o = .max ∨ l.op = .redmin ∧ o = .min) →
        raises fun q e => ¬ dry ∧
          (⟨q, e⟩ : FlagHit) ∈ (reduce ty rnd o ((List.range body).map fun e => if on e then some (a e) else none)).2) ∧
      (∀ o, (l.op = .segsum ∧ o = .sum ∨ l.op = .segmax ∧ o = .max ∨ l.op = .segmin ∧ o = .min) →
        let starts (e : Nat) : Prop := e = 0 ∨ theta < wb e
        raises fun q e => ∃ lo hi i, starts lo ∧ lo < hi ∧ hi ≤ body ∧ (hi = body ∨ starts hi) ∧ (∀ e', lo < e' → e' < hi → ¬ starts e') ∧
          (∃ e', lo ≤ e' ∧ e' < hi ∧ on e' = true) ∧ e = lo + i ∧
          (⟨q, i⟩ : FlagHit) ∈ (reduce ty rnd o ((List.range (hi - lo)).map fun i => if on (lo + i) then some (a (lo + i)) else none)).2)) ∧
    -- the flag columns of R121 and R192
    (let column (ops : List LaneOp) (ok : List (Fin 7)) : Prop := l.op ∈ ops →
       ∃ t c', exec (.resultLanding n k) s = .next t ∧ s.onlyCore t j.core c' ∧
         ∀ q : Fin 7, q ∉ ok → c'.fs.getLsbD q.val = c.fs.getLsbD q.val ∧ c'.fx[q] = c.fx[q]
     (ty ∈ typesF → column [.add, .sub, .mul, .fma, .fms, .nfma] [0, 2, 3, 4] ∧ column [.min, .max, .clt, .cle] [0]) ∧
     (ty ∈ typesI → column [.add, .sub, .mul, .fma, .fms, .nfma, .abs, .neg] [5]) ∧
     (ty ∈ typesW → column [.rcp, .rsq, .sqrt] [0, 1, 2, 3, 4] ∧ column [.blend, .bacc, .bnorm, .bgrad] [0, 2, 3, 4] ∧ column [.wsoft] [0, 4] ∧
       column [.wsoftg] [2, 3, 4] ∧ ∀ tb, column [.tbl tb] [0, 2, 3, 4]) ∧
     (ty ∈ typesF ++ typesI → column [.wfromv] [0, 4] ∧ column [.wtov] [3, 4] ∧ column [.wmul] [4]) ∧
     column [.xsect] [5]))

/-! ### Vector memory and layout records (R213, R218 to R225) -/

/-- R75, R218, R221, R224, R225: the vector memory words go in flight under the types of their rows, with their scalar operands and
layout register as read at c. -/
def Obligations.VectorMemoryIssues : Prop :=
  ∀ (s : State) (m : MReg) (d v : VReg) (a b : SReg) (k : WReg) (l : LReg),
    let ty := s.typeOf m
    let base := s.sreg a
    let on (ok : List ETy) (i : Instr) (kind : VMemKind) (x : VMode) : Prop :=
      (ty ∈ ok → exec i s = .next (s.issued (s.core.capture m) (.vmem kind d base x))) ∧ (ty ∉ ok → exec i s = .next s.trapIllegal)
    let FI := typesF ++ typesI
    on FI (.vld m d a) .load .unit ∧ on FI (.vlds m d a b) .load (.strided (s.sreg b)) ∧ on FI (.vldx m d a v) .load (.indexed v) ∧
    on FI (.vst m d a) .store .unit ∧ on FI (.vsts m d a b) .store (.strided (s.sreg b)) ∧ on FI (.vstx m d a v) .store (.indexed v) ∧
    on typesW (.vstw m d a .unit k) (.blend k) .unit ∧ on typesW (.vstw m d a (.strided b) k) (.blend k) (.strided (s.sreg b)) ∧
    on typesW (.vstw m d a (.indexed v) k) (.blend k) (.indexed v) ∧
    on typesW (.vqst m d a l) (.qstore s.core.ly[l]) .unit ∧ on typesW (.vldq m d a l) (.qload s.core.ly[l]) .unit ∧
    exec (.vlrec l a) s = .next (s.issued .none (.vlrec l base none))

/-- R218 to R226, R145, R146: a slot of a plain vector store lands: the byte i of each active element of the slot goes to its
address plus i, the later of two elements that meet winning, out-of-range bytes are dropped, every other byte reads as
before, and no register changes but oob. A slot of a plain vector load lands: each active element of the slot becomes the
code read from memory; every other element, every other register and all of memory are as before. A slot of a `vstw`
stores the blend of each active element, and of a `vqst` the codes that its layout register's storage takes, or the blocks
that the slot completes, or nothing where the record is invalid; a slot of a `vldq` lands what it read. Each raises the flags of its own roundings, by
element (R115, R116), and no other;
an invalid record raises inv, with slot 0, exactly when some element is active (for the slots not read by then: log 22); of two blocks that share bytes and land together, the one
whose last body element is the later wins, which is the model's choice (log 129), and so is that a block's dithered element
whose code reads as exactly 0 raises inexact (log 144). `vlrec` lands
the record it loaded, and `vtld` the table its record gives. -/
def Obligations.VectorMemoryLands : Prop :=
  (∀ (s : State) (n k : Nat) (j : Job) (c : Core) (d : VReg) (base : DWord) (x : VMode),
     s.memOk = true → s.job? n = some j → j.work = .vmem .store d base x → k < 16 → j.cut = none → s.core? j.core = some c →
     j.cap.ty ∈ typesF ++ typesI →
     let w := bitsOf j.cap.ty
     let len := match x with | .indexed _ => 32 | _ => 1024 / w
     let body := match x with | .indexed _ => min (min j.cap.vl (16384 / w)) 512 | _ => min j.cap.vl (16384 / w)
     let byteAt (e i : Nat) : Nat := (base.toNat + (match x with
       | .unit => e * (w / 8) | .strided st => e * st.toNat | .indexed _ => elem j.smp.b 32 e) + i) % 2 ^ 64
     let stores (e : Nat) : Prop := len * k ≤ e ∧ e < len * (k + 1) ∧ isActive j.cap body j.smp.g e
     ∃ (t : State) (mem : Memory) (oob : DWord) (from_ : Option (Nat × Nat × Nat)),
       exec (.storeLanding n k) s = .next t ∧ s.onlyCore t j.core { c with spad := mem, oob := oob, oobFrom := from_ } ∧
       (∀ a, (∀ e i, stores e → i < w / 8 → a ≠ byteAt e i) → spadRead mem a = spadRead c.spad a) ∧
       (∀ e i, stores e → i < w / 8 → byteAt e i < 2 ^ 20 →
         (∀ e' i', e < e' → stores e' → i' < w / 8 → byteAt e' i' ≠ byteAt e i) →
         spadRead mem (byteAt e i) = BitVec.ofNat 8 (elem j.smp.d w e / 2 ^ (8 * i)))) ∧
  (∀ (s : State) (n k : Nat) (j : Job) (c : Core) (d : VReg) (base : DWord) (x : VMode),
     s.job? n = some j → j.work = .vmem .load d base x → k < 16 → j.cut = none → s.core? j.core = some c →
     j.cap.ty ∈ typesF ++ typesI →
     let w := bitsOf j.cap.ty
     let len := match x with | .indexed _ => 32 | _ => 1024 / w
     let body := match x with | .indexed _ => min (min j.cap.vl (16384 / w)) 512 | _ => min j.cap.vl (16384 / w)
     let loads (e : Nat) : Prop := len * k ≤ e ∧ e < len * (k + 1) ∧ isActive j.cap body j.smp.g e
     ∃ (t : State) (v : VecBits), exec (.resultLanding n k) s = .next t ∧
       s.onlyCore t j.core { c with v := c.v.set d v } ∧
       (∀ e, loads e → elem v w e = elem j.smp.mem w e) ∧
       (∀ e, e < 16384 / w → ¬ loads e → elem v w e = elem c.v[d] w e)) ∧
  (∀ (s : State) (n k : Nat) (j : Job) (c : Core) (d : VReg) (base : DWord) (x : VMode),
     s.memOk = true → s.job? n = some j → k < 16 → j.cut = none → s.core? j.core = some c → j.cap.ty ∈ typesW →
     let ty := j.cap.ty
     let rnd := j.cap.rnd
     let w := bitsOf ty
     let len := match x with | .indexed _ => 32 | _ => 1024 / w
     let body := match x with | .indexed _ => min (min j.cap.vl (16384 / w)) 512 | _ => min j.cap.vl (16384 / w)
     let byteAt (e : Nat) : Nat := (base.toNat + (match x with
       | .unit => e * (w / 8) | .strided st => e * st.toNat | .indexed _ => elem j.smp.b 32 e)) % 2 ^ 64
     let old (e : Nat) : Nat := elem j.smp.mem w e
     let new (e : Nat) : Nat := elem j.smp.d w e
     -- the flag of an invalid record; `rest` is how many cycles after this one the last slot is read
     let tells (l : LayoutReg) (rest : Nat) (c' : Core) : Prop := l.valid = false → (∀ h ∈ j.smp.hits, h.1 ≠ k) →
       c'.fs = if k = 0 ∧ s.anyActive j rest = true then c.fs ||| 1 else c.fs
     (∀ q, j.work = .vmem (.blend q) d base x →
       let wt (e : Nat) : Nat := weightAt j.smp.wb e
       let mix (e : Nat) : Rounded :=
         finish ty rnd (addProd rnd (mulV (weightV (wt e)) (decF ty (new e))) (mulV (weightV (0x8000 - wt e)) (decF ty (old e))).1)
       let r (e : Nat) : Nat :=
         if wt e = 0 then canonC ty (old e)
         else if wt e = 0x8000 then canonC ty (new e)
         else (mix e).1
       ∃ (t : State) (c' : Core) (m : Memory), exec (.storeLanding n k) s = .next t ∧ s.onlyCore t j.core c' ∧
         Core.sameButFlags { c with spad := m } c' ∧
         (c.raised c' (s.stampOf j) fun q e => j.lands len body k e ∧ wt e ≠ 0 ∧ wt e ≠ 0x8000 ∧ (mix e).2.has q = true) ∧
         storedIn c.spad m ((j.slotElems len body k).map fun e => (byteAt e, leBytes (r e) (w / 8)))) ∧
     (∀ l, j.work = .vmem (.qstore l) d base x →
       ∃ (t : State) (c' : Core) (m : Memory) (oob : DWord) (from_ : Option (Nat × Nat × Nat)),
         exec (.storeLanding n k) s = .next t ∧ s.onlyCore t j.core c' ∧
         Core.sameButFlags { c with spad := m, oob := oob, oobFrom := from_ } c' ∧ tells l 10 c' ∧
         (l.valid = false → m = c.spad ∧ oob = c.oob ∧ c.raised c' (s.stampOf j) fun q e => q = 0 ∧ e = 0 ∧ k = 0 ∧ s.anyActive j 10 = true) ∧
         (let code (p : Nat × Nat) (e : Nat) : Rounded := match l.offset p with
            | some o => dstore l.ty rnd o (decF ty (new e))
            | none => convV l.ty rnd (decF ty (new e))
          l.valid = true → l.mx = false →
           storedIn c.spad m ((j.slotElems (1024 / w) (min j.cap.vl (16384 / w)) k).filterMap fun e =>
             (l.pairAt (base.toNat + e)).map fun p => (l.addr p, leBytes (code p e).1 l.size)) ∧
           c.raised c' (s.stampOf j) fun q e => j.lands (1024 / w) (min j.cap.vl (16384 / w)) k e ∧
             ∃ p, l.pairAt (base.toNat + e) = some p ∧ (code p e).2.has q = true) ∧
         (l.valid = true → l.mx = true →
           let blocks := (blocksOf l base.toNat (min j.cap.vl (16384 / w)) (1024 / w) k).filterMap
             (encodeBlock j.cap l base.toNat (min j.cap.vl (16384 / w)) j.smp)
           storedIn c.spad m (blocks.map fun b => (b.2.1, b.2.2.1)) ∧
           c.raised c' (s.stampOf j) fun q e => ∃ b ∈ blocks, (⟨q, e⟩ : FlagHit) ∈ b.2.2.2)) ∧
     (∀ l, j.work = .vmem (.qload l) d base x → x = .unit →
       ∃ (t : State) (c' : Core) (v : VecBits), exec (.resultLanding n k) s = .next t ∧ s.onlyCore t j.core c' ∧
         Core.sameButFlags { c with v := c.v.set d v } c' ∧ tells l 5 c' ∧
         (c.raised c' (s.stampOf j) fun q e => (∃ i, (k, (⟨q, i⟩ : FlagHit)) ∈ j.smp.hits ∧ e = i % 2 ^ 16) ∨
           (l.valid = false ∧ q = 0 ∧ e = 0 ∧ k = 0 ∧ s.anyActive j 5 = true)) ∧
         ∀ e, e < 16384 / w → (j.lands len body k e → elem v w e = old e) ∧ (¬ j.lands len body k e → elem v w e = elem c.v[d] w e))) ∧
  (∀ (s : State) (n k : Nat) (j : Job) (c : Core), s.job? n = some j → j.cut = none → s.core? j.core = some c →
     (∀ d a v, j.work = .vlrec d a v →
       ∃ t, exec (.resultLanding n k) s = .next t ∧ s.onlyCore t j.core { c with ly := c.ly.set d (v.getD .zero) }) ∧
     (∀ r a, j.work = .vtld r a →
       ∃ t, exec (.resultLanding n k) s = .next t ∧ s.onlyCore t j.core { c with tbl := c.tbl.set r (tableOf j.smp.mem) }))

/-! ### The matrix engine (R228 to R240) -/

/-- R75, R229, R230, R234: `mshape` sets the shape for the next word; the matrix words go in flight under the types of their rows,
with the shape, the scalar operand and the layout registers as read at c. -/
def Obligations.MatrixWordsIssue : Prop :=
  ∀ (s : State) (kb : Bool) (n1 m1 : Fin 128) (m : MReg) (d : TReg) (a b : VReg) (la lb : LReg) (x : SReg),
    let ty := s.typeOf m
    let on (ok : List ETy) (i : Instr) (op : MatOp) (a b : Option VReg) : Prop :=
      (ty ∈ ok → exec i s = .next (s.issued (s.core.capture m) (.matrix op d.val a b s.core.shape none))) ∧
      (ty ∉ ok → exec i s = .next s.trapIllegal)
    let ly := s.core.ly
    let row := (s.sreg x).toNat
    exec (.mshape kb n1 m1) s = .next ({ s with core := { s.core with shape := ⟨m1, n1, kb⟩ } }).advance ∧
    on [.fp16, .bf16] (.mopa m d a b) .mopa (some a) (some b) ∧
    on ([.int8, .n8, .e5m2, .e4m3] ++ typesMx) (.mopaq m d a b) (.mopaq ly[6] ly[7]) (some a) (some b) ∧
    on [.fp16, .bf16, .e5m2, .e4m3, .int8, .n8] (.mgath m d a b lb la) (.mgath ly[la] ly[lb]) (some a) (some b) ∧
    on typesAll (.mscale m d a b) .mscale (some a) (some b) ∧
    on typesAll (.mzero m d) .mzero none none ∧ on typesAll (.mtrn m d) .mtrn none none ∧
    on typesW (.mcolr m a d x) (.mcolr row) (some a) none ∧ on typesW (.mcolw m d a x) (.mcolw row) (some a) none ∧
    on typesW (.mrowr m a d x) (.mrowr row) (some a) none ∧ on typesW (.mroww m d a x) (.mroww row) (some a) none

/-- R230 to R232, R240: a step of a matrix word changes work in flight only, and oob where it reads out of range: no register, no
tile, no memory changes before the effect becomes readable. `mzero` takes its step, and its effect lands: every element
of tD is +0; `mtrn` reads tD at its first step, and its effect lands: element (m, n) is the old element (n, m). No other
tile, no other register and no memory changes.

R231, R233, R235 to R239: a step of `mopa`, `mopaq` or `mgath` takes its active slices in ascending order and, in each, the
rows m < M and the columns n < N, and adds to its image, rounding each sum to fp32, the product of the two operands, or +0
where one is a zero code: of `mopa` the elements of va and vb, of `mopaq` those as their layout registers and their type
give them, of `mgath` what its layout registers lead to in the scratchpad. A step of `mscale` adds the scaled partner tile
to 16 rows. Their effect lands as the image, and `mscale` drains its partner. `mcolw` and `mroww` land their active
elements in a column or a row of tD; `mcolr` and `mrowr` take the tile at their step, and land a column or a row of it,
group by group. R234, R115, R116: each step notes the classes that its sums raise, by slice, of `mscale` by row, and they are
raised as the effect lands; a group of `mcolr` or `mrowr` raises those of its roundings, by element; and `mgath` through a
record that it does not accept raises inv at slice 0 where some slice is active (R237). No step and no landing raises any
other. The model's choice: the first step takes for its image the tile, or what it will be when the latest
accumulating write in flight that is readable no later lands, and each step is added to the images of those readable no
earlier (log 14); what flags the steps raise where such windows overlap (log 84); and that a code that reads as NaN with
invalid raises it also where all its products are skipped (log 128). -/
def Obligations.MatrixSteps : Prop :=
  (∀ (s : State) (n k : Nat) (j : Job) (op : MatOp) (d : Nat) (a b : Option VReg) (sh : Shape) (img : Option TileBits),
     s.job? n = some j → j.work = .matrix op d a b sh img →
     ∃ t, exec (.matrixStep n k) s = .next t ∧
       (∀ i c, s.core? i = some c → ∃ o f, t.core? i = some { c with oob := o, oobFrom := f }) ∧
       (∀ i c, s.core? i = some c → i ≠ j.core → t.core? i = some c) ∧
       t.pkgs = s.pkgs ∧ t.folios = s.folios ∧ t.votes = s.votes ∧ t.contexts = s.contexts ∧ t.inputs = s.inputs ∧
       t.due = s.due ∧ t.seq = s.seq ∧ t.freeCtr = s.freeCtr ∧ t.jobs.map (·.seq) = s.jobs.map (·.seq)) ∧
  (∀ (s : State) (n k : Nat) (j : Job) (c : Core) (d : Fin 4) (a b : Option VReg) (sh : Shape),
     s.job? n = some j → j.cut = none → j.smp.hits = [] → s.core? j.core = some c →
     (∀ img, j.work = .matrix .mzero d.val a b sh img →
       exec (.matrixStep n k) s = .next (s.updJob n fun i => i.withImage 0 []) ∧
       (img.isSome → ∃ t, exec (.resultLanding n k) s = .next t ∧ s.onlyCore t j.core { c with t := c.t.set d 0 })) ∧
     (∀ img, j.work = .matrix .mtrn d.val a b sh img →
       exec (.matrixStep n 0) s = .next (s.updJob n fun i => i.withImage c.t[d] []) ∧
       (∀ old, img = some old → ∃ t x, exec (.resultLanding n k) s = .next t ∧ s.onlyCore t j.core { c with t := c.t.set d x } ∧
         ∀ m' n', m' < 128 → n' < 128 → tileAt x m' n' = tileAt old n' m'))) ∧
  (∀ (s : State) (n k : Nat) (j : Job) (c : Core) (d : Fin 4) (op : MatOp) (a b : Option VReg) (sh : Shape) (img : Option TileBits),
     s.job? n = some j → j.cut = none → s.core? j.core = some c → j.work = .matrix op d.val a b sh img →
     let M := sh.m1.val + 1
     let N := sh.n1.val + 1
     let ty := j.cap.ty
     let w := bitsOf ty
     let body := min j.cap.vl (16384 / w)
     let product : Prop := match op with
       | .mopa => ty ∈ [.fp16, .bf16]
       | .mopaq .. => ty ∈ [.int8, .n8, .e5m2, .e4m3] ++ typesMx
       | .mgath .. => ty ∈ [.fp16, .bf16, .e5m2, .e4m3, .int8, .n8]
       | _ => False
     -- accumulating work `i` holds the image `x` of this tile
     let holds (i : Job) (op' : MatOp) (a' b' : Option VReg) (sh' : Shape) (x : TileBits) : Prop :=
       i.core = j.core ∧ i.work = .matrix op' d.val a' b' sh' (some x) ∧
         match op' with | .mopa | .mopaq .. | .mgath .. | .mscale => True | _ => False
     let readable (i : Job) (op' : MatOp) (sh' : Shape) : Nat := i.cyc + matReady i.cap op' sh'
     -- the image that step k adds to
     let base (x : TileBits) : Prop :=
       (∀ y, img = some y → x = y) ∧
       (img = none → (∀ i op' a' b' sh' y, i ∈ s.jobs → holds i op' a' b' sh' y → readable j op sh < readable i op' sh') → x = c.t[d]) ∧
       (img = none → ∀ i op' a' b' sh' y, i ∈ s.jobs → holds i op' a' b' sh' y → readable i op' sh' ≤ readable j op sh →
         (∀ i' op'' a'' b'' sh'' z, i' ∈ s.jobs → i' ≠ i → holds i' op'' a'' b'' sh'' z →
           readable i' op'' sh'' < readable i op' sh' ∨ readable j op sh < readable i' op'' sh'') → x = y)
     -- step k leaves the image `y`
     let steps (y : TileBits → Prop) : Prop := ∃ t i new, exec (.matrixStep n k) s = .next t ∧ t.job? n = some i ∧
       i.work = .matrix op d.val a b sh (some new) ∧ i.smp = j.smp ∧ y new
     -- step k takes its image, and that of all accumulating work readable no earlier, from `old` to `new` as `adds` says, and
     -- notes the classes and indexes of `flags`
     let sums (adds : TileBits → TileBits → Prop) (flags : TileBits → Fin 7 → Nat → Prop) : Prop :=
       ∃ t i old new more, exec (.matrixStep n k) s = .next t ∧ t.job? n = some i ∧
       i.work = .matrix op d.val a b sh (some new) ∧ i.smp = { j.smp with hits := j.smp.hits ++ more } ∧
       (∀ q e, (∃ g, (g, (⟨q, e⟩ : FlagHit)) ∈ more) ↔ flags old q e) ∧ base old ∧ adds old new ∧
       ∀ q i op' a' b' sh' x, s.job? q = some i → q ≠ n → holds i op' a' b' sh' x → readable j op sh ≤ readable i op' sh' →
         ∃ i' y, t.job? q = some i' ∧ i'.work = .matrix op' d.val a' b' sh' (some y) ∧ adds x y
     -- the operands: none is a zero code
     let plain (x : VecBits) (e : Nat) : Option FVal :=
       if body ≤ e ∨ isZeroCode ty (elem x w e) = true then none else some (decF ty (elem x w e))
     let through (l : LayoutReg) (x : VecBits) (e : Nat) : Option FVal :=
       let g := codeOf ty (elem x w e)
       if body ≤ e ∨ (l.valid = true ∧ l.pairAt e = none) ∨ isZeroCode ty g = true then none
       else if ty ∈ typesI then some (decV ty g)
       else match l.pairAt e with
         | none => some (if ty = .e2m1 ∧ g = 8 then .nan else decF ty g)
         | some p =>
           if ty = .e2m1 ∧ g = 8 then
             some (if l.mx = true ∧ l.ty = .e2m1 then decF .e4m3 (spadRead c.spad ((l.addr p + 17) % 2 ^ 64)).toNat else .nan)
           else some (readDithered ty g (l.frameOffset p))
     let accepted (l : LayoutReg) : Prop :=
       l.valid = true ∧ l.mx = false ∧ (l.ty ∈ [.e5m2, .e4m3, .int8, .n8] ∨ ty ∈ typesW ∧ l.ty ∈ [.fp16, .bf16])
     let gathered (l : LayoutReg) (p : Option (Nat × Nat)) : Option FVal :=
       if l.valid = true ∧ l.mx = false ∧ (l.ty ∈ [.e5m2, .e4m3, .int8, .n8] ∨ ty ∈ typesW ∧ l.ty ∈ [.fp16, .bf16]) then
         match p with
         | none => none
         | some p =>
           let bs := spadBytes c.spad (l.addr p) l.size
           if isZeroCode l.ty (leNat bs) = true then none else some (l.value p (l.stored p bs))
       else none
     let left (q m : Nat) : Option FVal := match op with
       | .mopa => plain j.smp.a (q * M + m)
       | .mopaq la _ => through la j.smp.a (q * M + m)
       | .mgath la _ => gathered la (la.pairAt (elem j.smp.a 32 m * recCols la.first + q))
       | _ => none
     let right (q n : Nat) : Option FVal := match op with
       | .mopa => plain j.smp.b (q * N + n)
       | .mopaq _ lb => through lb j.smp.b (q * N + n)
       | .mgath _ lb => gathered lb (lb.pair q n)
       | _ => none
     let row (m : Nat) : Nat := match op with | .mgath .. => elem j.smp.b 32 m | _ => m
     let count := match op with | .mgath .. => min j.cap.vl 128 | _ => body / (if sh.kb then N else M)
     let per := if ty ∈ [.fp16, .bf16] then 1 else if ty ∈ [.int8, .n8, .e5m2, .e4m3] then 2 else 4
     let sliceOn (q : Nat) : Bool :=
       let p := if ty = .e2m1 then q / 2 else q
       decide (q < count) && decide (j.cap.theta < weightAt j.smp.g p) && j.cap.mask.getLsbD p
     let slices := ((List.range per).map (· + k * per)).filter sliceOn
     -- what step k adds to an element, in order: each slice with its two operands; and one sum
     let terms (m n : Nat) : List (Nat × Option FVal × Option FVal) :=
       slices.flatMap fun q => ((List.range M).filter fun i => row i == m).map fun i => (q, left q i, right q n)
     let sum (v : Nat) (g : Nat × Option FVal × Option FVal) : Rounded :=
       let p : FVal × Bool := match g.2.1, g.2.2 with | some x, some y => mulV x y | _, _ => (.fin false 0 0, false)
       finish .fp32 .rne (addProd .rne p (decF .fp32 v))
     let total (v : Nat) (gs : List (Nat × Option FVal × Option FVal)) : Nat := gs.foldl (fun v g => (sum v g).1 % 2 ^ 32) v
     -- an element that reads as NaN with invalid
     let bad (l : LayoutReg) (x : VecBits) (e : Nat) : Prop := ty = .e2m1 ∧ codeOf ty (elem x w e) = 8 ∧ e < body ∧
       (match l.pairAt e with | some _ => ¬ (l.mx = true ∧ l.ty = .e2m1) | none => l.valid = false)
     -- one element of mscale
     let scaled (x : TileBits) (m n : Nat) : Rounded :=
       let sa := elem j.smp.a 8 m
       let sb := elem j.smp.b 8 n
       if sa = 0xFF ∨ sb = 0xFF then (nanCode .fp32, { inv := true })
       else
         let p : FVal := match decF .fp32 (tileAt (c.tile (Nat.xor d.val 1)) m n) with
           | .fin g x e => .fin g x (e + sa + sb - 254)
           | v => v
         finish .fp32 .rne (addV .rne (decF .fp32 (tileAt x m n)) p)
     -- the effect becomes readable and leaves core `c'`
     let lands (c' : Core → Prop) : Prop := ∃ t k', exec (.resultLanding n k) s = .next t ∧ s.onlyCore t j.core k' ∧ c' k'
     -- the flags that the steps have noted are raised
     let raises (c' : Core) : Prop := c.raised c' (s.stampOf j) fun q e => ∃ g i, (g, (⟨q, i⟩ : FlagHit)) ∈ j.smp.hits ∧ e = i % 2 ^ 16
     (product → sums
       (fun x y => ∀ m n, m < 128 → n < 128 → tileAt y m n = if n < N then total (tileAt x m n) (terms m n) else tileAt x m n)
       (fun x q e =>
         (∃ m n u g, m < 128 ∧ n < N ∧ (terms m n)[u]? = some g ∧ g.1 = e ∧
           (sum (total (tileAt x m n) ((terms m n).take u)) g).2.has q = true) ∨
         (q = 0 ∧ e ∈ slices ∧ ∃ la lb, op = .mopaq la lb ∧
           ((∃ m, m < M ∧ bad la j.smp.a (e * M + m)) ∨ ∃ n, n < N ∧ bad lb j.smp.b (e * N + n))) ∨
         (q = 0 ∧ e = 0 ∧ k = 0 ∧ ∃ la lb, op = .mgath la lb ∧ ¬ (accepted la ∧ accepted lb) ∧ ∃ u, sliceOn u = true))) ∧
     (op = .mscale → sums
       (fun x y => ∀ m n, m < 128 → n < 128 → tileAt y m n =
         if m / 16 = k ∧ m < M ∧ n < N then (scaled x m n).1 % 2 ^ 32 else tileAt x m n)
       (fun x q m => m / 16 = k ∧ m < M ∧ ∃ n, n < N ∧ (scaled x m n).2.has q = true)) ∧
     (∀ x, img = some x → product → lands fun c' => Core.sameButFlags { c with t := c.t.set d x } c' ∧ raises c') ∧
     (∀ x, img = some x → op = .mscale → lands fun c' => raises c' ∧ ∃ y : TileBits, ∀ e : Fin 4, e.val = Nat.xor d.val 1 →
       Core.sameButFlags { c with t := (c.t.set d x).set e y } c' ∧
       ∀ m n, m < 128 → n < 128 → tileAt y m n = if m < M ∧ n < N then 0 else tileAt c.t[e] m n) ∧
     (let on (e : Nat) : Bool := active j.cap body j.smp.g e
      ty ∈ typesW →
      (∀ i row, (op = .mcolw i ∧ row = false ∨ op = .mroww i ∧ row = true) →
        steps (fun _ => True) ∧
        (img.isSome → j.smp.hits = [] → lands fun c' => ∃ y, c' = { c with t := c.t.set d y } ∧
          ∀ m n, m < 128 → n < 128 →
            let e := if row then n else m
            tileAt y m n = if (if row then m else n) = i ∧ on e = true then (rnV .fp32 .rne (decF j.cap.ty (elem j.smp.a w e))).1 % 2 ^ 32
              else tileAt c.t[d] m n)) ∧
      (∀ i row, (op = .mcolr i ∧ row = false ∨ op = .mrowr i ∧ row = true) →
        (k = 0 → steps fun y => y = c.t[d]) ∧
        (∀ v x, a = some v → img = some x → lands fun c' =>
          (c.raised c' (s.stampOf j) fun q e => 1024 / w * k ≤ e ∧ e < 1024 / w * (k + 1) ∧ e < 128 ∧ on e = true ∧ i < 128 ∧
            (rnV j.cap.ty j.cap.rnd (decF .fp32 (if row then tileAt x i e else tileAt x e i))).2.has q = true) ∧
          ∃ y : VecBits, Core.sameButFlags { c with v := c.v.set v y } c' ∧
          ∀ e, e < 16384 / w → elem y w e =
            if 1024 / w * k ≤ e ∧ e < 1024 / w * (k + 1) ∧ e < 128 ∧ on e = true then
              (if 128 ≤ i then 0 else (rnV j.cap.ty j.cap.rnd (decF .fp32 (if row then tileAt x i e else tileAt x e i))).1 % 2 ^ w)
            else elem c.v[v] w e))))

/-! ### The cluster (R248 to R257) -/

/-- R75, R253, R256, R257: the words that reach other scratchpads go in flight with their operands as read at c. -/
def Obligations.ClusterWordsIssue : Prop :=
  ∀ (s : State) (m : MReg) (d v : VReg) (a b x : SReg),
    let ty := s.typeOf m
    let on (ok : List ETy) (i : Instr) (w : Work) : Prop :=
      (ty ∈ ok → exec i s = .next (s.issued (s.core.capture m) w)) ∧ (ty ∉ ok → exec i s = .next s.trapIllegal)
    let amo (i : Instr) (op : AmoOp) : Prop := exec i s = .next (s.issued .none (.amo op x (s.sreg a) (s.sreg b) (s.sreg x) none))
    on (typesF ++ typesI) (.vldc m d a) (.remote .load d (s.sreg a)) ∧ on (typesF ++ typesI) (.vstc m d a) (.remote .store d (s.sreg a)) ∧
    on (typesF ++ typesI) (.vstm m d a b) (.remote (.multi ((s.sreg b).toNat % 2 ^ 12)) d (s.sreg a)) ∧
    on [.fp32, .fp16, .bf16, .int32, .n32] (.vamoadd m d a v) (.vamo d (s.sreg a) v) ∧
    amo (.amoadd x a b) .add ∧ amo (.amomin x a b) .min ∧ amo (.amomax x a b) .max ∧ amo (.amoor x a b) .or ∧
    amo (.amoxchg x a b) .xchg ∧ amo (.amocas x a b) .cas

/-- R255 to R257: the write of an atomic lands in its target: the doubleword at offset bits 19:3 becomes the new value, every other
byte and every other register of the target and all else stay; and the old value lands in sD, but for s0. An atomic whose
address names no core of the quire reads nothing and offers the address to oob at c+12, writes nothing, and lands 0 in sD. A `vamoadd`
adds, in ascending element order, each active element to the element at its offset in the target, rounded or clamped; an
element out of range adds nothing; only the target's scratchpad and the issuing core's flags change, and nothing where the
address names no core of the quire. The flags raised are those of the sums, each by its element (R115, R116). An atomic reads
its target's doubleword at c+12, and `vamoadd` its elements, offsets and guards at c+6+k, 32 in each slot. -/
def Obligations.AtomicsLand : Prop :=
  (∀ (s : State) (n k : Nat) (j : Job) (c o : Core) (op : AmoOp) (x : SReg) (a b w old : DWord),
    s.memOk = true → s.job? n = some j → j.work = .amo op x a b w (some old) → j.cut = none →
    s.core? { j.core with core := a.toNat / 2 ^ 20 % 16 } = some c → s.core? j.core = some o →
    let off := a.toNat / 8 % 2 ^ 17 * 8
    let new : DWord := match op with
      | .add => BitVec.ofNat 64 (old.toNat + b.toNat)
      | .min => if b.toInt < old.toInt then b else old
      | .max => if old.toInt < b.toInt then b else old
      | .or => old ||| b
      | .xchg => b
      | .cas => if old = w then b else old
    (∃ t m, exec (.rmwSlot n) s = .next t ∧ s.onlyCore t { j.core with core := a.toNat / 2 ^ 20 % 16 } { c with spad := m } ∧
      (∀ i, i < 8 → spadRead m (off + i) = new.extractLsb' (8 * i) 8) ∧
      (∀ y, (y < off ∨ off + 8 ≤ y) → spadRead m y = spadRead c.spad y)) ∧
    (∃ t, exec (.resultLanding n k) s = .next t ∧ s.onlyCore t j.core { o with s := if x = 0 then o.s else o.s.set x old })) ∧
  (∀ (s : State) (n k : Nat) (j : Job) (o : Core) (op : AmoOp) (x : SReg) (a b w : DWord),
    s.job? n = some j → j.work = .amo op x a b w none → j.cut = none → s.core? j.core = some o →
    let start := s.startOf j.core.folio
    (¬ (a.toNat < 2 ^ 24 ∧ a.toNat / 2 ^ 20 % 16 < (s.extOf j.core.folio).k) →
      s.onlyCore (s.sampleJob (j.cyc + 12) j) j.core (o.offer (j.cyc + 12 - start) (j.cyc - start) 0 a)) ∧
    (a.toNat < 2 ^ 24 → a.toNat / 2 ^ 20 % 16 < (s.extOf j.core.folio).k →
      ∀ c, s.core? { j.core with core := a.toNat / 2 ^ 20 % 16 } = some c →
        s.sampleJob (j.cyc + 12) j = s.updJob j.seq fun i => { i with
          work := .amo op x a b w (some (BitVec.ofNat 64 (leNat (spadBytes c.spad (a.toNat / 8 % 2 ^ 17 * 8) 8)))) }) ∧
    exec (.rmwSlot n) s = .next s ∧
    ∃ t, exec (.resultLanding n k) s = .next t ∧ s.onlyCore t j.core { o with s := if x = 0 then o.s else o.s.set x 0 }) ∧
  (∀ (s : State) (n : Nat) (j : Job) (d v : VReg) (a : DWord),
    s.memOk = true → s.job? n = some j → j.work = .vamo d a v → j.cut = none → j.bad = [] →
    j.cap.ty ∈ [.fp32, .fp16, .bf16, .int32, .n32] →
    let ty := j.cap.ty
    let w := bitsOf ty
    let body := min (min j.cap.vl (16384 / w)) 512
    let target : CoreId := { j.core with core := a.toNat / 2 ^ 20 % 16 }
    let within_ : Prop := a.toNat < 2 ^ 24 ∧ target.core < (s.extOf j.core.folio).k
    let places (e : Nat) : Nat := a.toNat % 2 ^ 20 + elem j.smp.b 32 e
    let adds (old new : Nat) : Rounded := if ty ∈ typesI
      then ((clampInt ty (intOf ty old + intOf ty new) % 2 ^ w).toNat,
        { sat := decide (clampInt ty (intOf ty old + intOf ty new) ≠ intOf ty old + intOf ty new) })
      else finish ty j.cap.rnd (addV j.cap.rnd (decF ty old) (decF ty new))
    let byteOf (m : Memory) (y : Nat) (i : Nat) : Nat := 2 ^ (8 * i) * (spadRead m (y + i)).toNat
    (¬ within_ → exec (.rmwSlot n) s = .next s) ∧
    (within_ → ∃ t, exec (.rmwSlot n) s = .next t ∧ s.sameElsewhere t ∧
      ∀ i c, s.core? i = some c → ∃ c' m, t.core? i = some c' ∧ Core.sameButFlags { c with spad := m } c' ∧
        (i ≠ target → m = c.spad) ∧ (i ≠ j.core → c' = { c with spad := m }) ∧
        (i = j.core → ∀ o, s.core? target = some o → c.raised c' (s.stampOf j) fun q e => ∃ before after,
          (List.range body).filter (active j.cap body j.smp.g) = before ++ e :: after ∧
            (vamoOne j.cap a j.smp e (before.foldl (fun m e => (vamoOne j.cap a j.smp e m).1) o.spad)).2.has q = true) ∧
        (i = target → m = ((List.range body).filter (active j.cap body j.smp.g)).foldl (fun m e => (vamoOne j.cap a j.smp e m).1) c.spad)) ∧
    (∀ m e, Memory.wf m = true →
      let sum := adds (((List.range (w / 8)).map fun i => byteOf m (places e) i).sum) (elem j.smp.d w e)
      (vamoOne j.cap a j.smp e m).2 = (if places e + w / 8 ≤ 2 ^ 20 then sum.2 else {}) ∧
      ∀ y, y < 2 ^ 20 → spadRead (vamoOne j.cap a j.smp e m).1 y =
        if places e + w / 8 ≤ 2 ^ 20 ∧ places e ≤ y ∧ y < places e + w / 8 then BitVec.ofNat 8 (sum.1 / 2 ^ (8 * (y - places e)))
        else spadRead m y) ∧
    (∀ (c : Core) (k : Nat), s.core? j.core = some c → k < 16 →
      ∃ sm : Samples, s.sampleJob (j.cyc + 6 + k) j = s.updJob j.seq (fun i => { i with smp := sm }) ∧
        weighed (c.getW j.cap.guard) sm.g j.smp.g (32 * k) 32 ∧ taken c.v[d] sm.d j.smp.d w (32 * k) 32 ∧
        taken c.v[v] sm.b j.smp.b 32 (32 * k) 32))

/-- R249, R253, R119, R214: a group of a `vldc` lands in vd, its active elements and no other. A group of a `vstc` or `vstm` stores
the bytes of each active element at its offset in the scratchpad of every target; bytes past the scratchpad are dropped,
every other byte reads as before, no other scratchpad changes, and no register but oob of the issuing core, where an
element or a target is out of range (log 31). What an element that arrives with an uncorrectable error holds is free (R258, log
91). -/
def Obligations.RemoteAccessesLand : Prop :=
  ∀ (s : State) (n g : Nat) (j : Job) (op : RemoteOp) (d : VReg) (a : DWord),
    s.memOk = true → s.job? n = some j → j.work = .remote op d a → j.cut = none → g < 16 → j.cap.ty ∈ typesF ++ typesI →
    let w := bitsOf j.cap.ty
    let size := w / 8
    let body := min j.cap.vl (16384 / w)
    let moves (e : Nat) : Prop := j.lands (1024 / w) body g e
    (op = .load → ∀ c, s.core? j.core = some c →
      ∃ (t : State) (v : VecBits), exec (.remoteLanding n g) s = .next t ∧
        s.onlyCore { t with freeCtr := s.freeCtr } j.core { c with v := c.v.set d v } ∧
        ((g, j.core) ∉ j.bad → t.freeCtr = s.freeCtr ∧ ∀ e, moves e → elem v w e = elem j.smp.mem w e) ∧
        (∀ e, e < 16384 / w → ¬ moves e → elem v w e = elem c.v[d] w e)) ∧
    (op ≠ .load →
      let targets := remoteTargets (s.extOf j.core.folio) j.core op a
      let place (e : Nat) : Nat := a.toNat % 2 ^ 20 + e * size
      let es := j.slotElems (1024 / w) body g
      (∀ i, i ∈ targets ↔ a.toNat < 2 ^ 24 ∧ i = { j.core with core := i.core } ∧ i.core < (s.extOf j.core.folio).k ∧
        (op = .store ∧ i.core = a.toNat / 2 ^ 20 % 16 ∨ ∃ mask, op = .multi mask ∧ i.core < 12 ∧ mask.testBit i.core = true)) ∧
      ∃ t, exec (.remoteLanding n g) s = .next t ∧ s.sameElsewhere { t with freeCtr := s.freeCtr } ∧ (j.bad = [] → t.freeCtr = s.freeCtr) ∧
        ∀ i c, s.core? i = some c → ∃ m o f, t.core? i = some { c with spad := m, oob := o, oobFrom := f } ∧
          (i ∉ targets → m = c.spad) ∧
          (i ∈ targets → (g, i) ∉ j.bad → storedIn c.spad m (es.map fun e => (place e, leBytes (elem j.smp.d w e) size))) ∧
          (∀ y, y < 2 ^ 20 → (∀ e, moves e → y < place e ∨ place e + size ≤ y) → spadRead m y = spadRead c.spad y) ∧
          ((i ≠ j.core ∨ remoteOffers (s.extOf j.core.folio) op a size es = []) → o = c.oob ∧ f = c.oobFrom))

/-! ### The Racker, the Press and the streams (R265 to R288, R300, R319 to R325) -/

/-- R75, R267, R268, R276, R281, R282: `rkset` writes a shadow register; `rkgo` latches the shadows and vl, puts the identifier in
flight for c+1 and the transfer with it, and counts; it is illegal in a folio that does not hold its calendar, and a 17th
transfer in flight in the cluster is a calendar conflict, a suppressed one counting until the cycle in which its status would
land (log 131, the model's reading). The Press words go in flight with their operands as read at c
and the card that governs their die; `pcard` brings its own; in a folio that does not hold its die's Press they are
illegal. -/
def Obligations.RackerAndPressWords : Prop :=
  (∀ (s : State) (r : Fin 8) (d a : SReg) (f : Folio), s.folio? s.core.id.folio = some f →
     let c := s.core
     let key := (c.id.pkg, c.id.die, c.id.cluster)
     let tid := c.id.cluster * 4096 + f.rackerCount key % 4096
     exec (.rkset r a) s = .next ({ s with core := { c with rk := c.rk.set r (s.sreg a) } }).advance ∧
     (f.holds = false → exec (.rkgo d a) s = .next s.trapIllegal) ∧
     (f.holds = true → 16 ≤ s.outstanding → exec (.rkgo d a) s = .next s.trapTiming) ∧
     (f.holds = true → s.outstanding < 16 →
       exec (.rkgo d a) s = .next (State.advance { s with
         jobs := s.jobs ++ [s.newJob .none (.scalar d (BitVec.ofNat 64 tid) 1),
           { s.newJob .none (.racker { status := a, tid := tid, sh := c.rk, vl := c.vl.toNat }) with seq := s.seq + 1 }]
         seq := s.seq + 1
         folios := s.folios.map fun (g : Folio) => if g.id = c.id.folio then g.countRacker key else g }))) ∧
  (∀ (s : State) (a b : SReg) (f : Folio), s.folio? s.core.id.folio = some f →
     let card := (f.press.find? fun u => u.pkg == s.core.id.pkg && u.die == s.core.id.die).bind (·.card)
     let goes (op : PressOp) (card : Option (BitVec 512)) : Out :=
       .next (s.issued .none (.press { op := op, sa := s.sreg a, sb := s.sreg b, card := card }))
     (recPress f.record = true →
       exec (.pcard a b) s = goes .card none ∧ exec (.psel a b) s = goes .sel card ∧ exec (.pdisp a b) s = goes .disp card ∧
       exec (.pcomb a b) s = goes .comb card) ∧
     (recPress f.record = false →
       exec (.pcard a b) s = .next s.trapIllegal ∧ exec (.psel a b) s = .next s.trapIllegal ∧
       exec (.pdisp a b) s = .next s.trapIllegal ∧ exec (.pcomb a b) s = .next s.trapIllegal))

/-- R274, R278, R279: the status word of a transfer lands in its register: identifier in 63:48, the lowest error in 47:44, the flags
inv, ovf, unf and inx in 43:40, and the bytes in 31:0, none of a gated transfer; error 7 is among the errors where a target
lies outside the quire. R227, R270, R273, R275, R331: a beat of a gated transfer changes nothing. Another's goes to one
place: the scratchpads, or the fill buffers, of the targets that it reaches, HBM, or the cellar; and beside that and the
translation entries of the pages it writes, what seals and host writes note of the bytes written, and the issuing core's
oob, it changes its own record only: no other register, no instruction memory. R268, R269, R273, R313: the records are read at
c+1, and beat k of another source than the cellar at c+12+k, or c+40+24D+k from HBM: each element in the shape of the
source, with error 6 beyond the scratchpad, 5 beyond D, and 4 where its page is not resident. The model's choice: a second
read that fails leaves a status due by the stop to land (log 146), an element dropped at the destination raises nothing
(log 147), a cellar beat is read as it lands (log 18), error 7 also of a transfer that has no beat (log 42), which beat writes a block (log 90), and that bits 63:28 of
rtgt name no target (log 133). -/
def Obligations.RackerLands : Prop :=
  ∀ (s : State) (n k : Nat) (j : Job) (c : Core) (p : Package) (r : Racker),
    s.memOk = true → s.job? n = some j → j.work = .racker r → j.cut = none → s.core? j.core = some c → s.pkgs[c.phys]? = some p →
    let x := s.extOf j.core.folio
    (let outside : Bool := r.gate == 0 && !r.dHbm && r.mode != 3 && (r.targets j.core x).2
     let errs := (if r.gate = 0 then [] else [r.gate]) ++ r.errs ++ (if outside then [7] else [])
     ∀ err, (err = 0 ∧ (∀ e ∈ errs, e = 0) ∨ err ≠ 0 ∧ err ∈ errs ∧ ∀ e ∈ errs, e ≠ 0 → err ≤ e) → r.tid < 2 ^ 16 →
       let bit (k : Fin 7) (b : Nat) : Nat := if k ∈ r.flags then 2 ^ b else 0
       let word : DWord := BitVec.ofNat 64 (r.tid * 2 ^ 48 + err * 2 ^ 44 + bit 0 43 + bit 2 42 + bit 3 41 + bit 4 40 +
         (if r.gate = 0 then min r.valid (2 ^ 32 - 1) else 0))
       ∃ t, exec (.statusWord n) s = .next t ∧ s.onlyCore t j.core { c with s := if r.status = 0 then c.s else c.s.set r.status word }) ∧
    (∃ r' : Racker, s.reads (j.cyc + 1) j (fun i => { i with work := .racker r' }) ∧
      r' = { r with
        src := (loadLayout c.spad r.sh[1].toNat).1, dst := (loadLayout c.spad r.sh[2].toNat).1, srcRaw := r'.srcRaw, dstRaw := r'.dstRaw }) ∧
    (r.gate = 0 → r.fromCellar = false → k < r.count →
      let row := r.beatRow k
      ∃ es : List RElem, es.length = (r.beatElems k).length ∧
        s.reads (j.cyc + (if r.sHbm then 40 + 24 * r.dist else 12) + k) j (fun i => { i with
          work := .racker { r with beats := r.beats ++ [(k, es)], errs := r.errs ++ es.map (·.err) } }) ∧
        ∀ (i e : Nat), (r.beatElems k)[i]? = some e → ∃ g, es[i]? = some g ∧
          match r.src.pairInt (r.srcPair row e) with
          | none => g = ⟨0, 127, 0, false, 0⟩
          | some q =>
            let a := r.src.addr q
            let near (i : Nat) : Prop := r.reaches j.core.die (a + i) = true
            let place (i : Nat) : Option (Nat × Nat) := (p.translate (a + i) false).map (·.2)
            ∃ bs : List Byte, bs.length = r.src.size ∧
              (let st := r.src.stored q bs; g = ⟨st.code, st.scale, st.spare, true, g.err⟩) ∧
              (r.sHbm = false → bs = spadBytes c.spad a r.src.size ∧ g.err = if outOfRange a r.src.size then 6 else 0) ∧
              (r.sHbm = true →
                ((∃ i, i < r.src.size ∧ near i ∧ place i = none) → g.err = 4) ∧
                ((∀ i, i < r.src.size → near i → place i ≠ none) → (∃ i, i < r.src.size ∧ ¬ near i) → g.err = 5) ∧
                ((∀ i, i < r.src.size → near i ∧ place i ≠ none) → g.err = 0) ∧
                (p.openWrites = [] → ∀ i, i < r.src.size →
                  (near i → ∀ z, place i = some z → bs[i]? = some ((p.stackMem z.1).read z.2)) ∧
                  ((¬ near i ∨ place i = none) → bs[i]? = some 0)))) ∧
    (r.gate ≠ 0 → exec (.rackerBeat n k) s = .next s) ∧
    (r.gate = 0 →
      let got := s.readCellarBeat j r k
      let row := r.beatRow k
      let ws := got.2.writes row (got.2.beatPairs k fun e => !j.late.contains (r.part row e))
      let ps := if r.dst.mx then got.2.blockPieces k (got.2.landBlocks j.late k) else got.2.elemPieces ws
      let reached := r.reachedTargets j.core x
      let toFill : Prop := r.mode = 1
      let toHbm : Prop := r.mode ≠ 1 ∧ r.dHbm = true
      let toCellar : Prop := r.mode = 3 ∧ r.dHbm = false
      let toSpads : Prop := r.mode ≠ 1 ∧ r.mode ≠ 3 ∧ r.dHbm = false
      ∃ (t : State) (r' : Racker) (p' : Package), exec (.rackerBeat n k) s = .next t ∧
        t.jobs = (s.updJob n fun i => { i with work := .racker r' }).jobs ∧
        r' = { r with beats := r'.beats, errs := r'.errs, valid := r'.valid, flags := r'.flags } ∧ r.valid ≤ r'.valid ∧
        (∀ e ∈ r.errs, e ∈ r'.errs) ∧ (∀ w ∈ ws, w.err ∈ r'.errs) ∧
        (ws ≠ [] → (toFill ∨ toSpads ∧ ps ≠ []) → (∃ i ∈ (r.targets j.core x).1, i ∉ reached) → 5 ∈ r'.errs) ∧
        t.folios = s.folios ∧ t.votes = s.votes ∧ t.contexts = s.contexts ∧ t.due = s.due ∧ t.inputs = s.inputs ∧ t.seq = s.seq ∧
        (r.fromCellar = false → t.freeCtr = s.freeCtr) ∧
        t.pkgs = s.pkgs.set c.phys p' ∧
        p' = { p with hbm := p'.hbm, trans := p'.trans, cellar := p'.cellar, seals := p'.seals, openWrites := p'.openWrites } ∧
        (toFill ∨ toSpads → p' = p) ∧
        (toHbm → p'.cellar = p.cellar ∧
          t.pkgs = (got.1.beatHbm j c.phys (got.2.note 0 (ws.map (·.err)) []) ps).1.pkgs) ∧
        (toCellar → p' = ps.foldl (fun p x => p.cellarStore (.transfer j.core.folio n) x.addr x.bytes) p) ∧
        ∀ i b, s.core? i = some b → ∃ m fill o g, t.core? i = some { b with spad := m, fill := fill, oob := o, oobFrom := g } ∧
          (i ≠ j.core → o = b.oob ∧ g = b.oobFrom) ∧
          (toSpads → i ∈ reached → storedIn b.spad m (ps.map fun p => (p.addr, p.bytes))) ∧ (¬ (toSpads ∧ i ∈ reached) → m = b.spad) ∧
          (toFill → i ∈ reached → fill = (b.fillAll (r.fillWords ws)).fill) ∧ (¬ (toFill ∧ i ∈ reached) → fill = b.fill))

/-- R282, R285 to R287, R400: what the Press lands. A `pcard` that governs puts its card in the die's Press. A clear beat writes
its bytes in every owner of the card that clears, and nowhere else. A beat of selection records, a slot written back, and
a beat of a combined row store their bytes at their place in the issuing core's scratchpad, and change that, oob, and, of a
combined row, the flags only. A dispatch beat stores its part of the row at its slot of its expert's window in the expert's
owner, and the first beat the row's tag; it changes that scratchpad, the die's window counters and the slots of work in
flight only; a row that arrives alone takes the window's next slot, or is dropped when the window is full. Which elements a
beat carries, and so where its bytes lie, is the model's reading where stype and xtype differ in size (log 111), and so are that
a card that does not govern raises inv by itself (log 130), that a window's counter goes by the number of its expert (log
132), and that the flags of a combined row land with each of its beats (log 145). R284 to R287, R399, R400: the flags that
land, and those only: at the last cycle inv of a word that no valid card governs, gate of `psel` for the lowest token with a
NaN logit, and of `pdisp` and `pcomb` those they have met, but for the conversions of rows that were dropped; with a combined
row those of its sums. And what is read, and when: the card, the logit beats, the entries and the source rows of `pdisp`,
with the flags of their conversions, and the entries and output rows of `pcomb`. -/
def Obligations.PressLands : Prop :=
  ∀ (s : State) (n k q b : Nat) (j : Job) (p : Press), s.memOk = true → s.job? n = some j → j.work = .press p → j.cut = none →
    let governs (card : Card) (cnt : Nat) : Prop := p.govern (s.extOf j.core.folio) j.core = some (card, cnt)
    -- the step changes the scratchpad, oob and flags of the issuing core only, as `m` says of the scratchpad
    let stores (i : Instr) (m : Core → Memory → Prop) : Prop := ∃ t, exec i s = .next t ∧ s.sameElsewhere t ∧
      (∀ x, x ≠ j.core → t.core? x = s.core? x) ∧
      ∀ c, s.core? j.core = some c → ∃ c' mem o g, t.core? j.core = some c' ∧
        Core.sameButFlags { c with spad := mem, oob := o, oobFrom := g } c' ∧ m c mem ∧
        (c' = { c with spad := mem, oob := o, oobFrom := g } ∨
          ∃ card cnt, i = .combinedRow n q b ∧ p.op = .comb ∧ governs card cnt ∧ hitsAt (card.combineBeat p q b).2 q ≠ [])
    -- the step raises in the issuing core the flags that `hit` names by class and index, and changes nothing else
    let raises (i : Instr) (hit : Fin 7 → Nat → Prop) : Prop := ∀ c, s.core? j.core = some c →
      ∃ t c', exec i s = .next t ∧ s.onlyCore t j.core c' ∧ Core.sameButFlags c c' ∧ c.raised c' (s.stampOf j) hit
    -- the reads `x` cycles after issue leave the word as `f` says
    let reads (x : Nat) (f : Press → Prop) : Prop := ∃ p', s.reads (j.cyc + x) j (fun i => { i with work := .press p' }) ∧ f p'
    let expertOf (x : DWord) : Nat := x.toNat % 2 ^ 16
    let slotOf (x : DWord) : Nat := x.toNat / 2 ^ 16 % 2 ^ 16
    (p.op = .card → ∀ c, s.core? j.core = some c → ∃ t c', exec (.resultLanding n k) s = .next t ∧
      s.onlyCore { t with folios := s.folios } j.core c' ∧ Core.sameButFlags c c' ∧ (s.cardGoverns j = false → t.folios = s.folios) ∧
      c.raised c' (s.stampOf j) fun u e => u = 0 ∧ e = 0 ∧ ∀ y, p.card = some y → Card.parse (s.extOf j.core.folio) j.core y = none) ∧
    (p.op ≠ .card → (∀ card cnt, ¬ governs card cnt) → raises (.resultLanding n k) fun u e => u = 0 ∧ e = 0) ∧
    (∀ card cnt, governs card cnt →
      let nan (t : Nat) : Prop := ∃ e, e < card.E ∧
        decF .bf16 (leNat (((gathered (card.bl cnt) p.bytes).drop (2 * (t * card.E + e))).take 2)) = .nan
      (p.op = .sel → raises (.resultLanding n k) fun u t => u = 6 ∧ t < cnt ∧ nan t ∧ ∀ t', t' < t → ¬ nan t') ∧
      (p.op = .disp → raises (.resultLanding n k) fun u e =>
        ∃ i, (⟨u, i⟩ : FlagHit) ∈ p.hits ∧ (i, 0xFFFF) ∉ p.slots ∧ e = i % 2 ^ 16) ∧
      (p.op = .comb → raises (.resultLanding n k) fun u e => ∃ i, (⟨u, i⟩ : FlagHit) ∈ p.hits ∧ e = i % 2 ^ 16) ∧
      (p.op = .comb → ∀ c, s.core? j.core = some c → ∃ t c', exec (.combinedRow n q b) s = .next t ∧ t.core? j.core = some c' ∧
        c.raised c' (s.stampOf j) fun u e => e = q % 2 ^ 16 ∧ (card.combineBeat p q b).2.has u = true)) ∧
    (∀ c, s.core? j.core = some c →
      (p.op = .card → reads 1 fun y => y = { p with card := some (BitVec.ofNat 512 (leNat (spadBytes c.spad p.sa.toNat 64))) }) ∧
      ∀ card cnt, governs card cnt →
        (p.op = .sel → k < card.bl cnt → reads (2 + k) fun y => y = { p with
          bytes := p.bytes ++ [(k, spadBytes c.spad (p.sa.toNat + 512 * k) (min 512 (2 * cnt * card.E - 512 * k)))] }) ∧
        (p.op = .disp → q < cnt * card.k → b < card.br → (b = 0 → (p.entries.find? fun y => y.1 == q) = none) →
          let x := if b = 0 then BitVec.ofNat 64 (leNat (spadBytes c.spad (card.sel + 8 * q) 8)) else entryOf p.entries q
          let size := bytesOf card.stype
          let row : List Rounded := (card.beatElems b).map fun i =>
            let v := decF card.stype (leNat (spadBytes c.spad (p.sa.toNat + (q / card.k * card.H + i) * size) size))
            match card.offset (card.tok0 + q / card.k) i with
            | some d => dstore card.xtype .rne d v
            | none => convV card.xtype .rne v
          reads (8 + q * card.br + b) fun y =>
            y = { p with
              entries := if b = 0 then p.entries ++ [(q, x)] else p.entries
              bytes := if expertOf x < card.E then p.bytes ++ [(q * card.br + b, row.flatMap fun r => leBytes r.1 (bytesOf card.xtype))]
                else p.bytes
              hits := y.hits } ∧
            ∀ u e, (⟨u, e⟩ : FlagHit) ∈ y.hits ↔ (⟨u, e⟩ : FlagHit) ∈ p.hits ∨
              (b = 0 ∧ u = 0 ∧ e = q ∧ expertOf x ≠ 0xFFFF ∧ card.E ≤ expertOf x) ∨
              (e = q ∧ expertOf x < card.E ∧ ∃ r ∈ row, r.2.has u = true)) ∧
        (p.op = .comb → q < cnt * card.k →
          (let x := BitVec.ofNat 64 (leNat (spadBytes c.spad (card.sel + 8 * q) 8))
           reads (8 + q * card.bo) fun y => y = { p with
             bytes := y.bytes
             entries := p.entries ++ [(q, x)]
             hits := p.hits ++ if expertOf x ≠ 0xFFFF ∧ card.E ≤ expertOf x ∨ slotOf x ≠ 0xFFFF ∧ card.C ≤ slotOf x then [⟨0, q⟩] else [] }) ∧
          (b < card.bo →
            let x := entryOf p.entries q
            let size := card.H * bytesOf card.ytype
            reads (48 + q * card.bo + b) fun y => y = { p with
              entries := y.entries
              hits := y.hits
              bytes := match s.core? (card.owner j.core (expertOf x)) with
                | some o =>
                  if expertOf x < card.E ∧ slotOf x < card.C then
                    p.bytes ++ [(q * card.bo + b, spadBytes o.spad (card.out + card.place (expertOf x) (slotOf x) * size + 512 * b)
                      (min 512 (size - 512 * b)))]
                  else p.bytes
                | none => p.bytes }))) ∧
    (p.op = .card → s.cardGoverns j = true → ∀ f, s.folio? j.core.folio = some f →
      ∃ t g u, exec (.resultLanding n k) s = .next t ∧ t.folio? f.id = some g ∧ g = { f with press := g.press } ∧
        (g.press.find? fun u => u.pkg == j.core.pkg && u.die == j.core.die) = some u ∧ u.card = some (p.card.getD 0) ∧
        ((s.cardClears j).isSome → u.counters = [])) ∧
    (∃ t, exec (.pcardClear n k) s = .next t ∧ s.sameElsewhere t ∧
      ∀ i c, s.core? i = some c → ∃ m, t.core? i = some { c with spad := m } ∧
        (∀ card, s.cardClears j = some card → i ∈ card.owners j.core → storedIn c.spad m [card.clearBeat k]) ∧
        ((∀ card, s.cardClears j = some card → i ∉ card.owners j.core) → m = c.spad)) ∧
    stores (.selectionRecord n k) (fun c m =>
      (∀ card cnt, p.op = .sel → governs card cnt →
        storedIn c.spad m [(card.sel + 512 * k, card.entryBeat cnt (gathered (card.bl cnt) p.bytes) k)]) ∧
      ((p.op ≠ .sel ∨ ∀ card cnt, ¬ governs card cnt) → m = c.spad)) ∧
    stores (.combinedRow n q b) (fun c m =>
      (∀ card cnt, p.op = .comb → governs card cnt →
        storedIn c.spad m [(p.sa.toNat + q * card.H * bytesOf card.otype + 512 * b, (card.combineBeat p q b).1)]) ∧
      ((p.op ≠ .comb ∨ ∀ card cnt, ¬ governs card cnt) → m = c.spad)) ∧
    stores (.storeLanding n q) (fun c m =>
      (∀ card cnt, governs card cnt →
        storedIn c.spad m [(card.sel + 8 * q + 2, leBytes (((p.slots.find? fun x => x.1 == q).map (·.2)).getD 0xFFFF) 2)]) ∧
      ((∀ card cnt, ¬ governs card cnt) → m = c.spad)) ∧
    ((p.op ≠ .disp ∨ ∀ card cnt, governs card cnt → card.expert (entryOf p.entries q) = none) →
      exec (.dispatchLanding n q b) s = .next s) ∧
    (∀ card cnt e, p.op = .disp → governs card cnt → card.expert (entryOf p.entries q) = some e →
      let o := card.owner j.core e
      let size := bytesOf card.xtype
      ∃ t i p', exec (.dispatchLanding n q b) s = .next t ∧ t.job? n = some i ∧ i = { j with work := .press p' } ∧
        p' = { p with slots := p'.slots } ∧
        t.pkgs = s.pkgs ∧ t.votes = s.votes ∧ t.contexts = s.contexts ∧ t.inputs = s.inputs ∧ t.due = s.due ∧ t.seq = s.seq ∧
        t.freeCtr = s.freeCtr ∧ t.jobs.map (·.seq) = s.jobs.map (·.seq) ∧
        (∀ i f, s.folio? i = some f → ∃ u, t.folio? i = some { f with press := u }) ∧
        (∀ i, i ≠ o → t.core? i = s.core? i) ∧
        (∀ c, s.core? o = some c → ∃ m, t.core? o = some { c with spad := m } ∧
          ∀ slot, ((p'.slots.find? fun x => x.1 == q).map (·.2)).getD 0xFFFF = slot →
            if slot = 0xFFFF then m = c.spad
            else
              let at_ := card.place e slot
              storedIn c.spad m ((card.win + at_ * card.H * size + b * card.perBeat * size,
                  ((p.bytes.find? fun x => x.1 == q * card.br + b).map (·.2)).getD []) ::
                if b = 0 then [(card.tagb + at_ * 8, leBytes (card.tagOf j.core (q / card.k) (q % card.k)) 8)] else [])) ∧
        (∀ f, s.folio? j.core.folio = some f → b = 0 → (p.slots.find? fun x => x.1 == q) = none → s.arrivals j e = [(j, q)] →
          (p'.slots.find? fun x => x.1 == q) = some (q, if f.counter j.core.pkg j.core.die e < card.C then f.counter j.core.pkg j.core.die e else 0xFFFF)))

/-- R75, R300, R311, R319, R321: the stream words and `preq` go in flight in a folio that holds its calendar and are illegal in
another; `flaunch` goes in flight and counts against the folio's budget, and is illegal beyond it. -/
def Obligations.StreamAndLaunchWordsIssue : Prop :=
  ∀ (s : State) (a b : SReg) (f : Folio), s.folio? s.core.id.folio = some f →
    let x := s.sreg a
    let y := s.sreg b
    let goes (w : Work) : Out := .next (s.issued .none w)
    (f.holds = true →
      exec (.bgath a b) s = goes (.stream { op := .gath, sa := x, sb := y }) ∧
      exec (.bscat a b) s = goes (.stream { op := .scat, sa := x, sb := y }) ∧
      exec (.bstride a b) s = goes (.stream { op := .stride, sa := x, sb := y }) ∧ exec (.preq a) s = goes (.preq x)) ∧
    (f.holds = false →
      exec (.bgath a b) s = .next s.trapIllegal ∧ exec (.bscat a b) s = .next s.trapIllegal ∧
      exec (.bstride a b) s = .next s.trapIllegal ∧ exec (.preq a) s = .next s.trapIllegal) ∧
    (f.launches < recBudget f.record →
      exec (.flaunch a b) s = .next (State.issued
        { s with folios := s.folios.map fun (g : Folio) => if g.id = s.core.id.folio then { g with launches := g.launches + 1 } else g }
        .none (.flaunch x y))) ∧
    (recBudget f.record ≤ f.launches → exec (.flaunch a b) s = .next s.trapIllegal)

/-- R300, R318, R319, R323 to R325: a page request queues bits 47:21 of its VA, or counts a drop when 256 wait. A stream's window
changes its own record and, of its package, translation entries at its start, and at its end, for `bscat`, HBM and what
seals and host writes note of it: at its start each element is judged and read, at its end each good element is written
where its page is resident, in ascending order. An index word of an HBM array that is bad, foreign or non-resident reads as
all ones, and its element counts as bad. Beat k of `bgath` and `bstride` lands bytes 512k on of the packed data at
sB + 512k, the elements that a second read delays left out (R301), and changes nothing else but oob, to which it offers the
lowest address out of range among its bytes, which is the model's choice (log 149). Its status lands as the doubleword at
byte 56 of its block, with the counts of its misses, foreign and bad elements, or err = 1 for an invalid block; and the
residency register takes 1.0 at each miss and 0 at every other element. The fields of the block, what makes it invalid, the
VAs of its elements and the order in which they are judged are spelled last. A stream reads its block at c+1, the beats of a
list in the scratchpad from c+2, and those of the data of `bscat` after them; a `flaunch` its record at c+1. A `flaunch` record that a check rejects raises inv
and is counted; another takes the next identifier and waits for the folio's next line, to start no earlier than asked and
64 cycles after its issue. The model's choice: elements are judged and read in the first cycle of a window, and those of
`bscat` written at its end (log 27), the identifier is taken when the record is accepted (log 40), of the package that owns
the folio and into its launch buffer, whichever package of the quire the core is on (log 114), a block whose stack byte is 8 or
more is invalid (log 123), and the address of an element is judged as a whole number (log 125). -/
def Obligations.StreamsLand : Prop :=
  ∀ (s : State) (n k : Nat) (j : Job) (c : Core), s.job? n = some j → j.cut = none → s.core? j.core = some c →
    (∀ va p, j.work = .preq va → s.pkgs[c.phys]? = some p →
      ∃ t, exec (.resultLanding n k) s = .next t ∧
        s.onlyPkg t c.phys (if p.requests.length < 256 then { p with requests := p.requests ++ [va.extractLsb' 21 27] }
          else { p with mdrop := p.mdrop + 1 })) ∧
    (∀ r p, j.work = .stream r → s.pkgs[c.phys]? = some p → s.memOk = true → r.valid j.core.die = true →
      let va (e : Nat) : Nat := (r.va (r.index e) e).toNat
      let place (w : Bool) (a : Nat) : Option (Nat × Nat) := (p.translate a w).map (·.2)
      let resident (w : Bool) (e : Nat) : Prop := ∀ i, i < r.z → (place w (va e + i)).isSome
      ∃ (t : State) (r' : Stream) (p' : Package), exec (.streamWindow n k) s = .next t ∧
        t = { s.updJob n (fun i => { i with work := .stream r' }) with pkgs := s.pkgs.set c.phys p', freeCtr := t.freeCtr } ∧
        (p.openWrites = [] ∨ k ≠ 0 → t.freeCtr = s.freeCtr) ∧
        (k = 0 → p' = { p with trans := p'.trans } ∧ r' = { r with list := r'.list, judged := r'.judged, data := r'.data } ∧
          (r.listHbm = false → r'.list = r.list) ∧ r'.judged.length = r.n ∧
          ∀ e, e < r.n → ∃ g, r'.judged[e]? = some g ∧
            let word (i : Nat) : Option (Nat × Nat) := place false (r.idx + 4 * e + i)
            let unread : Prop := r.listHbm = true ∧ (r.judge ((r.idx + 4 * e : Nat) : Int) 4 ≠ 0 ∨ ∃ i, i < 4 ∧ word i = none)
            let a := r.va (r'.index e) e
            let at_ (i : Nat) : Option (Nat × Nat) := place false (a.toNat + i)
            (unread → g = 1 ∧ r'.index e = 2 ^ 32 - 1) ∧
            (r.listHbm = true → ¬ unread → p.openWrites = [] → ∀ i, i < 4 → ∃ q, word i = some q ∧
              r'.index e / 2 ^ (8 * i) % 256 = ((p.stackMem q.1).read q.2).toNat) ∧
            (¬ unread → r.judge a r.z ≠ 0 → g = r.judge a r.z) ∧
            (¬ unread → r.judge a r.z = 0 → r.op = .scat → g = 0) ∧ (r.op = .scat → r'.data = r.data) ∧
            (¬ unread → r.judge a r.z = 0 → r.op ≠ .scat →
              ((∀ i, i < r.z → (at_ i).isSome) → g = 0) ∧ (¬ (∀ i, i < r.z → (at_ i).isSome) → g = 3)) ∧
            (r.op ≠ .scat → p.openWrites = [] → ∀ i, i < r.z → (beatBytes r'.data (e * r.z) r.z)[i]? =
              some (if g = 0 then (match at_ i with | some q => (p.stackMem q.1).read q.2 | none => 0) else 0))) ∧
        (k ≠ 0 → r' = { r with judged := r'.judged } ∧
          p' = { p with hbm := p'.hbm, trans := p'.trans, seals := p'.seals, openWrites := p'.openWrites } ∧
          (let writes (e : Nat) : Prop := r.judged[e]? = some 0 ∧ e ∉ j.late
           (∀ e, e < r.judged.length → (beatBytes r.data (e * r.z) r.z).length = r.z) →
           (∀ e, writes e → (resident true e → r'.judged[e]? = some 0) ∧ (¬ resident true e → r'.judged[e]? = some 3)) ∧
           (∀ e, ¬ writes e → r'.judged[e]? = r.judged[e]?) ∧
           ∀ q a, q < 8 →
             ((∀ e i, writes e → i < r.z → place true (va e + i) ≠ some (q, a)) → (p'.stackMem q).read a = (p.stackMem q).read a) ∧
             ∀ e i, writes e → i < r.z → place true (va e + i) = some (q, a) →
               (∀ e' i', e < e' → writes e' → i' < r.z → place true (va e' + i') ≠ some (q, a)) →
               (beatBytes r.data (e * r.z) r.z)[i]? = some ((p'.stackMem q).read a)))) ∧
    (∀ r, j.work = .stream r →
      (∃ t, exec (.streamWindow n k) s = .next t) ∧
      (∃ t w, exec (.resultLanding n k) s = .next t ∧ s.onlyCore t j.core { c with w := w } ∧
        (∀ i : WReg, i ≠ r.wr ∨ i = 0 → w[i] = c.w[i]) ∧
        (r.wr ≠ 0 → ∀ e, e < 2048 → weightAt w[r.wr] e =
          match r.judged[e]? with | some g => if g = 3 then 0x8000 else 0 | none => weightAt c.w[r.wr] e)) ∧
      let start := s.startOf j.core.folio
      let offered (e a : Nat) : Core := c.offer (s.jobNow j - start) (j.cyc - start) e (BitVec.ofNat 64 a)
      (s.memOk = true → ∃ t m o g, exec (.streamStatus n) s = .next t ∧
        s.onlyCore t j.core { c with spad := m, oob := o, oobFrom := g } ∧
        (let count (x : Nat) : Nat := (r.judged.filter fun y => y == x).length
         let word : DWord := if r.valid j.core.die then BitVec.ofNat 64 (count 3 * 2 ^ 52 + count 2 * 2 ^ 40 + count 1 * 2 ^ 28) else 1
         storedIn c.spad m [(r.addr + 56, leBytes word.toNat 8)]) ∧
        (r.addr + 64 ≤ 2 ^ 20 → o = c.oob ∧ g = c.oobFrom) ∧
        (2 ^ 20 < r.addr + 64 → o = (offered 0 (r.addr + 56)).oob ∧ g = (offered 0 (r.addr + 56)).oobFrom)) ∧
      (s.memOk = true → ∃ t m o g, exec (.storeLanding n k) s = .next t ∧
        s.onlyCore t j.core { c with spad := m, oob := o, oobFrom := g } ∧
        let ps := if j.late = [] then [(r.sb.toNat + 512 * k, beatBytes r.data (512 * k) (min 512 (r.n * r.z - 512 * k)))]
          else ((List.range r.n).filter fun e => decide (e * r.z / 512 = k ∧ e ∉ j.late)).map fun e =>
            (r.sb.toNat + e * r.z, beatBytes r.data (e * r.z) r.z)
        storedIn c.spad m ps ∧
        ((∀ x ∈ cellsOf ps, x.1 < 2 ^ 20) → o = c.oob ∧ g = c.oobFrom) ∧
        (∀ p ∈ ps, p.2.length ≤ 512) →
          ∀ x ∈ cellsOf ps, 2 ^ 20 ≤ x.1 → (∀ y ∈ cellsOf ps, 2 ^ 20 ≤ y.1 → x.1 ≤ y.1) →
            o = (offered k x.1).oob ∧ g = (offered k x.1).oobFrom)) ∧
    (∀ a start, j.work = .flaunch a start → s.reads (j.cyc + 1) j fun i =>
      { i with smp := { j.smp with mem := BitVec.ofNat 16384 (leNat (spadBytes c.spad (a.toNat / 16 * 16) 256)) } }) ∧
    (∀ r, j.work = .stream r →
      let reads (x : Nat) (r' : Stream) : Prop := s.reads (j.cyc + x) j fun i => { i with work := .stream r' }
      let lists := if r.op = .stride ∨ r.listHbm = true then 0 else (4 * r.n + 511) / 512
      reads 1 { r with block := some (BitVec.ofNat 512 (leNat (spadBytes c.spad (r.sa.toNat / 16 * 16) 64))) } ∧
      (r.valid j.core.die = true → k < lists → reads (2 + k)
        { r with list := r.list ++ [(k, spadBytes c.spad (r.idx + 512 * k) (min 512 (4 * r.n - 512 * k)))] }) ∧
      (r.valid j.core.die = true → r.op = .scat → k < (r.n * r.z + 511) / 512 → reads (2 + lists + k)
        { r with data := r.data ++ [(k, spadBytes c.spad (r.sb.toNat + 512 * k) (min 512 (r.n * r.z - 512 * k)))] })) ∧
    (∀ r b, j.work = .stream r → r.block = some b →
      let f (lo len : Nat) : Nat := b.toNat / 2 ^ (8 * lo) % 2 ^ (8 * len)
      r.base = f 0 8 ∧ r.n = f 8 2 ∧ r.z = 2 ^ f 10 1 ∧ (r.listHbm = true ↔ r.op ≠ .stride ∧ f 12 1 % 2 = 1) ∧
      r.wr.val = f 12 1 / 2 % 8 ∧ r.dist = f 12 1 / 16 % 4 ∧ r.idx = f 16 8 ∧
      (r.valid j.core.die = true ↔ f 0 8 < 2 ^ 48 ∧ f 12 1 < 64 ∧ f 13 3 = 0 ∧ f 32 24 = 0 ∧ (r.op ≠ .stride → f 28 4 = 0) ∧
        f 8 2 ≤ 2048 ∧ f 10 1 ≤ 8 ∧ f 11 1 < 8 ∧ f 12 1 / 16 % 4 ≠ 3 ∧
        dieDistance j.core.die (f 11 1 / 2) ≤ f 12 1 / 16 % 4 ∧ (r.op = .stride → f 24 4 * f 28 4 = f 8 2)) ∧
      (∀ x e, r.op ≠ .stride → r.va x e = f 0 8 + x * f 24 4) ∧
      (∀ x e, r.op = .stride → 0 < f 24 4 → r.va x e =
        f 0 8 + (e % f 24 4 : Nat) * (b.extractLsb' 128 32).toInt + (f 20 4 + e / f 24 4) * 2 ^ f 10 1) ∧
      ∀ (a : Int) z, r.judge a z =
        if a < 0 ∨ a % z ≠ 0 ∨ 2 ^ 48 ≤ a then 1 else if a.toNat / 2 ^ 21 % 8 ≠ f 11 1 then 2 else 0) ∧
    (∀ a start f p, j.work = .flaunch a start → s.folio? j.core.folio = some f → s.pkgs[f.owner]? = some p →
      let r : BitVec 2048 := BitVec.ofNat 2048 (j.smp.mem.toNat % 2 ^ 2048)
      let refused : Prop := s.reject f.owner r false ≠ 0 ∨ 1 < (extents (recShape r)).p ∨ recTimed r = true ∨ recRestore r = true
      let becomes (g : Folio) : List Folio := s.folios.map fun x => if x.id = f.id then { x with rejects := g.rejects, pending := g.pending } else x
      (refused → (∀ x ∈ s.folios, x.id = f.id → x = f) → ∃ t c', exec (.resultLanding n k) s = .next t ∧ s.onlyCore { t with folios := s.folios } j.core c' ∧
        Core.sameButFlags c c' ∧ c'.fs = c.fs ||| 1 ∧ t.folios = becomes { f with rejects := f.rejects + 1 }) ∧
      (¬ refused → (∀ x ∈ s.folios, x.id = f.id → x = f) → exec (.resultLanding n k) s = .next { s with
        pkgs := s.pkgs.set f.owner { p with lastId := p.lastId + 1 }
        folios := becomes { f with
          pending := f.pending ++ [⟨p.lastId + 1, j.core, r, f.start + max start.toNat (j.cyc - f.start + 64) - f.lead⟩] } }))

/-! ### The fabric (R341 to R354) -/

/-- R75, R214, R341, R346 to R351: a send goes in flight with its distance: 20 cycles in the cluster, 40 in the die, 48 more for
each die boundary in the package, and the entry of the group's distance table for another package: over one link 24 to
leave, its latency, 24 to enter, 8, and 48 for each die boundary crossed. A scalar send lands its doubleword at the target
and nothing else; one that names no core of the quire lands nothing and offers its address to oob. A group of a vector send
lands the bytes of its active elements at their offsets in the target, those past the scratchpad dropped, and nothing else,
but that each element out of range offers its own address to the issuing core's oob. A send that the table gives no
distance lands nowhere, so that no landing of it ever falls due, and offers its address as it is read, which is the model's
choice (log 32). A vector send reads the elements and guards of group g at c+6+g. A group whose codeword fails its second decode lands bytes that nothing fixes in the places of its own
(R339, log 79). -/
def Obligations.Sends : Prop :=
  (∀ (s : State) (m : MReg) (d : VReg) (a b : SReg),
    let x := s.sreg a
    let id := s.core.id
    let die := x.toNat / 2 ^ 28 % 4
    let here := x.toNat / 2 ^ 30 % 2 ^ 8 = id.pkg
    let dist := if die = id.die then (if x.toNat / 2 ^ 24 % 16 = id.cluster then 20 else 40)
      else if die % 2 ≠ id.die % 2 ∧ die / 2 ≠ id.die / 2 then 136 else 88
    here → id.die < 4 →
    exec (.tsend a b) s = .next (s.issued .none (.send x (s.sreg b) dist)) ∧
    (s.typeOf m ∈ typesF ++ typesI → exec (.tsendv m d a) s = .next (s.issued (s.core.capture m) (.sendv d x dist))) ∧
    (s.typeOf m ∉ typesF ++ typesI → exec (.tsendv m d a) s = .next s.trapIllegal)) ∧
  (∀ (s : State) (m : MReg) (d : VReg) (a b : SReg) (p : Package),
    let x := s.sreg a
    let id := s.core.id
    let pkg := x.toNat / 2 ^ 30 % 2 ^ 8
    let num := match (s.folio? id.folio).bind fun f => f.bind[pkg]? with | some b => ((s.pkgs[b.phys]?).map (·.num)).getD pkg | none => pkg
    let dist := tableEntry p.links p.group.length p.num id.die num (x.toNat / 2 ^ 28 % 4)
    pkg ≠ id.pkg → s.pkgs[s.core.phys]? = some p →
    (dist ≠ 0 → exec (.tsend a b) s = .next (s.issued .none (.send x (s.sreg b) dist))) ∧
    (dist = 0 → exec (.tsend a b) s = .next (State.issued { s with core := s.core.offer s.cycle s.cycle 0 x } .none (.send x (s.sreg b) 0))) ∧
    (s.typeOf m ∈ typesF ++ typesI → exec (.tsendv m d a) s = .next (s.issued (s.core.capture m) (.sendv d x dist))) ∧
    (s.typeOf m ∉ typesF ++ typesI → exec (.tsendv m d a) s = .next s.trapIllegal)) ∧
  (∀ (l : LinkSpec) (n : Nat) (sd dd : Fin 4), l.trained = true → l.pkgA ≠ l.pkgB → l.pkgA < n → l.pkgB < n →
    let crossed (x y : Fin 4) : Nat := (if x.val % 2 = y.val % 2 then 0 else 1) + (if x.val / 2 = y.val / 2 then 0 else 1)
    tableEntry [l] n l.pkgA sd.val l.pkgB dd.val = 24 + 48 * crossed sd l.dieA + l.latAB + 24 + 48 * crossed l.dieB dd + 8 ∧
    tableEntry [l] n l.pkgB sd.val l.pkgA dd.val = 24 + 48 * crossed sd l.dieB + l.latBA + 24 + 48 * crossed l.dieA dd + 8) ∧
  (∀ (s : State) (k : Nat) (j : Job) (c : Core) (d : VReg) (a : DWord), j.work = .sendv d a 0 → j.cut = none → k < 16 →
    s.core? j.core = some c → j.cap.ty ∈ typesF ++ typesI →
    let w := bitsOf j.cap.ty
    let start := s.startOf j.core.folio
    ∃ sm : Samples, s.onlyCore { s.sampleJob (j.cyc + 6 + k) j with jobs := s.jobs } j.core
        (((({ j with smp := sm } : Job).slotElems (1024 / w) (min j.cap.vl (16384 / w)) k)).foldl (fun c e =>
          c.offer (j.cyc + 6 + k - start) (j.cyc - start) e (BitVec.ofNat 64 (a.toNat + e * (w / 8)))) c) ∧
      ∀ p, p < 2048 → weightAt sm.g p = if 1024 / w * k ≤ p ∧ p < 1024 / w * (k + 1) then weightAt (c.getW j.cap.guard) p else weightAt j.smp.g p) ∧
  (∀ (s : State) (k dist : Nat) (j : Job) (c : Core) (d : VReg) (a : DWord), j.work = .sendv d a dist → dist ≠ 0 → j.cut = none → k < 16 →
    s.core? j.core = some c → j.cap.ty ∈ typesF ++ typesI →
    let len := 1024 / bitsOf j.cap.ty
    ∃ sm : Samples, s.sampleJob (j.cyc + 6 + k) j = s.updJob j.seq (fun i => { i with smp := sm }) ∧
      weighed (c.getW j.cap.guard) sm.g j.smp.g (len * k) len ∧ taken c.v[d] sm.d j.smp.d (bitsOf j.cap.ty) (len * k) len) ∧
  (∀ (s : State) (n g dist : Nat) (j : Job) (a v : DWord), s.memOk = true → s.job? n = some j → j.cut = none → j.work = .send a v dist →
    let target : CoreId := ⟨j.core.folio, a.toNat / 2 ^ 30 % 256, a.toNat / 2 ^ 28 % 4, a.toNat / 2 ^ 24 % 16, a.toNat / 2 ^ 20 % 16⟩
    let off := a.toNat % 2 ^ 20 / 8 * 8
    (a.toNat < 2 ^ 38 ∧ inQuire (s.extOf j.core.folio) target = true → ∀ c, s.core? target = some c →
      ∃ t m, exec (.sendLanding n g) s = .next t ∧ s.onlyCore { t with freeCtr := s.freeCtr } target { c with spad := m } ∧
        (g ∉ j.failed → t.freeCtr = s.freeCtr ∧ ∀ i, i < 8 → spadRead m (off + i) = v.extractLsb' (8 * i) 8) ∧
        (∀ y, (y < off ∨ off + 8 ≤ y) → spadRead m y = spadRead c.spad y)) ∧
    (¬ (a.toNat < 2 ^ 38 ∧ inQuire (s.extOf j.core.folio) target = true) → ∀ c, s.core? j.core = some c →
      let start := s.startOf j.core.folio
      ∃ t, exec (.sendLanding n g) s = .next t ∧ (g ∉ j.failed → t.freeCtr = s.freeCtr) ∧
        s.onlyCore { t with freeCtr := s.freeCtr } j.core (c.offer (s.jobNow j - start) (j.cyc - start) 0 a))) ∧
  (∀ (s : State) (n g dist : Nat) (j : Job) (d : VReg) (a : DWord), s.memOk = true → s.job? n = some j → j.cut = none →
    j.work = .sendv d a dist → j.cap.ty ∈ typesF ++ typesI →
    let w := bitsOf j.cap.ty
    let target : CoreId := ⟨j.core.folio, a.toNat / 2 ^ 30 % 256, a.toNat / 2 ^ 28 % 4, a.toNat / 2 ^ 24 % 16, a.toNat / 2 ^ 20 % 16⟩
    let lands : Bool := decide (a.toNat < 2 ^ 38) && inQuire (s.extOf j.core.folio) target
    let es := j.slotElems (1024 / w) (min j.cap.vl (16384 / w)) g
    let place (e : Nat) : Nat := a.toNat % 2 ^ 20 + e * (w / 8)
    let start := s.startOf j.core.folio
    let offered (c : Core) : Core := (es.filter fun e => !lands || decide (2 ^ 20 < place e + w / 8)).foldl (fun k e =>
      k.offer (s.jobNow j - start) (j.cyc - start) e (BitVec.ofNat 64 (a.toNat + e * (w / 8)))) c
    ∃ t, exec (.sendLanding n g) s = .next t ∧ s.sameElsewhere { t with freeCtr := s.freeCtr } ∧ (g ∉ j.failed → t.freeCtr = s.freeCtr) ∧
      ∀ i c, s.core? i = some c → ∃ m o f, t.core? i = some { c with spad := m, oob := o, oobFrom := f } ∧
        (¬ (lands = true ∧ i = target) → m = c.spad) ∧ (i ≠ j.core → o = c.oob ∧ f = c.oobFrom) ∧
        (lands = true → i = target → ∃ codes : Nat → Nat, (g ∉ j.failed → ∀ e, codes e = elem j.smp.d w e) ∧
          storedIn c.spad m (es.map fun e => (place e, leBytes (codes e) (w / 8)))) ∧
        (i = j.core → o = (offered c).oob ∧ f = (offered c).oobFrom)) ∧
  (∀ (j : Job) (e : Extents) (rank : Nat) (clears : Option Card) (r : Nat),
    ((∃ a v, j.work = .send a v 0) ∨ ∃ d a, j.work = .sendv d a 0) → j.events e rank clears r = [])

/-- R343 to R345, R354: `drift` commits the slew that would remove φ, clamped to its limit and 4,295; it is 0 on package 0, and a
second commit of one tick clamps the first. A stamp over the package's link of the sideband tree, while that link is up,
re-estimates the phase, and no other does (that this one link counts is log 88, and that a link that is down brings nothing
is log 61: the model's choices). `stepinc` votes with its classes inv, dz, ovf and gate, and is illegal in a folio
that names fewer packages than its group; a vote that lands with a clear flag advances the step counter of every member,
also when its folio has ended since, which is the model's choice (log 45). A drift fault, of a phase beyond 8 ticks or 2^24 ticks
without a commit, stops the timed folios of its package, which leaves its group; that a commit earlier in the tick undoes it,
that its record names coordinate 0 and word 0, and that the package stands alone once no timed folio runs, are the model's
choices (logs 44, 47, 54). It falls due in the tick that finds the package so, and in that in which stamps have formed such a
phase, before the clock moves on, whatever later stamps would make of it: that cycle is the model's choice (log 142). `rel` of a seal that the folio holds opens it and enters the release in the vintage record (R32,
R330), with its folio cycle and coordinate, and the seal keeps what the release does not cover: at a place that a transfer to the
cellar whose status is to come, or will not come, has changed, the last value that the release covers and those since (log 107);
`rel` of another
seal does nothing. That the digest of a seal bound to no region is that of no bytes is the model's choice (log 116). -/
def Obligations.DriftVotesAndReleases : Prop :=
  ((∀ (s : State) (a : SReg) (p : Package), s.pkgs[s.core.phys]? = some p →
     let m : Int := min (s.sreg a).toNat 4295
     let clamp (x : Int) : Int := max (-m) (min m x)
     let commits (x : Int) : Prop :=
       exec (.drift a) s = .next (State.advance { s with pkgs := s.pkgs.set s.core.phys { p with slew := x, commitTick := p.tick, slewTick := some p.tick } })
     (p.slewTick ≠ some p.tick → commits (if p.num = 0 then 0 else clamp ((-p.phi).tdiv 16))) ∧
     (p.slewTick = some p.tick → commits (clamp p.slew))) ∧
   (∀ (s : State) (i link stamp lat : Nat) (p : Package) (l : LinkSpec), s.pkgs[i]? = some p → p.num ≠ 0 → p.links[link]? = some l →
     (l.pkgB = p.num ∧ lat = l.latAB ∨ l.pkgB ≠ p.num ∧ l.pkgA = p.num ∧ lat = l.latBA) → s.linkUp p.group l = true →
     treeLink p.links p.group.length p.num = some link →
     let diff : Int := (p.tick : Int) - stamp - lat
     ∃ t q, exec (.phaseEstimate i link stamp) s = .next t ∧ s.onlyPkg t i q ∧ q = { p with linkPhi := q.linkPhi, phi := q.phi } ∧
       (link, diff) ∈ q.linkPhi ∧ (∀ x, x.1 ≠ link → (x ∈ q.linkPhi ↔ x ∈ p.linkPhi)) ∧ (p.linkPhi = [] → q.phi = diff * 2 ^ 16)) ∧
   (∀ (s : State) (i link stamp : Nat) (p : Package), s.pkgs[i]? = some p →
     (treeLink p.links p.group.length p.num ≠ some link ∨ ∃ l, p.links[link]? = some l ∧ s.linkUp p.group l = false) →
     exec (.phaseEstimate i link stamp) s = .next s) ∧
   (∀ (s : State) (f : Folio) (p : Package), s.folio? s.core.id.folio = some f → s.pkgs[s.core.phys]? = some p →
     let flag := s.core.fs.getLsbD 0 || s.core.fs.getLsbD 1 || s.core.fs.getLsbD 2 || s.core.fs.getLsbD 6
     (p.group.length ≤ f.ext.p → (∀ v ∈ s.votes, v.folio = s.core.id.folio → v.at_ ≠ s.sccOf s.core.phys) →
       exec .stepinc s = .next (State.advance { s with votes := s.votes ++ [(⟨s.core.id.folio, s.core.phys, s.sccOf s.core.phys, flag⟩ : Vote)] })) ∧
     (p.group.length ≤ f.ext.p → ∀ v, s.votes = [v] → v.folio = s.core.id.folio → v.at_ = s.sccOf s.core.phys →
       exec .stepinc s = .next (State.advance { s with votes := [{ v with flag := v.flag || flag }] })) ∧
     (f.ext.p < p.group.length → exec .stepinc s = .next s.trapIllegal)) ∧
   (∀ (s : State) (v : Vote), s.votes = [v] → v.at_ + 320 = s.sccOf v.pkg →
     ∃ t, exec (.stepVote v.folio) s = .next t ∧ t.votes = [] ∧ t.core = s.core ∧ t.others = s.others ∧ t.folios = s.folios ∧ t.jobs = s.jobs ∧
       ∀ q p, s.pkgs[q]? = some p → t.pkgs[q]? = some (if v.flag then p else
         ({ p with step := p.step + BitVec.ofNat 64 ((s.members v.pkg).count q) } : Package))) ∧
   (∀ (s : State) (i : Nat) (p : Package), s.pkgs[i]? = some p →
     ¬ (p.left = false ∧ 1 < p.group.length ∧ (8 * 2 ^ 16 < p.phi.natAbs ∨ 2 ^ 24 ≤ p.tick - p.commitTick)) →
     exec (.driftFault i) s = .next s) ∧
   (∀ (s t : State) (i : Nat) (p : Package), exec .tick s = .next t → t.pkgs[i]? = some p → p.powered = true → p.left = false →
     1 < p.group.length → (8 * 2 ^ 16 < p.phi.natAbs ∨ 2 ^ 24 ≤ p.tick - p.commitTick) → .driftFault i ∈ t.due) ∧
   (∀ (s : State) (i : Nat) (p : Package),
     let astray (p : Package) : Prop := p.powered = true ∧ p.left = false ∧ 1 < p.group.length ∧ 8 * 2 ^ 16 < p.phi.natAbs
     s.pkgs[i]? = some p → astray p → (∀ k q, k < i → s.pkgs[k]? = some q → ¬ astray q) → s.lateEvent = some (.driftFault i)) ∧
   (∀ (s : State) (i : Nat) (p : Package), s.pkgs[i]? = some p → (∀ f ∈ s.folios, f.stop = none) →
     p.left = false → 1 < p.group.length → (8 * 2 ^ 16 < p.phi.natAbs ∨ 2 ^ 24 ≤ p.tick - p.commitTick) →
     exec (.driftFault i) s = .next { s with
       folios := s.folios.map fun f =>
         if recTimed f.record ∧ f.boundOn i = true then
           { f with stop := some ⟨s.folioNow f + 320, [⟨.drift, s.folioNow f - f.start, 0, 0, 0, 0⟩]⟩ }
         else f
       pkgs := s.pkgs.set i { p with left := true } })) ∧
  (∀ (s : State) (k : Fin 64) (f : Folio) (p : Package), s.folio? s.core.id.folio = some f → s.pkgs[s.core.phys]? = some p →
     let late (h : Held) : Bool := h.by_ == .discarded || s.jobs.any fun j => (match h.by_ with | .transfer _ n => n == j.seq | _ => false) && (match j.work with
       | .racker r => s.physOf j.core == s.core.phys && r.mode == 3 && !r.dHbm &&
           (decide (s.jobNow j < j.cyc + r.statusAt) || j.cut.any fun x => decide (x ≤ j.cyc + r.statusAt))
       | _ => false)
     (p.seals[k].st = .folio s.core.id.folio →
       ∃ t q g r y, exec (.rel k) s = .next t ∧ t.pkgs[s.core.phys]? = some q ∧
         q.seals = p.seals.set k { p.seals[k] with st := .opened, stray := some ⟨s.core.id.folio, p.scc, y, []⟩ } ∧
         (∀ h ∈ y, h ∈ p.seals[k].held ∧ (∃ z, p.seals[k].region = some z ∧ z.cellar = true) ∧
           ∃ x ∈ p.seals[k].held, x.place = h.place ∧ late x = true) ∧
         (∀ xs h ys, p.seals[k].held = xs ++ h :: ys → h ∉ xs → (∃ x ∈ ys, x.place = h.place ∧ late x = false) → h ∉ ys → h ∉ y) ∧
         (∀ xs h ys z, p.seals[k].held = xs ++ h :: ys → p.seals[k].region = some z → z.cellar = true →
           (∀ x ∈ ys, x.place = h.place → late x = true) → (late h = true ∨ ∃ x ∈ ys, x.place = h.place) → h ∈ y) ∧
         t.folio? s.core.id.folio = some g ∧ g = { f with rels := f.rels ++ [r] } ∧ r.sealNo = k.val ∧ r.cycle = s.cycle ∧
         r.coord = coordOf s.core.id ∧ (p.seals[k].region = none → r.digest = sha3 []) ∧ t.core = s.advance.core ∧ t.others = s.others ∧ t.jobs = s.jobs) ∧
     (p.seals[k].st ≠ .folio s.core.id.folio → exec (.rel k) s = .next s.advance))

/-! ### Occurrences, replays and the end of a folio (R157, R299 to R309, R326, R339) -/

/-- R157, R182, R186, R258, R301, R306, R326, R339: a precise timing trap names a word in flight: the core's trap registers hold
class 3, the word and the folio cycle, and its work is suppressed from this cycle on, but for a late landing. A machine
check holds class 4; that its tepc names the word the core issues next is the model's reading (log 43). One of a group of a
cluster access waits for the group, which its core then receives as it is, also where nothing of it is read or written there (log
91). An element that is read again, or a codeword that
is decoded again, comes 64 cycles late; where the second attempt fails, its core then takes a machine check; an occurrence
that names no part still to land does nothing, which is the model's choice (log 79). A re-read lands its element alone.

R155, R157, R211, R212, R230, R231, R250, R251, R276, R314, R350: what work in flight visits, by cycle; how many visits of a
cycle each resource serves; which words a conflict names, the latest of those whose visits overflow, then again without it;
and that a precise timing trap of each falls due in that cycle, and of no other word but one with a late part. How the
charges of an entry that a `pdisp` reads in the cycle are settled is the model's choice (log 30), and the premise on dispatches
leaves that cycle out. From the cycle that cuts it on, a word makes no visit, reads nothing and lands nothing (R157), but that
a word whose last visit came before lands as it would. -/
def Obligations.TimingOccurrences : Prop :=
  (∀ (s : State) (n : Nat) (j : Job) (c : Core), s.job? n = some j → s.core? j.core = some c →
    (∀ f ∈ s.folios, f.id = j.core.folio → f.stop = none) →
    let x := s.jobNow j
    ∃ t, exec (.preciseTimingTrap n) s = .next t ∧
      t.core? j.core = some { c with
        tcause := 0x30000, tepc := j.word.setWidth 64, tval := BitVec.ofNat 64 (x - s.startOf j.core.folio)
        haltAt := some (match c.haltAt with | some h => min h (x + 1) | none => x + 1) } ∧
      (∀ i, i ≠ j.core → t.core? i = s.core? i) ∧ t.pkgs = s.pkgs ∧
      (j.late = [] → t.jobs = s.jobs.map fun i =>
        if i.seq = n then { i with cut := some (match i.cut with | some y => min x y | none => x) } else i) ∧
      (∀ f ∈ t.folios, f.id = j.core.folio → ∃ r, f.stop = some ⟨x + 320, [r]⟩ ∧ r.cls = .timing ∧ r.word = j.word.toNat)) ∧
  (∀ (s : State) (id : CoreId) (c : Core) (f : Folio), s.core? id = some c → s.folio? id.folio = some f →
    ∃ t, exec (.machineCheck ⟨id, none⟩) s = .next t ∧
      s.onlyCore { t with folios := s.folios } id { c with
        tcause := 0x40000, tepc := c.pc.setWidth 64, tval := 0
        haltAt := some (match c.haltAt with | some h => min h (s.nowAt c + 1) | none => s.nowAt c + 1) } ∧
      (f.stop = none → ∃ g, t.folio? id.folio = some g ∧
        g.stop = some ⟨s.nowAt c + 320, [⟨.machine, s.nowAt c - f.start, coordOf id, c.pc.toNat, 0, 0⟩]⟩)) ∧
  (∀ (s : State) (n g : Nat) (j : Job) (id : CoreId), s.job? n = some j →
    exec (.machineCheck ⟨id, some (n, g)⟩) s = .next (if s.inCluster j (s.jobNow j) g id then
      { s with jobs := s.jobs.map fun i => if i.seq = n then { i with bad := i.bad ++ [(g, id)] } else i } else s)) ∧
  (∀ (s : State) (n k : Nat) (j : Job), s.job? n = some j →
    let fails : Prop := k ∈ j.failed ∧ k ∈ j.late ∧ s.jobNow j = j.cyc + j.lateLanding k + 64
    let again (ok : Bool) (i : Job) : Job := if i.seq = n then { i with
      late := if i.late.contains k then i.late else i.late ++ [k]
      failed := if ok || i.failed.contains k then i.failed else i.failed ++ [k] } else i
    let attempt (i : Bool → Instr) (under : Bool) : Prop := ∀ ok,
      (fails → exec (i ok) s = .next (s.takeTrap j.core .machine 0 j.word 0)) ∧
      (¬ fails → under = true → exec (i ok) s = .next { s with jobs := s.jobs.map (again ok) }) ∧
      (¬ fails → under = false → exec (i ok) s = .next s)
    attempt (.baseDieRetry n k) (j.retryable (s.jobNow j) k) ∧
    attempt (.fecSecondDecode n k) (j.inFabric (s.jobNow j) k) ∧
    (∃ t, exec (.reRead n k) s = .next t) ∧
    (s.memOk = true → j.cut = none → ∀ c, s.core? j.core = some c →
      (∀ r, j.work = .racker r → r.gate = 0 → r.mode ≠ 1 → r.mode ≠ 3 → r.dHbm = false → r.dst.mx = false →
        let row := k / r.vl
        let ws := r.writes row (r.beatPairs (r.beatOf row (k % r.vl)) (· == k % r.vl))
        ∃ t, exec (.reRead n k) s = .next t ∧ t.pkgs = s.pkgs ∧ ∀ i b, s.core? i = some b →
          ∃ m o g, t.core? i = some { b with spad := m, oob := o, oobFrom := g } ∧ (i ∉ r.reachedTargets j.core (s.extOf j.core.folio) → m = b.spad) ∧
            (i ∈ r.reachedTargets j.core (s.extOf j.core.folio) → storedIn b.spad m (ws.map fun w => (r.dst.addr w.pair, (r.storeOne w).1)))) ∧
      (∀ r, j.work = .stream r → r.op ≠ .scat →
        ∃ t m o f, exec (.reRead n k) s = .next t ∧ s.onlyCore t j.core { c with spad := m, oob := o, oobFrom := f } ∧
          storedIn c.spad m [(r.sb.toNat + k * r.z, beatBytes r.data (k * r.z) r.z)]) ∧
      (∀ r, j.work = .stream r → r.op = .scat →
        ∃ t r', exec (.reRead n k) s = .next t ∧ t.jobs = (s.updJob n fun i => { i with work := .stream r' }).jobs ∧ t.core = s.core ∧
          t.others = s.others ∧ r' = { r with judged := r'.judged } ∧ ∀ e, e ≠ k → r'.judged[e]? = r.judged[e]?))) ∧
  -- what is suppressed
  (∀ (s : State) (n k b : Nat) (j : Job) (y : Nat), s.job? n = some j → j.cut = some y →
    let now := s.jobNow j
    let nothing (i : Instr) : Prop := exec i s = .next s
    -- the landing is made as that of the word uncut
    let whole (i : Instr) : Prop := ∃ t, exec i (s.updJob n fun j => { j with cut := none }) = .next t ∧ exec i s = .next { t with jobs := s.jobs }
    (∀ x ahead, y ≤ x → s.visits ahead j x = [] ∧ s.sampleJob x j = s) ∧
    (y ≤ now → nothing (.storeLanding n k) ∧ nothing (.remoteLanding n k) ∧ nothing (.rmwSlot n) ∧ nothing (.rackerBeat n k) ∧
      nothing (.statusWord n) ∧ nothing (.pcardClear n k) ∧ nothing (.selectionRecord n k) ∧ nothing (.dispatchLanding n k b) ∧
      nothing (.combinedRow n k b) ∧ nothing (.streamWindow n k) ∧ nothing (.streamStatus n) ∧ nothing (.sendLanding n k) ∧
      nothing (.reRead n k) ∧ nothing (.matrixStep n k)) ∧
    (∀ d x lat, j.work = .scalar d x lat → whole (.resultLanding n k)) ∧
    (∀ l, j.work = .lane l →
      let last := match l.dst with | .v _ => now | .w _ => j.cyc + 6 + k | .s _ => j.cyc + 21
      (y ≤ last → nothing (.resultLanding n k)) ∧ (last < y → whole (.resultLanding n k))) ∧
    (∀ kind d a x, j.work = .vmem kind d a x → y ≤ now → nothing (.resultLanding n k)) ∧
    (∀ r a, j.work = .vtld r a → (y ≤ j.cyc + 3 → nothing (.resultLanding n k)) ∧ (j.cyc + 3 < y → whole (.resultLanding n k))) ∧
    (∀ d a v, j.work = .vlrec d a v → (y ≤ j.cyc + 1 → nothing (.resultLanding n k)) ∧ (j.cyc + 1 < y → whole (.resultLanding n k))) ∧
    (∀ a x, j.work = .flaunch a x → (y ≤ j.cyc + 1 → nothing (.resultLanding n k)) ∧ (j.cyc + 1 < y → whole (.resultLanding n k))) ∧
    (∀ op d a x w o, j.work = .amo op d a x w o →
      (y ≤ j.cyc + 14 → nothing (.resultLanding n k)) ∧ (j.cyc + 14 < y → whole (.resultLanding n k))) ∧
    (∀ p, j.work = .press p → (if p.op = .card then y ≤ j.cyc + 1 else y ≤ now) → nothing (.resultLanding n k)) ∧
    (∀ r, j.work = .stream r → y ≤ now → nothing (.resultLanding n k)) ∧
    (∀ op d a x sh img, j.work = .matrix op d a x sh img → (∃ i, op = .mcolr i ∨ op = .mrowr i) → y ≤ now → nothing (.resultLanding n k)) ∧
    -- the part of a tile that the steps before the cut have brought lands
    (∀ (c : Core) (d : Fin 4) a x sh img, s.core? j.core = some c → j.smp.hits = [] →
      (j.work = .matrix .mtrn d.val a x sh (some img) → ∃ t z, exec (.resultLanding n k) s = .next t ∧
        s.onlyCore t j.core { c with t := c.t.set d z } ∧ ∀ m' n', m' < 128 → n' < 128 →
          tileAt z m' n' = if m' < 8 * (y - (j.cyc + 22)) then tileAt img n' m' else tileAt c.t[d] m' n') ∧
      (j.work = .matrix .mscale d.val a x sh (some img) → ∃ t z, exec (.resultLanding n k) s = .next t ∧
        ∀ e : Fin 4, e.val = Nat.xor d.val 1 → s.onlyCore t j.core { c with t := (c.t.set d img).set e z } ∧
          ∀ m' n', m' < 128 → n' < 128 →
            tileAt z m' n' = if m' < 16 * (y - (j.cyc + 22)) ∧ m' ≤ sh.m1.val ∧ n' ≤ sh.n1.val then 0 else tileAt c.t[e] m' n'))) ∧
  -- what is visited in a cycle
  (∀ (s : State) (j : Job) (x : Nat) (ahead : Option State), j.cut = none → j.cyc < x →
    let r := x - j.cyc
    let w := bitsOf j.cap.ty
    let quire := s.extOf j.core.folio
    let visits (res : Res) (kind : VisitKind) (a b : Nat) : Prop := (⟨j.seq, res, kind, a, b, false⟩ : Visit) ∈ s.visits ahead j x
    let banks (c : CoreId) (kind : VisitKind) : Prop := ∀ b, b < 16 → ∃ a, visits (.bank c b) kind a 0
    let reads (v : VReg) (g : Nat) : Prop := visits (.regR j.core ((v.val + g) % 4)) .plain v.val g
    let writes (v : VReg) (g : Nat) : Prop := visits (.regW j.core ((v.val + g) % 4)) .plain v.val g
    (∀ a bs i, j.work = .sstore a bs → r = 2 → i < bs.length → (a.toNat + i) % 2 ^ 64 < 2 ^ 20 →
      visits (.bank j.core ((a.toNat + i) % 2 ^ 64 / 128 % 16)) .write 0 0) ∧
    (∀ l k, j.work = .lane l → k < 16 → l.op ∈ [.add, .sub, .mul, .fma, .fms, .nfma] →
      (r = 6 + k → (∀ v, l.a = some v ∨ l.b = some v ∨ l.d = some v → reads v k)) ∧
      (∀ v, l.dst = .v v → r = laneBase j.cap.ty l.op + k → writes v k)) ∧
    (∀ kind d a k, j.work = .vmem kind d a .unit → k < 16 →
      ((kind = .load ∨ (∃ q, kind = .blend q) ∨ ∃ l, kind = .qload l) → r = 6 + k → banks j.core .read) ∧
      (kind = .load → r = 14 + k → writes d k) ∧ (kind = .store → r = 6 + k → reads d k) ∧ (kind = .store → r = 8 + k → banks j.core .write)) ∧
    (∀ d a, j.work = .vtld d a → r ≤ 3 → banks j.core .read) ∧ (∀ d a v, j.work = .vlrec d a v → r = 1 → banks j.core .read) ∧
    (∀ op d a b sh img, j.work = .matrix op d a b sh img →
      let n := matSteps j.cap op sh
      (22 ≤ r → r < 22 + n → visits (.unit j.core (onProductUnit op)) .plain 0 0) ∧
      ((∀ i, op ≠ .mcolr i ∧ op ≠ .mrowr i) → n ≠ 0 → 22 ≤ r → r < 33 + n →
        visits (.tile j.core d) (if accumulates op then .accumulate else .plain) 0 0)) ∧
    (∀ op d a k t, j.work = .remote op d a → k < 16 → a.toNat % 2 ^ 20 + 128 * k < 2 ^ 20 → t ∈ remoteTargets quire j.core op a →
      (op = .load → r = 18 + k → visits (.portOut t) .plain 0 0 ∧ banks t .read) ∧ (op ≠ .load → r = 18 + k → visits (.portIn t) .plain 0 0 ∧ banks t .write)) ∧
    (∀ op d a, j.work = .remote op d a →
      (op = .load → 30 ≤ r → r < 46 → visits (.portIn j.core) .plain 0 0 ∧ writes d (r - 30)) ∧
      (op ≠ .load → 6 ≤ r → r < 22 → visits (.portOut j.core) .plain 0 0 ∧ reads d (r - 6))) ∧
    (∀ op d a b v o, j.work = .amo op d a b v o → clusterOk quire a = true → 12 ≤ r → r ≤ 14 →
      visits (.bank (clusterTarget j.core a) (a.toNat / 128 % 16)) .sole 0 0) ∧
    (∀ d a v, j.work = .vamo d a v → clusterOk quire a = true → 18 ≤ r → r ≤ 35 → banks (clusterTarget j.core a) .sole) ∧
    (∀ t k, j.work = .racker t → 2 ≤ r → t.landBeat r = some k →
      visits (.racker j.core.folio j.core.pkg j.core.die j.core.cluster) .plain 0 0 ∧
      (t.dHbm = false → (t.mode = 0 ∨ t.mode = 2) → ∀ i ∈ t.reachedTargets j.core quire, banks i .write)) ∧
    (∀ t, j.work = .stream t → t.valid j.core.die = true → t.open_ ≤ r → r < t.open_ + t.len → 2 ≤ r →
      ∀ h, h < 16 → visits (.channel (s.physOf j.core) t.stack h) .plain 0 0) ∧
    (∀ p card n, j.work = .press p → p.op = .sel → p.govern quire j.core = some (card, n) → 2 + card.bl n ≤ r → r < 20 + card.bl n + card.bits →
      visits (.arrays j.core.folio j.core.pkg j.core.die) .plain 0 0) ∧
    (∀ d a dist k, j.work = .sendv d a dist → k < 16 → (r = 6 + k → visits (.fabOut j.core) .plain 0 0) ∧
      (r = dist + k → sendInQuire quire j.core.folio a = true → a.toNat % 2 ^ 20 + 128 * k < 2 ^ 20 →
        visits (.fabIn (sendTarget j.core.folio a)) .plain 0 0 ∧ banks (sendTarget j.core.folio a) .write)) ∧
    -- a slot of a channel that the calendar does not grant, on a transfer's bytes in HBM
    (∀ t k, j.work = .racker t → 2 ≤ r → t.readBeat r = some k → t.sHbm = true → t.gate = 0 → ∀ v ∈ s.visits ahead j x, ∀ g q h,
      v.res = .channel g q h → t.landBeat r = none → let pos := (x - s.startOf j.core.folio) % 1024
        (v.bad = true ↔ 64 * h ≤ pos ∧ pos ≤ 64 * h + 41))) ∧
  -- what a resource serves
  (∀ (v : Visit) (vs : List Visit), v ∈ vs →
    let another (p : Visit → Prop) : Prop := ∃ w ∈ vs, p w
    v.overflows vs = true ↔ match v.res with
      | .regR .. => ∃ a ∈ vs, ∃ b ∈ vs, ∃ c ∈ vs, (a.a, a.b) ≠ (b.a, b.b) ∧ (a.a, a.b) ≠ (c.a, c.b) ∧ (b.a, b.b) ≠ (c.a, c.b)
      | .regW .. => ∃ a ∈ vs, another fun b => a.a ≠ b.a ∨ a.b ≠ b.b ∧ ∀ u ∈ vs, u.a = a.a → u.b ≠ 16
      | .bank .. => v.kind ≠ .sole ∧ 2 < (vs.filter fun w => w.kind == v.kind).length ∨
          another fun w => v.seq ≠ w.seq ∧ (v.kind = .sole ∧ w.a = 0 ∨ w.kind = .sole)
      | .portOut _ | .fabOut _ | .fabIn _ | .racker .. | .unit .. | .arrays .. => 2 ≤ vs.length
      | .portIn _ | .link .. => 3 ≤ vs.length
      | .tile .. => ∃ a ∈ vs, another fun b => a.seq ≠ b.seq ∧ ¬ (a.kind = .accumulate ∧ b.kind = .accumulate)
      | .channel .. => (another fun w => w.bad = true) ∨ 2 ≤ vs.length) ∧
  -- whom a conflict names
  (∀ (fuel : Nat) (vs : List Visit), let over_ (v : Visit) : Prop := v ∈ vs ∧ v.overflows (vs.filter fun w => w.res == v.res) = true
    ((∀ v, ¬ over_ v) → nameConflicts (fuel + 1) vs = []) ∧
    ∀ v, over_ v → (∀ w, over_ w → w.seq ≤ v.seq) →
      nameConflicts (fuel + 1) vs = nameConflicts fuel (vs.filter fun w => w.seq != v.seq) ++ [v.seq]) ∧
  -- and when its trap falls due
  (∀ s t : State, exec .tick s = .next t → s.due = [] →
    let mine (j : Job) : Bool := decide (s.jobNow j < t.jobNow j)
    (∀ j ∈ t.jobs, j.dispatching = true → ∀ a, t.visits (some a) j (t.jobNow j) = t.visits none j (t.jobNow j)) →
    let js := t.jobs.filter mine
    ∀ n, .preciseTimingTrap n ∈ t.due ↔ n ∈ nameConflicts js.length (js.flatMap fun j => t.visits none j (t.jobNow j)) ∨
      ∃ j ∈ js, j.seq = n ∧ j.lateAt (t.jobNow j) = true)

/-- R179, R214, R302 to R304: replays. In the stop cycle of a replay the folio's reads and offers of that cycle are made and the rest of
its work is discarded, but for a clear of the Press; its votes, its pending launches, and its counts of transfers and launches return
to the last line, but the count of rejected flaunches stays (log 112); its traps are logged, and it restores. What its
transfers to the cellar have written before their status counts as discarded (R330, log 107). A stop that is no replay ends the folio. In the resume cycle the start is rebased, each
core that had not ended by the line goes on from its snapshot, with the mode registers and vl of a handler's entry; an oob
address accepted before stays; every other register and the memories stay. The model's choice: a trap reported since the
stop stops the folio again (log 19), the step counter returns to its value at the line exactly when a core's code holds
`stepinc` as it stood at the line (log 46), every core is restored in the resume cycle (log 74), which comes when the scc has moved on by 65 from the
stop (log 103) and is before the votes of its cycle, so that these count on what the line restores (log 141), and the scc up
to which a release covers writes moves on with the start (R330, log 107). -/
def Obligations.ReplayRestores : Prop :=
  (∀ (s t : State) (f : Folio) (y : Stop), exec .tick s = .next t → s.due = [] → f ∈ t.folios → f.phase = .restoring → f.stop = some y →
    s.sccOf f.owner < t.sccOf f.owner → t.folioNow f = y.y + 65 →
    ∃ before after, t.due = before ++ .replayResume f.id :: after ∧ ∀ g, .stepVote g ∉ before) ∧
  (∀ (s : State) (id : Nat) (f : Folio) (y : Stop), s.folio? id = some f → f.stop = some y → f.replaysAt = true →
    ∃ t, exec (.replay id) s = .next t ∧ t.contexts = s.contexts ∧ t.votes = s.votes.filter (fun v => v.folio != id) ∧
      (∀ i c, s.core? i = some c → ∃ k, t.core? i = some k ∧ k = { c with oob := k.oob, oobFrom := k.oobFrom } ∧ (i.folio ≠ id → k = c)) ∧
      (∀ j ∈ t.jobs, j.core.folio = id → j.clearKept f.lineAt = true ∧ j.cut = some (s.folioNow f)) ∧
      (∀ j, j.core.folio ≠ id → (∀ k ∈ s.jobs, k.core.folio = id → k.seq ≠ j.seq) → (j ∈ t.jobs ↔ j ∈ s.jobs)) ∧
      (∀ i p, s.pkgs[i]? = some p → ∃ q, t.pkgs[i]? = some q ∧
        q = { p with trans := q.trans, trapLog := q.trapLog, responses := q.responses, asks := q.asks, seals := q.seals } ∧
        (∀ n : Fin 64, q.seals[n] = { p.seals[n] with held := q.seals[n].held } ∧ q.seals[n].held.length = p.seals[n].held.length ∧
          ∀ (m : Nat) (h : Held), p.seals[n].held[m]? = some h → ∃ w : Writer, q.seals[n].held[m]? = some { h with by_ := w } ∧
            (w = h.by_ ∨ w = .discarded ∧ ∃ j ∈ s.jobs, j.core.folio = id ∧ ∃ g, h.by_ = .transfer g j.seq) ∧
            ∀ j ∈ s.jobs, ∀ r g, j.core.folio = id → j.work = .racker r → r.mode = 3 → r.dHbm = false → s.jobNow j < j.cyc + r.statusAt →
              h.by_ = .transfer g j.seq → w = .discarded) ∧
        p.trapLog <+: q.trapLog ∧
        ∀ r ∈ y.traps, f.phys (r.coord / 2 ^ 10) = i → r ∈ q.trapLog) ∧
      t.folio? id = some { f with
        phase := .restoring, replays := f.replays + 1, pending := [], stop := some ⟨y.y, []⟩
        press := f.pressAtLine, rackers := f.rackersAtLine, launches := f.launchesAtLine }) ∧
  (∀ (s : State) (id : Nat) (f : Folio), s.folio? id = some f → f.replaysAt = false →
    exec (.replay id) s = exec (.folioStop id) s) ∧
  (∀ (s : State) (id : Nat) (f : Folio) (y : Stop), s.folio? id = some f → f.stop = some y →
    let now := s.folioNow f
    let start := now - (if f.marked then f.line + 1 else 0)
    let later := y.traps.filter fun r => decide (y.y < r.cycle + f.start)
    let voting := s.cores.any fun c => c.id.folio == id &&
      (match c.imemLine with | some m => m | none => c.imem).any fun x => x.2 == (0xF4000001 : Word)
    ∃ t, exec (.replayResume id) s = .next t ∧
      t.folio? id = some { f with
        phase := .running, start := start, replayInterval := true
        stop := later.head?.map fun r => ⟨r.cycle + f.start + 320, later⟩ } ∧
      (∀ i c, s.core? i = some c → i.folio = id →
        let k : Core := { c with
          oobKept := c.oobKept || decide (c.oob ≠ BitVec.allOnes 64)
          imem := (match c.imemLine with | some m => m | none => c.imem), imemLine := none, fill := [] }
        t.core? i = some (
          if c.fended = true ∧ c.snap.line ≠ f.line then k
          else { k with
            pc := c.snap.pc, s := c.snap.s, cons := c.snap.cons, stage := c.snap.stage
            m := if c.tstate then c.shadowM else c.m
            vl := if c.tstate then c.shadowVl else c.vl
            tstate := false, fended := false, haltAt := none, issueAt := now, lastIssue := none })) ∧
      (∀ i, i.folio ≠ id → t.core? i = s.core? i) ∧
      t.jobs = s.jobs.map (fun j => if j.core.folio = id then { j with cut := none, cyc := j.cyc + (start - f.start) } else j) ∧
      (∀ i p, s.pkgs[i]? = some p →
        let q := if voting = true ∧ i ∈ s.members f.owner then { p with step := f.stepAtLine } else p
        t.pkgs[i]? = some { q with seals := p.seals.map fun k =>
          { k with stray := k.stray.map fun y => if y.folio = id then { y with upto := y.upto + (start - f.start) } else y } }))

/-- R299, R306, R307, R308: a folio that ends leaves one completion record on the package of its lead Binder, with its identifier,
its start, the present scc and tick, and its cause: 0 at its end, the cause of the trap that names its stop, 6 when it is
pre-empted at its line. A start that lies before scc 0 is shown modulo 2^64 (log 126). Its seals open, but for a pre-emption,
which keeps its context: every core as it stands at the line. That of two traps of one class the earlier names the stop, and that
a record is kept also where 1,024 wait, are the model's choices (logs 136, 137). That the saved state stands apart from the bytes of its area, which are free, and beside every context saved before, is the
model's choice (log 9).
The Pre-empt commands that named it complete, and one that waits makes the record's tval 0 (log 89). Neither the folio nor its
work stays. A record is 128 bytes. -/
def Obligations.FoliosEnd : Prop :=
  (∀ (s : State) (id : Nat) (f : Folio) (p : Package), s.folio? id = some f → s.pkgs[f.owner]? = some p →
    let leaves (i : Instr) (cause saved : Nat) (rest : State → Completion → Prop) : Prop :=
      ∃ t q r, exec i s = .next t ∧ t.pkgs[f.owner]? = some q ∧ q.records = p.records ++ [r] ∧ r.id = f.id % 2 ^ 64 ∧ r.cause = cause ∧
        (r.start + f.lead) % 2 ^ 64 = f.start % 2 ^ 64 ∧ r.finish = p.scc ∧ r.tick = p.tick ∧ q.asks = p.asks.filter (fun a => a.1 != f.id % 2 ^ 64) ∧
        q.responses = p.responses ++ (p.asks.filter fun a => a.1 == f.id % 2 ^ 64).map (fun _ => (⟨0x07, 0, [BitVec.ofNat 8 saved]⟩ : Response)) ∧
        t.folio? id = none ∧ (∀ j ∈ t.jobs, j.core.folio ≠ id) ∧ (∀ c ∈ t.cores, c.id.folio = id → c = Core.idle) ∧ rest t r
    let opened (t : State) : Prop := t.contexts = s.contexts ∧ ∀ q ∈ t.pkgs, ∀ k : Fin 64, q.seals[k].st ≠ .folio id
    leaves (.folioEnd id) 0 0 (fun t r => opened t ∧ r.tval = 0) ∧
    (∀ y n, f.stop = some y → namedTrap y.traps = some n →
      leaves (.folioStop id) (match n.cls with | .software => 1 | .nested => 1 | .illegal => 2 | .timing => 3 | .machine => 4 | .drift => 5) 0
        (fun t r => opened t ∧ r.coord = n.coord ∧ r.word = n.word ∧ (f.preempt ≠ none → r.tval = 0))) ∧
    (∀ va l, f.preempt = some (va, l) →
      leaves (.preEmption id) 6 1 fun t r => r.tval = va ∧
        (∀ (i : Nat) (k : Package), s.pkgs[i]? = some k → ∃ q : Package, t.pkgs[i]? = some q ∧ ∀ n : Fin 64, q.seals[n].st = k.seals[n].st) ∧
        ∃ x, t.contexts = s.contexts ++ [x] ∧ x.pkg = f.owner ∧ x.va = va ∧ x.areas.length = f.bind.length ∧
          x.cores.length = (s.cores.filter fun c => c.id.folio == id).length ∧
          ∀ c ∈ s.cores, c.id.folio = id → ∃ k ∈ x.cores,
            k = { c with oob := k.oob, oobFrom := k.oobFrom, imem := k.imem, imemLine := k.imemLine, fill := k.fill })) ∧
  (∀ x : Completion, x.bytes.length = 128 ∧
    let holds (byte n v : Nat) : Prop := leNat ((x.bytes.drop byte).take n) = v % 2 ^ (8 * n)
    holds 0 8 x.id ∧ holds 8 8 x.start ∧ holds 16 8 x.finish ∧ holds 24 8 x.tick ∧ holds 32 1 x.cause ∧ holds 33 1 x.replays ∧
    holds 34 2 x.code ∧ holds 36 4 x.coord ∧ holds 40 2 x.word ∧ holds 42 6 0 ∧ holds 48 8 x.tval.toNat ∧ holds 56 1 x.rejects ∧
    holds 57 7 0 ∧ holds 64 64 (leNat x.vintage))

/-- R25, R148, R289 to R298, R307, R309: the first ready record of a scan is dispatched to start 64 cycles on, leaves its queue and
takes its seals, and a Pre-empt that waited for it fixes its line; the lead Binders agree a timed start at least 4,096 cycles
on (how much later is free: log 6); a folio that starts afresh runs, with each core of its quire at its launch state; one
pre-empted at the implicit line of cycle 0 ends before any word issues (log 96); one that restores a context goes on in the
cycle after its line, under its own identifier, with the cores as saved. A restore takes the last context saved whose bytes lie at
the record's context address on every package: what a restore takes from the new record, and that it starts afresh where no
context's bytes lie there, is the model's choice (log 38), and so are those bytes, and that a context stays (log 9), and
that replays and rejects count from 0 (log 113), that seals are asked for and taken on every package named (log 120), that the
earliest start of a `flaunch` record is judged at the round (log 121), that saved cores go on under the extents of the new record
(log 122), that a folio whose saved cycle the scc has not come to counts its cycles ahead (log 126), and that a replay to the line restores
the step counter as it stands at the restart (log 140). A fault reported before the start stops the folio all the same. A
record takes the first binding that is free, and where that spans two firmwares the first free one on the dies of one (R295,
R395): which one, and that a record kept from a quire by firmware alone is not blocked, are the model's choices (logs 11,
143), and so is that a timed folio of one package starts as agreed (log 148). -/
def Obligations.DispatchAndStart : Prop :=
  (∀ (s : State) (i : Nat) (p : Package) (w : Waiting),
    let free (fw : Option (Option Firmware)) : Option (List PkgBind) :=
      s.freeQuire i p w fun q d => match fw with | some x => s.firmwareOf q d == x | none => true
    (free none = none → s.readyQuire i p w = none) ∧
    (∀ b, free none = some b → s.oneFirmware b = true → s.readyQuire i p w = some b) ∧
    (∀ b q d, free none = some b → s.oneFirmware b = false → q ∈ s.named i w.record → d < 4 → (free (some (s.firmwareOf q d))).isSome →
      (s.readyQuire i p w).isSome) ∧
    (∀ b, s.readyQuire i p w = some b → (∀ x ∈ b, ∀ d ∈ x.dies, d.clusters ≠ []) →
      s.oneFirmware b = true ∧ ∃ fw, free fw = some b)) ∧
  (∀ (s : State) (i : Nat) (p : Package) (w : Waiting) (b : List PkgBind),
    (∀ f ∈ s.folios, recTimed f.record = true → ∀ x ∈ f.bind, x.phys ≠ i) → (s.beforeScan i).pkgs[i]? = some p → p.boot = .ready →
    p.queue = [w] → p.draining = [] → w.prio < 4 → p.records.length < 1024 → recTimed w.record = false → s.due = [] →
    s.folio? (i * 2 ^ 64 + w.id) = none →
    let q := p.commit 4295
    let s1 := { s.beforeScan i with pkgs := (s.beforeScan i).pkgs.set i q }
    s1.couldStart i q w = true → s1.readyQuire i q w = some b →
    ∃ t r f, exec (.dispatchRound i) s = .next t ∧ t.pkgs[i]? = some r ∧ r.queue = [] ∧ t.folios = s.folios ++ [f] ∧
      f.id = i * 2 ^ 64 + w.id ∧ f.owner = i ∧ f.record = w.record ∧ f.bind = b ∧ f.phase = .agreed ∧ f.start = p.scc + 64 ∧ f.lead = 0 ∧
      f.preempt = (p.asks.find? fun a => a.1 == w.id % 2 ^ 64).map (fun a => (a.2.1, s.lineAhead f a.2.2)) ∧
      (∀ n ∈ s1.named i w.record, ∀ x, t.pkgs[n]? = some x → ∀ k ∈ recSeals w.record, x.seals[k].st = .folio f.id) ∧
      t.core = s.core ∧ t.others = s.others ∧ t.jobs = s.jobs ∧ t.due = []) ∧
  (∀ (s : State) (id : Nat) (f : Folio), s.folio? id = some f →
    let start := s.sccOf f.owner + 4096 + Config.startDelay s.freeCtr
    let asked := (s.pkgs[f.owner]?).bind fun p => p.asks.find? fun a => a.1 == f.id % 2 ^ 64
    exec (.startAgreement id) s = .next { s with
      freeCtr := s.freeCtr + 1
      folios := s.folios.map fun g =>
        if g.id = id then { g with
          start := start
          preempt := match asked with | some a => some (a.2.1, s.lineAhead { f with start := start } a.2.2) | none => g.preempt }
        else g }) ∧
  (∀ (s : State) (id : Nat) (f : Folio), s.folio? id = some f → s.savedFor f = none → f.stopsAtStart = false →
    ∃ t g, exec (.folioStart id) s = .next t ∧ t.folio? id = some g ∧ g.phase = .running ∧ g.start = f.start ∧
      (∀ p, s.pkgs[f.owner]? = some p → g.step0 = p.step) ∧
      (∀ c ∈ f.startCores, c ∈ t.cores) ∧ t.jobs = s.jobs ∧ t.pkgs = s.pkgs) ∧
  (∀ (s : State) (id : Nat) (f : Folio) (p : Package) (va : DWord), s.folio? id = some f → s.savedFor f = none → f.listed 0 = false →
    f.stop = none → f.preempt = some (va, some 0) → s.pkgs[f.owner]? = some p →
    ∃ t q r, exec (.folioStart id) s = .next t ∧ t.folio? id = none ∧ t.pkgs[f.owner]? = some q ∧ q.records = p.records ++ [r] ∧
      r.id = f.id % 2 ^ 64 ∧ r.cause = 6) ∧
  (∀ (s : State) (f : Folio),
    let lies (x : Context) : Prop := ∀ k ctr n, (k, ctr, n) ∈ x.areas →
      ∃ p, s.pkgs[f.phys k]? = some p ∧ ∀ b, b < n → p.peek (recContext f.record + b) = Config.contextByte ctr b
    (recRestore f.record = false → s.savedFor f = none) ∧
    (recRestore f.record = true → (∀ x ∈ s.contexts, ¬ lies x) → s.savedFor f = none) ∧
    (recRestore f.record = true → ∀ xs x ys, s.contexts = xs ++ x :: ys → lies x → (∀ y ∈ ys, ¬ lies y) → s.savedFor f = some x)) ∧
  (∀ (s : State) (id : Nat) (f : Folio) (x : Context), s.folio? id = some f → s.savedFor f = some x →
    let cycle := if x.folio.marked then x.folio.line + 1 else 0
    let lead := cycle - f.start
    let start := f.start + lead - cycle
    ∃ t, exec (.folioStart id) s = .next t ∧ t.contexts = s.contexts ∧
      t.folio? id = some { x.folio with
        id := id, owner := f.owner, record := f.record, bind := f.bind, phase := .running, start := start, lead := lead
        stop := f.stop.map (fun y => { y with y := y.y + lead })
        stepAtLine := (match s.pkgs[f.owner]? with | some p => p.step | none => 0)
        replays := 0, rejects := 0, preempt := f.preempt } ∧
      (∀ g, t.folio? id = some g → s.sccOf f.owner = f.start → t.cycleOf g = cycle) ∧
      (∀ c ∈ x.cores, { c with
        id := { c.id with folio := id }, phys := f.phys c.id.pkg, mb := recMb f.record, issueAt := f.start + lead, lastIssue := none
        haltAt := none, flagNow := [], flagAt := 0 } ∈ t.cores)) ∧
  (∀ (f : Folio) (c : Core), c ∈ f.startCores →
    c.pc = 0 ∧ c.cons = [] ∧ c.vl = 0 ∧ c.fs = 0 ∧ c.oob = BitVec.allOnes 64 ∧ c.tstate = false ∧ c.tvec = f.tvec ∧ c.issueAt = f.start ∧
    c.shape = ⟨127, 127, false⟩ ∧ (∀ r : SReg, c.s[r] = 0) ∧ (∀ r : VReg, c.v[r] = 0) ∧ (∀ r : TReg, c.t[r] = 0) ∧ (∀ r : MReg, c.m[r] = 0) ∧ (∀ r : Fin 4, c.th[r] = 0) ∧
    (∀ r : Fin 256, c.tags[r] = none) ∧ (∀ r : Fin 8, ∀ p, p < 2048 → weightAt (c.getW r) p = if r = 0 then 0x8000 else 0) ∧
    (∀ n : Fin 16, c.mb[n].toNat = recField f.record (96 + 8 * n.val) 8))

/-! ### Rests, holds and power (R356 to R358, R381 to R397) -/

/-- R356, R357, R389, R390: rests and holds. Package 0 agrees a rest of 1 to 2^24 ticks at least 4,096 cycles ahead, at a cycle that
has none, on every member; readings above the cap, or a sensor above 100 degrees, ask for rests, and one of 115 degrees or
more trips the package, once; an agreed rest begins and ends; a hold takes effect 320 ticks on, on every member, and ends 320
ticks after its release and not before it has lasted 64; a hold that does not begin in this tick takes no effect in it; a
thermal trip stops every folio of the package. The model's choice: the record of a thermal trip names coordinate and word 0
(log 44), how a trip leads to the fall of the rails (log 48), and that one reading stands for the average of R390 (log 67). -/
def Obligations.RestsAndHolds : Prop :=
  ∀ (s : State) (i : Nat) (p : Package), s.pkgs[i]? = some p →
    (∀ start n, p.num = 0 → i ∈ s.members i → 1 ≤ n → n ≤ 2 ^ 24 → p.scc + 4096 ≤ start → (∀ r ∈ p.rests, r.at_ ≠ start) →
      ∃ t, exec (.restAgreement i start n) s = .next t ∧ t.core = s.core ∧ t.others = s.others ∧ t.folios = s.folios ∧ t.jobs = s.jobs ∧
        ∀ q k, s.pkgs[q]? = some k → ∃ k', t.pkgs[q]? = some k' ∧
          (q ∈ s.members i → ⟨start, n⟩ ∈ k'.rests ∧ (∀ r ∈ k.rests, r ∈ k'.rests) ∧ k' = { k with rests := k'.rests, restWanted := false }) ∧
          (q ∉ s.members i → k' = k)) ∧
    (∀ start n, (p.num ≠ 0 ∨ n < 1 ∨ 2 ^ 24 < n ∨ start < p.scc + 4096 ∨ ∃ r ∈ p.rests, r.at_ = start) →
      exec (.restAgreement i start n) s = .next s) ∧
    (∀ (w : BitVec 16) (t0 t1 t2 t3 : DieSensors),
      let x : Sensors := #v[t0, t1, t2, t3]
      let q := { p with mpower := w.toNat, sensors := x, restWanted := decide (p.mpcap < w.toNat ∨ ∃ (d : Fin 4) (k : Fin 16), 800 < x[d][k].toNat) }
      let hot : Prop := ∃ (d : Fin 4) (k : Fin 16), 920 ≤ x[d][k].toNat
      ((¬ hot ∨ p.powered = false ∨ p.tripped = true) → exec (.restRequest i w t0 t1 t2 t3) s = .next { s with pkgs := s.pkgs.set i q }) ∧
      (hot → p.powered = true → p.tripped = false →
        exec (.restRequest i w t0 t1 t2 t3) s = exec (.thermalTrip i) { s with pkgs := s.pkgs.set i q })) ∧
    (∀ r, p.rests = [r] → r.at_ = p.scc →
      exec (.rest i) s = .next { s with pkgs := s.pkgs.set i { p with rests := [], restLeft := r.len + 1 } }) ∧
    (p.restLeft = 1 → exec (.restEnd i) s = .next { s with pkgs := s.pkgs.set i { p with restLeft := 0 } }) ∧
    (p.restLeft ≠ 1 → exec (.restEnd i) s = .next s) ∧
    (∃ t, exec (.hold i) s = .next t ∧ ∀ q k, s.pkgs[q]? = some k → ∃ k', t.pkgs[q]? = some k' ∧ k' = { k with holds := k'.holds } ∧
      (∀ h ∈ k.holds, h ∈ k'.holds) ∧ (q ∉ s.members i → k' = k) ∧
      (q ∈ s.members i → (∀ h ∈ k.holds, h.member ≠ i) → (⟨i, k.tick + 320, none⟩ : Hold) ∈ k'.holds)) ∧
    ((∃ h ∈ p.holds, h.from_ = p.tick) → exec (.holdEffect i) s = .next { s with pkgs := s.pkgs.set i { p with stalled := true } }) ∧
    ((∀ h ∈ p.holds, h.from_ ≠ p.tick) → exec (.holdEffect i) s = .next s) ∧
    (∃ t, exec (.holdRelease i) s = .next t ∧ ∀ q k, s.pkgs[q]? = some k → t.pkgs[q]? = some (
      if q ∈ s.members i then { k with holds := k.holds.map fun h =>
        if h.member = i ∧ h.until_ = none then { h with until_ := some (max (k.tick + 320) (h.from_ + 64)) } else h }
      else k)) ∧
    exec (.thermalTrip i) s = .next { s with
      folios := s.folios.map fun f =>
        if f.boundOn i = true then
          let r : TrapReport := ⟨.machine, s.folioNow f - f.start, 0, 0, 0, 0⟩
          { f with stop := match f.stop with | none => some ⟨s.folioNow f + 320, [r]⟩ | some y => some { y with traps := y.traps ++ [r] } }
        else f
      pkgs := s.pkgs.set i { p with tripped := true } }

/-- R381, R383, R385 to R387, R395: the stages. Power starts at the rails; the fuses give the identity key; a package awaits
firmware; a bundle is verified in stage 3, and one that passes extends the measurement chain and is loaded on the dies and the
stacks, while one that does not leaves stage 3 with its reason; training leads to stage 5, or back to stage 2 with reason 5; a
power loss keeps the fuses and the cellar alone. In stage 5 a verified bundle waits, and a die with nothing bound on it
switches to it. The model's choice: HBM and cellar that read as 0 when nothing has written them (log 1), the scc and the step
counter 0 at power-up (log 17), the digest as computed (log 7), the identity key and the signatures as free functions
(log 8), the fuses of a further package (log 10), what a power loss does to folios (log 53) and to contexts (log 9), a second bundle
that waits (log 59), how stage 3 completes (log 95), and that a power loss keeps every byte that has landed in the cellar (log
138). Whether a bundle passes is what the free verification of log 8 says of it. -/
def Obligations.PowerAndFirmware : Prop :=
  ∀ (s : State) (i : Nat) (p : Package) (ok : Bool) (bundle : List Byte) (die : Fin 4) (nonce : BitVec 256), s.pkgs[i]? = some p →
    let becomes (i' : Instr) (q : Package) : Prop := exec i' s = .next { s with pkgs := s.pkgs.set i q }
    let signed := bundle.take (bundleLen bundle)
    let fw : Firmware := ⟨signed, bundleSvn bundle⟩
    (p.powered = false → becomes (.powerUp i) (.atPower 0 i p.fuses (Vector.replicate 8 []) p.cellar)) ∧
    (p.powered = true → exec (.powerUp i) s = .next s) ∧
    exec (.powerUp s.pkgs.length) s =
      .next { s with pkgs := s.pkgs ++ [.atPower 0 s.pkgs.length .default (Vector.replicate 8 []) []] } ∧
    (p.powered = true → p.boot = .rails → becomes (.fuses i) { p with
      boot := .fuses, idKey := leBytes (Config.mldsaPublicKey p.fuses.seed).toNat 2592, chain := List.replicate 64 0 }) ∧
    (p.powered = true → p.boot = .fuses → becomes (.awaitingFirmware i) { p with boot := .awaiting }) ∧
    (p.powered = true → p.boot = .loading → becomes (.training i true) { p with
      boot := .ready, trans := [], changes := [], seals := Vector.replicate 64 ⟨.host, none, [], none, []⟩, lastId := 0 } ∧
      becomes (.training i false) { p with boot := .awaiting, reason := 5 }) ∧
    (p.boot ≠ .loading → exec (.training i ok) s = .next s) ∧
    (∃ t, exec (.powerLoss i) s = .next t ∧ (∀ f ∈ t.folios, f.boundOn i = false) ∧ t.contexts = s.contexts ∧
      ∃ m, t.pkgs[i]? = some { Package.atPower 0 i p.fuses (Vector.replicate 8 []) m with powered := false } ∧ (p.openWrites = [] → m = p.cellar)) ∧
    (p.powered = true → p.boot = .awaiting → becomes (.loadFirmware i bundle) { p with boot := .verifying, bundle := some bundle }) ∧
    (p.powered = true → p.boot = .verifying → p.bundle = some bundle → p.bundleReason bundle false = 0 →
      ∃ q, becomes (.loadFirmware i bundle) q ∧ q.boot = .loading ∧ q.bundle = none ∧ q.chain = sha3 (p.chain ++ sha3 signed) ∧ q.ext = p.ext + 1 ∧
        q.svn = bundleSvn bundle ∧ q.inForce = some fw ∧ (∀ k : Fin 8, q.stackFw[k] = some fw) ∧
        (∀ d ∈ p.dies, q.firmware[d] = some fw) ∧ (∀ d, d ∉ p.dies → q.firmware[d] = p.firmware[d]) ∧
        q.responses = p.responses ++ [⟨0x24, 0, []⟩]) ∧
    (p.powered = true → p.boot = .verifying → p.bundle = some bundle → p.bundleReason bundle false ≠ 0 → becomes (.loadFirmware i bundle) { p with
      boot := .awaiting, bundle := none, reason := p.bundleReason bundle false
      responses := p.responses ++ [⟨0x24, p.bundleReason bundle false, []⟩] }) ∧
    (p.powered = true → p.boot = .ready → p.bundleReason bundle true = 0 → becomes (.loadFirmware i bundle) { p with
      pendingFw := p.pendingFw ++ [fw], switching := if p.pendingFw = [] then p.dies else p.switching }) ∧
    (p.powered = true → p.boot = .ready → p.bundleReason bundle true ≠ 0 → becomes (.loadFirmware i bundle) { p with
      reason := p.bundleReason bundle true, responses := p.responses ++ [⟨0x24, p.bundleReason bundle true, []⟩] }) ∧
    (∀ f r, p.pendingFw = f :: r → die ∈ p.switching → (∃ d ∈ p.switching, d ≠ die) → s.dieInUse i die.val = false →
      becomes (.firmwareSwitch i die) { p with
        switching := p.switching.filter (· != die), firmware := p.firmware.set die (some f) }) ∧
    (∀ f, p.pendingFw = [f] → p.switching = [die] → s.dieInUse i die.val = false →
      ∃ q, becomes (.firmwareSwitch i die) q ∧ q.firmware = p.firmware.set die (some f) ∧ q.inForce = some f ∧ q.pendingFw = [] ∧
        q.chain = sha3 (p.chain ++ sha3 f.part) ∧ q.responses = p.responses ++ [⟨0x24, 0, []⟩]) ∧
    (s.dieInUse i die.val = true → exec (.firmwareSwitch i die) s = .next s) ∧
    (p.powered = true → p.boot = .ready → becomes (.attest i nonce) { p with responses := p.responses ++
      [⟨0x25, 0, p.colophon ++ leBytes (Config.mldsaSign p.fuses.seed (sha3 (p.colophon ++ leBytes nonce.toNat 32))).toNat 4627⟩] })

/-! ### The host (R291, R307, R315 to R317, R328, R329, R336 to R341, R366, R391 to R397) -/

/-- R315, R317, R328: Map and Invalidate change an entry at once when no folio holds the calendar and no change to it waits, and
wait otherwise: for the holder's first line 320 cycles on, no earlier than that of an earlier change to the entry, or for the
holder's end, where there is no such line or the entry is pinned. A waiting change takes effect in the order asked for, at its
line, unless a pending stop undoes the line, or once no folio holds the calendar. Read entry returns the entry. The reserved
bits of an entry read as zero; no other entry changes. The model's choice: a line under a pending stop is not passed (log 39),
and lines are counted from the start that a pending replay will give (log 64). -/
def Obligations.Translation : Prop :=
  ∀ (s : State) (i : Nat) (p : Package) (stack : Fin 8) (index : Fin 32768) (entry : DWord),
    s.pkgs[i]? = some p → p.powered = true → p.boot = .ready → Cells.wf p.trans = true →
    let key := stack.val * 32768 + index.val
    let changed (i' : Instr) (cmd : Nat) (e : DWord) (rest : List Change) : Prop :=
      ∃ m, exec i' s = .next { s with pkgs := s.pkgs.set i { p with trans := m, changes := rest, responses := p.responses ++ [⟨cmd, 0, []⟩] } } ∧
        Cells.wf m = true ∧ ∀ a, Cells.get m a = if a = key then e else Cells.get p.trans a
    let mapped := entry &&& ~~~0x1FFFFE0
    let cleared := Cells.get p.trans key &&& ~~~1
    let mine (c : Change) : Bool := decide (c.stack = stack ∧ c.index = index)
    let line : Option Nat := match s.holder i with
      | none => none
      | some f => (p.changes.filter mine).foldl (fun l c => match l, c.line with | some a, some b => some (max a b) | _, _ => none)
          (if (Cells.get p.trans key).getLsbD 4 then none else s.lineAhead f (s.sccOf f.owner))
    let waits (i' : Instr) (c : Change) : Prop := exec i' s = .next { s with pkgs := s.pkgs.set i { p with changes := p.changes ++ [c] } }
    (s.holder i = none → (∀ c ∈ p.changes, mine c = false) →
      changed (.map i stack index entry) 0x05 mapped p.changes ∧ changed (.invalidate i stack index) 0x06 cleared p.changes) ∧
    ((s.holder i ≠ none ∨ ∃ c ∈ p.changes, mine c = true) →
      waits (.map i stack index entry) ⟨stack, index, entry, false, line⟩ ∧ waits (.invalidate i stack index) ⟨stack, index, 0, true, line⟩) ∧
    (∀ c, p.changes.find? mine = some c →
      (s.holder i = none ∨ ∃ f l, s.holder i = some f ∧ f.phase ≠ .restoring ∧ f.stop = none ∧ c.line = some l ∧ f.start + l = s.folioNow f) →
      changed (.translationChange i stack index) (if c.invalidate then 0x06 else 0x05) (if c.invalidate then cleared else c.entry &&& ~~~0x1FFFFE0)
        (p.changes.erase c)) ∧
    (∀ c f, p.changes.find? mine = some c → s.holder i = some f →
      (f.phase = .restoring ∨ f.stop ≠ none ∨ ∀ l, c.line = some l → f.start + l ≠ s.folioNow f) →
      exec (.translationChange i stack index) s = .next s) ∧
    exec (.readEntry i stack index) s = .next { s with pkgs := s.pkgs.set i { p with
      responses := p.responses ++ [⟨0x08, 0, (List.range 8).map fun b => (Cells.get p.trans key).extractLsb' (8 * b) 8⟩] } }

/-- R290, R291, R299, R307, R319, R326, R328: the host's queue. A record that no check rejects takes the next identifier and the end
of its queue, and one that is rejected returns its reason; Pre-empt waits on the folio named, and the first fixes its line,
or completes at once where the folio has ended; Drain takes the page requests and the trap log; records are delivered
oldest first, as their bytes; a corrected error is counted. Bind gives a host-held seal a region that overlaps no other
seal's; Acquire takes an open seal, or waits until it is open; Release puts the host's last writes in place and opens a seal
that the host holds; what the host may not do is refused. The model's choice: the refusals' reason 1 (log 37), the bytes of
the trap log (log 20), the answers of Pre-empt (log 50), Drain's drop count and what it shows beyond 32 bits (logs 60, 92), an
Acquire of a host-held seal that waits (log 65), which host writes stay open (log 93), that bit 2 of a posted record's flags
plays no part (log 118), which fields a check takes as reserved (logs 102, 134), the places at which corrected errors are counted
(log 139), and that Bind compares regions as the VA ranges its parameters name (log 154). -/
def Obligations.HostQueueAndSeals : Prop :=
  (∀ (s : State) (i : Nat) (p : Package) (r : BitVec 2048) (n : Nat) (va : DWord) (site : ErrSite),
     s.pkgs[i]? = some p → p.powered = true → p.boot = .ready →
     let becomes (i' : Instr) (q : Package) : Prop := exec i' s = .next { s with pkgs := s.pkgs.set i q }
     let why := s.reject i r (64 ≤ (p.queue.filter fun w => w.host && w.prio == recPrio r).length)
     let asked : Package := { p with asks := p.asks ++ [(n, va, p.scc)] }
     (why = 0 → becomes (.post i r) { p with
       lastId := p.lastId + 1
       queue := p.queue ++ [⟨p.lastId + 1, r, true, recPrio r, 0, 0, 0⟩]
       responses := p.responses ++ [⟨0x01, 0, leBytes (p.lastId + 1) 8⟩] }) ∧
     (why ≠ 0 → becomes (.post i r) { p with responses := p.responses ++ [⟨0x01, why, []⟩] }) ∧
     (s.notEnded i p.queue n = false → becomes (.preEmpt i n va) { p with responses := p.responses ++ [⟨0x07, 0, [0]⟩] }) ∧
     (s.notEnded i p.queue n = true → (∀ f, s.folio? (i * 2 ^ 64 + n) = some f → f.preempt ≠ none) → becomes (.preEmpt i n va) asked) ∧
     (∀ f, s.folio? (i * 2 ^ 64 + n) = some f → f.owner = i → n < 2 ^ 64 → f.preempt = none → (∀ a ∈ p.asks, a.1 ≠ n) →
       exec (.preEmpt i n va) s = .next { s with
         pkgs := s.pkgs.set i asked
         folios := s.folios.map fun g => if g.id = f.id then { g with preempt := some (va, s.lineAhead f p.scc) } else g }) ∧
     becomes (.drain i) { p with
       requests := [], trapLog := []
       responses := p.responses ++ [⟨0x09, 0, leBytes p.requests.length 4 ++ p.requests.flatMap (fun r => leBytes r.toNat 4) ++
         leBytes (if p.mdrop < 2 ^ 32 then p.mdrop else Config.counterBeyond 32 p.mdrop % 2 ^ 32) 4 ++ p.trapLog.flatMap TrapReport.bytes⟩] } ∧
     (∀ x xs, p.records = x :: xs → becomes (.recordDelivery i) { p with records := xs, delivered := p.delivered ++ [x.bytes] }) ∧
     (∃ xs, becomes (.correctedError i site) { p with mcorr := p.mcorr + 1, corrected := xs } ∧
       (xs.find? fun x => x.1 == site) = some (site, ((p.corrected.find? fun x => x.1 == site).map (·.2)).getD 0 + 1) ∧
       ∀ x, x.1 ≠ site → (x ∈ xs ↔ x ∈ p.corrected))) ∧
  (∀ (s : State) (i : Nat) (p : Package) (k : Fin 64) (cellar : Bool) (base len : Nat),
     s.pkgs[i]? = some p → p.powered = true → p.boot = .ready →
     let becomes (i' : Instr) (q : Package) : Prop := exec i' s = .next { s with pkgs := s.pkgs.set i q }
     let answer (c r : Nat) : List Response := p.responses ++ [⟨c, r, []⟩]
     let clash : Prop := ∃ j r x, j ≠ k ∧ p.seals[j].region = some r ∧ r.cellar = cellar ∧ r.base ≤ x ∧ x < r.base + r.len ∧
       base ≤ x ∧ x < base + len
     (p.seals[k].st = .host → ¬ clash → becomes (.bind i k cellar base len) { p with
       seals := p.seals.set k { p.seals[k] with region := some ⟨cellar, base, len⟩, held := [], stray := none }
       responses := answer 0x02 0 }) ∧
     (p.seals[k].st ≠ .host ∨ clash → becomes (.bind i k cellar base len) { p with responses := answer 0x02 1 }) ∧
     (p.seals[k].st = .opened → becomes (.acquire i k) { p with
       seals := p.seals.set k { p.seals[k] with st := .host, held := [] }, responses := answer 0x03 0 }) ∧
     (p.seals[k].st ≠ .opened → becomes (.acquire i k) { p with acquires := p.acquires ++ [k] }) ∧
     (p.seals[k].st = .opened → k ∈ p.acquires → becomes (.acquireComplete i k) { p with
       acquires := p.acquires.erase k, seals := p.seals.set k { p.seals[k] with st := .host, held := [] }, responses := answer 0x03 0 }) ∧
     (p.seals[k].st = .host →
       ∃ t q, exec (.release i k) s = .next t ∧ t.pkgs[i]? = some q ∧ q.seals[k] = { p.seals[k] with st := .opened, held := [], stray := none } ∧
         q.responses = answer 0x04 0 ∧
         (∀ w, w ∈ q.openWrites ↔ w ∈ p.openWrites ∧ ∀ r, p.seals[k].region = some r →
           p.holdsByte r w.cellar w.stack w.addr w.va = false) ∧
         (∀ w r, p.memOk = true → p.openWrites = [w] → p.seals[k].region = some r → r.contains w.cellar w.va = true → w.covered = false →
           q.inPlace w.cellar w.stack w.addr = w.val) ∧
         (p.openWrites = [] → becomes (.release i k) { p with
           seals := p.seals.set k { p.seals[k] with st := .opened, held := [], stray := none }, responses := answer 0x04 0 })) ∧
     (p.seals[k].st ≠ .host → becomes (.release i k) { p with responses := answer 0x04 1 }))

/-- R316, R331, R366, R367, R390, R396, R397: the host's registers and its accesses to HBM and the cellar. Each assigned register
reads its value and every other number is refused; only mpcap is written, from 1,000 to 4,500. A host write of one byte to a
resident page, or to the cellar, stays open for the folios bound then, and is in place at once where no folio is bound, no
seal's region holds the byte and no other host write to it is open (R335); a read returns a value that the byte may show: the
host's own last write, or what is in place, or, of a region whose seal it does not hold, a value that the byte has held, or,
of one that it holds, also what a write after the folio's release has changed, while what a replay lands anew leaves its view
as it was at the release (R330); a page that is not resident reads as
zero and drops writes. The model's choice: reason 1 for refusals (log 37), a read's answer as command 0 (log 56), a
non-resident page (log 78), counters beyond their width (log 92), which writes stay open (log 93), reads in stage 3 (log 95), a
page whose entry is not writable, which drops the write and sets no accessed bit (log 104), and late writes (log 107). -/
def Obligations.HostAccesses : Prop :=
  (∀ (s : State) (i : Nat) (p : Package), s.pkgs[i]? = some p → p.powered = true → (p.boot = .awaiting ∨ p.boot = .verifying) →
    exec (.readRegister i 0) s = .next { s with pkgs := s.pkgs.set i { p with
      responses := p.responses ++ [⟨0x20, 0, leBytes ((if p.boot = .awaiting then 2 else 3) + 16 * p.reason) 8⟩] } }) ∧
  ∀ (s : State) (i : Nat) (p : Package) (n : Nat) (x va : DWord) (b : Byte),
    s.pkgs[i]? = some p → p.powered = true → p.boot = .ready → p.memOk = true →
    let becomes (i' : Instr) (q : Package) : Prop := exec i' s = .next { s with pkgs := s.pkgs.set i q }
    let reads (n v : Nat) : Prop := becomes (.readRegister i n) { p with responses := p.responses ++ [⟨0x20, 0, leBytes v 8⟩] }
    let bound := (s.folios.filter fun f => f.boundOn i).map (·.id)
    let sees (cellar : Bool) (stack addr : Nat) : Prop :=
      ∃ t q y, exec (.hostAccess i ⟨cellar, va⟩ 1 none) s = .next t ∧ t.pkgs[i]? = some q ∧ y ∈ p.hostSees cellar va.toNat stack addr ∧
        q = { p with trans := q.trans, responses := p.responses ++ [⟨0, 0, [y]⟩] }
    reads 0x000 (5 + 16 * p.reason) ∧ reads 0x001 p.fenced.toNat ∧ reads 0x002 p.harvest ∧ reads 0x003 p.svn ∧ reads 0x004 p.formation ∧
    reads 0x010 p.mpcap ∧ reads 0x011 p.mpower ∧
    (∀ d : Fin 4, ∃ h, reads (0x012 + d.val) h ∧ (∀ k : Fin 16, p.sensors[d][k].toNat ≤ h) ∧ ∃ k : Fin 16, p.sensors[d][k].toNat = h) ∧
    reads 0x020 (if p.mcorr < 2 ^ 64 then p.mcorr else Config.counterBeyond 64 p.mcorr % 2 ^ 64) ∧
    reads 0x021 (if p.mdrop < 2 ^ 32 then p.mdrop else Config.counterBeyond 32 p.mdrop % 2 ^ 32) ∧
    ((4 < n ∧ n < 0x010 ∨ 0x015 < n ∧ n < 0x020 ∨ 0x021 < n) →
      becomes (.readRegister i n) { p with responses := p.responses ++ [⟨0x20, 1, []⟩] }) ∧
    (1000 ≤ x.toNat → x.toNat ≤ 4500 → becomes (.writeRegister i 0x010 x) { p with
      mpcap := x.toNat, restWanted := decide (x.toNat < p.mpower ∨ ∃ (d : Fin 4) (k : Fin 16), 800 < p.sensors[d][k].toNat)
      responses := p.responses ++ [⟨0x21, 0, []⟩] }) ∧
    ((n ≠ 0x010 ∨ x.toNat < 1000 ∨ 4500 < x.toNat) → becomes (.writeRegister i n x) { p with responses := p.responses ++ [⟨0x21, 1, []⟩] }) ∧
    (p.translate va.toNat true = none → exec (.hostAccess i ⟨false, va⟩ 1 (some [b])) s = .next s) ∧
    (p.translate va.toNat false = none → becomes (.hostAccess i ⟨false, va⟩ 1 none) { p with responses := p.responses ++ [⟨0, 0, [0]⟩] }) ∧
    -- the byte of package `q` is in place at once, or open
    let put (q : Package) (cellar : Bool) (stack addr : Nat) : Prop :=
      let settled : Prop := bound = [] ∧ (∀ (k : Fin 64) (r : Region), q.seals[k].region = some r → q.holdsByte r cellar stack addr va.toNat = false) ∧
        ∀ w ∈ q.openWrites, w.on cellar stack addr = false
      let i' : Instr := .hostAccess i ⟨cellar, va⟩ 1 (some [b])
      (¬ settled → becomes i' { q with openWrites := q.openWrites ++ [⟨cellar, stack, addr, va.toNat, b, false, bound⟩] }) ∧
      (settled → ∃ q', becomes i' q' ∧ q' = { q with hbm := q'.hbm, cellar := q'.cellar } ∧ q'.inPlace cellar stack addr = b ∧
        ∀ c' n' a', n' < 8 → (if cellar then (c' = true → a' ≠ addr) else (c', n', a') ≠ (false, stack, addr)) →
          q'.inPlace c' n' a' = q.inPlace c' n' a')
    (∀ key stack addr, p.translate va.toNat true = some (key, stack, addr) →
      put { p with trans := Cells.set p.trans key (Cells.get p.trans key ||| 12) } false stack addr) ∧
    put p true 0 va.toNat ∧
    (∀ key stack addr, p.translate va.toNat false = some (key, stack, addr) → sees false stack addr) ∧
    sees true 0 va.toNat ∧
    (p.openWrites = [] → (∀ k : Fin 64, p.seals[k].held = [] ∧ p.seals[k].stray = none) → ∀ cellar stack addr,
      p.hostSees cellar va.toNat stack addr = [p.inPlace cellar stack addr]) ∧
    (∀ (k : Fin 64) (r : Region) (y : Stray) (cellar : Bool) (stack addr : Nat), p.openWrites = [] → p.seals[k].region = some r →
      r.contains cellar va.toNat = true → (∀ n : Fin 64, n ≠ k → p.seals[n].region = none) → p.seals[k].st = .host →
      p.seals[k].stray = some y →
      let place := if cellar then addr else stack * 2 ^ 36 + addr
      let shown := match y.kept.find? (fun x => x.1 == place) with | some x => x.2 | none => p.inPlace cellar stack addr
      p.hostSees cellar va.toNat stack addr = shown :: (y.held.filter fun h => h.place == place).map (·.val) ∧
      -- what a replay lands anew leaves the host's view as it was at the release
      (p.scc ≤ y.upto → ∀ w, (w = .device y.folio ∨ ∃ n, w = .transfer y.folio n) → stack < 8 →
        (p.put cellar stack addr va.toNat b w).hostSees cellar va.toNat stack addr = p.hostSees cellar va.toNat stack addr) ∧
      -- any other device write leaves the byte and the digest open
      (∀ w, w ≠ .host → (y.upto < p.scc ∨ w ≠ .device y.folio ∧ ∀ n, w ≠ .transfer y.folio n) → stack < 8 → b ≠ p.inPlace cellar stack addr →
        let q := p.put cellar stack addr va.toNat b w
        b ∈ q.hostSees cellar va.toNat stack addr ∧ y.folio ∈ q.seals[k].spoilt ∧
          ((∀ h ∈ y.held, h.place ≠ place) → shown ∈ q.hostSees cellar va.toNat stack addr))) ∧
    (∀ w, p.openWrites = [w] → w.covered = false → (∀ k : Fin 64, p.seals[k].st = .host) →
      p.hostSees w.cellar va.toNat w.stack w.addr = [w.val]) ∧
    (∀ (k : Fin 64) (r : Region) (cellar : Bool) (stack addr : Nat), p.seals[k].region = some r → r.contains cellar va.toNat = true →
      (∀ n : Fin 64, n ≠ k → p.seals[n].region = none) → p.seals[k].st ≠ .host →
      let place := if cellar then addr else stack * 2 ^ 36 + addr
      let had := (p.seals[k].held.filter fun h => h.place == place).map (·.val)
      p.hostSees cellar va.toNat stack addr = if had = [] then [p.inPlace cellar stack addr] else had)

/-- R337, R338, R341: groups. Formation, when no check fails, gives every member the list of members, its place in it, the largest
tick and the largest scc of them, the formation number that follows the largest of them, and phase 0 (log 97, the model's
choice); rests agreed and holds are gone (log 80); a check that fails returns its reason (which links fail to train, and
which sideband tree is taken, are logs 87 and 88). Dissolve completes at once where no timed folio of the group runs, and waits
where one does; its completion makes every member a group of one, and answers every Dissolve that has waited, as a Form does that
comes first (log 127); asked of a package that is not package 0 it does nothing (log 63). Read table returns the table of the formation in
force, and refuses another number with reason 1 (log 37). -/
def Obligations.Groups : Prop :=
  ∀ (s : State) (i : Nat) (p : Package) (ms : List Nat) (links : List LinkSpec) (step0 formation : DWord),
    s.pkgs[i]? = some p → p.powered = true → p.boot = .ready →
    (ms.head? = some i → ms.Nodup → (∀ q ∈ ms, s.canJoin q = true) → s.formReason ms links = 0 →
      ∃ t n, exec (.form i ms links step0) s = .next t ∧
        (∀ q ∈ ms, ∀ k : Package, s.pkgs[q]? = some k → k.formation < n) ∧
        (∃ q ∈ ms, ∃ k : Package, s.pkgs[q]? = some k ∧ k.formation + 1 = n) ∧
        (∀ k q : Nat, ms[k]? = some q → ∃ x : Package, t.pkgs[q]? = some x ∧ x.group = ms ∧ x.num = k ∧ x.formation = n ∧ x.links = links ∧ x.step = step0 ∧
          x.phi = 0 ∧ x.rests = [] ∧ x.holds = [] ∧ (∀ q' ∈ ms, ∀ y : Package, s.pkgs[q']? = some y → y.tick ≤ x.tick ∧ y.scc ≤ x.scc) ∧
          (∃ q' ∈ ms, ∃ y : Package, s.pkgs[q']? = some y ∧ y.tick = x.tick) ∧ (∃ q' ∈ ms, ∃ y : Package, s.pkgs[q']? = some y ∧ y.scc = x.scc) ∧
          (∀ y : Package, t.pkgs[i]? = some y → x.tick = y.tick ∧ x.scc = y.scc)) ∧
        (∀ q : Nat, q ∉ ms → t.pkgs[q]? = s.pkgs[q]?) ∧
        ∃ x : Package, t.pkgs[i]? = some x ∧
          x.responses = p.responses ++ List.replicate p.dissolving ⟨0x11, 0, []⟩ ++ [⟨0x10, 0, leBytes n 8⟩]) ∧
    (ms.head? = some i → ms.Nodup → (∀ q ∈ ms, s.canJoin q = true) → s.formReason ms links ≠ 0 →
      exec (.form i ms links step0) s = .next { s with pkgs := s.pkgs.set i { p with
        responses := p.responses ++ [⟨0x10, s.formReason ms links, []⟩] } }) ∧
    let busy : Prop := ∃ f ∈ s.folios, recTimed f.record = true ∧ ∃ q ∈ s.members i, f.boundOn q = true
    let dissolved (i' : Instr) (n : Nat) : Prop := ∃ t, exec i' s = .next t ∧
      (∀ q ∈ s.members i, ∃ x : Package, t.pkgs[q]? = some x ∧ x.group = [q] ∧ x.num = 0 ∧ x.links = []) ∧
      (∀ q : Nat, q ∉ s.members i → t.pkgs[q]? = s.pkgs[q]?) ∧
      ∃ x : Package, t.pkgs[i]? = some x ∧ x.dissolving = 0 ∧ x.responses = p.responses ++ List.replicate n ⟨0x11, 0, []⟩
    (p.num = 0 → busy → exec (.dissolve i) s = .next { s with pkgs := s.pkgs.set i { p with dissolving := p.dissolving + 1 } }) ∧
    (p.num = 0 → ¬ busy → i ∈ s.members i → dissolved (.dissolve i) (p.dissolving + 1)) ∧
    (p.num ≠ 0 → p.dissolving = 0 → exec (.dissolve i) s = .next s) ∧
    (0 < p.dissolving → i ∈ s.members i → dissolved (.dissolveComplete i) p.dissolving) ∧
    (formation.toNat = p.formation → exec (.readTable i formation) s =
      .next { s with pkgs := s.pkgs.set i { p with responses := p.responses ++ [⟨0x12, 0, p.table⟩] } }) ∧
    (formation.toNat ≠ p.formation → exec (.readTable i formation) s =
      .next { s with pkgs := s.pkgs.set i { p with responses := p.responses ++ [⟨0x12, 1, []⟩] } })

/-- R391 to R393: Fence waits for a round in which nothing is bound on the die, and is refused for the last working die; its effect
sets the fence bit, empties the die's stacks, and takes the package from a group of several;
queued folios that it leaves without a binding leave with a record of cause 7; Unfence clears the bit and the die's
translation entries and gives the die the firmware in force. The model's choice: reason 1 for the last die, and a Fence of a
fenced die and an Unfence that complete at once (log 58); stacks that read as 0 (log 61); contexts that stay known by bytes that may
lie elsewhere (log 9); that the working units alone say
whether a queued folio can still be bound (log 62). -/
def Obligations.Fences : Prop :=
  ∀ (s : State) (i : Nat) (p : Package) (d : Fin 4), s.pkgs[i]? = some p → p.powered = true → p.boot = .ready →
    let becomes (i' : Instr) (q : Package) : Prop := exec i' s = .next { s with pkgs := s.pkgs.set i q }
    (p.fenced.getLsbD d.val = false → (∃ x ∈ p.dies, x ≠ d ∧ x ∉ p.fencing) → becomes (.fence i d) { p with fencing := p.fencing ++ [d] }) ∧
    (p.fenced.getLsbD d.val = false → (∀ x ∈ p.dies, x = d ∨ x ∈ p.fencing) →
      becomes (.fence i d) { p with responses := p.responses ++ [⟨0x22, 1, []⟩] }) ∧
    (p.fenced.getLsbD d.val = true → becomes (.fence i d) { p with responses := p.responses ++ [⟨0x22, 0, []⟩] }) ∧
    (d ∈ p.fencing → s.dieInUse i d.val = false →
      ∃ t q, exec (.fenceEffect i d) s = .next t ∧ t.pkgs[i]? = some q ∧ q.fenced.getLsbD d.val = true ∧
        (∀ e : Fin 4, e ≠ d → q.fenced.getLsbD e.val = p.fenced.getLsbD e.val) ∧
        (∀ k : Fin 8, q.hbm[k] = if k.val / 2 = d.val then [] else p.hbm[k]) ∧ d ∉ q.fencing ∧ q.cellar = p.cellar ∧
        q.left = (p.left || decide (1 < p.group.length)) ∧ ⟨0x22, 0, []⟩ ∈ q.responses ∧
        t.core = s.core ∧ t.others = s.others ∧ t.folios = s.folios ∧ t.jobs = s.jobs ∧
        t.contexts = s.contexts ∧
        ∀ n ∈ p.group, ∀ k, s.pkgs[n]? = some k → ∃ k', t.pkgs[n]? = some k' ∧ (∀ w ∈ k'.queue, w ∈ k.queue ∧ t.fits n w.record = true) ∧
          (∀ w ∈ k.queue, t.fits n w.record = false → ∃ r ∈ k'.records, r.id = w.id ∧ r.cause = 7)) ∧
    ((d ∉ p.fencing ∨ s.dieInUse i d.val = true) → exec (.fenceEffect i d) s = .next s) ∧
    (p.fenced.getLsbD d.val = true → Cells.wf p.trans = true →
      ∃ q, becomes (.unfence i d) q ∧ q.fenced.getLsbD d.val = false ∧
        (∀ e : Fin 4, e ≠ d → q.fenced.getLsbD e.val = p.fenced.getLsbD e.val) ∧
        (∀ a, Cells.get q.trans a = if a / 65536 = d.val then 0 else Cells.get p.trans a) ∧
        (∀ f, p.inForce = some f → q.firmware = p.firmware.set d (some f)) ∧
        q.hbm = p.hbm ∧ q.responses = p.responses ++ [⟨0x23, 0, []⟩]) ∧
    (p.fenced.getLsbD d.val = false → becomes (.unfence i d) { p with responses := p.responses ++ [⟨0x23, 0, []⟩] })

/-! ### Time, reset and the invariants (R16 to R19, R72, R148, R149, R172, R200, R210, R356) -/

/-- R16 to R19, R356 to R358: a tick advances the tick of every powered package, and its scc unless a rest or a hold is in force; on
the tick after a rest the scc waits for the end of a hold that began before; a package without power stands still; with no
power anywhere no clock runs (the fault is the model's). -/
def Obligations.TickAdvances : Prop :=
  (∀ s : State, (∀ p ∈ s.pkgs, p.powered = false) → exec .tick s = .fault .unpowered) ∧
  (∀ s : State, (∃ p ∈ s.pkgs, p.powered = true) → ∃ t, exec .tick s = .next t ∧ t.pkgs.length = s.pkgs.length ∧
    ∀ (i : Nat) (p : Package), s.pkgs[i]? = some p →
      let held : Prop := ∃ h ∈ p.holds, h.from_ ≤ p.tick ∧ ∀ u, h.until_ = some u → p.tick + 1 < u
      ∃ q : Package, t.pkgs[i]? = some q ∧ q.tick = p.tick + (if p.powered then 1 else 0) ∧
        (p.powered = true → p.restLeft = 0 → p.stalled = false → q.scc = p.scc + 1) ∧
        (p.powered = true → 1 < p.restLeft → q.scc = p.scc ∧ q.stalled = true ∧ q.restLeft = p.restLeft - 1) ∧
        (p.powered = true → p.restLeft = 1 → held → q.scc = p.scc ∧ q.stalled = true ∧ q.restLeft = 1) ∧
        (p.powered = true → p.restLeft = 1 → ¬ held → q.scc = p.scc + 1 ∧ q.stalled = false) ∧
        (p.powered = true → p.restLeft = 0 → p.stalled = true → q.scc = p.scc) ∧
        (p.powered = false → q.scc = p.scc))

/-- R16, R329, R381: right after power is applied: stage 0, tick 0, every seal held by the host, nothing dispatched, in
flight or waiting. That the scc is 0 then is the model's choice (log 17). -/
def Obligations.ResetState : Prop :=
  ∃ p, State.reset.pkgs = [p] ∧ p.powered = true ∧ p.boot = .rails ∧ p.tick = 0 ∧ p.scc = 0 ∧ p.lastId = 0 ∧ p.queue = [] ∧
    p.fenced = 0 ∧ p.mpcap = 4500 ∧ (∀ k : Fin 64, p.seals[k].st = .host) ∧ State.reset.folios = [] ∧ State.reset.jobs = [] ∧
    State.reset.others = [] ∧ State.reset.inputs = [] ∧ State.reset.due = []

/-- The invariants hold right after reset. -/
def Obligations.ResetMeetsInvariants : Prop := State.reset.memOk = true ∧ State.reset.legal = true

/-- R149, R210, R315: every step keeps the canonical form of every memory, and no scratchpad ever lists a byte beyond its size. -/
def Obligations.MemoriesStayCanonical : Prop :=
  ∀ s t : State, s.memOk = true → step s = .next t → t.memOk = true

/-- R70 to R72, R172, R189, R200, R217: every step keeps the control registers of every core legal: no reserved code in a mode
register, no threshold above 0x8000, vl at most 4,096, and at most four loops and four arms open. -/
def Obligations.ControlRegistersStayLegal : Prop :=
  ∀ s t : State, s.legal = true → step s = .next t → t.legal = true

end
end

