-- ==== Sys2Proof/Laws/Memory.lean ====
section
/-! SUPPORT. The laws of sparse memories: a read after a write, the canonical form kept, and scratchpad accesses. -/

namespace Sys2Proof.Machine

/-! ### Cells -/

/-- Below the lowest listed address everything reads as 0. -/
theorem Cells.get_below {w : Nat} {lo a : Nat} {l : List (Nat × BitVec w)} (h : Cells.wfFrom lo l = true) (ha : a < lo) :
    Cells.get l a = 0 := by
  cases l with
  | nil => rfl
  | cons x r =>
    obtain ⟨k, v⟩ := x
    simp only [Cells.wfFrom, Bool.and_eq_true, decide_eq_true_eq] at h
    simp only [Cells.get]
    rw [if_neg (by omega), if_pos (by omega)]

/-- A form that starts higher is a form that starts lower. -/
theorem Cells.wfFrom_mono {w : Nat} {lo lo' : Nat} {l : List (Nat × BitVec w)} (h : Cells.wfFrom lo l = true) (hl : lo' ≤ lo) :
    Cells.wfFrom lo' l = true := by
  cases l with
  | nil => rfl
  | cons x r =>
    obtain ⟨k, v⟩ := x
    simp only [Cells.wfFrom, Bool.and_eq_true, decide_eq_true_eq] at h ⊢
    exact ⟨⟨by omega, h.1.2⟩, h.2⟩

/-- A write keeps the form. -/
theorem Cells.wfFrom_set {w : Nat} {lo a : Nat} {v : BitVec w} {l : List (Nat × BitVec w)} (h : Cells.wfFrom lo l = true)
    (ha : lo ≤ a) : Cells.wfFrom lo (Cells.set l a v) = true := by
  induction l generalizing lo with
  | nil =>
    simp only [Cells.set]
    split
    · rfl
    · rename_i hv
      simp only [Cells.wfFrom, Bool.and_eq_true, decide_eq_true_eq]
      exact ⟨⟨ha, hv⟩, trivial⟩
  | cons x r ih =>
    obtain ⟨k, u⟩ := x
    simp only [Cells.wfFrom, Bool.and_eq_true, decide_eq_true_eq] at h
    obtain ⟨⟨hk, hu⟩, hr⟩ := h
    simp only [Cells.set]
    split
    · split
      · simp only [Cells.wfFrom, Bool.and_eq_true, decide_eq_true_eq]
        exact ⟨⟨hk, hu⟩, hr⟩
      · rename_i hlt hv
        simp only [Cells.wfFrom, Bool.and_eq_true, decide_eq_true_eq]
        exact ⟨⟨ha, hv⟩, ⟨by omega, hu⟩, hr⟩
    · split
      · split
        · exact Cells.wfFrom_mono hr (by omega)
        · rename_i hv
          simp only [Cells.wfFrom, Bool.and_eq_true, decide_eq_true_eq]
          rename_i h1 h2
          subst h2
          exact ⟨⟨ha, hv⟩, hr⟩
      · simp only [Cells.wfFrom, Bool.and_eq_true, decide_eq_true_eq]
        exact ⟨⟨hk, hu⟩, ih hr (by omega)⟩

/-- A write keeps the canonical form. -/
theorem Cells.wf_set {w : Nat} {l : List (Nat × BitVec w)} (h : Cells.wf l = true) (a : Nat) (v : BitVec w) :
    Cells.wf (Cells.set l a v) = true := Cells.wfFrom_set h (Nat.zero_le a)

theorem Cells.get_set_from {w : Nat} {lo : Nat} {l : List (Nat × BitVec w)} (h : Cells.wfFrom lo l = true) (a b : Nat)
    (v : BitVec w) : Cells.get (Cells.set l a v) b = if b = a then v else Cells.get l b := by
  induction l generalizing lo with
  | nil =>
    simp only [Cells.set]
    split
    · rename_i hv
      by_cases hb : b = a <;> simp [Cells.get, hv]
    · by_cases hb : b = a <;> simp [Cells.get, hb]
  | cons x r ih =>
    obtain ⟨k, u⟩ := x
    simp only [Cells.wfFrom, Bool.and_eq_true, decide_eq_true_eq] at h
    obtain ⟨⟨hk, hu⟩, hr⟩ := h
    have hlow : ∀ c, c < k + 1 → Cells.get r c = 0 := fun c hc => Cells.get_below hr hc
    simp only [Cells.set]
    split
    · rename_i hak
      split
      · rename_i hv
        by_cases hb : b = a
        · subst hb hv; simp [Cells.get, hak, Nat.ne_of_lt hak]
        · simp [hb]
      · by_cases hb : b = a
        · simp [Cells.get, hb]
        · simp only [Cells.get, if_neg hb]
          by_cases hba : b < a
          · rw [if_pos hba, if_neg (by omega), if_pos (by omega)]
          · rw [if_neg hba]
    · split
      · rename_i hka
        subst hka
        split
        · rename_i hv
          by_cases hb : b = a
          · subst hb; simp [hlow b (by omega), hv]
          · simp only [Cells.get, if_neg hb]
            by_cases hba : b < a
            · rw [if_pos hba, hlow b (by omega)]
            · rw [if_neg hba]
        · by_cases hb : b = a
          · simp [Cells.get, hb]
          · simp [Cells.get, hb]
      · rename_i h1 h2
        simp only [Cells.get]
        by_cases hb : b = k
        · have : b ≠ a := by omega
          simp [hb, show k ≠ a by omega]
        · rw [if_neg hb, if_neg hb, ih hr]
          by_cases hbk : b < k
          · rw [if_pos hbk, if_pos hbk, if_neg (by omega)]
          · rw [if_neg hbk, if_neg hbk]

/-- A read after a write: the value written there, and elsewhere what stood before. -/
theorem Cells.get_set {w : Nat} {l : List (Nat × BitVec w)} (h : Cells.wf l = true) (a b : Nat) (v : BitVec w) :
    Cells.get (Cells.set l a v) b = if b = a then v else Cells.get l b := Cells.get_set_from h a b v

/-- What a form lists is what it reads. -/
theorem Cells.get_mem {w : Nat} {lo k : Nat} {v : BitVec w} {l : List (Nat × BitVec w)} (h : Cells.wfFrom lo l = true)
    (hm : (k, v) ∈ l) : Cells.get l k = v := by
  induction l generalizing lo with
  | nil => cases hm
  | cons x r ih =>
    obtain ⟨j, u⟩ := x
    simp only [Cells.wfFrom, Bool.and_eq_true, decide_eq_true_eq] at h
    rcases List.mem_cons.1 hm with he | hr
    · cases he; simp [Cells.get]
    · have hk : j < k := by
        have hall : ∀ (lo : Nat) (l : List (Nat × BitVec w)), Cells.wfFrom lo l = true → ∀ y ∈ l, lo ≤ y.1 := by
          intro lo l
          induction l generalizing lo with
          | nil => intro _ y hy; cases hy
          | cons z l ihl =>
            intro hz y hy
            obtain ⟨z1, z2⟩ := z
            simp only [Cells.wfFrom, Bool.and_eq_true, decide_eq_true_eq] at hz
            rcases List.mem_cons.1 hy with e | e
            · subst e; exact hz.1.1
            · have := ihl (z1 + 1) hz.2 y e; omega
        have := hall (j + 1) r h.2 (k, v) hr
        simp only at this; omega
      simp only [Cells.get]
      rw [if_neg (by omega), if_neg (by omega)]
      exact ih h.2 hr

/-- Taking listed entries out keeps the form. -/
theorem Cells.wfFrom_filter {w : Nat} {lo : Nat} {l : List (Nat × BitVec w)} (h : Cells.wfFrom lo l = true)
    (p : Nat × BitVec w → Bool) : Cells.wfFrom lo (l.filter p) = true := by
  induction l generalizing lo with
  | nil => rfl
  | cons x r ih =>
    obtain ⟨k, u⟩ := x
    simp only [Cells.wfFrom, Bool.and_eq_true, decide_eq_true_eq] at h
    by_cases hp : p (k, u) = true
    · simp only [List.filter_cons, hp, if_true, Cells.wfFrom, Bool.and_eq_true, decide_eq_true_eq]
      exact ⟨h.1, ih h.2⟩
    · simp only [List.filter_cons, hp]
      exact Cells.wfFrom_mono (ih h.2) (by omega)

theorem Cells.wf_filter {w : Nat} {l : List (Nat × BitVec w)} (h : Cells.wf l = true) (p : Nat × BitVec w → Bool) :
    Cells.wf (l.filter p) = true := Cells.wfFrom_filter h p

@[simp] theorem Cells.wf_nil {w : Nat} : Cells.wf ([] : List (Nat × BitVec w)) = true := rfl

/-- A write lists no new address but its own. -/
theorem Cells.mem_set {w : Nat} {l : List (Nat × BitVec w)} {a : Nat} {v : BitVec w} {x : Nat × BitVec w}
    (h : x ∈ Cells.set l a v) : x.1 = a ∨ x ∈ l := by
  induction l with
  | nil =>
    simp only [Cells.set] at h
    split at h
    · cases h
    · simp only [List.mem_singleton] at h; exact .inl (by rw [h])
  | cons y r ih =>
    obtain ⟨k, u⟩ := y
    simp only [Cells.set] at h
    split at h
    · split at h
      · exact .inr h
      · rcases List.mem_cons.1 h with e | e
        · exact .inl (by rw [e])
        · exact .inr e
    · split at h
      · split at h
        · exact .inr (List.mem_cons_of_mem _ h)
        · rcases List.mem_cons.1 h with e | e
          · exact .inl (by rw [e])
          · exact .inr (List.mem_cons_of_mem _ e)
      · rcases List.mem_cons.1 h with e | e
        · exact .inr (by rw [e]; exact List.mem_cons_self ..)
        · rcases ih e with e' | e'
          · exact .inl e'
          · exact .inr (List.mem_cons_of_mem _ e')

/-- Writes of several entries keep the form. -/
theorem Cells.wf_foldl_set {w : Nat} {α : Type} (f : α → Nat) (g : α → BitVec w) (xs : List α) {l : List (Nat × BitVec w)}
    (h : Cells.wf l = true) : Cells.wf (xs.foldl (fun m x => Cells.set m (f x) (g x)) l) = true := by
  induction xs generalizing l with
  | nil => exact h
  | cons x xs ih => exact ih (Cells.wf_set h _ _)

/-! ### Scratchpads -/

theorem spadWrite_ok {m : Memory} (h : spadOk m = true) (a : Nat) (b : Byte) : spadOk (spadWrite m a b) = true := by
  unfold spadWrite
  split
  · rename_i ha
    simp only [spadOk, Bool.and_eq_true, List.all_eq_true, decide_eq_true_eq] at h ⊢
    refine ⟨Cells.wf_set h.1 a b, fun x hx => ?_⟩
    rcases Cells.mem_set hx with e | e
    · rw [e]; exact ha
    · exact h.2 x e
  · exact h

/-- Stores keep a scratchpad's form. -/
theorem spadStore_ok {m : Memory} (h : spadOk m = true) (a : Nat) (bs : List Byte) : spadOk (spadStore m a bs) = true := by
  induction bs generalizing m a with
  | nil => exact h
  | cons b bs ih => exact ih (spadWrite_ok h _ b) (a + 1)

/-- A byte after a one-byte write (R149, R213): out of range nothing is written and zero is read. -/
theorem spadRead_spadWrite {m : Memory} (h : Memory.wf m = true) (a x : Nat) (b : Byte) :
    spadRead (spadWrite m a b) x = if x = a ∧ a < spadSize then b else spadRead m x := by
  unfold spadRead spadWrite
  by_cases ha : a < spadSize
  · by_cases hx : x < spadSize
    · simp only [ha, hx, if_true, and_true]
      exact Cells.get_set h a x b
    · have : x ≠ a := by omega
      simp [hx, this]
  · simp [ha]

theorem spadWrite_wf {m : Memory} (h : Memory.wf m = true) (a : Nat) (b : Byte) : Memory.wf (spadWrite m a b) = true := by
  unfold spadWrite
  split
  · exact Cells.wf_set h a b
  · exact h

theorem spadStore_wf {m : Memory} (h : Memory.wf m = true) (a : Nat) (bs : List Byte) : Memory.wf (spadStore m a bs) = true := by
  induction bs generalizing m a with
  | nil => exact h
  | cons b bs ih => exact ih (spadWrite_wf h _ b) (a + 1)

/-- A byte that a store does not touch reads as before. -/
theorem spadRead_spadStore_outside {m : Memory} (h : Memory.wf m = true) (a x : Nat) (bs : List Byte)
    (hx : ∀ i, i < bs.length → x ≠ (a + i) % 2 ^ 64) : spadRead (spadStore m a bs) x = spadRead m x := by
  induction bs generalizing m a with
  | nil => rfl
  | cons b bs ih =>
    show spadRead (spadStore (spadWrite m (a % 2 ^ 64) b) (a + 1) bs) x = _
    rw [ih (spadWrite_wf h _ b) (a + 1)]
    · rw [spadRead_spadWrite h, if_neg]
      rintro ⟨he, -⟩
      exact hx 0 (by simp) (by simpa using he)
    · intro i hi he
      exact hx (i + 1) (by simp; omega) (by rw [he]; congr 1; omega)

/-- A byte that a store writes, of fewer than 2^64 bytes, reads as written where it is in range. -/
theorem spadRead_spadStore_inside {m : Memory} (h : Memory.wf m = true) (a : Nat) (bs : List Byte) (hl : bs.length ≤ 2 ^ 64)
    (i : Nat) (hi : i < bs.length) (hr : (a + i) % 2 ^ 64 < spadSize) :
    spadRead (spadStore m a bs) ((a + i) % 2 ^ 64) = bs[i] := by
  induction bs generalizing m a i with
  | nil => simp at hi
  | cons b bs ih =>
    show spadRead (spadStore (spadWrite m (a % 2 ^ 64) b) (a + 1) bs) _ = _
    simp only [List.length_cons] at hl hi
    cases i with
    | zero =>
      rw [spadRead_spadStore_outside (spadWrite_wf h _ b), spadRead_spadWrite h]
      · rw [Nat.add_zero] at hr ⊢
        rw [if_pos ⟨rfl, hr⟩]
        rfl
      · intro k hk he
        omega
    | succ i =>
      have := ih (spadWrite_wf h (a % 2 ^ 64) b) (a + 1) (by omega) i (by omega) (by rw [show a + 1 + i = a + (i + 1) by omega]; exact hr)
      rw [show a + 1 + i = a + (i + 1) by omega] at this
      simpa using this

/-! ### Pieces stored in order -/

/-- Bytes with their addresses, written one after another. -/
def writeCells (m : Memory) (xs : List (Nat × Byte)) : Memory := xs.foldl (fun m x => spadWrite m x.1 x.2) m

theorem writeCells_append (m : Memory) (xs ys : List (Nat × Byte)) : writeCells m (xs ++ ys) = writeCells (writeCells m xs) ys :=
  List.foldl_append

/-- A store writes its bytes at rising addresses modulo 2^64. -/
theorem spadStore_eq_writeCells (m : Memory) (a k : Nat) (bs : List Byte) :
    spadStore m (a + k) bs = writeCells m ((bs.zipIdx k).map fun x => ((a + x.2) % 2 ^ 64, x.1)) := by
  induction bs generalizing m k with
  | nil => rfl
  | cons b bs ih =>
    simp only [List.zipIdx_cons, List.map_cons]
    exact ih (spadWrite m ((a + k) % 2 ^ 64) b) (k + 1)

/-- Pieces stored in order are their cells written in order. -/
theorem foldl_spadStore (m : Memory) (ps : List (Nat × List Byte)) :
    ps.foldl (fun m p => spadStore m p.1 p.2) m = writeCells m (cellsOf ps) := by
  induction ps generalizing m with
  | nil => rfl
  | cons p ps ih =>
    rw [List.foldl_cons, ih,
      show cellsOf (p :: ps) = (p.2.zipIdx.map fun x => ((p.1 + x.2) % 2 ^ 64, x.1)) ++ cellsOf ps from rfl, writeCells_append]
    congr 1
    exact spadStore_eq_writeCells m p.1 0 p.2

/-- A byte in range after cells are written is the last one written there, or as before. -/
theorem spadRead_writeCells {m : Memory} (h : Memory.wf m = true) (xs : List (Nat × Byte)) {a : Nat} (ha : a < spadSize) :
    spadRead (writeCells m xs) a = ((xs.reverse.find? fun x => x.1 == a).map (·.2)).getD (spadRead m a) := by
  induction xs generalizing m with
  | nil => rfl
  | cons x xs ih =>
    rw [show writeCells m (x :: xs) = writeCells (spadWrite m x.1 x.2) xs from rfl, ih (spadWrite_wf h _ _), List.reverse_cons,
      List.find?_append, spadRead_spadWrite h]
    cases hx : xs.reverse.find? fun x => x.1 == a with
    | some y => rfl
    | none =>
      by_cases he : x.1 = a
      · simp [he, ha]
      · have hne : ¬ a = x.1 := fun e => he e.symm
        simp [he, hne]

/-- What pieces stored in order leave in a scratchpad, by the terms of the statements. -/
theorem storedIn_foldl {m : Memory} (h : Memory.wf m = true) (ps : List (Nat × List Byte)) :
    storedIn m (ps.foldl (fun m p => spadStore m p.1 p.2) m) ps := by
  intro a ha
  rw [foldl_spadStore]
  exact spadRead_writeCells h (cellsOf ps) ha

/-- The same of one piece. -/
theorem storedIn_spadStore {m : Memory} (h : Memory.wf m = true) (a : Nat) (bs : List Byte) :
    storedIn m (spadStore m a bs) [(a, bs)] := storedIn_foldl h [(a, bs)]

/-! ### HBM -/

@[simp] theorem Memory.wf_nil : Memory.wf [] = true := rfl

/-- A byte written to HBM or the cellar keeps the form. -/
theorem Memory.wf_write {m : Memory} (h : Memory.wf m = true) (a : Nat) (b : Byte) : Memory.wf (Memory.write m a b) = true :=
  Cells.wf_set h a b

/-- A byte after a write. -/
theorem Memory.read_write {m : Memory} (h : Memory.wf m = true) (a x : Nat) (b : Byte) :
    Memory.read (Memory.write m a b) x = if x = a then b else Memory.read m x := Cells.get_set h a x b

/-- The stacks of a package after a byte of one is written. -/
theorem Package.memOk_setStack {p : Package} (h : p.memOk = true) (stack addr : Nat) (b : Byte) :
    (p.setStack stack addr b).memOk = true := by
  simp only [Package.memOk, Bool.and_eq_true, List.all_eq_true, Vector.mem_toList_iff] at h ⊢
  refine ⟨⟨fun m hm => ?_, h.1.2⟩, h.2⟩
  obtain ⟨i, hi, rfl⟩ := Vector.getElem_of_mem hm
  simp only [Package.setStack, Vector.getElem_set]
  split
  · exact Memory.wf_write (h.1.1 _ (Vector.getElem_mem _)) addr b
  · exact h.1.1 _ (Vector.getElem_mem _)

/-- A byte put in place, in the cellar or in a stack, keeps the form of a package's memories. -/
theorem Package.memOk_put {p : Package} (h : p.memOk = true) (cellar : Bool) (stack addr va : Nat) (b : Byte) (w : Writer) :
    (p.put cellar stack addr va b w).memOk = true := by
  cases cellar with
  | false => exact Package.memOk_setStack h stack addr b
  | true =>
    simp only [Package.memOk, Bool.and_eq_true] at h ⊢
    exact ⟨⟨h.1.1, Memory.wf_write h.1.2 addr b⟩, h.2⟩

/-- Device writes to the cellar keep the form. -/
theorem Package.memOk_cellarStore {p : Package} (h : p.memOk = true) (w : Writer) (a : Nat) (bs : List Byte) : (p.cellarStore w a bs).memOk = true := by
  induction bs generalizing p a with
  | nil => exact h
  | cons b bs ih => exact ih (Package.memOk_put h true 0 a a b w) (a + 1)

/-- A byte put in place is the byte in place there. -/
theorem Package.inPlace_put {p : Package} (h : p.memOk = true) (cellar : Bool) (stack addr va : Nat) (b : Byte) (w : Writer) :
    (p.put cellar stack addr va b w).inPlace cellar stack addr = b := by
  simp only [Package.memOk, Bool.and_eq_true, List.all_eq_true, Vector.mem_toList_iff] at h
  cases cellar with
  | false =>
    simp only [Package.put, Package.inPlace, Package.stackMem, Package.setStack, Bool.false_eq_true, if_false, Vector.getElem_set_self]
    rw [Memory.read_write (h.1.1 _ (Vector.getElem_mem _)), if_pos rfl]
  | true =>
    simp only [Package.put, Package.inPlace, if_true]
    rw [Memory.read_write h.1.2, if_pos rfl]

/-- All that a device write can do to a seal that a folio has released: nothing; where it is that folio's replay's, keep for the host
what the byte was; where it is not, widen what the host may see and mark the digest of that release. In no case does it touch the
state, the region or what the region's bytes have held (R330). -/
theorem Seal.spoil_cases (k : Seal) (place : Nat) (old new : Byte) (w : Writer) (scc : Nat) :
    k.spoil place old new w scc = k ∨ ∃ y, k.stray = some y ∧ new ≠ old ∧
      ((scc ≤ y.upto ∧ w.folio = some y.folio ∧ ∃ kept, k.spoil place old new w scc = { k with stray := some { y with kept := kept } }) ∨
        ((y.upto < scc ∨ w.folio ≠ some y.folio) ∧ ∃ held kept l, y.folio ∈ l ∧
          k.spoil place old new w scc = { k with stray := some { y with held := held, kept := kept }, spoilt := l })) := by
  unfold Seal.spoil
  split
  · rename_i y hy
    split
    · exact .inl rfl
    · rename_i hn
      refine .inr ⟨y, hy, hn, ?_⟩
      split
      · rename_i h
        refine .inr ⟨h, _, _, _, ?_, rfl⟩
        split
        · rename_i hm; simpa using hm
        · simp
      · rename_i h
        exact .inl ⟨by omega, not_not.1 fun n => h (.inr n), _, rfl⟩
  · exact .inl rfl

/-- A change of a byte that a seal notes leaves the seal in its state, with its region. -/
theorem Seal.note_frame (k : Seal) (place : Nat) (old new : Byte) (w : Writer) (scc : Nat) :
    (k.note place old new w scc).st = k.st ∧ (k.note place old new w scc).region = k.region := by
  have spoil (k : Seal) : (k.spoil place old new w scc).st = k.st ∧ (k.spoil place old new w scc).region = k.region := by
    obtain h | ⟨_, -, -, ⟨-, -, _, h⟩ | ⟨-, _, _, _, -, h⟩⟩ := Seal.spoil_cases k place old new w scc <;> rw [h] <;> exact ⟨rfl, rfl⟩
  unfold Seal.note
  dsimp only
  split <;> split <;> first | exact ⟨rfl, rfl⟩ | exact spoil _

/-- What the host sees of a byte after a release stays as it was when a replay lands the byte anew. -/
theorem Stray.shows_kept (y : Stray) (place : Nat) (old now : Byte) :
    ({ y with kept := (y.without place).kept ++ [(place, y.shows place old)] } : Stray).shows place now = y.shows place old := by
  have : (y.without place).kept.find? (fun x => x.1 == place) = none := by
    simp [Stray.without, List.find?_eq_none]
  rw [Stray.shows, List.find?_append, this]
  simp

/-- A byte put in place leaves every seal in its state, with its region. -/
theorem Package.put_seals (p : Package) (cellar : Bool) (stack addr va : Nat) (b : Byte) (w : Writer) (k : Fin 64) :
    (p.put cellar stack addr va b w).seals[k].st = p.seals[k].st ∧ (p.put cellar stack addr va b w).seals[k].region = p.seals[k].region := by
  simp only [Package.put, Fin.getElem_fin, Vector.getElem_map]
  cases cellar <;> (simp only [Bool.false_eq_true, if_true, if_false]; split) <;> first | exact Seal.note_frame _ _ _ _ _ _ | exact ⟨rfl, rfl⟩

end Sys2Proof.Machine
end

