-- ==== Sys2Proof/Laws/State.lean ====
section
/-! SUPPORT. What each update of the state does to each of its fields, one lemma per field and update. -/

namespace Sys2Proof.Machine

@[simp] theorem State.enqueue_core (s : State) (cap : Cap) (w : Work) : (s.enqueue cap w).core = s.core := rfl
@[simp] theorem State.enqueue_others (s : State) (cap : Cap) (w : Work) : (s.enqueue cap w).others = s.others := rfl
@[simp] theorem State.enqueue_pkgs (s : State) (cap : Cap) (w : Work) : (s.enqueue cap w).pkgs = s.pkgs := rfl
@[simp] theorem State.enqueue_folios (s : State) (cap : Cap) (w : Work) : (s.enqueue cap w).folios = s.folios := rfl
@[simp] theorem State.enqueue_jobs (s : State) (cap : Cap) (w : Work) : (s.enqueue cap w).jobs = s.jobs ++ [s.newJob cap w] := rfl
@[simp] theorem State.enqueue_votes (s : State) (cap : Cap) (w : Work) : (s.enqueue cap w).votes = s.votes := rfl
@[simp] theorem State.enqueue_contexts (s : State) (cap : Cap) (w : Work) : (s.enqueue cap w).contexts = s.contexts := rfl
@[simp] theorem State.enqueue_inputs (s : State) (cap : Cap) (w : Work) : (s.enqueue cap w).inputs = s.inputs := rfl
@[simp] theorem State.enqueue_due (s : State) (cap : Cap) (w : Work) : (s.enqueue cap w).due = s.due := rfl
@[simp] theorem State.enqueue_seq (s : State) (cap : Cap) (w : Work) : (s.enqueue cap w).seq = s.seq := rfl
@[simp] theorem State.enqueue_freeCtr (s : State) (cap : Cap) (w : Work) : (s.enqueue cap w).freeCtr = s.freeCtr := rfl

@[simp] theorem State.goto_core (s : State) (next gap : Nat) : (s.goto next gap).core = s.core.goto s.now next gap := rfl
@[simp] theorem State.goto_others (s : State) (next gap : Nat) : (s.goto next gap).others = s.others := rfl
@[simp] theorem State.goto_pkgs (s : State) (next gap : Nat) : (s.goto next gap).pkgs = s.pkgs := rfl
@[simp] theorem State.goto_folios (s : State) (next gap : Nat) : (s.goto next gap).folios = s.folios := rfl
@[simp] theorem State.goto_jobs (s : State) (next gap : Nat) : (s.goto next gap).jobs = s.jobs := rfl
@[simp] theorem State.goto_votes (s : State) (next gap : Nat) : (s.goto next gap).votes = s.votes := rfl
@[simp] theorem State.goto_contexts (s : State) (next gap : Nat) : (s.goto next gap).contexts = s.contexts := rfl
@[simp] theorem State.goto_inputs (s : State) (next gap : Nat) : (s.goto next gap).inputs = s.inputs := rfl
@[simp] theorem State.goto_due (s : State) (next gap : Nat) : (s.goto next gap).due = s.due := rfl
@[simp] theorem State.goto_seq (s : State) (next gap : Nat) : (s.goto next gap).seq = s.seq + 1 := rfl
@[simp] theorem State.goto_freeCtr (s : State) (next gap : Nat) : (s.goto next gap).freeCtr = s.freeCtr := rfl

@[simp] theorem State.callTo_core (s : State) (target : Nat) : (s.callTo target).core = s.core.callTo s.now target := rfl
@[simp] theorem State.callTo_others (s : State) (target : Nat) : (s.callTo target).others = s.others := rfl
@[simp] theorem State.callTo_pkgs (s : State) (target : Nat) : (s.callTo target).pkgs = s.pkgs := rfl
@[simp] theorem State.callTo_folios (s : State) (target : Nat) : (s.callTo target).folios = s.folios := rfl
@[simp] theorem State.callTo_jobs (s : State) (target : Nat) : (s.callTo target).jobs = s.jobs := rfl
@[simp] theorem State.callTo_votes (s : State) (target : Nat) : (s.callTo target).votes = s.votes := rfl
@[simp] theorem State.callTo_contexts (s : State) (target : Nat) : (s.callTo target).contexts = s.contexts := rfl
@[simp] theorem State.callTo_inputs (s : State) (target : Nat) : (s.callTo target).inputs = s.inputs := rfl
@[simp] theorem State.callTo_due (s : State) (target : Nat) : (s.callTo target).due = s.due := rfl
@[simp] theorem State.callTo_seq (s : State) (target : Nat) : (s.callTo target).seq = s.seq + 1 := rfl
@[simp] theorem State.callTo_freeCtr (s : State) (target : Nat) : (s.callTo target).freeCtr = s.freeCtr := rfl

@[simp] theorem State.advance_core (s : State) : s.advance.core = s.core.goto s.now (s.core.pc.toNat + 1) 1 := rfl
@[simp] theorem State.advance_others (s : State) : s.advance.others = s.others := rfl
@[simp] theorem State.advance_pkgs (s : State) : s.advance.pkgs = s.pkgs := rfl
@[simp] theorem State.advance_folios (s : State) : s.advance.folios = s.folios := rfl
@[simp] theorem State.advance_jobs (s : State) : s.advance.jobs = s.jobs := rfl
@[simp] theorem State.advance_votes (s : State) : s.advance.votes = s.votes := rfl
@[simp] theorem State.advance_contexts (s : State) : s.advance.contexts = s.contexts := rfl
@[simp] theorem State.advance_inputs (s : State) : s.advance.inputs = s.inputs := rfl
@[simp] theorem State.advance_due (s : State) : s.advance.due = s.due := rfl
@[simp] theorem State.advance_seq (s : State) : s.advance.seq = s.seq + 1 := rfl
@[simp] theorem State.advance_freeCtr (s : State) : s.advance.freeCtr = s.freeCtr := rfl

@[simp] theorem State.issued_core (s : State) (cap : Cap) (w : Work) : (s.issued cap w).core = s.core.goto s.now (s.core.pc.toNat + 1) 1 := rfl
@[simp] theorem State.issued_others (s : State) (cap : Cap) (w : Work) : (s.issued cap w).others = s.others := rfl
@[simp] theorem State.issued_pkgs (s : State) (cap : Cap) (w : Work) : (s.issued cap w).pkgs = s.pkgs := rfl
@[simp] theorem State.issued_folios (s : State) (cap : Cap) (w : Work) : (s.issued cap w).folios = s.folios := rfl
@[simp] theorem State.issued_jobs (s : State) (cap : Cap) (w : Work) : (s.issued cap w).jobs = s.jobs ++ [s.newJob cap w] := rfl
@[simp] theorem State.issued_votes (s : State) (cap : Cap) (w : Work) : (s.issued cap w).votes = s.votes := rfl
@[simp] theorem State.issued_contexts (s : State) (cap : Cap) (w : Work) : (s.issued cap w).contexts = s.contexts := rfl
@[simp] theorem State.issued_inputs (s : State) (cap : Cap) (w : Work) : (s.issued cap w).inputs = s.inputs := rfl
@[simp] theorem State.issued_due (s : State) (cap : Cap) (w : Work) : (s.issued cap w).due = s.due := rfl
@[simp] theorem State.issued_seq (s : State) (cap : Cap) (w : Work) : (s.issued cap w).seq = s.seq + 1 := rfl
@[simp] theorem State.issued_freeCtr (s : State) (cap : Cap) (w : Work) : (s.issued cap w).freeCtr = s.freeCtr := rfl

@[simp] theorem State.updFolio_core (s : State) (n : Nat) (f : Folio → Folio) : (s.updFolio n f).core = s.core := rfl
@[simp] theorem State.updFolio_others (s : State) (n : Nat) (f : Folio → Folio) : (s.updFolio n f).others = s.others := rfl
@[simp] theorem State.updFolio_pkgs (s : State) (n : Nat) (f : Folio → Folio) : (s.updFolio n f).pkgs = s.pkgs := rfl
@[simp] theorem State.updFolio_folios (s : State) (n : Nat) (f : Folio → Folio) : (s.updFolio n f).folios = s.folios.map fun x => if x.id = n then f x else x := rfl
@[simp] theorem State.updFolio_jobs (s : State) (n : Nat) (f : Folio → Folio) : (s.updFolio n f).jobs = s.jobs := rfl
@[simp] theorem State.updFolio_votes (s : State) (n : Nat) (f : Folio → Folio) : (s.updFolio n f).votes = s.votes := rfl
@[simp] theorem State.updFolio_contexts (s : State) (n : Nat) (f : Folio → Folio) : (s.updFolio n f).contexts = s.contexts := rfl
@[simp] theorem State.updFolio_inputs (s : State) (n : Nat) (f : Folio → Folio) : (s.updFolio n f).inputs = s.inputs := rfl
@[simp] theorem State.updFolio_due (s : State) (n : Nat) (f : Folio → Folio) : (s.updFolio n f).due = s.due := rfl
@[simp] theorem State.updFolio_seq (s : State) (n : Nat) (f : Folio → Folio) : (s.updFolio n f).seq = s.seq := rfl
@[simp] theorem State.updFolio_freeCtr (s : State) (n : Nat) (f : Folio → Folio) : (s.updFolio n f).freeCtr = s.freeCtr := rfl

@[simp] theorem State.updJob_core (s : State) (n : Nat) (f : Job → Job) : (s.updJob n f).core = s.core := rfl
@[simp] theorem State.updJob_others (s : State) (n : Nat) (f : Job → Job) : (s.updJob n f).others = s.others := rfl
@[simp] theorem State.updJob_pkgs (s : State) (n : Nat) (f : Job → Job) : (s.updJob n f).pkgs = s.pkgs := rfl
@[simp] theorem State.updJob_folios (s : State) (n : Nat) (f : Job → Job) : (s.updJob n f).folios = s.folios := rfl
@[simp] theorem State.updJob_jobs (s : State) (n : Nat) (f : Job → Job) : (s.updJob n f).jobs = s.jobs.map fun j => if j.seq = n then f j else j := rfl
@[simp] theorem State.updJob_votes (s : State) (n : Nat) (f : Job → Job) : (s.updJob n f).votes = s.votes := rfl
@[simp] theorem State.updJob_contexts (s : State) (n : Nat) (f : Job → Job) : (s.updJob n f).contexts = s.contexts := rfl
@[simp] theorem State.updJob_inputs (s : State) (n : Nat) (f : Job → Job) : (s.updJob n f).inputs = s.inputs := rfl
@[simp] theorem State.updJob_due (s : State) (n : Nat) (f : Job → Job) : (s.updJob n f).due = s.due := rfl
@[simp] theorem State.updJob_seq (s : State) (n : Nat) (f : Job → Job) : (s.updJob n f).seq = s.seq := rfl
@[simp] theorem State.updJob_freeCtr (s : State) (n : Nat) (f : Job → Job) : (s.updJob n f).freeCtr = s.freeCtr := rfl

@[simp] theorem State.updPkg_core (s : State) (i : Nat) (f : Package → Package) : (s.updPkg i f).core = s.core := rfl
@[simp] theorem State.updPkg_others (s : State) (i : Nat) (f : Package → Package) : (s.updPkg i f).others = s.others := rfl
@[simp] theorem State.updPkg_pkgs (s : State) (i : Nat) (f : Package → Package) : (s.updPkg i f).pkgs = updAt f i s.pkgs := rfl
@[simp] theorem State.updPkg_folios (s : State) (i : Nat) (f : Package → Package) : (s.updPkg i f).folios = s.folios := rfl
@[simp] theorem State.updPkg_jobs (s : State) (i : Nat) (f : Package → Package) : (s.updPkg i f).jobs = s.jobs := rfl
@[simp] theorem State.updPkg_votes (s : State) (i : Nat) (f : Package → Package) : (s.updPkg i f).votes = s.votes := rfl
@[simp] theorem State.updPkg_contexts (s : State) (i : Nat) (f : Package → Package) : (s.updPkg i f).contexts = s.contexts := rfl
@[simp] theorem State.updPkg_inputs (s : State) (i : Nat) (f : Package → Package) : (s.updPkg i f).inputs = s.inputs := rfl
@[simp] theorem State.updPkg_due (s : State) (i : Nat) (f : Package → Package) : (s.updPkg i f).due = s.due := rfl
@[simp] theorem State.updPkg_seq (s : State) (i : Nat) (f : Package → Package) : (s.updPkg i f).seq = s.seq := rfl
@[simp] theorem State.updPkg_freeCtr (s : State) (i : Nat) (f : Package → Package) : (s.updPkg i f).freeCtr = s.freeCtr := rfl

/-! `updCore` chooses between the focused core and the others, so its frame is by cases. -/

@[simp] theorem State.updCore_pkgs (s : State) (id : CoreId) (f : Core → Core) : (s.updCore id f).pkgs = s.pkgs := by
  unfold State.updCore; split <;> rfl
@[simp] theorem State.updCore_folios (s : State) (id : CoreId) (f : Core → Core) : (s.updCore id f).folios = s.folios := by
  unfold State.updCore; split <;> rfl
@[simp] theorem State.updCore_jobs (s : State) (id : CoreId) (f : Core → Core) : (s.updCore id f).jobs = s.jobs := by
  unfold State.updCore; split <;> rfl
@[simp] theorem State.updCore_votes (s : State) (id : CoreId) (f : Core → Core) : (s.updCore id f).votes = s.votes := by
  unfold State.updCore; split <;> rfl
@[simp] theorem State.updCore_contexts (s : State) (id : CoreId) (f : Core → Core) : (s.updCore id f).contexts = s.contexts := by
  unfold State.updCore; split <;> rfl
@[simp] theorem State.updCore_inputs (s : State) (id : CoreId) (f : Core → Core) : (s.updCore id f).inputs = s.inputs := by
  unfold State.updCore; split <;> rfl
@[simp] theorem State.updCore_due (s : State) (id : CoreId) (f : Core → Core) : (s.updCore id f).due = s.due := by
  unfold State.updCore; split <;> rfl
@[simp] theorem State.updCore_seq (s : State) (id : CoreId) (f : Core → Core) : (s.updCore id f).seq = s.seq := by
  unfold State.updCore; split <;> rfl
@[simp] theorem State.updCore_freeCtr (s : State) (id : CoreId) (f : Core → Core) : (s.updCore id f).freeCtr = s.freeCtr := by
  unfold State.updCore; split <;> rfl

/-! ### Updates of a core -/

@[simp] theorem Core.goto_id (c : Core) (now next gap : Nat) : (c.goto now next gap).id = c.id := rfl
@[simp] theorem Core.goto_phys (c : Core) (now next gap : Nat) : (c.goto now next gap).phys = c.phys := rfl
@[simp] theorem Core.goto_s (c : Core) (now next gap : Nat) : (c.goto now next gap).s = c.s := rfl
@[simp] theorem Core.goto_v (c : Core) (now next gap : Nat) : (c.goto now next gap).v = c.v := rfl
@[simp] theorem Core.goto_w (c : Core) (now next gap : Nat) : (c.goto now next gap).w = c.w := rfl
@[simp] theorem Core.goto_t (c : Core) (now next gap : Nat) : (c.goto now next gap).t = c.t := rfl
@[simp] theorem Core.goto_shape (c : Core) (now next gap : Nat) : (c.goto now next gap).shape = c.shape := rfl
@[simp] theorem Core.goto_m (c : Core) (now next gap : Nat) : (c.goto now next gap).m = c.m := rfl
@[simp] theorem Core.goto_th (c : Core) (now next gap : Nat) : (c.goto now next gap).th = c.th := rfl
@[simp] theorem Core.goto_ly (c : Core) (now next gap : Nat) : (c.goto now next gap).ly = c.ly := rfl
@[simp] theorem Core.goto_tbl (c : Core) (now next gap : Nat) : (c.goto now next gap).tbl = c.tbl := rfl
@[simp] theorem Core.goto_mb (c : Core) (now next gap : Nat) : (c.goto now next gap).mb = c.mb := rfl
@[simp] theorem Core.goto_vl (c : Core) (now next gap : Nat) : (c.goto now next gap).vl = c.vl := rfl
@[simp] theorem Core.goto_cons (c : Core) (now next gap : Nat) : (c.goto now next gap).cons = (closeEnds next c.cons).2 := rfl
@[simp] theorem Core.goto_pc (c : Core) (now next gap : Nat) : (c.goto now next gap).pc = BitVec.ofNat 15 (closeEnds next c.cons).1 := rfl
@[simp] theorem Core.goto_stage (c : Core) (now next gap : Nat) : (c.goto now next gap).stage = c.stage := rfl
@[simp] theorem Core.goto_period (c : Core) (now next gap : Nat) : (c.goto now next gap).period = c.period := rfl
@[simp] theorem Core.goto_fs (c : Core) (now next gap : Nat) : (c.goto now next gap).fs = c.fs := rfl
@[simp] theorem Core.goto_fx (c : Core) (now next gap : Nat) : (c.goto now next gap).fx = c.fx := rfl
@[simp] theorem Core.goto_flagNow (c : Core) (now next gap : Nat) : (c.goto now next gap).flagNow = c.flagNow := rfl
@[simp] theorem Core.goto_flagAt (c : Core) (now next gap : Nat) : (c.goto now next gap).flagAt = c.flagAt := rfl
@[simp] theorem Core.goto_oob (c : Core) (now next gap : Nat) : (c.goto now next gap).oob = c.oob := rfl
@[simp] theorem Core.goto_oobFrom (c : Core) (now next gap : Nat) : (c.goto now next gap).oobFrom = c.oobFrom := rfl
@[simp] theorem Core.goto_oobKept (c : Core) (now next gap : Nat) : (c.goto now next gap).oobKept = c.oobKept := rfl
@[simp] theorem Core.goto_tcause (c : Core) (now next gap : Nat) : (c.goto now next gap).tcause = c.tcause := rfl
@[simp] theorem Core.goto_tepc (c : Core) (now next gap : Nat) : (c.goto now next gap).tepc = c.tepc := rfl
@[simp] theorem Core.goto_tval (c : Core) (now next gap : Nat) : (c.goto now next gap).tval = c.tval := rfl
@[simp] theorem Core.goto_tvec (c : Core) (now next gap : Nat) : (c.goto now next gap).tvec = c.tvec := rfl
@[simp] theorem Core.goto_tstate (c : Core) (now next gap : Nat) : (c.goto now next gap).tstate = c.tstate := rfl
@[simp] theorem Core.goto_shadowM (c : Core) (now next gap : Nat) : (c.goto now next gap).shadowM = c.shadowM := rfl
@[simp] theorem Core.goto_shadowVl (c : Core) (now next gap : Nat) : (c.goto now next gap).shadowVl = c.shadowVl := rfl
@[simp] theorem Core.goto_fended (c : Core) (now next gap : Nat) : (c.goto now next gap).fended = c.fended := rfl
@[simp] theorem Core.goto_haltAt (c : Core) (now next gap : Nat) : (c.goto now next gap).haltAt = c.haltAt := rfl
@[simp] theorem Core.goto_issueAt (c : Core) (now next gap : Nat) : (c.goto now next gap).issueAt = now + gap := rfl
@[simp] theorem Core.goto_lastIssue (c : Core) (now next gap : Nat) : (c.goto now next gap).lastIssue = some now := rfl
@[simp] theorem Core.goto_snap (c : Core) (now next gap : Nat) : (c.goto now next gap).snap = c.snap := rfl
@[simp] theorem Core.goto_imem (c : Core) (now next gap : Nat) : (c.goto now next gap).imem = c.imem := rfl
@[simp] theorem Core.goto_fill (c : Core) (now next gap : Nat) : (c.goto now next gap).fill = c.fill := rfl
@[simp] theorem Core.goto_imemLine (c : Core) (now next gap : Nat) : (c.goto now next gap).imemLine = c.imemLine := rfl
@[simp] theorem Core.goto_spad (c : Core) (now next gap : Nat) : (c.goto now next gap).spad = c.spad := rfl
@[simp] theorem Core.goto_tags (c : Core) (now next gap : Nat) : (c.goto now next gap).tags = c.tags := rfl
@[simp] theorem Core.goto_rk (c : Core) (now next gap : Nat) : (c.goto now next gap).rk = c.rk := rfl

@[simp] theorem Core.callTo_id (c : Core) (now target : Nat) : (c.callTo now target).id = c.id := rfl
@[simp] theorem Core.callTo_phys (c : Core) (now target : Nat) : (c.callTo now target).phys = c.phys := rfl
@[simp] theorem Core.callTo_s (c : Core) (now target : Nat) : (c.callTo now target).s = c.s := rfl
@[simp] theorem Core.callTo_v (c : Core) (now target : Nat) : (c.callTo now target).v = c.v := rfl
@[simp] theorem Core.callTo_w (c : Core) (now target : Nat) : (c.callTo now target).w = c.w := rfl
@[simp] theorem Core.callTo_t (c : Core) (now target : Nat) : (c.callTo now target).t = c.t := rfl
@[simp] theorem Core.callTo_shape (c : Core) (now target : Nat) : (c.callTo now target).shape = c.shape := rfl
@[simp] theorem Core.callTo_m (c : Core) (now target : Nat) : (c.callTo now target).m = c.m := rfl
@[simp] theorem Core.callTo_th (c : Core) (now target : Nat) : (c.callTo now target).th = c.th := rfl
@[simp] theorem Core.callTo_ly (c : Core) (now target : Nat) : (c.callTo now target).ly = c.ly := rfl
@[simp] theorem Core.callTo_tbl (c : Core) (now target : Nat) : (c.callTo now target).tbl = c.tbl := rfl
@[simp] theorem Core.callTo_mb (c : Core) (now target : Nat) : (c.callTo now target).mb = c.mb := rfl
@[simp] theorem Core.callTo_vl (c : Core) (now target : Nat) : (c.callTo now target).vl = c.vl := rfl
@[simp] theorem Core.callTo_cons (c : Core) (now target : Nat) : (c.callTo now target).cons = c.cons := rfl
@[simp] theorem Core.callTo_pc (c : Core) (now target : Nat) : (c.callTo now target).pc = BitVec.ofNat 15 target := rfl
@[simp] theorem Core.callTo_stage (c : Core) (now target : Nat) : (c.callTo now target).stage = c.stage := rfl
@[simp] theorem Core.callTo_period (c : Core) (now target : Nat) : (c.callTo now target).period = c.period := rfl
@[simp] theorem Core.callTo_fs (c : Core) (now target : Nat) : (c.callTo now target).fs = c.fs := rfl
@[simp] theorem Core.callTo_fx (c : Core) (now target : Nat) : (c.callTo now target).fx = c.fx := rfl
@[simp] theorem Core.callTo_flagNow (c : Core) (now target : Nat) : (c.callTo now target).flagNow = c.flagNow := rfl
@[simp] theorem Core.callTo_flagAt (c : Core) (now target : Nat) : (c.callTo now target).flagAt = c.flagAt := rfl
@[simp] theorem Core.callTo_oob (c : Core) (now target : Nat) : (c.callTo now target).oob = c.oob := rfl
@[simp] theorem Core.callTo_oobFrom (c : Core) (now target : Nat) : (c.callTo now target).oobFrom = c.oobFrom := rfl
@[simp] theorem Core.callTo_oobKept (c : Core) (now target : Nat) : (c.callTo now target).oobKept = c.oobKept := rfl
@[simp] theorem Core.callTo_tcause (c : Core) (now target : Nat) : (c.callTo now target).tcause = c.tcause := rfl
@[simp] theorem Core.callTo_tepc (c : Core) (now target : Nat) : (c.callTo now target).tepc = c.tepc := rfl
@[simp] theorem Core.callTo_tval (c : Core) (now target : Nat) : (c.callTo now target).tval = c.tval := rfl
@[simp] theorem Core.callTo_tvec (c : Core) (now target : Nat) : (c.callTo now target).tvec = c.tvec := rfl
@[simp] theorem Core.callTo_tstate (c : Core) (now target : Nat) : (c.callTo now target).tstate = c.tstate := rfl
@[simp] theorem Core.callTo_shadowM (c : Core) (now target : Nat) : (c.callTo now target).shadowM = c.shadowM := rfl
@[simp] theorem Core.callTo_shadowVl (c : Core) (now target : Nat) : (c.callTo now target).shadowVl = c.shadowVl := rfl
@[simp] theorem Core.callTo_fended (c : Core) (now target : Nat) : (c.callTo now target).fended = c.fended := rfl
@[simp] theorem Core.callTo_haltAt (c : Core) (now target : Nat) : (c.callTo now target).haltAt = c.haltAt := rfl
@[simp] theorem Core.callTo_issueAt (c : Core) (now target : Nat) : (c.callTo now target).issueAt = now + 3 := rfl
@[simp] theorem Core.callTo_lastIssue (c : Core) (now target : Nat) : (c.callTo now target).lastIssue = some now := rfl
@[simp] theorem Core.callTo_snap (c : Core) (now target : Nat) : (c.callTo now target).snap = c.snap := rfl
@[simp] theorem Core.callTo_imem (c : Core) (now target : Nat) : (c.callTo now target).imem = c.imem := rfl
@[simp] theorem Core.callTo_fill (c : Core) (now target : Nat) : (c.callTo now target).fill = c.fill := rfl
@[simp] theorem Core.callTo_imemLine (c : Core) (now target : Nat) : (c.callTo now target).imemLine = c.imemLine := rfl
@[simp] theorem Core.callTo_spad (c : Core) (now target : Nat) : (c.callTo now target).spad = c.spad := rfl
@[simp] theorem Core.callTo_tags (c : Core) (now target : Nat) : (c.callTo now target).tags = c.tags := rfl
@[simp] theorem Core.callTo_rk (c : Core) (now target : Nat) : (c.callTo now target).rk = c.rk := rfl

@[simp] theorem Core.setV_id (c : Core) (r : VReg) (x : VecBits) : (c.setV r x).id = c.id := rfl
@[simp] theorem Core.setV_phys (c : Core) (r : VReg) (x : VecBits) : (c.setV r x).phys = c.phys := rfl
@[simp] theorem Core.setV_s (c : Core) (r : VReg) (x : VecBits) : (c.setV r x).s = c.s := rfl
@[simp] theorem Core.setV_v (c : Core) (r : VReg) (x : VecBits) : (c.setV r x).v = c.v.set r x := rfl
@[simp] theorem Core.setV_w (c : Core) (r : VReg) (x : VecBits) : (c.setV r x).w = c.w := rfl
@[simp] theorem Core.setV_t (c : Core) (r : VReg) (x : VecBits) : (c.setV r x).t = c.t := rfl
@[simp] theorem Core.setV_shape (c : Core) (r : VReg) (x : VecBits) : (c.setV r x).shape = c.shape := rfl
@[simp] theorem Core.setV_m (c : Core) (r : VReg) (x : VecBits) : (c.setV r x).m = c.m := rfl
@[simp] theorem Core.setV_th (c : Core) (r : VReg) (x : VecBits) : (c.setV r x).th = c.th := rfl
@[simp] theorem Core.setV_ly (c : Core) (r : VReg) (x : VecBits) : (c.setV r x).ly = c.ly := rfl
@[simp] theorem Core.setV_tbl (c : Core) (r : VReg) (x : VecBits) : (c.setV r x).tbl = c.tbl := rfl
@[simp] theorem Core.setV_mb (c : Core) (r : VReg) (x : VecBits) : (c.setV r x).mb = c.mb := rfl
@[simp] theorem Core.setV_vl (c : Core) (r : VReg) (x : VecBits) : (c.setV r x).vl = c.vl := rfl
@[simp] theorem Core.setV_cons (c : Core) (r : VReg) (x : VecBits) : (c.setV r x).cons = c.cons := rfl
@[simp] theorem Core.setV_pc (c : Core) (r : VReg) (x : VecBits) : (c.setV r x).pc = c.pc := rfl
@[simp] theorem Core.setV_stage (c : Core) (r : VReg) (x : VecBits) : (c.setV r x).stage = c.stage := rfl
@[simp] theorem Core.setV_period (c : Core) (r : VReg) (x : VecBits) : (c.setV r x).period = c.period := rfl
@[simp] theorem Core.setV_fs (c : Core) (r : VReg) (x : VecBits) : (c.setV r x).fs = c.fs := rfl
@[simp] theorem Core.setV_fx (c : Core) (r : VReg) (x : VecBits) : (c.setV r x).fx = c.fx := rfl
@[simp] theorem Core.setV_flagNow (c : Core) (r : VReg) (x : VecBits) : (c.setV r x).flagNow = c.flagNow := rfl
@[simp] theorem Core.setV_flagAt (c : Core) (r : VReg) (x : VecBits) : (c.setV r x).flagAt = c.flagAt := rfl
@[simp] theorem Core.setV_oob (c : Core) (r : VReg) (x : VecBits) : (c.setV r x).oob = c.oob := rfl
@[simp] theorem Core.setV_oobFrom (c : Core) (r : VReg) (x : VecBits) : (c.setV r x).oobFrom = c.oobFrom := rfl
@[simp] theorem Core.setV_oobKept (c : Core) (r : VReg) (x : VecBits) : (c.setV r x).oobKept = c.oobKept := rfl
@[simp] theorem Core.setV_tcause (c : Core) (r : VReg) (x : VecBits) : (c.setV r x).tcause = c.tcause := rfl
@[simp] theorem Core.setV_tepc (c : Core) (r : VReg) (x : VecBits) : (c.setV r x).tepc = c.tepc := rfl
@[simp] theorem Core.setV_tval (c : Core) (r : VReg) (x : VecBits) : (c.setV r x).tval = c.tval := rfl
@[simp] theorem Core.setV_tvec (c : Core) (r : VReg) (x : VecBits) : (c.setV r x).tvec = c.tvec := rfl
@[simp] theorem Core.setV_tstate (c : Core) (r : VReg) (x : VecBits) : (c.setV r x).tstate = c.tstate := rfl
@[simp] theorem Core.setV_shadowM (c : Core) (r : VReg) (x : VecBits) : (c.setV r x).shadowM = c.shadowM := rfl
@[simp] theorem Core.setV_shadowVl (c : Core) (r : VReg) (x : VecBits) : (c.setV r x).shadowVl = c.shadowVl := rfl
@[simp] theorem Core.setV_fended (c : Core) (r : VReg) (x : VecBits) : (c.setV r x).fended = c.fended := rfl
@[simp] theorem Core.setV_haltAt (c : Core) (r : VReg) (x : VecBits) : (c.setV r x).haltAt = c.haltAt := rfl
@[simp] theorem Core.setV_issueAt (c : Core) (r : VReg) (x : VecBits) : (c.setV r x).issueAt = c.issueAt := rfl
@[simp] theorem Core.setV_lastIssue (c : Core) (r : VReg) (x : VecBits) : (c.setV r x).lastIssue = c.lastIssue := rfl
@[simp] theorem Core.setV_snap (c : Core) (r : VReg) (x : VecBits) : (c.setV r x).snap = c.snap := rfl
@[simp] theorem Core.setV_imem (c : Core) (r : VReg) (x : VecBits) : (c.setV r x).imem = c.imem := rfl
@[simp] theorem Core.setV_fill (c : Core) (r : VReg) (x : VecBits) : (c.setV r x).fill = c.fill := rfl
@[simp] theorem Core.setV_imemLine (c : Core) (r : VReg) (x : VecBits) : (c.setV r x).imemLine = c.imemLine := rfl
@[simp] theorem Core.setV_spad (c : Core) (r : VReg) (x : VecBits) : (c.setV r x).spad = c.spad := rfl
@[simp] theorem Core.setV_tags (c : Core) (r : VReg) (x : VecBits) : (c.setV r x).tags = c.tags := rfl
@[simp] theorem Core.setV_rk (c : Core) (r : VReg) (x : VecBits) : (c.setV r x).rk = c.rk := rfl

@[simp] theorem Core.setS_id (c : Core) (r : SReg) (x : DWord) : (c.setS r x).id = c.id := by
  unfold Core.setS; split <;> rfl
@[simp] theorem Core.setS_phys (c : Core) (r : SReg) (x : DWord) : (c.setS r x).phys = c.phys := by
  unfold Core.setS; split <;> rfl
@[simp] theorem Core.setS_v (c : Core) (r : SReg) (x : DWord) : (c.setS r x).v = c.v := by
  unfold Core.setS; split <;> rfl
@[simp] theorem Core.setS_w (c : Core) (r : SReg) (x : DWord) : (c.setS r x).w = c.w := by
  unfold Core.setS; split <;> rfl
@[simp] theorem Core.setS_t (c : Core) (r : SReg) (x : DWord) : (c.setS r x).t = c.t := by
  unfold Core.setS; split <;> rfl
@[simp] theorem Core.setS_shape (c : Core) (r : SReg) (x : DWord) : (c.setS r x).shape = c.shape := by
  unfold Core.setS; split <;> rfl
@[simp] theorem Core.setS_m (c : Core) (r : SReg) (x : DWord) : (c.setS r x).m = c.m := by
  unfold Core.setS; split <;> rfl
@[simp] theorem Core.setS_th (c : Core) (r : SReg) (x : DWord) : (c.setS r x).th = c.th := by
  unfold Core.setS; split <;> rfl
@[simp] theorem Core.setS_ly (c : Core) (r : SReg) (x : DWord) : (c.setS r x).ly = c.ly := by
  unfold Core.setS; split <;> rfl
@[simp] theorem Core.setS_tbl (c : Core) (r : SReg) (x : DWord) : (c.setS r x).tbl = c.tbl := by
  unfold Core.setS; split <;> rfl
@[simp] theorem Core.setS_mb (c : Core) (r : SReg) (x : DWord) : (c.setS r x).mb = c.mb := by
  unfold Core.setS; split <;> rfl
@[simp] theorem Core.setS_vl (c : Core) (r : SReg) (x : DWord) : (c.setS r x).vl = c.vl := by
  unfold Core.setS; split <;> rfl
@[simp] theorem Core.setS_cons (c : Core) (r : SReg) (x : DWord) : (c.setS r x).cons = c.cons := by
  unfold Core.setS; split <;> rfl
@[simp] theorem Core.setS_pc (c : Core) (r : SReg) (x : DWord) : (c.setS r x).pc = c.pc := by
  unfold Core.setS; split <;> rfl
@[simp] theorem Core.setS_stage (c : Core) (r : SReg) (x : DWord) : (c.setS r x).stage = c.stage := by
  unfold Core.setS; split <;> rfl
@[simp] theorem Core.setS_period (c : Core) (r : SReg) (x : DWord) : (c.setS r x).period = c.period := by
  unfold Core.setS; split <;> rfl
@[simp] theorem Core.setS_fs (c : Core) (r : SReg) (x : DWord) : (c.setS r x).fs = c.fs := by
  unfold Core.setS; split <;> rfl
@[simp] theorem Core.setS_fx (c : Core) (r : SReg) (x : DWord) : (c.setS r x).fx = c.fx := by
  unfold Core.setS; split <;> rfl
@[simp] theorem Core.setS_flagNow (c : Core) (r : SReg) (x : DWord) : (c.setS r x).flagNow = c.flagNow := by
  unfold Core.setS; split <;> rfl
@[simp] theorem Core.setS_flagAt (c : Core) (r : SReg) (x : DWord) : (c.setS r x).flagAt = c.flagAt := by
  unfold Core.setS; split <;> rfl
@[simp] theorem Core.setS_oob (c : Core) (r : SReg) (x : DWord) : (c.setS r x).oob = c.oob := by
  unfold Core.setS; split <;> rfl
@[simp] theorem Core.setS_oobFrom (c : Core) (r : SReg) (x : DWord) : (c.setS r x).oobFrom = c.oobFrom := by
  unfold Core.setS; split <;> rfl
@[simp] theorem Core.setS_oobKept (c : Core) (r : SReg) (x : DWord) : (c.setS r x).oobKept = c.oobKept := by
  unfold Core.setS; split <;> rfl
@[simp] theorem Core.setS_tcause (c : Core) (r : SReg) (x : DWord) : (c.setS r x).tcause = c.tcause := by
  unfold Core.setS; split <;> rfl
@[simp] theorem Core.setS_tepc (c : Core) (r : SReg) (x : DWord) : (c.setS r x).tepc = c.tepc := by
  unfold Core.setS; split <;> rfl
@[simp] theorem Core.setS_tval (c : Core) (r : SReg) (x : DWord) : (c.setS r x).tval = c.tval := by
  unfold Core.setS; split <;> rfl
@[simp] theorem Core.setS_tvec (c : Core) (r : SReg) (x : DWord) : (c.setS r x).tvec = c.tvec := by
  unfold Core.setS; split <;> rfl
@[simp] theorem Core.setS_tstate (c : Core) (r : SReg) (x : DWord) : (c.setS r x).tstate = c.tstate := by
  unfold Core.setS; split <;> rfl
@[simp] theorem Core.setS_shadowM (c : Core) (r : SReg) (x : DWord) : (c.setS r x).shadowM = c.shadowM := by
  unfold Core.setS; split <;> rfl
@[simp] theorem Core.setS_shadowVl (c : Core) (r : SReg) (x : DWord) : (c.setS r x).shadowVl = c.shadowVl := by
  unfold Core.setS; split <;> rfl
@[simp] theorem Core.setS_fended (c : Core) (r : SReg) (x : DWord) : (c.setS r x).fended = c.fended := by
  unfold Core.setS; split <;> rfl
@[simp] theorem Core.setS_haltAt (c : Core) (r : SReg) (x : DWord) : (c.setS r x).haltAt = c.haltAt := by
  unfold Core.setS; split <;> rfl
@[simp] theorem Core.setS_issueAt (c : Core) (r : SReg) (x : DWord) : (c.setS r x).issueAt = c.issueAt := by
  unfold Core.setS; split <;> rfl
@[simp] theorem Core.setS_lastIssue (c : Core) (r : SReg) (x : DWord) : (c.setS r x).lastIssue = c.lastIssue := by
  unfold Core.setS; split <;> rfl
@[simp] theorem Core.setS_snap (c : Core) (r : SReg) (x : DWord) : (c.setS r x).snap = c.snap := by
  unfold Core.setS; split <;> rfl
@[simp] theorem Core.setS_imem (c : Core) (r : SReg) (x : DWord) : (c.setS r x).imem = c.imem := by
  unfold Core.setS; split <;> rfl
@[simp] theorem Core.setS_fill (c : Core) (r : SReg) (x : DWord) : (c.setS r x).fill = c.fill := by
  unfold Core.setS; split <;> rfl
@[simp] theorem Core.setS_imemLine (c : Core) (r : SReg) (x : DWord) : (c.setS r x).imemLine = c.imemLine := by
  unfold Core.setS; split <;> rfl
@[simp] theorem Core.setS_spad (c : Core) (r : SReg) (x : DWord) : (c.setS r x).spad = c.spad := by
  unfold Core.setS; split <;> rfl
@[simp] theorem Core.setS_tags (c : Core) (r : SReg) (x : DWord) : (c.setS r x).tags = c.tags := by
  unfold Core.setS; split <;> rfl
@[simp] theorem Core.setS_rk (c : Core) (r : SReg) (x : DWord) : (c.setS r x).rk = c.rk := by
  unfold Core.setS; split <;> rfl

@[simp] theorem Core.setW_id (c : Core) (r : WReg) (x : WeightBits) : (c.setW r x).id = c.id := by
  unfold Core.setW; split <;> rfl
@[simp] theorem Core.setW_phys (c : Core) (r : WReg) (x : WeightBits) : (c.setW r x).phys = c.phys := by
  unfold Core.setW; split <;> rfl
@[simp] theorem Core.setW_s (c : Core) (r : WReg) (x : WeightBits) : (c.setW r x).s = c.s := by
  unfold Core.setW; split <;> rfl
@[simp] theorem Core.setW_v (c : Core) (r : WReg) (x : WeightBits) : (c.setW r x).v = c.v := by
  unfold Core.setW; split <;> rfl
@[simp] theorem Core.setW_t (c : Core) (r : WReg) (x : WeightBits) : (c.setW r x).t = c.t := by
  unfold Core.setW; split <;> rfl
@[simp] theorem Core.setW_shape (c : Core) (r : WReg) (x : WeightBits) : (c.setW r x).shape = c.shape := by
  unfold Core.setW; split <;> rfl
@[simp] theorem Core.setW_m (c : Core) (r : WReg) (x : WeightBits) : (c.setW r x).m = c.m := by
  unfold Core.setW; split <;> rfl
@[simp] theorem Core.setW_th (c : Core) (r : WReg) (x : WeightBits) : (c.setW r x).th = c.th := by
  unfold Core.setW; split <;> rfl
@[simp] theorem Core.setW_ly (c : Core) (r : WReg) (x : WeightBits) : (c.setW r x).ly = c.ly := by
  unfold Core.setW; split <;> rfl
@[simp] theorem Core.setW_tbl (c : Core) (r : WReg) (x : WeightBits) : (c.setW r x).tbl = c.tbl := by
  unfold Core.setW; split <;> rfl
@[simp] theorem Core.setW_mb (c : Core) (r : WReg) (x : WeightBits) : (c.setW r x).mb = c.mb := by
  unfold Core.setW; split <;> rfl
@[simp] theorem Core.setW_vl (c : Core) (r : WReg) (x : WeightBits) : (c.setW r x).vl = c.vl := by
  unfold Core.setW; split <;> rfl
@[simp] theorem Core.setW_cons (c : Core) (r : WReg) (x : WeightBits) : (c.setW r x).cons = c.cons := by
  unfold Core.setW; split <;> rfl
@[simp] theorem Core.setW_pc (c : Core) (r : WReg) (x : WeightBits) : (c.setW r x).pc = c.pc := by
  unfold Core.setW; split <;> rfl
@[simp] theorem Core.setW_stage (c : Core) (r : WReg) (x : WeightBits) : (c.setW r x).stage = c.stage := by
  unfold Core.setW; split <;> rfl
@[simp] theorem Core.setW_period (c : Core) (r : WReg) (x : WeightBits) : (c.setW r x).period = c.period := by
  unfold Core.setW; split <;> rfl
@[simp] theorem Core.setW_fs (c : Core) (r : WReg) (x : WeightBits) : (c.setW r x).fs = c.fs := by
  unfold Core.setW; split <;> rfl
@[simp] theorem Core.setW_fx (c : Core) (r : WReg) (x : WeightBits) : (c.setW r x).fx = c.fx := by
  unfold Core.setW; split <;> rfl
@[simp] theorem Core.setW_flagNow (c : Core) (r : WReg) (x : WeightBits) : (c.setW r x).flagNow = c.flagNow := by
  unfold Core.setW; split <;> rfl
@[simp] theorem Core.setW_flagAt (c : Core) (r : WReg) (x : WeightBits) : (c.setW r x).flagAt = c.flagAt := by
  unfold Core.setW; split <;> rfl
@[simp] theorem Core.setW_oob (c : Core) (r : WReg) (x : WeightBits) : (c.setW r x).oob = c.oob := by
  unfold Core.setW; split <;> rfl
@[simp] theorem Core.setW_oobFrom (c : Core) (r : WReg) (x : WeightBits) : (c.setW r x).oobFrom = c.oobFrom := by
  unfold Core.setW; split <;> rfl
@[simp] theorem Core.setW_oobKept (c : Core) (r : WReg) (x : WeightBits) : (c.setW r x).oobKept = c.oobKept := by
  unfold Core.setW; split <;> rfl
@[simp] theorem Core.setW_tcause (c : Core) (r : WReg) (x : WeightBits) : (c.setW r x).tcause = c.tcause := by
  unfold Core.setW; split <;> rfl
@[simp] theorem Core.setW_tepc (c : Core) (r : WReg) (x : WeightBits) : (c.setW r x).tepc = c.tepc := by
  unfold Core.setW; split <;> rfl
@[simp] theorem Core.setW_tval (c : Core) (r : WReg) (x : WeightBits) : (c.setW r x).tval = c.tval := by
  unfold Core.setW; split <;> rfl
@[simp] theorem Core.setW_tvec (c : Core) (r : WReg) (x : WeightBits) : (c.setW r x).tvec = c.tvec := by
  unfold Core.setW; split <;> rfl
@[simp] theorem Core.setW_tstate (c : Core) (r : WReg) (x : WeightBits) : (c.setW r x).tstate = c.tstate := by
  unfold Core.setW; split <;> rfl
@[simp] theorem Core.setW_shadowM (c : Core) (r : WReg) (x : WeightBits) : (c.setW r x).shadowM = c.shadowM := by
  unfold Core.setW; split <;> rfl
@[simp] theorem Core.setW_shadowVl (c : Core) (r : WReg) (x : WeightBits) : (c.setW r x).shadowVl = c.shadowVl := by
  unfold Core.setW; split <;> rfl
@[simp] theorem Core.setW_fended (c : Core) (r : WReg) (x : WeightBits) : (c.setW r x).fended = c.fended := by
  unfold Core.setW; split <;> rfl
@[simp] theorem Core.setW_haltAt (c : Core) (r : WReg) (x : WeightBits) : (c.setW r x).haltAt = c.haltAt := by
  unfold Core.setW; split <;> rfl
@[simp] theorem Core.setW_issueAt (c : Core) (r : WReg) (x : WeightBits) : (c.setW r x).issueAt = c.issueAt := by
  unfold Core.setW; split <;> rfl
@[simp] theorem Core.setW_lastIssue (c : Core) (r : WReg) (x : WeightBits) : (c.setW r x).lastIssue = c.lastIssue := by
  unfold Core.setW; split <;> rfl
@[simp] theorem Core.setW_snap (c : Core) (r : WReg) (x : WeightBits) : (c.setW r x).snap = c.snap := by
  unfold Core.setW; split <;> rfl
@[simp] theorem Core.setW_imem (c : Core) (r : WReg) (x : WeightBits) : (c.setW r x).imem = c.imem := by
  unfold Core.setW; split <;> rfl
@[simp] theorem Core.setW_fill (c : Core) (r : WReg) (x : WeightBits) : (c.setW r x).fill = c.fill := by
  unfold Core.setW; split <;> rfl
@[simp] theorem Core.setW_imemLine (c : Core) (r : WReg) (x : WeightBits) : (c.setW r x).imemLine = c.imemLine := by
  unfold Core.setW; split <;> rfl
@[simp] theorem Core.setW_spad (c : Core) (r : WReg) (x : WeightBits) : (c.setW r x).spad = c.spad := by
  unfold Core.setW; split <;> rfl
@[simp] theorem Core.setW_tags (c : Core) (r : WReg) (x : WeightBits) : (c.setW r x).tags = c.tags := by
  unfold Core.setW; split <;> rfl
@[simp] theorem Core.setW_rk (c : Core) (r : WReg) (x : WeightBits) : (c.setW r x).rk = c.rk := by
  unfold Core.setW; split <;> rfl

end Sys2Proof.Machine
end

