-- ==== Sys2Proof/Laws/Ops.lean ====
section
/-! SUPPORT. What the shared operations can do, said once: changes of one core or package, lookups after them, guarded words,
traps, and what the invariants need of each. -/

namespace Sys2Proof.Machine

/-! ### Changes at a place -/

theorem updAt_eq {α : Type} (f : α → α) (i : Nat) (l : List α) : updAt f i l = match l[i]? with
    | some x => l.set i (f x)
    | none => l := by
  induction l generalizing i with
  | nil => cases i <;> rfl
  | cons x r ih =>
    cases i with
    | zero => rfl
    | succ i =>
      simp only [updAt, ih, List.getElem?_cons_succ]
      cases h : r[i]? <;> simp

@[simp] theorem updAt_length {α : Type} (f : α → α) (i : Nat) (l : List α) : (updAt f i l).length = l.length := by
  rw [updAt_eq]; split <;> simp

/-- A property of all of a list holds after a change that keeps it. -/
theorem updAt_all {α : Type} {p : α → Bool} {f : α → α} {i : Nat} {l : List α} (h : l.all p = true)
    (hf : ∀ x, p x = true → p (f x) = true) : (updAt f i l).all p = true := by
  induction l generalizing i with
  | nil => cases i <;> rfl
  | cons x r ih =>
    simp only [List.all_cons, Bool.and_eq_true] at h
    cases i with
    | zero => simp only [updAt, List.all_cons, Bool.and_eq_true]; exact ⟨hf x h.1, h.2⟩
    | succ i => simp only [updAt, List.all_cons, Bool.and_eq_true]; exact ⟨h.1, ih h.2⟩

theorem State.updPkg_of {s : State} {i : Nat} {p : Package} (h : s.pkgs[i]? = some p) (f : Package → Package) :
    s.updPkg i f = { s with pkgs := s.pkgs.set i (f p) } := by
  unfold State.updPkg; rw [updAt_eq, h]

theorem State.updPkg_none {s : State} {i : Nat} (h : s.pkgs[i]? = none) (f : Package → Package) : s.updPkg i f = s := by
  unfold State.updPkg; rw [updAt_eq, h]

/-- A change of one package changes it alone. -/
theorem State.onlyPkg_updPkg {s : State} {i : Nat} {p : Package} (h : s.pkgs[i]? = some p) (f : Package → Package) :
    s.onlyPkg (s.updPkg i f) i (f p) := State.updPkg_of h f

/-! ### Finding cores -/

/-- The focused core is found by its identity. -/
@[simp] theorem State.core?_self (s : State) : s.core? s.core.id = some s.core := by
  simp [State.core?, State.cores]

theorem State.core?_id {s : State} {id : CoreId} {c : Core} (h : s.core? id = some c) : c.id = id := by
  have := List.find?_some h
  simpa using this

theorem find?_map_id {l : List Core} {id i : CoreId} {f : Core → Core} (hf : ∀ c, c.id = id → (f c).id = id) :
    (l.map fun c => if c.id = id then f c else c).find? (fun c => c.id == i) =
      (l.find? fun c => c.id == i).map fun c => if c.id = id then f c else c := by
  induction l with
  | nil => rfl
  | cons x r ih =>
    have hid : (if x.id = id then f x else x).id = x.id := by
      split
      · rename_i h; rw [hf x h, h]
      · rfl
    simp only [List.map_cons, List.find?_cons, hid, ih]
    cases x.id == i <;> rfl

/-- A core after one core has changed, its identity kept. -/
theorem State.core?_updCore {s : State} {id i : CoreId} {f : Core → Core} (hf : ∀ c, c.id = id → (f c).id = id) :
    (s.updCore id f).core? i = (s.core? i).map fun c => if c.id = id then f c else c := by
  unfold State.updCore State.core? State.cores
  by_cases h : s.core.id = id
  · rw [if_pos h]
    simp only [List.find?_cons, hf s.core h]
    by_cases hi : id = i
    · simp [h, hi]
    · have : (id == i) = false := by simp [hi]
      have hsi : (s.core.id == i) = false := by rw [h]; exact this
      simp only [this, hsi]
      cases hx : s.others.find? (fun c => c.id == i) with
      | none => rfl
      | some c =>
        have hc : c.id = i := by simpa using List.find?_some hx
        simp only [Option.map_some]
        rw [if_neg (by rw [hc]; exact fun e => hi e.symm)]
  · rw [if_neg h]
    simp only [List.find?_cons]
    by_cases hi : s.core.id = i
    · have : (s.core.id == i) = true := by simp [hi]
      simp only [this, Option.map_some]
      rw [if_neg h]
    · have : (s.core.id == i) = false := by simp [hi]
      simp only [this]
      exact find?_map_id hf

/-- A change of one core changes it alone. -/
theorem State.onlyCore_updCore {s : State} {id : CoreId} {c : Core} {f : Core → Core} (h : s.core? id = some c)
    (hf : ∀ c, c.id = id → (f c).id = id) : s.onlyCore (s.updCore id f) id (f c) := by
  refine ⟨?_, fun i hi => ?_, by simp [State.sameElsewhere]⟩
  · rw [State.core?_updCore hf, h, Option.map_some, if_pos (State.core?_id h)]
  · rw [State.core?_updCore hf]
    cases hx : s.core? i with
    | none => rfl
    | some d => rw [Option.map_some, if_neg (by rw [State.core?_id hx]; exact hi)]

/-- Changing the focused core by its identity. -/
theorem State.updCore_self (s : State) (f : Core → Core) : s.updCore s.core.id f = { s with core := f s.core } := by
  unfold State.updCore; rw [if_pos rfl]

/-! ### Words -/

@[simp] theorem State.guarded_true (s : State) (k : State → State) : s.guarded true k = k s := rfl
@[simp] theorem State.guarded_false (s : State) (k : State → State) : s.guarded false k = s.trapIllegal := rfl

/-- Putting work in flight and going on is `issued`. -/
theorem State.enqueue_advance (s : State) (cap : Cap) (w : Work) : (s.enqueue cap w).advance = s.issued cap w := rfl

/-- A scalar result puts one piece of work in flight. -/
theorem State.result_eq (s : State) (d : SReg) (x : DWord) (lat : Nat) :
    s.result d x lat = s.issued .none (.scalar d x lat) := rfl

/-- Work in flight found by its number. -/
theorem State.job?_seq {s : State} {n : Nat} {j : Job} (h : s.job? n = some j) : j.seq = n := by
  simpa using List.find?_some h

/-- An operation on work that is in flight. -/
theorem State.withJob_of {s : State} {n : Nat} {j : Job} (h : s.job? n = some j) (f : Job → State) : s.withJob n f = f j := by
  unfold State.withJob; rw [h]

/-! ### What invariants need -/

/-- A property of every core holds after a change of one core that keeps it. -/
theorem State.everyCore_updCore {s : State} {p : Core → Bool} {id : CoreId} {f : Core → Core} (h : s.everyCore p = true)
    (hf : ∀ c, p c = true → p (f c) = true) : (s.updCore id f).everyCore p = true := by
  simp only [State.everyCore, State.cores, Bool.and_eq_true, List.all_cons] at h ⊢
  refine ⟨?_, by simpa using h.2⟩
  unfold State.updCore
  split
  · exact ⟨hf _ h.1.1, h.1.2⟩
  · refine ⟨h.1.1, ?_⟩
    simp only [List.all_map, List.all_eq_true, Function.comp] at h ⊢
    intro c hc
    split
    · exact hf c (h.1.2 c hc)
    · exact h.1.2 c hc

/-- Closing constructs never opens one. -/
theorem closeEnds_counts (n : Nat) (l : List Construct) :
    loopCount (closeEnds n l).2 ≤ loopCount l ∧ armCount (closeEnds n l).2 ≤ armCount l := by
  induction l generalizing n with
  | nil => exact ⟨Nat.le_refl _, Nat.le_refl _⟩
  | cons k r ih =>
    have := ih n
    cases k with
    | loop first last left live =>
      simp only [closeEnds]
      split
      · split
        · simp [loopCount, armCount]
        · simp only [loopCount, armCount, List.filter_cons] at this ⊢
          simp only [if_true, Bool.false_eq_true, if_false, List.length_cons]
          omega
      · simp [loopCount, armCount]
    | arm last mask =>
      simp only [closeEnds]
      split
      · simp only [loopCount, armCount, List.filter_cons] at this ⊢
        simp only [if_true, Bool.false_eq_true, if_false, List.length_cons]
        omega
      · simp [loopCount, armCount]

theorem depthOk_closeEnds {l : List Construct} (h : depthOk l = true) (n : Nat) : depthOk (closeEnds n l).2 = true := by
  simp only [depthOk, Bool.and_eq_true, decide_eq_true_eq] at h ⊢
  have := closeEnds_counts n l
  omega

/-- Going to the next word keeps a core legal. -/
theorem Core.legal_goto {c : Core} (h : c.legal = true) (now next gap : Nat) : (c.goto now next gap).legal = true := by
  simp only [Core.legal, Bool.and_eq_true, Core.goto_m, Core.goto_shadowM, Core.goto_th, Core.goto_vl, Core.goto_shadowVl,
    Core.goto_cons, Core.goto_snap] at h ⊢
  exact ⟨⟨h.1.1, depthOk_closeEnds h.1.2 _⟩, h.2⟩

/-- A call keeps a core legal. -/
theorem Core.legal_callTo {c : Core} (h : c.legal = true) (now target : Nat) : (c.callTo now target).legal = true := by
  simp only [Core.legal, Core.callTo_m, Core.callTo_shadowM, Core.callTo_th, Core.callTo_vl, Core.callTo_shadowVl,
    Core.callTo_cons, Core.callTo_snap] at h ⊢
  exact h

/-! ### Offers and waiting Acquires -/

/-- All that an offer can do: nothing, or put its address in oob with where it comes from (R214). -/
theorem Core.offer_cases (c : Core) (x c0 e : Nat) (addr : DWord) :
    (c.takesOffer (x, c0, e) = false ∧ c.offer x c0 e addr = c) ∨
      (c.takesOffer (x, c0, e) = true ∧ c.offer x c0 e addr = { c with oob := addr, oobFrom := some (x, c0, e) }) := by
  cases h : c.takesOffer (x, c0, e) <;> simp [Core.offer, h]

/-- No offer is taken once an address has been accepted before a rollback (R214). -/
theorem Core.offer_kept {c : Core} (h : c.oobKept = true) (x c0 e : Nat) (addr : DWord) : c.offer x c0 e addr = c := by
  simp [Core.offer, Core.takesOffer, h]

/-- All that a waiting Acquire can do: nothing, or take its seal and be answered (R329). -/
theorem Package.completeAcquire_cases (p : Package) (k : Fin 64) :
    p.completeAcquire k = p ∨
      (p.seals[k].st = .opened ∧ p.acquires.contains k = true ∧
        p.completeAcquire k = { p with acquires := p.acquires.erase k }.takeSeal k) := by
  unfold Package.completeAcquire
  split
  · exact .inr ⟨‹_ ∧ _›.1, ‹_ ∧ _›.2, rfl⟩
  · exact .inl rfl

/-! ### Flags that land (R115 to R117) -/

/-- Two indexes of one word leave the lower. -/
theorem FlagIndex.after_after (o : Option FlagIndex) (t : Stamp) (a b : Nat) :
    FlagIndex.after (some (FlagIndex.after o t a)) t b = FlagIndex.after o t (min a b) := by
  cases o with
  | none => simp [FlagIndex.after]
  | some o =>
    unfold FlagIndex.after
    by_cases h : t.c0 < o.cycle
    · simp [h]
    · by_cases g : o.seq = t.seq <;> simp [h, g, Nat.min_assoc]

/-- Flags raised in two parts are the flags of both. -/
theorem Core.raised_trans {a b c : Core} {t : Stamp} {p q : Fin 7 → Nat → Prop} (h : a.raised b t p) (g : b.raised c t q) :
    a.raised c t fun k e => p k e ∨ q k e := by
  classical
  intro k
  obtain ⟨h1, h2, h3⟩ := h k
  obtain ⟨g1, g2, g3⟩ := g k
  refine ⟨?_, ?_, ?_⟩
  · rw [g1, h1, or_assoc, exists_or]
  · intro n
    rw [g2 fun e x => n e (.inr x), h2 fun e x => n e (.inl x)]
  · intro e he low
    by_cases hp : ∃ e, p k e
    · have hm := h3 _ (Nat.find_spec hp) fun _ x => Nat.find_min' hp x
      by_cases hq : ∃ e, q k e
      · have gm := g3 _ (Nat.find_spec hq) fun e' x => Nat.find_min' hq x
        have : e = min (Nat.find hp) (Nat.find hq) := by
          have l1 := low _ (.inl (Nat.find_spec hp))
          have l2 := low _ (.inr (Nat.find_spec hq))
          rcases he with he | he
          · have := Nat.find_min' hp he; omega
          · have := Nat.find_min' hq he; omega
        rw [gm, hm, this, FlagIndex.after_after]
      · have he' : p k e := he.resolve_right fun x => hq ⟨e, x⟩
        rw [g2 fun e x => hq ⟨e, x⟩]
        exact h3 e he' fun e' x => low e' (.inl x)
    · have he' : q k e := he.resolve_left fun x => hp ⟨e, x⟩
      have := g3 e he' fun e' x => low e' (.inr x)
      rw [h2 fun e x => hp ⟨e, x⟩] at this
      exact this

/-- One flag raised. -/
theorem Core.raised_setFlag (c d : Core) (t : Stamp) (k : Fin 7) (e : Nat) (hd : d.fs = c.fs ||| BitVec.ofNat 7 (2 ^ k.val))
    (hx : d.fx = c.fx.set k (some (FlagIndex.keep c.fx[k] ⟨t.c0, t.seq, t.word, e⟩))) :
    c.raised d t fun q i => q = k ∧ i = e := by
  intro q
  rw [hd, hx]
  have bit : ∀ k q : Fin 7, (BitVec.ofNat 7 (2 ^ k.val)).getLsbD q.val = decide (q = k) := by decide
  refine ⟨by rw [BitVec.getLsbD_or, bit]; simp, ?_, ?_⟩
  · intro n
    have : k ≠ q := fun h => n e ⟨h.symm, rfl⟩
    simp only [Fin.getElem_fin]
    rw [Vector.getElem_set_ne _ _ fun h => this (Fin.ext h)]
  · rintro i ⟨rfl, rfl⟩ -
    simp only [Fin.getElem_fin, Vector.getElem_set_self]
    cases c.fx[q.val] with
    | none => rfl
    | some o => simp only [FlagIndex.keep, FlagIndex.after, eq_comm (a := t.seq)]

/-- All that landing flags can do to fs and the index registers: what `hs` lists, by class and index (R115 to R117). -/
theorem Core.raiseAt_raised (c : Core) (t : Stamp) (hs : List FlagHit) (h : ∀ x ∈ hs, x.idx < 2 ^ 16) :
    c.raised (c.raiseAt t hs) t fun q e => (⟨q, e⟩ : FlagHit) ∈ hs := by
  induction hs generalizing c with
  | nil => intro q; exact ⟨by simp [Core.raiseAt, Core.raise], fun _ => rfl, fun e he => by cases he⟩
  | cons y r ih =>
    have hy : y.idx % 2 ^ 16 = y.idx := Nat.mod_eq_of_lt (h y (by simp))
    have step := Core.raised_setFlag c ({ c.setFlag y.cls ⟨t.c0, t.seq, t.word, y.idx % 2 ^ 16⟩ with
      flagNow := (if (c.setFlag y.cls ⟨t.c0, t.seq, t.word, y.idx % 2 ^ 16⟩).flagAt = t.now
        then (c.setFlag y.cls ⟨t.c0, t.seq, t.word, y.idx % 2 ^ 16⟩).flagNow else []) ++ [(y.cls, ⟨t.c0, t.seq, t.word, y.idx % 2 ^ 16⟩)]
      flagAt := t.now }) t y.cls y.idx rfl (by simp only [hy, Core.setFlag])
    have := Core.raised_trans step (ih _ fun x hx => h x (by simp [hx]))
    have eq : (fun (k : Fin 7) (e : Nat) => (k = y.cls ∧ e = y.idx) ∨ (⟨k, e⟩ : FlagHit) ∈ r) = fun q e => (⟨q, e⟩ : FlagHit) ∈ y :: r := by
      funext q e
      obtain ⟨a, b⟩ := y
      simp
    rw [eq] at this
    exact this
/-! ### Reads that host writes leave open (R366) -/

/-- All that an open read can do: give the byte where nothing else is open, or one of those open, by a fresh free value. -/
theorem State.openRead_cases (s : State) (b : Byte) (o : List Byte) :
    (o = [] ∧ s.openRead (b, o) = (s, b)) ∨
      (o ≠ [] ∧ ∃ y ∈ b :: o, s.openRead (b, o) = ({ s with freeCtr := s.freeCtr + 1 }, y)) := by
  cases o with
  | nil => exact .inl ⟨rfl, rfl⟩
  | cons x r =>
    refine .inr ⟨by simp, _, ?_, rfl⟩
    have : Config.pick s.freeCtr % ((x :: r).length + 1) < (b :: x :: r).length := Nat.mod_lt _ (by simp)
    rw [choose, List.getD_eq_getElem _ _ this]
    exact List.getElem_mem _

/-- A byte that no host write is open for is the byte in place, and no other. -/
theorem Package.seenBy_inPlace {p : Package} {cellar : Bool} {stack addr : Nat} (h : ∀ w ∈ p.openWrites, w.on cellar stack addr = false)
    (id : Nat) : p.seenBy id cellar stack addr = (p.inPlace cellar stack addr, []) := by
  have : p.openWrites.filter (fun w => w.on cellar stack addr) = [] := List.filter_eq_nil_iff.2 fun w hw => by simp [h w hw]
  simp [Package.seenBy, Package.after, this]

/-- All that a host write can do: be in place at once, or be open for the folios bound then. -/
theorem Package.hostPut_cases (p : Package) (cellar : Bool) (stack addr va : Nat) (b : Byte) (fs : List Nat) :
    (p.settled cellar stack addr va fs = true ∧ p.hostPut cellar stack addr va b fs = p.put cellar stack addr va b .host) ∨
      (p.settled cellar stack addr va fs = false ∧
        p.hostPut cellar stack addr va b fs = { p with openWrites := p.openWrites ++ [⟨cellar, stack, addr, va, b, false, fs⟩] }) := by
  cases h : p.settled cellar stack addr va fs <;> simp [Package.hostPut, h]

/-! ### Seals and second attempts (R326, R330, R339) -/

@[simp] theorem Seal.released_st (k : Seal) (id now : Nat) (l : List Nat) : (k.released id now l).st = .opened := rfl
@[simp] theorem Seal.released_region (k : Seal) (id now : Nat) (l : List Nat) : (k.released id now l).region = k.region := rfl
@[simp] theorem Seal.released_held (k : Seal) (id now : Nat) (l : List Nat) : (k.released id now l).held = k.held := rfl
/-- A release that covers every write leaves nothing open. -/
theorem openHeld_covered {late : List Nat} {l : List Held} (h : ∀ x ∈ l, x.late late = false) : openHeld late l = [] := by
  have mem : ∀ l : List Held, ∀ x ∈ fromCovered late l, x ∈ l := by
    intro l
    induction l with
    | nil => simp [fromCovered]
    | cons y r ih =>
      intro x hx
      rw [fromCovered] at hx
      split at hx
      · exact List.mem_cons_of_mem _ (ih x hx)
      · obtain rfl | hx := List.mem_cons.1 hx
        · simp
        · exact List.mem_cons_of_mem _ (ih x hx)
  refine List.filter_eq_nil_iff.2 fun x _ => ?_
  simp only [List.any_eq_true, not_exists, not_and]
  intro y hy
  simp [h y (mem l y hy)]

/-- What a release leaves open for the host stands at a place that a write it does not cover has changed, and is no older than the
last value there that it covers (R329, R330). -/
theorem mem_openHeld {late : List Nat} {l : List Held} {h : Held} (hm : h ∈ openHeld late l) :
    (∃ x ∈ l, x.place = h.place ∧ x.late late = true) ∧
      ∃ a b, l = a ++ h :: b ∧ ∀ x ∈ b, x.place = h.place → x.late late = true := by
  have aux : ∀ l : List Held, ∀ h ∈ fromCovered late l, ∃ a b, l = a ++ h :: b ∧ ∀ x ∈ b, x.place = h.place → x.late late = true := by
    intro l
    induction l with
    | nil => simp [fromCovered]
    | cons y r ih =>
      intro h hm
      have older (hm : h ∈ fromCovered late r) : ∃ a b, y :: r = a ++ h :: b ∧ ∀ x ∈ b, x.place = h.place → x.late late = true := by
        obtain ⟨a, b, he, hb⟩ := ih h hm
        exact ⟨y :: a, b, by rw [he]; rfl, hb⟩
      rw [fromCovered] at hm
      split at hm
      · exact older hm
      · rename_i hn
        obtain rfl | hm := List.mem_cons.1 hm
        · refine ⟨[], r, rfl, fun x hx hp => ?_⟩
          by_contra hl
          exact hn (List.any_eq_true.2 ⟨x, hx, by simp [hp, hl]⟩)
        · exact older hm
  obtain ⟨hf, ha⟩ := List.mem_filter.1 hm
  obtain ⟨x, hx, hp⟩ := List.any_eq_true.1 ha
  obtain ⟨a, b, he, -⟩ := aux l x hx
  simp only [Bool.and_eq_true, beq_iff_eq] at hp
  exact ⟨⟨x, by rw [he]; simp, hp⟩, aux l h hf⟩

@[simp] theorem Seal.rebased_st (k : Seal) (id d : Nat) : (k.rebased id d).st = k.st := rfl
@[simp] theorem Seal.rebased_region (k : Seal) (id d : Nat) : (k.rebased id d).region = k.region := rfl
@[simp] theorem Seal.rebased_held (k : Seal) (id d : Nat) : (k.rebased id d).held = k.held := rfl
@[simp] theorem Seal.passTo_region (k : Seal) (a b : Nat) : (k.passTo a b).region = k.region := rfl
@[simp] theorem Seal.passTo_held (k : Seal) (a b : Nat) : (k.passTo a b).held = k.held := rfl
@[simp] theorem Job.retried_work (j : Job) (k : Nat) (ok : Bool) : (j.retried k ok).work = j.work := rfl
@[simp] theorem Job.retried_core (j : Job) (k : Nat) (ok : Bool) : (j.retried k ok).core = j.core := rfl
@[simp] theorem Job.retried_cyc (j : Job) (k : Nat) (ok : Bool) : (j.retried k ok).cyc = j.cyc := rfl

/-- Work that holds no transfer to the cellar whose status is to come is discarded without a mark. -/
theorem State.discard_settled {s : State} {js : List Job} (h : ∀ j ∈ js, j.unfinished (s.jobNow j) = false) : s.discard js = s := by
  have : js.filter (fun j => j.unfinished (s.jobNow j)) = [] := List.filter_eq_nil_iff.2 fun j hj => by simp [h j hj]
  simp [State.discard, this]

/-- All that a discard can do: mark what seals note of their bytes, and nothing else. -/
theorem State.discard_cases (s : State) (js : List Job) :
    s.discard js = s ∨ ∃ gone, s.discard js = { s with pkgs := s.pkgs.map fun (p : Package) =>
      { p with seals := p.seals.map fun k => { k with held := k.held.map (Held.discard gone) } } } := by
  unfold State.discard
  split
  · exact .inl rfl
  · exact .inr ⟨_, rfl⟩

@[simp] theorem Held.discard_place (l : List Nat) (h : Held) : (h.discard l).place = h.place := by unfold Held.discard; split <;> (try split) <;> rfl
@[simp] theorem Held.discard_val (l : List Nat) (h : Held) : (h.discard l).val = h.val := by unfold Held.discard; split <;> (try split) <;> rfl

/-- A part that is attempted again is late, once. -/
theorem Job.mem_retried_late (j : Job) (k : Nat) (ok : Bool) : k ∈ (j.retried k ok).late := by
  unfold Job.retried
  by_cases h : k ∈ j.late <;> simp [h]

/-- All that the occurrence of a second attempt can do: trap, when a failed one has come; mark the part; or nothing. -/
theorem State.retry_cases (s : State) (j : Job) (k : Nat) (ok under : Bool) :
    (j.failsNow (s.jobNow j) k = true ∧ s.retry j k ok under = s.takeTrap j.core .machine 0 j.word 0) ∨
      (j.failsNow (s.jobNow j) k = false ∧ under = true ∧ s.retry j k ok under = s.updJob j.seq fun i => i.retried k ok) ∨
      (j.failsNow (s.jobNow j) k = false ∧ under = false ∧ s.retry j k ok under = s) := by
  cases h : j.failsNow (s.jobNow j) k <;> cases under <;> simp [State.retry, h]

/-! ### Cycles counted ahead of the scc (R309) -/

/-- A core counts the cycles of its folio as the folio does. -/
theorem State.nowAt_of_folio {s : State} {c : Core} {f : Folio} (h : s.folio? c.id.folio = some f) : s.nowAt c = s.sccOf c.phys + f.lead := by
  simp [State.nowAt, State.leadOf, h]

/-- A folio that counts no cycle ahead goes by the scc of its lead Binder. -/
@[simp] theorem State.folioNow_lead_zero {s : State} {f : Folio} (h : f.lead = 0) : s.folioNow f = s.sccOf f.owner := by
  simp [State.folioNow, h]

/-- The start that a record shows, counted ahead again, is the start that the folio counts from, as 64 bits have it. -/
theorem Folio.trueStart_add_lead (f : Folio) : (f.trueStart + f.lead) % 2 ^ 64 = f.start % 2 ^ 64 := by
  simp only [Folio.trueStart]
  omega

/-! ### Landings ahead -/

@[simp] theorem State.landAll_nil (s : State) : s.landAll [] = s := rfl
@[simp] theorem State.landAll_cons (s : State) (i : Instr) (r : List Instr) : s.landAll (i :: r) = (s.landed i).landAll r := rfl

@[simp] theorem State.suppress_pkgs (s : State) (l : List Nat) : (s.suppress l).pkgs = s.pkgs := rfl
@[simp] theorem State.suppress_cores (s : State) (l : List Nat) : (s.suppress l).cores = s.cores := rfl

/-- With no dispatch in flight, the words that conflicts name do not depend on what lands in the cycle. -/
theorem State.conflicted_none {s : State} {mine : Job → Bool} (h : ∀ j ∈ s.jobs, mine j = true → j.dispatching = false) :
    s.conflicted mine = s.conflicts none mine := by
  have : s.jobs.filter (fun j => mine j && j.dispatching) = [] := List.filter_eq_nil_iff.2 fun j hj => by
    cases hm : mine j <;> simp [h j hj, hm]
  simp [State.conflicted, this, State.settleNamed]

/-- All that naming and landing in turn can end in: names with which what lands names them again, or the last round's names, when
the rounds run out. -/
theorem State.settleNamed_cases (s : State) (mine : Job → Bool) (n : Nat) (named : List Nat) :
    s.conflicts (some (s.afterLandings mine (s.settleNamed mine n named))) mine = s.settleNamed mine n named ∨
      s.settleNamed mine n named = (fun l => s.conflicts (some (s.afterLandings mine l)) mine)^[n] named := by
  induction n generalizing named with
  | zero => exact .inr rfl
  | succ n ih =>
    rw [State.settleNamed, Function.iterate_succ_apply]
    split
    · rename_i h; exact .inl h
    · exact ih _

/-- A write of a register that is written in full in the cycle shares the full write's visit (R156). -/
theorem shareWrite_full {vs : List Visit} {u v w : Visit} (hu : u ∈ vs) (h : u.b = fullGroup) (hv : v.a = u.a) (hw : w.a = u.a) :
    shareWrite vs v w = true := by
  simp only [shareWrite, hv, hw, beq_self_eq_true, Bool.true_and, Bool.or_eq_true, List.any_eq_true]
  exact .inr ⟨u, hu, by simp [h]⟩

end Sys2Proof.Machine
end

