-- ==== Sys2Proof/Tests/Slice0.lean ====
section
/-! SUPPORT. Tests: terms that are refused, words of the opcode map written out, single steps whose results the spec states, and for
every statement with hypotheses a state and operands that meet them. -/

namespace Sys2Proof.Tests

open Sys2Proof.Machine

/-! ### Terms that are not instructions (R68, R72, R202, R337, R356) -/

theorem test_wf_refuses_branch_offset : (Instr.beq 1 2 0).wf = false ∧ (Instr.bgeu 1 2 0x4000).wf = false := by decide
theorem test_wf_refuses_body_offset : (Instr.loopi 3 1).wf = false ∧ (Instr.loopw 3 0x4000).wf = false ∧ (Instr.arm 0 1 1).wf = false ∧
    (Instr.wloop 0 1 2 0).wf = false := by decide
theorem test_wf_refuses_reserved_mode : (Instr.mode 0 0xE).wf = false ∧ (Instr.mode 0 0x50).wf = false ∧ (Instr.mode 0 0x1000).wf = false ∧
    (Instr.mode 0 0x7F8000).wf = false := by decide
theorem test_wf_refuses_equal_fields : (Instr.bacc 0 3 1 3 2).wf = false := by decide
theorem test_wf_refuses_rest_length : (Instr.restAgreement 0 0 0).wf = false ∧ (Instr.restAgreement 0 0 (2 ^ 24 + 1)).wf = false := by decide
theorem test_wf_refuses_empty_group : (Instr.form 0 [] [] 0).wf = false := by decide

/-! ### Words written out from the opcode map: the major opcode and function code of R73 with the operands in their fields (R63) -/

theorem test_decode_alu :
    decodeWord 0x03136C00 = .ok (.addw 17 6 27) ∧
    decodeWord 0x03136C01 = .ok (.subw 17 6 27) ∧
    decodeWord 0x03136C02 = .ok (.andw 17 6 27) ∧
    decodeWord 0x03136C03 = .ok (.orw 17 6 27) ∧
    decodeWord 0x03136C04 = .ok (.xorw 17 6 27) ∧
    decodeWord 0x03136C05 = .ok (.sll 17 6 27) ∧
    decodeWord 0x03136C06 = .ok (.srl 17 6 27) ∧
    decodeWord 0x03136C07 = .ok (.sra 17 6 27) ∧
    decodeWord 0x03136C08 = .ok (.slt 17 6 27) ∧
    decodeWord 0x03136C09 = .ok (.sltu 17 6 27) ∧
    decodeWord 0x03136C0A = .ok (.mulw 17 6 27) ∧
    decodeWord 0x03136C0B = .ok (.mulh 17 6 27) ∧
    decodeWord 0x03136C0C = .ok (.mulhu 17 6 27) ∧
    decodeWord 0x03136C0D = .ok (.divw 17 6 27) ∧
    decodeWord 0x03136C0E = .ok (.divu 17 6 27) ∧
    decodeWord 0x03136C0F = .ok (.remw 17 6 27) ∧
    decodeWord 0x03136C10 = .ok (.minw 17 6 27) ∧
    decodeWord 0x03136C11 = .ok (.maxw 17 6 27) := by
  decide

theorem test_decode_immediates :
    decodeWord 0x05135A5B = .ok (.addi 17 6 0x5A5B) ∧
    decodeWord 0x07135A5B = .ok (.andi 17 6 0x5A5B) ∧
    decodeWord 0x09135A5B = .ok (.ori 17 6 0x5A5B) ∧
    decodeWord 0x0B135A5B = .ok (.xori 17 6 0x5A5B) ∧
    decodeWord 0x0D135A5B = .ok (.slti 17 6 0x5A5B) ∧
    decodeWord 0x0F130029 = .ok (.slli 17 6 41) ∧
    decodeWord 0x11130029 = .ok (.srli 17 6 41) ∧
    decodeWord 0x13130029 = .ok (.srai 17 6 41) ∧
    decodeWord 0x1519ABCD = .ok (.lui 17 0x9ABCD) := by
  decide

theorem test_decode_control :
    decodeWord 0x206D9234 = .ok (.beq 6 27 0x1234) ∧
    decodeWord 0x226D9234 = .ok (.bne 6 27 0x1234) ∧
    decodeWord 0x246D9234 = .ok (.blt 6 27 0x1234) ∧
    decodeWord 0x266D9234 = .ok (.bge 6 27 0x1234) ∧
    decodeWord 0x286D9234 = .ok (.bltu 6 27 0x1234) ∧
    decodeWord 0x2A6D9234 = .ok (.bgeu 6 27 0x1234) ∧
    decodeWord 0x2D19ABCD = .ok (.jal 17 0x9ABCD) ∧
    decodeWord 0x2F135A5B = .ok (.jalr 17 6 0x5A5B) ∧
    decodeWord 0x30601234 = .ok (.loopw 6 0x1234) ∧
    decodeWord 0x33699234 = .ok (.loopi 0x2D3 0x1234) ∧
    decodeWord 0x34000000 = .ok .nop ∧
    decodeWord 0x34000001 = .ok .fend ∧
    decodeWord 0x34000002 = .ok .rstp ∧
    decodeWord 0x34000003 = .ok .tret ∧
    decodeWord 0x36005A5B = .ok (.trap 0x5A5B) ∧
    decodeWord 0x3901DAB1 = .ok (.mode 2 0x1DAB1) ∧
    decodeWord 0x3A230000 = .ok (.modeScalar 2 6) ∧
    decodeWord 0x3C005A5B = .ok (.idle 0x5A5B) ∧
    decodeWord 0x3F100022 = .ok (.sysr 17 (.th 2)) ∧
    decodeWord 0x3E034022 = .ok (.sysw (.th 2) 6) := by
  decide

theorem test_decode_scalar_memory :
    decodeWord 0x41135A5B = .ok (.ldd 17 6 0x5A5B) ∧
    decodeWord 0x43135A5B = .ok (.ldw 17 6 0x5A5B) ∧
    decodeWord 0x45135A5B = .ok (.ldh 17 6 0x5A5B) ∧
    decodeWord 0x47135A5B = .ok (.ldb 17 6 0x5A5B) ∧
    decodeWord 0x49135A5B = .ok (.std 17 6 0x5A5B) ∧
    decodeWord 0x4B135A5B = .ok (.stw 17 6 0x5A5B) ∧
    decodeWord 0x4D135A5B = .ok (.sth 17 6 0x5A5B) ∧
    decodeWord 0x4F135A5B = .ok (.stb 17 6 0x5A5B) ∧
    decodeWord 0x51130000 = .ok (.tlook 17 6) ∧
    decodeWord 0x50036C01 = .ok (.tset 6 27) ∧
    decodeWord 0x50030002 = .ok (.tclr 6) ∧
    decodeWord 0x53100009 = .ok (.mbr 17 9) := by
  decide

theorem test_decode_vector_arithmetic :
    decodeWord 0x60B136C0 = .ok (.vadd 1 17 6 (.vs 27)) ∧
    decodeWord 0x62B136C0 = .ok (.vsub 1 17 6 (.vs 27)) ∧
    decodeWord 0x64B136C0 = .ok (.vmul 1 17 6 (.vs 27)) ∧
    decodeWord 0x66B136C0 = .ok (.vfma 1 17 6 (.vs 27)) ∧
    decodeWord 0x68B136C0 = .ok (.vfms 1 17 6 (.vs 27)) ∧
    decodeWord 0x6AB136C0 = .ok (.vnfma 1 17 6 (.vs 27)) ∧
    decodeWord 0x6CB136C0 = .ok (.vmin 1 17 6 (.vs 27)) ∧
    decodeWord 0x6EB136C0 = .ok (.vmax 1 17 6 (.vs 27)) ∧
    decodeWord 0x70313000 = .ok (.vabs 1 17 6) ∧
    decodeWord 0x70313001 = .ok (.vneg 1 17 6) ∧
    decodeWord 0x70313002 = .ok (.vrcp 1 17 6) ∧
    decodeWord 0x70313003 = .ok (.vrsq 1 17 6) ∧
    decodeWord 0x70313004 = .ok (.vsqrt 1 17 6) ∧
    decodeWord 0x70313005 = .ok (.vpopc 1 17 6) ∧
    decodeWord 0x70313006 = .ok (.vclz 1 17 6) := by
  decide

theorem test_decode_vector_integer :
    decodeWord 0x72B136C0 = .ok (.vand 1 17 6 (.vs 27)) ∧
    decodeWord 0x74B136C0 = .ok (.vor 1 17 6 (.vs 27)) ∧
    decodeWord 0x76B136C0 = .ok (.vxor 1 17 6 (.vs 27)) ∧
    decodeWord 0x78B136C0 = .ok (.vshl 1 17 6 (.vs 27)) ∧
    decodeWord 0x7AB136C0 = .ok (.vshr 1 17 6 (.vs 27)) ∧
    decodeWord 0x7CB136C0 = .ok (.vsra 1 17 6 (.vs 27)) ∧
    decodeWord 0x7EB136C0 = .ok (.vmulh 1 17 6 (.vs 27)) ∧
    decodeWord 0x80A536C0 = .ok (.vceq 1 5 6 (.vs 27)) ∧
    decodeWord 0x80A536C1 = .ok (.vclt 1 5 6 (.vs 27)) ∧
    decodeWord 0x80A536C2 = .ok (.vcle 1 5 6 (.vs 27)) := by
  decide

theorem test_decode_vector_moves :
    decodeWord 0x8231300B = .ok (.vcvt 1 17 6 .n8) ∧
    decodeWord 0x84313000 = .ok (.vredsum 1 17 6) ∧
    decodeWord 0x84313001 = .ok (.vredmax 1 17 6) ∧
    decodeWord 0x84313002 = .ok (.vredmin 1 17 6) ∧
    decodeWord 0x86313180 = .ok (.vsegsum 1 17 6 6) ∧
    decodeWord 0x86313181 = .ok (.vsegredMax 1 17 6 6) ∧
    decodeWord 0x86313182 = .ok (.vsegredMin 1 17 6 6) ∧
    decodeWord 0x883136C0 = .ok (.vperm 1 17 6 27) ∧
    decodeWord 0x88B136C1 = .ok (.vslide 1 17 6 (.vs 27)) ∧
    decodeWord 0x88B136C2 = .ok (.vins 1 17 6 27) ∧
    decodeWord 0x88B136C3 = .ok (.vext 1 17 6 27) ∧
    decodeWord 0x88313004 = .ok (.vmov 1 17 6) ∧
    decodeWord 0x88B106C4 = .ok (.vmovScalar 1 17 27) ∧
    decodeWord 0x8A3136C0 = .ok (.vrng 1 17 6 27) ∧
    decodeWord 0x8C3136C0 = .ok (.vpfx 1 17 6 27) ∧
    decodeWord 0x8C3136C1 = .ok (.vxsect 1 17 6 27) ∧
    decodeWord 0x8C3136C2 = .ok (.vcomp 1 17 6 27) ∧
    decodeWord 0x8C3136C3 = .ok (.vexpd 1 17 6 27) ∧
    decodeWord 0x8E313003 = .ok (.vtbl 1 17 6 3) ∧
    decodeWord 0x90203003 = .ok (.vtld 1 6 3) := by
  decide

theorem test_decode_weights :
    decodeWord 0xA0A536C0 = .ok (.wsoft 1 5 6 (.vs 27)) ∧
    decodeWord 0xA0313181 = .ok (.wsoftg 1 17 6 6) ∧
    decodeWord 0xA2253000 = .ok (.wfromv 1 5 6) ∧
    decodeWord 0xA2311801 = .ok (.wtov 1 17 3) ∧
    decodeWord 0xA2251802 = .ok (.wnot 1 5 3) ∧
    decodeWord 0xA2251983 = .ok (.wmul 1 5 3 6) ∧
    decodeWord 0xA2251804 = .ok (.wmov 1 5 3) ∧
    decodeWord 0xA2A536C5 = .ok (.wdrop 1 5 6 27) ∧
    decodeWord 0xA4D01234 = .ok (.arm 1 5 0x1234) ∧
    decodeWord 0xA63136C4 = .ok (.blend 1 17 6 27 4) ∧
    decodeWord 0xA63136CC = .ok (.bacc 1 17 6 27 4) ∧
    decodeWord 0xA63136D0 = .ok (.bnorm 1 17 6 27) ∧
    decodeWord 0xA63136DC = .ok (.bgrad 1 17 6 27 4) ∧
    decodeWord 0xA8D31234 = .ok (.wloop 1 5 6 0x1234) := by
  decide

theorem test_decode_vector_memory :
    decodeWord 0xB1130800 = .ok (.setvl 17 6 2) ∧
    decodeWord 0xB2313000 = .ok (.vld 1 17 6) ∧
    decodeWord 0xB23136C1 = .ok (.vlds 1 17 6 27) ∧
    decodeWord 0xB23136C2 = .ok (.vldx 1 17 6 27) ∧
    decodeWord 0xB4313000 = .ok (.vst 1 17 6) ∧
    decodeWord 0xB43136C1 = .ok (.vsts 1 17 6 27) ∧
    decodeWord 0xB43136C2 = .ok (.vstx 1 17 6 27) ∧
    decodeWord 0xB63136D1 = .ok (.vstw 1 17 6 (.strided 27) 4) ∧
    decodeWord 0xB8313005 = .ok (.vqst 1 17 6 5) ∧
    decodeWord 0xBA313005 = .ok (.vldq 1 17 6 5) ∧
    decodeWord 0xBC630000 = .ok (.vlrec 6 6) := by
  decide

theorem test_decode_matrix :
    decodeWord 0xC0006363 = .ok (.mshape true 70 99) ∧
    decodeWord 0xC2220000 = .ok (.mzero 1 2) ∧
    decodeWord 0xC2220001 = .ok (.mtrn 1 2) ∧
    decodeWord 0xC42236C0 = .ok (.mopa 1 2 6 27) ∧
    decodeWord 0xC62236C0 = .ok (.mopaq 1 2 6 27) ∧
    decodeWord 0xC82236EB = .ok (.mgath 1 2 6 27 5 3) ∧
    decodeWord 0xCA2236C0 = .ok (.mscale 1 2 6 27) ∧
    decodeWord 0xCCB10EC0 = .ok (.mcolr 1 17 1 27) ∧
    decodeWord 0xCCA236C1 = .ok (.mcolw 1 2 6 27) ∧
    decodeWord 0xCCB10EC2 = .ok (.mrowr 1 17 1 27) ∧
    decodeWord 0xCCA236C3 = .ok (.mroww 1 2 6 27) := by
  decide

theorem test_decode_cluster :
    decodeWord 0xD0313000 = .ok (.vldc 1 17 6) ∧
    decodeWord 0xD2313000 = .ok (.vstc 1 17 6) ∧
    decodeWord 0xD43136C0 = .ok (.vstm 1 17 6 27) ∧
    decodeWord 0xD7136C00 = .ok (.amoadd 17 6 27) ∧
    decodeWord 0xD7136C01 = .ok (.amomin 17 6 27) ∧
    decodeWord 0xD7136C02 = .ok (.amomax 17 6 27) ∧
    decodeWord 0xD7136C03 = .ok (.amoor 17 6 27) ∧
    decodeWord 0xD7136C04 = .ok (.amoxchg 17 6 27) ∧
    decodeWord 0xD7136C05 = .ok (.amocas 17 6 27) ∧
    decodeWord 0xD83136C0 = .ok (.vamoadd 1 17 6 27) := by
  decide

theorem test_decode_engines :
    decodeWord 0xE0030006 = .ok (.rkset 6 6) ∧
    decodeWord 0xE3130000 = .ok (.rkgo 17 6) ∧
    decodeWord 0xE4036C00 = .ok (.pcard 6 27) ∧
    decodeWord 0xE4036C01 = .ok (.psel 6 27) ∧
    decodeWord 0xE4036C02 = .ok (.pdisp 6 27) ∧
    decodeWord 0xE4036C03 = .ok (.pcomb 6 27) ∧
    decodeWord 0xE6036C00 = .ok (.flaunch 6 27) ∧
    decodeWord 0xE8036C00 = .ok (.bgath 6 27) ∧
    decodeWord 0xE8036C01 = .ok (.bscat 6 27) ∧
    decodeWord 0xE8036C02 = .ok (.bstride 6 27) ∧
    decodeWord 0xE8030003 = .ok (.preq 6) ∧
    decodeWord 0xF0036C00 = .ok (.tsend 6 27) ∧
    decodeWord 0xF2313000 = .ok (.tsendv 1 17 6) ∧
    decodeWord 0xF4030000 = .ok (.drift 6) ∧
    decodeWord 0xF4000001 = .ok .stepinc ∧
    decodeWord 0xF6000029 = .ok (.rel 41) := by
  decide

/-- The other forms of vb (R65): vector and immediate, and the two of `vslide`. -/
theorem test_decode_forms :
    decodeWord 0x603136C0 = .ok (.vadd 1 17 6 (.vv 27)) ∧
    decodeWord 0x613136C0 = .ok (.vadd 1 17 6 (.vi (-5))) ∧
    decodeWord 0x893136C1 = .ok (.vslide 1 17 6 (.vi (-5))) ∧
    decodeWord 0xB6313010 = .ok (.vstw 1 17 6 .unit 4) ∧
    decodeWord 0x613136C0 ≠ decodeWord 0x603136C0 := by
  decide

/-- R74: an unassigned opcode, an unassigned function code, a form that is not listed, a field that is not zero, an unassigned
system register, an offset outside R68, reserved mode contents, and `bacc` with vd = vb are no instruction. -/
theorem test_decode_refuses :
    (decodeWord 0x00000000).isOk = false ∧ (decodeWord 0xFFFFFFFF).isOk = false ∧ (decodeWord 0x16000000).isOk = false ∧
    (decodeWord 0x02000012).isOk = false ∧ (decodeWord 0x61800000).isOk = false ∧
    (decodeWord 0x34100000).isOk = false ∧ (decodeWord 0x3E000008).isOk = false ∧ (decodeWord 0x20000000).isOk = false ∧
    (decodeWord 0x3800000E).isOk = false ∧ (decodeWord 0xA60308CA).isOk = false := by
  decide

/-! ### Small states -/

/-- The one core of the states below, and its folio's package, ready with nothing in its memories. -/
def id1 : CoreId := ⟨1, 0, 0, 0, 0⟩
def pkg1 : Package := { Package.atPower 0 0 .default (Vector.replicate 8 []) [] with boot := .ready }

/-- A one-core folio at its cycle 0 with some instruction memory. -/
def solo (imem : Cells 32) : State :=
  { State.reset with
    core := { Core.launch id1 0 0 0 0 with imem := imem }
    pkgs := [pkg1]
    folios := [soloFolio 1 0] }

/-- The same with its core changed. -/
def soloCore (f : Core → Core) : State := { solo [] with core := f (solo []).core }

/-- The same with its package changed. -/
def soloPkg (f : Package → Package) : State := { solo [] with pkgs := [f pkg1] }

/-- The same with its folio changed. -/
def soloFol (f : Folio → Folio) : State := { solo [] with folios := [f (soloFolio 1 0)] }

/-- The same with scalar registers 1 and 2 given. -/
def regs (a b : DWord) : State := soloCore fun c => { c with s := (c.s.set 1 a).set 2 b }

/-- Work in flight, the number 5, and a state that holds it. -/
def job5 (cap : Cap) (w : Work) : Job := ⟨5, id1, 0, 0, cap, w, {}, none, [], [], []⟩
def flying (cap : Cap) (w : Work) : State := { solo [] with jobs := [job5 cap w] }

/-- What a vector word captures under a type with w0, threshold 0 and full length. -/
def capOf (ty : ETy) : Cap := ⟨ty, .rne, 0, 0, 0, 4096, false, -1⟩

/-- The scalar result that a step has put in flight last. -/
def lastScalar : List Job → Option (SReg × DWord × Nat)
  | [] => none
  | [j] => match j.work with | .scalar d x lat => some (d, x, lat) | _ => none
  | _ :: r => lastScalar r
def scalarOf (o : Out) : Option (SReg × DWord × Nat) := match o with | .next t => lastScalar t.jobs | _ => none

/-- A field of the state that a step leaves. -/
def after {α : Type} (o : Out) (f : State → α) : Option α := match o with | .next t => some (f t) | _ => none

/-! ### Single steps whose results the spec states -/

/-- R161: the two special cases of division. -/
theorem test_div_by_zero : scalarOf (exec (.divw 3 1 2) (regs 7 0)) = some (3, 0xFFFFFFFFFFFFFFFF, 34) := by decide
theorem test_div_overflow : scalarOf (exec (.divw 3 1 2) (regs 0x8000000000000000 (-1))) = some (3, 0x8000000000000000, 34) := by decide
theorem test_rem_overflow : scalarOf (exec (.remw 3 1 2) (regs 0x8000000000000000 (-1))) = some (3, 0, 34) := by decide
/-- R163: `lui s4, 0x80000` writes 0xFFFF_FFFF_8000_0000. -/
theorem test_lui : scalarOf (exec (.lui 4 0x80000) (solo [])) = some (4, 0xFFFFFFFF80000000, 1) := by decide
/-- R160: a shift count is bits 5:0. -/
theorem test_sra_count : scalarOf (exec (.sra 3 1 2) (regs 0x8000000000000000 65)) = some (3, 0xC000000000000000, 1) := by decide
/-- R217: under bf16 a request of 1500 grants 1024. -/
theorem test_setvl : (let s := soloCore fun c => { c with s := c.s.set 4 1500, m := c.m.set 1 2 }
    scalarOf (exec (.setvl 5 4 1) s) = some (5, 1024, 1) ∧ after (exec (.setvl 5 4 1) s) (·.core.vl) = some 1024) := by decide
/-- R189: a threshold above 0x8000 is written as 0x8000. -/
theorem test_threshold : after (exec (.sysw (.th 1) 1) (regs 0x9000 0)) (·.core.th[1]) = some 0x8000 := by decide
/-- R175: `idle 100` and the next word at c+101. -/
theorem test_idle : after (exec (.idle 100) (solo [])) (fun t => (t.core.pc, t.core.issueAt)) = some (1, 101) := by decide
/-- R167: a taken branch issues its target at c+3. -/
theorem test_beq : after (exec (.beq 1 0 3) (regs 0 0)) (fun t => (t.core.pc, t.core.issueAt)) = some (3, 3) := by decide
/-- R171: a loop of no passes issues its end word at c+3. -/
theorem test_loop_none : after (exec (.loopi 0 9) (solo [])) (fun t => (t.core.pc, t.core.issueAt, t.core.cons)) = some (9, 3, []) := by decide
/-- R173: loops that end at one word close together. -/
theorem test_loops_close : closeEnds 9 [.loop 4 9 1 none, .loop 2 9 3 none, .loop 1 20 5 none] =
    (2, [.loop 2 9 2 none, .loop 1 20 5 none]) := by decide
/-- R213: a byte out of range reads as zero, and a write there is dropped. -/
theorem test_spad_edge : spadRead [(0xFFFFF, 7)] 0xFFFFF = 7 ∧ spadRead [(0xFFFFF, 7)] 0x100000 = 0 ∧ spadWrite [] 0x100000 7 = [] := by decide
/-- R216: a tag that no entry holds gives the miss code. -/
theorem test_tlook_miss : scalarOf (exec (.tlook 3 1) (regs 5 0)) = some (3, 0xFFFF, 4) := by decide +kernel
/-- R124: an int8 sum clamps to 127 and raises saturate (bit 5 of fs). -/
theorem test_int8_saturates : (let s := { flying (capOf .int8) (.lane { op := .add, dst := .v 3, a := some 1, b := some 2 }) with
      jobs := [{ job5 (capOf .int8) (.lane { op := .add, dst := .v 3, a := some 1, b := some 2 }) with smp := { a := 100, b := 100, g := WeightBits.ones } }] }
    after (exec (.resultLanding 5 0) s) (fun t => (elem t.core.v[3] 8 0, t.core.fs)) = some (127, 0x20)) := by decide +kernel
/-- R256: `amomin` is signed. -/
theorem test_amomin : AmoOp.apply .min 5 (-1) 0 = -1 ∧ AmoOp.apply .cas 5 9 5 = 9 ∧ AmoOp.apply .cas 5 9 4 = 5 := by decide
/-- R347: the distance to a core of another die of the package, over one and over two boundaries. -/
theorem test_distance : (solo []).sendDistance (BitVec.ofNat 64 (2 ^ 28)) = 88 ∧ (solo []).sendDistance (BitVec.ofNat 64 (3 * 2 ^ 28)) = 136 ∧
    (solo []).sendDistance (BitVec.ofNat 64 (2 ^ 24)) = 40 ∧ (solo []).sendDistance 0 = 20 := by decide
/-- R156: groups 1 and 5 of v3, which lie in one bank, are written in one cycle only beside a write of all of v3. -/
theorem test_full_write_shares : (let c : CoreId := ⟨0, 0, 0, 0, 0⟩
    overfull (.regW c 0) (writeAllV 1 c 3 |>.filter (·.res == .regW c 0)) = false ∧
    overfull (.regW c 0) [writeV 2 c 3 1, writeV 3 c 3 5] = true ∧
    overfull (.regW c 0) ((writeAllV 1 c 3).filter (·.res == .regW c 0) ++ [writeV 2 c 3 1, writeV 3 c 3 5]) = false) := by decide
/-- R249: group 1 of a `vstc` from the last 128 bytes of the scratchpad on lies outside, and takes nothing at its target. -/
theorem test_remote_group_outside : (let c : CoreId := ⟨0, 0, 0, 0, 0⟩
    (remoteVisits 1 c ⟨1, 1, 1, 1, 1, 0⟩ .store 3 0xFFF80 18).length = 2 + 17 ∧
    (remoteVisits 1 c ⟨1, 1, 1, 1, 1, 0⟩ .store 3 0xFFF80 19).length = 2) := by decide
/-- R330: a write that changes a byte after the release leaves the byte and the digest open; one that the releasing folio makes in the
cycle of the release, again, does not, and one of another folio does. -/
theorem test_write_after_release : (let k := { Seal.fresh with stray := some ⟨7, 100, [], []⟩ }
    let open_ (f : Nat) : Seal := { k with stray := some ⟨7, 100, [⟨3, 1, .host⟩, ⟨3, 2, .device f⟩], []⟩, spoilt := [7] }
    k.spoil 3 1 2 (.device 7) 101 = open_ 7 ∧ k.spoil 3 1 2 (.device 8) 100 = open_ 8 ∧
      k.spoil 3 1 2 (.device 7) 100 = { k with stray := some ⟨7, 100, [], [(3, 1)]⟩ } ∧ k.spoil 3 1 1 (.device 7) 101 = k) := by decide
/-- R330: after a covered transfer wrote 1 and one whose status is still to come wrote 2, the host may see either, and not the 0 before. -/
theorem test_uncovered_transfer : openHeld [9] [⟨3, 0, .host⟩, ⟨3, 1, .transfer 7 8⟩, ⟨3, 2, .transfer 7 9⟩, ⟨4, 0, .host⟩, ⟨4, 6, .transfer 7 8⟩] =
    [⟨3, 1, .transfer 7 8⟩, ⟨3, 2, .transfer 7 9⟩] := by decide

/-! ### Witnesses: for each statement, and each of its clauses, a state and operands that meet the hypotheses -/

/-- Any work may stand in flight, with any capture and any samples, in a state whose memories are canonical. -/
theorem in_flight (cap : Cap) (w : Work) (sm : Samples) :
    let j : Job := { job5 cap w with smp := sm }
    let s : State := { solo [] with jobs := [j] }
    s.memOk = true ∧ s.job? 5 = some j ∧ j.work = w ∧ j.cap = cap ∧ j.smp = sm ∧ j.cut = none ∧ j.late = [] ∧ j.failed = [] ∧ j.bad = [] ∧
      s.core? j.core = some (solo []).core ∧ s.pkgs[(solo []).core.phys]? = some pkg1 ∧ s.folio? j.core.folio = some (soloFolio 1 0) :=
  ⟨rfl, rfl, rfl, rfl, rfl, rfl, rfl, rfl, rfl, rfl, rfl, rfl⟩

theorem witness_StepRunsDecodedWord : ∃ (s : State) (id : CoreId) (i : Instr),
    s.inputs = [] ∧ s.due = [] ∧ s.nextCore = some id ∧ (s.turn id).core.issueAt = (s.turn id).now ∧
    decodeWord (s.turn id).fetch = .ok i ∧ (s.turn id).onLine = true ∧ (s.turn id).fetch = 0x34000002 :=
  ⟨{ solo [(0, 0x34000002)] with folios := [{ soloFolio 1 0 with restarts := [(0, 0, 1)] }] }, id1, .rstp, rfl, rfl, by decide, by decide,
    by decide, by decide, by decide⟩

theorem witness_StepTakesWhatIsDue :
    (∃ (s : State) (i : Instr) (r : List Instr), s.inputs = i :: r) ∧
    (∃ (s : State) (i : Instr) (r : List Instr), s.inputs = [] ∧ s.due = i :: r) ∧
    (∃ (s : State) (i : Instr), s.inputs = [] ∧ s.due = [] ∧ s.nextCore = none ∧ s.lateEvent = some i) ∧
    (∃ s : State, s.inputs = [] ∧ s.due = [] ∧ s.nextCore = none ∧ s.lateEvent = none) :=
  ⟨⟨{ solo [] with inputs := [.drain 0] }, .drain 0, [], rfl⟩, ⟨{ solo [] with due := [.folioStart 1] }, .folioStart 1, [], rfl, rfl⟩,
    ⟨soloCore fun c => { c with fended := true }, .folioEnd 1, rfl, rfl, by decide, by decide⟩,
    ⟨State.reset, rfl, rfl, by decide, by decide⟩⟩

theorem witness_TurnFocusesOneCore :
    (∃ (s : State) (id : CoreId) (c : Core), s.core? id = some c ∧ s.core.id ≠ id) ∧
    (∃ (c : Core) (v : Live), c.cons[0]? = some (.loop 1 5 2 (some v)) ∧ v.refresh = true) :=
  ⟨⟨{ solo [] with others := [Core.launch ⟨1, 0, 0, 0, 1⟩ 0 0 0 0] }, ⟨1, 0, 0, 0, 1⟩, Core.launch ⟨1, 0, 0, 0, 1⟩ 0 0 0 0, rfl, by decide⟩,
    ⟨{ (solo []).core with cons := [.loop 1 5 2 (some ⟨1, 0, 5, true⟩)] }, ⟨1, 0, 5, true⟩, rfl, rfl⟩⟩

theorem witness_IllegalWordTraps : ∃ (s : State) (id : CoreId), s.inputs = [] ∧ s.due = [] ∧ s.nextCore = some id ∧
    (s.turn id).slot = none ∧ ∀ f ∈ s.folios, f.id = (s.turn id).core.id.folio → f.stop = none :=
  ⟨solo [], id1, rfl, rfl, by decide, by decide, by intro f hf _; simp only [solo, List.mem_singleton] at hf; rw [hf]; rfl⟩

theorem witness_DecodeOfEncode : ∃ (i : Instr) (w : Word), i.wf = true ∧ encode i = some w :=
  ⟨.beq 1 2 0x3FFF, 0x20113FFF, by decide, by decide⟩

theorem witness_EncodeOfDecode : ∃ (w : Word) (i : Instr), decodeWord w = .ok i := ⟨0x34000000, .nop, by decide⟩

theorem witness_ScalarResultLands : ∃ (s : State) (n : Nat) (j : Job) (c : Core) (d : SReg) (x : DWord) (lat : Nat),
    s.job? n = some j ∧ j.work = .scalar d x lat ∧ s.core? j.core = some c :=
  ⟨flying .none (.scalar 31 7 1), 5, job5 .none (.scalar 31 7 1), (solo []).core, 31, 7, 1, rfl, rfl, rfl⟩

/-- Transfers that a record gates, and that none does. -/
def gated : Racker := { status := 4, tid := 9, sh := Vector.replicate 8 0, vl := 4096 }
def clean : Racker := { gated with src := ⟨1, 0, 0⟩, dst := ⟨1, 0, 0⟩ }

/-- Any work may come to any cycle after its issue; a transfer comes to its status cycle, and a group of a send, late, to its own. -/
theorem witness_LandingsDueAtTheirCycles :
    (∀ (cap : Cap) (w : Work) (r : Nat), ∃ (s t : State) (j : Job) (c : Core), exec .tick s = .next t ∧ j ∈ s.jobs ∧
      (∀ i ∈ s.jobs, i.seq = j.seq → i = j) ∧ j.late = [] ∧ j.cap = cap ∧ j.work = w ∧ s.core? j.core = some c ∧ s.jobNow j = j.cyc + r) ∧
    (∃ (s t : State) (j : Job) (c : Core) (d : SReg) (x : DWord), exec .tick s = .next t ∧ j ∈ s.jobs ∧ j.work = .scalar d x 1 ∧ d ≠ 0 ∧
      s.core? j.core = some c ∧ s.jobNow j < j.cyc + 1 ∧ t.jobNow j = j.cyc + 1) ∧
    (∃ (s t : State) (j : Job) (c : Core) (x : Racker), exec .tick s = .next t ∧ j ∈ t.jobs ∧ t.core? j.core = some c ∧
      s.jobNow j < t.jobNow j ∧ t.jobNow j = j.cyc + 16 ∧ j.late = [] ∧ j.work = .racker x ∧ x.rows * x.beatsPerRow = 0 ∧
      x.sHbm = false ∧ x.dHbm = false ∧ x.mode = 0 ∧ x.dist = 0) ∧
    (∃ (s t : State) (j : Job) (c : Core), exec .tick s = .next t ∧ j ∈ t.jobs ∧ t.core? j.core = some c ∧
      s.jobNow j < t.jobNow j ∧ t.jobNow j = j.cyc + (j.lateLanding 0 + 64) ∧ 0 ∈ j.late ∧ 0 ∈ j.failed ∧ j.sending = true) :=
  ⟨fun cap w r => ⟨{ flying cap w with pkgs := [{ pkg1 with scc := r }] }, _, job5 cap w, (solo []).core, rfl, List.mem_singleton.2 rfl,
      by intro i hi _; exact List.mem_singleton.1 hi, rfl, rfl, rfl, rfl, (Nat.zero_add r).symm⟩,
    ⟨flying .none (.scalar 1 7 1), _, job5 .none (.scalar 1 7 1), (solo []).core, 1, 7, rfl, List.mem_singleton.2 rfl, rfl, by decide, rfl,
      by decide, by decide⟩,
    ⟨{ flying .none (.racker gated) with pkgs := [{ pkg1 with scc := 15 }] }, _, job5 .none (.racker gated), (solo []).core, gated, rfl,
      by decide +kernel, by decide +kernel, by decide +kernel, by decide +kernel, rfl, rfl, by decide, by decide, by decide, by decide, by decide⟩,
    ⟨{ solo [] with pkgs := [{ pkg1 with scc := 83 }], jobs := [{ job5 .none (.send 0 7 20) with late := [0], failed := [0] }] }, _,
      { job5 .none (.send 0 7 20) with late := [0], failed := [0] }, (solo []).core, rfl, by decide +kernel, by decide +kernel, by decide +kernel,
      by decide +kernel, by decide, by decide, rfl⟩⟩

/-- Two vector loads that read every bank in the cycle of a third word. -/
def crowded : State :=
  { solo [] with
    pkgs := [{ pkg1 with scc := 10 }]
    jobs := [{ job5 (capOf .int8) (.vmem .load 1 0 .unit) with seq := 1 }, { job5 (capOf .int8) (.vmem .load 2 0 .unit) with seq := 2, cyc := 1 }] }

theorem witness_LoadsRead : (∀ n ∈ [1, 2, 4, 8], (solo []).loadConflict 0xFFFFF n = false) ∧ ∀ n ∈ [1, 2, 4, 8], crowded.loadConflict 0 n = true := by
  decide

theorem witness_ScalarStores : ∃ (s : State) (n : Nat) (j : Job) (c : Core) (ea : DWord) (bs : List Byte),
    s.memOk = true ∧ s.job? n = some j ∧ j.work = .sstore ea bs ∧ bs.length ≤ 8 ∧ j.cut = none ∧ s.core? j.core = some c :=
  ⟨flying .none (.sstore 0xFFFFF [1, 2, 3, 4, 5, 6, 7, 8]), 5, job5 .none (.sstore 0xFFFFF [1, 2, 3, 4, 5, 6, 7, 8]), (solo []).core, 0xFFFFF,
    [1, 2, 3, 4, 5, 6, 7, 8], by decide, rfl, rfl, by decide, rfl, rfl⟩

theorem witness_TagTable : ((regs 255 0).sreg 1).toNat = (255 : Fin 256).val ∧ 256 ≤ ((regs 256 0).sreg 1).toNat := by decide

theorem witness_NextWordEndsConstructs :
    (∃ (c : Core) (next : Nat), c.cons = [.loop 1 9 2 none] ∧ ∀ k r, c.cons = k :: r → k.last ≠ next) ∧
    (∃ (c : Core) (next : Nat) (mask : MaskBits) (r : List Construct), c.cons = .arm next mask :: r) ∧
    (∃ (c : Core) (first next left : Nat) (r : List Construct), c.cons = .loop first next left none :: r ∧ left ≤ 1) ∧
    (∃ (c : Core) (first next left : Nat) (r : List Construct), c.cons = .loop first next left none :: r ∧ 1 < left) :=
  ⟨⟨{ (solo []).core with cons := [.loop 1 9 2 none] }, 8, rfl, by intro k r h; cases h; decide⟩,
    ⟨{ (solo []).core with cons := [.arm 9 1] }, 9, 1, [], rfl⟩,
    ⟨{ (solo []).core with cons := [.loop 1 9 1 none] }, 1, 9, 1, [], rfl, by decide⟩,
    ⟨{ (solo []).core with cons := [.loop 1 9 2 none] }, 1, 9, 2, [], rfl, by decide⟩⟩

/-- A core inside one loop that ends at word 5. -/
def inLoop : State := soloCore fun c => { c with cons := [.loop 1 5 2 none] }

/-- A core at the last word but one of instruction memory. -/
def atTop : State := soloCore fun c => { c with pc := 32766 }

theorem witness_BranchesComplete :
    (∃ (s : State) (o : BitVec 15), 1 ≤ o.toNat ∧ o.toNat ≤ 16383 ∧ s.core.pc.toNat + o.toNat ≤ 32767 ∧
      ∀ k r, s.core.cons = k :: r → s.core.pc.toNat + o.toNat ≤ k.last) ∧
    (∃ (s : State) (o : BitVec 15), 32767 < s.core.pc.toNat + o.toNat) ∧
    (∃ (s : State) (o : BitVec 15) (k : Construct) (r : List Construct), s.core.cons = k :: r ∧ k.last < s.core.pc.toNat + o.toNat) :=
  ⟨⟨inLoop, 5, by decide, by decide, by decide, by intro k r h; cases h; decide⟩, ⟨atTop, 2, by decide⟩,
    ⟨inLoop, 6, .loop 1 5 2 none, [], rfl, by decide⟩⟩

theorem witness_JumpsComplete :
    (∃ (s : State) (a : SReg) (o : BitVec 20) (i : BitVec 15) (t : Nat), t ≤ 32767 ∧
      ¬ ((0 : SReg) = 0 ∧ ∃ k r, s.core.cons = k :: r ∧ k.last < t) ∧ (s.core.pc.toNat : Int) + o.toInt = t ∧
      BitVec.ofInt 64 ((s.sreg a).toInt + i.toInt) = BitVec.ofNat 64 t) ∧
    (∃ (s : State) (a : SReg) (o : BitVec 20) (i : BitVec 15) (t : Nat), 32767 < t ∧ t < 2 ^ 64 ∧ (s.core.pc.toNat : Int) + o.toInt = t ∧
      BitVec.ofInt 64 ((s.sreg a).toInt + i.toInt) = BitVec.ofNat 64 t) ∧
    (∃ (s : State) (a : SReg) (o : BitVec 20) (i : BitVec 15) (t : Nat) (k : Construct) (r : List Construct),
      s.core.cons = k :: r ∧ k.last < t ∧ t < 2 ^ 64 ∧ (s.core.pc.toNat : Int) + o.toInt = t ∧
      BitVec.ofInt 64 ((s.sreg a).toInt + i.toInt) = BitVec.ofNat 64 t) ∧
    (∃ (s : State) (d a : SReg) (o : BitVec 20) (i : BitVec 15) (t : Nat) (k : Construct) (r : List Construct), d ≠ 0 ∧
      s.core.cons = k :: r ∧ k.last = t ∧ t ≤ 32767 ∧ (s.core.pc.toNat : Int) + o.toInt = t ∧
      BitVec.ofInt 64 ((s.sreg a).toInt + i.toInt) = BitVec.ofNat 64 t) ∧
    (∃ (s : State) (o : BitVec 20), (s.core.pc.toNat : Int) + o.toInt < 0) :=
  ⟨⟨regs 32766 0, 1, 32767, 1, 32767, by decide, (by rintro ⟨-, k, r, h, -⟩; cases h), by decide, by decide⟩,
    ⟨regs 32767 0, 1, 32768, 1, 32768, by decide, by decide, by decide, by decide⟩,
    ⟨inLoop, 0, 6, 6, 6, .loop 1 5 2 none, [], rfl, by decide, by decide, by decide, by decide⟩,
    ⟨inLoop, 1, 0, 5, 5, 5, .loop 1 5 2 none, [], by decide, rfl, rfl, by decide, by decide, by decide⟩, ⟨solo [], -1, by decide⟩⟩

theorem witness_LoopsOpen :
    (∃ (s : State) (a : SReg) (o : BitVec 15), 2 ≤ o.toNat ∧ o.toNat ≤ 16383 ∧ s.core.pc.toNat + o.toNat ≤ 32767 ∧
      (∀ k r, s.core.cons = k :: r → s.core.pc.toNat + o.toNat ≤ k.last) ∧ loopCount s.core.cons < 4 ∧ (s.sreg a).toNat < 2 ^ 32) ∧
    (∃ s : State, 4 ≤ loopCount s.core.cons) ∧
    (∃ (s : State) (o : BitVec 15), 32767 < s.core.pc.toNat + o.toNat) ∧
    (∃ (s : State) (o : BitVec 15) (k : Construct) (r : List Construct), s.core.cons = k :: r ∧ k.last < s.core.pc.toNat + o.toNat) ∧
    (∃ (s : State) (a : SReg), 2 ^ 32 ≤ (s.sreg a).toNat) :=
  ⟨⟨inLoop, 0, 5, by decide, by decide, by decide, by intro k r h; cases h; decide, by decide, by decide⟩,
    ⟨soloCore fun c => { c with cons := List.replicate 4 (.loop 1 5 2 none) }, by decide⟩, ⟨atTop, 2, by decide⟩,
    ⟨inLoop, 6, .loop 1 5 2 none, [], rfl, by decide⟩, ⟨regs 0x100000000 0, 1, by decide⟩⟩

theorem witness_ArmsOpen :
    (∃ (s : State) (o : BitVec 15), 2 ≤ o.toNat ∧ o.toNat ≤ 16383 ∧ s.core.pc.toNat + o.toNat ≤ 32767 ∧
      (∀ k r, s.core.cons = k :: r → s.core.pc.toNat + o.toNat ≤ k.last) ∧ armCount s.core.cons < 4) ∧
    (∃ s : State, 4 ≤ armCount s.core.cons) ∧
    (∃ (s : State) (o : BitVec 15), 32767 < s.core.pc.toNat + o.toNat) ∧
    (∃ (s : State) (o : BitVec 15) (k : Construct) (r : List Construct), s.core.cons = k :: r ∧ k.last < s.core.pc.toNat + o.toNat) :=
  ⟨⟨inLoop, 5, by decide, by decide, by decide, by intro k r h; cases h; decide, by decide⟩,
    ⟨soloCore fun c => { c with cons := List.replicate 4 (.arm 5 0) }, by decide⟩, ⟨atTop, 2, by decide⟩,
    ⟨inLoop, 6, .loop 1 5 2 none, [], rfl, by decide⟩⟩

theorem witness_RestartPoint :
    (∃ s : State, s.onLine = true ∧ s.core.tstate = false ∧ ∀ f ∈ s.folios, f.stop = none) ∧
    (∀ k : Bool, ∃ (s : State) (f : Folio) (p : Package), s.onLine = true ∧ s.core.tstate = false ∧ s.folio? s.core.id.folio = some f ∧
      f.stop = none ∧ s.pkgs[f.owner]? = some p ∧ f.phase = .running ∧ f.start ≤ s.folioNow f ∧ f.listed (s.cycleOf f) = true ∧
      f.marked = k ∧ f.line = s.cycleOf f ∧ f.pending ≠ []) ∧
    (∃ (s : State) (f : Folio), s.onLine = true ∧ s.core.tstate = false ∧ s.folio? s.core.id.folio = some f ∧ f.stop ≠ none ∧ s.core.fill ≠ []) ∧
    (∃ s : State, s.onLine = false) ∧ ∃ s : State, s.core.tstate = true :=
  ⟨⟨soloFol fun f => { f with restarts := [(0, 0, 1)] }, by decide, rfl, by intro f hf; simp only [soloFol, List.mem_singleton] at hf; rw [hf]; rfl⟩,
    fun k => ⟨soloFol fun f => { f with restarts := [(0, 0, 1)], marked := k, pending := [⟨2, id1, 0, 64⟩] }, _, pkg1, by revert k; decide +kernel, rfl, rfl, rfl,
      rfl, rfl, by revert k; decide +kernel, by revert k; decide +kernel, rfl, by revert k; decide +kernel, by simp⟩,
    ⟨{ soloFol fun f => { f with restarts := [(0, 0, 1)], stop := some ⟨320, []⟩ } with
        core := { (solo []).core with fill := [(0, 0)] } }, _, by decide +kernel, rfl, rfl, by simp, by decide⟩,
    ⟨solo [], by decide⟩, ⟨soloCore fun c => { c with tstate := true }, rfl⟩⟩

/-- A core with a handler at word 0x100. -/
def handled : State := soloCore fun c => { c with tvec := 0x100 }

theorem witness_Traps :
    (∃ s : State, s.core.tvec ≠ BitVec.allOnes 64 ∧ s.core.tstate = false) ∧ (∃ s : State, s.core.tstate = true) ∧
    (∃ s t u : State, s.core.tvec ≠ BitVec.allOnes 64 ∧ s.core.tstate = false ∧ s.core.cons = [] ∧ exec (.trap 0x7FFF) s = .next t ∧
      exec .tret t = .next u) ∧
    (∃ s : State, s.core.tvec = BitVec.allOnes 64 ∧ ∀ f ∈ s.folios, f.id = s.core.id.folio → f.stop = none) ∧
    (∃ s : State, s.core.tstate = true ∧ ∀ f ∈ s.folios, f.id = s.core.id.folio → f.stop = none) :=
  ⟨⟨handled, by decide, rfl⟩, ⟨soloCore fun c => { c with tstate := true }, rfl⟩,
    ⟨handled, _, _, by decide, rfl, rfl, rfl, rfl⟩,
    ⟨solo [], rfl, by intro f hf _; simp only [solo, List.mem_singleton] at hf; rw [hf]; rfl⟩,
    ⟨soloCore fun c => { c with tstate := true }, rfl, by intro f hf _; simp only [soloCore, solo, List.mem_singleton] at hf; rw [hf]; rfl⟩⟩

/-- The legal contents with the largest fields, and each field one beyond. -/
theorem witness_ModeAndVl :
    (let legal (x : Nat) : Prop := x < 2 ^ 23 ∧ x % 16 ≤ 0xD ∧ x / 16 % 8 ≤ 4 ∧ x / 2 ^ 15 ≠ 255 ∧ (x / 2 ^ 15 = 0 → x / 2 ^ 12 % 8 = 0)
     legal 0x7F7FCD ∧ ¬ legal 0x7F7FCE ∧ ¬ legal 0x7F7FDD ∧ ¬ legal 0x7FFFCD ∧ ¬ legal 0x1FCD ∧ ¬ legal (0x7F7FCD + 2 ^ 23)) ∧
    ∃ (s : State) (k : MReg), (s.core.m[k]).toNat % 16 = 7 :=
  ⟨by decide, soloCore fun c => { c with m := c.m.set 3 7 }, 3, by decide⟩

theorem witness_SystemRegisters :
    (∃ (s : State) (p : Package), s.pkgs[s.core.phys]? = some p ∧ s.jobs = []) ∧ (∃ s : State, s.core.flagAt ≠ s.now) ∧
    (∃ (s : State) (y : FlagIndex), s.core.flagAt = s.now ∧ (s.core.flagNow.filter fun z => z.1 == 2) = [(2, y)] ∧ ∀ z ∈ s.core.flagNow, z.1 ≠ 3) ∧
    (∀ k : Fin 4, SysReg.tvec ≠ .th k) ∧ SysReg.tvec ≠ .fs :=
  ⟨⟨solo [], pkg1, rfl, rfl⟩, ⟨soloCore fun c => { c with flagAt := 1 }, by decide⟩,
    ⟨soloCore fun c => { c with flagNow := [(2, ⟨0, 0, 0, 7⟩)] }, ⟨0, 0, 0, 7⟩, rfl, rfl, by decide⟩, by decide, by decide⟩

/-- A storage record of one row of 1,024 fp32 elements at address 0. -/
def plain : LayoutReg := ⟨2 ^ 96 + 1024 * 2 ^ 128, 2 ^ 96 + 1024 * 2 ^ 128, 0⟩

/-- What is read later: `in_flight` has every lane, memory, layout and remote word. -/
theorem witness_CaptureAtIssue :
    (∃ (s : State) (m : MReg), modeContentsOk (s.core.m[m]).toNat = true ∧ s.core.cons ≠ []) ∧
    (∃ (s : State) (j i : Job) (c : Core) (p : Package), s.jobs = [j] ∧ s.core? j.core = some c ∧ s.pkgs[c.phys]? = some p ∧
      p.powered = true ∧ p.stalled = false ∧ p.restLeft = 0 ∧ (s.sampleJob (s.jobNow j) j).jobs = [i]) ∧
    (∃ (l : LayoutReg) (p : Nat × Nat), l.pairAt 0 = some p) ∧
    (∀ ok : Bool, ∃ (s : State) (j : Job) (c : Core), s.core? j.core = some c ∧ j.cut = none ∧ j.work = .vtld 3 0xFFFF5 ∧ headerOk j.smp.mem = ok) :=
  ⟨⟨soloCore fun c => { c with m := c.m.set 2 0x7F7FCD, cons := [.arm 9 3, .loop 1 10 2 (some ⟨1, 0, 5, false⟩)] }, 2, by decide, by decide⟩,
    ⟨flying .none (.scalar 1 7 34), job5 .none (.scalar 1 7 34), job5 .none (.scalar 1 7 34), (solo []).core, pkg1, rfl, rfl, rfl, rfl, rfl, rfl, rfl⟩,
    ⟨plain, (0, 0), by decide +kernel⟩,
    fun ok => ⟨solo [], { job5 .none (.vtld 3 0xFFFF5) with smp := { mem := if ok then 257 * 2 ^ 48 else 0 } }, (solo []).core, rfl, rfl, rfl,
      by cases ok <;> decide +kernel⟩⟩

/-- Each list of types has a member and leaves one out; mode register contents of both. -/
theorem witness_types : ETy.e2m1 ∈ typesAll ∧ ETy.e2m1 ∉ typesF ++ typesI ∧ ETy.n8 ∈ typesI ∧ ETy.fp32 ∉ typesI ∧ ETy.bf16 ∈ typesW ∧
    ETy.e5m2 ∉ typesW ∧ ETy.e2m3 ∈ typesMx ∧ ETy.fp32 ∉ typesMx ∧ (soloCore fun c => { c with m := c.m.set 1 0xB }).typeOf 1 = .n8 ∧
    (soloCore fun c => { c with m := c.m.set 1 0x7 }).typeOf 1 = .e2m1 ∧ (solo []).typeOf 1 = .fp32 := by decide

/-- Every element lane word in flight, at its last slot. -/
def lane (dst : Dest) (op : LaneOp) : Lane := { op := op, dst := dst, a := some 1, b := some 2 }

theorem witness_IntegerResultsLand : ∃ (s : State) (j : Job) (c : Core) (l : Lane) (f : Int → Int → Int → Int),
    s.job? 5 = some j ∧ j.work = .lane l ∧ l.dst = .v 31 ∧ 15 < 16 ∧ j.cut = none ∧ s.core? j.core = some c ∧ j.cap.ty ∈ typesI ∧
    l.op = .nfma ∧ f = (fun a b d => d - a * b) ∧ (∀ x, l.imm = some x → x < 2 ^ bitsOf j.cap.ty) ∧
    (1024 / bitsOf j.cap.ty * 15 ≤ 511 ∧ 511 < 1024 / bitsOf j.cap.ty * 16 ∧
      isActive j.cap (min j.cap.vl (16384 / bitsOf j.cap.ty)) j.smp.g 511 ∧ clampInt j.cap.ty (0 - 70000 * 70000) ≠ 0 - 70000 * 70000) :=
  ⟨{ solo [] with jobs := [{ job5 (capOf .int32) (.lane (lane (.v 31) .nfma)) with smp := { g := WeightBits.ones } }] },
    { job5 (capOf .int32) (.lane (lane (.v 31) .nfma)) with smp := { g := WeightBits.ones } }, (solo []).core, lane (.v 31) .nfma, _,
    rfl, rfl, rfl, by decide, rfl, rfl, by decide, rfl, rfl, by simp [lane], by unfold isActive; decide +kernel⟩

theorem witness_BitwiseResultsLand : ∃ (s : State) (j : Job) (c : Core) (l : Lane) (f : Nat → Nat → Nat → Nat),
    s.job? 5 = some j ∧ j.work = .lane l ∧ l.dst = .v 31 ∧ 15 < 16 ∧ j.cut = none ∧ s.core? j.core = some c ∧ j.cap.ty ∈ typesI ∧
    l.op = .shl ∧ f = (fun w a b => a * 2 ^ b % 2 ^ w) ∧ l.imm = some 255 ∧ (∀ x, l.imm = some x → x < 2 ^ bitsOf j.cap.ty) :=
  ⟨flying (capOf .n8) (.lane { lane (.v 31) .shl with imm := some 255 }), job5 (capOf .n8) (.lane { lane (.v 31) .shl with imm := some 255 }),
    (solo []).core, { lane (.v 31) .shl with imm := some 255 }, _, rfl, rfl, rfl, by decide, rfl, rfl, by decide, rfl, rfl, rfl,
    by intro x h; cases h; decide⟩

theorem witness_WeightResultsLand :
    (∃ (s : State) (j : Job) (c : Core) (l : Lane), s.job? 5 = some j ∧ j.work = .lane l ∧ l.dst = .w 0 ∧ j.cut = none ∧
      s.core? j.core = some c ∧ j.cap.ty ∈ typesI ∧ l.op = .cle ∧ (∀ x, l.imm = some x → x < 2 ^ bitsOf j.cap.ty)) ∧
    (∃ (s : State) (j : Job) (c : Core) (l : Lane), s.job? 5 = some j ∧ j.work = .lane l ∧ l.dst = .w 7 ∧ j.cut = none ∧
      s.core? j.core = some c ∧ j.cap.ty ∈ typesF ∧ l.op = .wnot ∧ (∀ x, l.imm = some x → x < 2 ^ bitsOf j.cap.ty)) :=
  ⟨⟨flying (capOf .int16) (.lane (lane (.w 0) .cle)), job5 (capOf .int16) (.lane (lane (.w 0) .cle)), (solo []).core, lane (.w 0) .cle, rfl, rfl,
      rfl, rfl, rfl, by decide, rfl, by simp [lane]⟩,
    ⟨flying (capOf .fp16) (.lane (lane (.w 7) .wnot)), job5 (capOf .fp16) (.lane (lane (.w 7) .wnot)), (solo []).core, lane (.w 7) .wnot, rfl, rfl,
      rfl, rfl, rfl, by decide, rfl, by simp [lane]⟩⟩

/-- `in_flight` has every lane word under every capture; here the conditions of single clauses. -/
theorem witness_LaneLandingFrame :
    ¬ ((capOf .n32).inside = true ∧ ∀ m, m < min (capOf .n32).vl 512 → active (capOf .n32) (min (capOf .n32).vl 512) WeightBits.ones m = false) ∧
    (∃ (starts : Nat → Prop) (wb : WeightBits), starts = (fun e => e = 0 ∨ 0 < weightAt wb e) ∧ starts 0 ∧ ∀ e, 0 < e → e < 512 → ¬ starts e) ∧
    (∃ e, e < 16384 / 32 ∧ active (capOf .fp32) 512 WeightBits.ones e = true) :=
  ⟨by decide, ⟨_, 0, rfl, .inl rfl, by intro e h _; simp [weightAt, elem]; omega⟩, 511, by decide, by decide +kernel⟩

/-- `in_flight` has every vector memory word under every capture; here an element that ends at the last byte. -/
theorem witness_VectorMemoryLands : ∃ (s : State) (j : Job) (c : Core) (base : DWord), s.memOk = true ∧ s.job? 5 = some j ∧
    j.work = .vmem .store 3 base (.strided 4) ∧ j.cut = none ∧ s.core? j.core = some c ∧ j.cap.ty ∈ typesF ++ typesI ∧ j.cap.ty ∈ typesW ∧
    (base.toNat + 0 * 4 + 3) % 2 ^ 64 = 2 ^ 20 - 1 ∧ 32 * 0 ≤ 1 ∧ 1 < 32 * 1 ∧ isActive j.cap (min j.cap.vl 512) j.smp.g 1 ∧
    plain.valid = true ∧ plain.mx = false ∧ ({ plain with store := plain.store ||| 0x18 <<< 64 } : LayoutReg).mx = true ∧
    LayoutReg.zero.valid = false ∧ j.smp.hits = [] :=
  ⟨{ solo [] with jobs := [{ job5 (capOf .fp32) (.vmem .store 3 0xFFFFC (.strided 4)) with smp := { g := WeightBits.ones } }] },
    { job5 (capOf .fp32) (.vmem .store 3 0xFFFFC (.strided 4)) with smp := { g := WeightBits.ones } }, (solo []).core, 0xFFFFC, by decide, rfl, rfl,
    rfl, rfl, by decide, by decide, by decide, by decide, by decide, by unfold isActive; decide +kernel, by decide +kernel, by decide +kernel,
    by decide +kernel, by decide +kernel, rfl⟩

/-- `in_flight` has every matrix word with every image; here the conditions of single clauses. -/
theorem witness_MatrixSteps :
    (∃ (s : State) (j : Job) (c : Core) (old : TileBits), s.job? 5 = some j ∧ j.cut = none ∧ j.smp.hits = [] ∧ s.core? j.core = some c ∧
      j.cap.ty ∈ typesW ∧ j.work = .matrix .mtrn (3 : Fin 4).val none none ⟨127, 127, false⟩ (some old)) ∧
    (∃ (s : State) (j i : Job) (y : TileBits), s.job? 5 = some j ∧ s.job? 6 = some i ∧ i ∈ s.jobs ∧ i.core = j.core ∧ j.cut = none ∧
      s.core? j.core = some (solo []).core ∧ j.cap.ty ∈ [ETy.fp16, .bf16] ∧ j.work = .matrix .mopa 3 (some 1) (some 2) ⟨127, 127, false⟩ none ∧
      i.work = .matrix .mopa 3 (some 1) (some 2) ⟨127, 127, false⟩ (some y) ∧
      i.cyc + matReady i.cap .mopa ⟨127, 127, false⟩ ≤ j.cyc + matReady j.cap .mopa ⟨127, 127, false⟩) ∧
    ∀ d : Fin 4, ∃ e : Fin 4, e.val = Nat.xor d.val 1 :=
  ⟨⟨flying (capOf .fp32) (.matrix .mtrn 3 none none ⟨127, 127, false⟩ (some 7)),
    job5 (capOf .fp32) (.matrix .mtrn 3 none none ⟨127, 127, false⟩ (some 7)), (solo []).core, 7, rfl, rfl, rfl, rfl, by decide, rfl⟩,
    ⟨{ solo [] with jobs := [job5 (capOf .fp16) (.matrix .mopa 3 (some 1) (some 2) ⟨127, 127, false⟩ none),
        { job5 (capOf .fp16) (.matrix .mopa 3 (some 1) (some 2) ⟨127, 127, false⟩ (some 7)) with seq := 6 }] },
      job5 (capOf .fp16) (.matrix .mopa 3 (some 1) (some 2) ⟨127, 127, false⟩ none),
      { job5 (capOf .fp16) (.matrix .mopa 3 (some 1) (some 2) ⟨127, 127, false⟩ (some 7)) with seq := 6 }, 7,
      rfl, rfl, List.mem_cons_of_mem _ (List.mem_singleton.2 rfl), rfl, rfl, rfl, by decide, rfl, rfl, Nat.le_refl _⟩, by decide⟩

/-- A second core of the cluster. -/
def id2 : CoreId := ⟨1, 0, 0, 0, 1⟩
def duo (cap : Cap) (w : Work) : State := { flying cap w with others := [Core.launch id2 0 0 0 0] }

theorem witness_AtomicsLand :
    (∃ (s : State) (j : Job) (c o : Core) (a : DWord), s.memOk = true ∧ s.job? 5 = some j ∧ j.work = .amo .cas 0 a 1 2 (some 2) ∧ j.cut = none ∧
      s.core? { j.core with core := a.toNat / 2 ^ 20 % 16 } = some c ∧ s.core? j.core = some o ∧ c.id ≠ o.id ∧ a.toNat / 8 % 2 ^ 17 * 8 = 2 ^ 20 - 8) ∧
    (∃ (s : State) (j : Job) (o : Core), s.job? 5 = some j ∧ j.work = .amo .cas 3 0x1000000 1 2 none ∧ j.cut = none ∧ s.core? j.core = some o ∧
      ¬ ((0x1000000 : DWord).toNat < 2 ^ 24 ∧ (0x1000000 : DWord).toNat / 2 ^ 20 % 16 < (s.extOf j.core.folio).k)) ∧
    (∃ (s : State) (j : Job) (o c : Core) (a : DWord), s.job? 5 = some j ∧ j.work = .amo .cas 3 a 1 2 none ∧ j.cut = none ∧ s.core? j.core = some o ∧
      a.toNat < 2 ^ 24 ∧ a.toNat / 2 ^ 20 % 16 < (s.extOf j.core.folio).k ∧ s.core? { j.core with core := a.toNat / 2 ^ 20 % 16 } = some c) ∧
    (∃ (s : State) (j : Job), s.memOk = true ∧ s.job? 5 = some j ∧ j.work = .vamo 3 0xFFFFC 4 ∧ j.cut = none ∧ j.bad = [] ∧
      j.cap.ty ∈ [.fp32, .fp16, .bf16, .int32, .n32] ∧ j.core.core < (s.extOf j.core.folio).k ∧
      (0xFFFFC : DWord).toNat < 2 ^ 24 ∧ (0xFFFFC : DWord).toNat / 2 ^ 20 % 16 = j.core.core ∧
      (0xFFFFC : DWord).toNat % 2 ^ 20 + elem j.smp.b 32 0 + 32 / 8 = 2 ^ 20 ∧ ¬ (0x1000000 : DWord).toNat < 2 ^ 24) :=
  ⟨⟨duo .none (.amo .cas 0 0x1FFFFF 1 2 (some 2)), job5 .none (.amo .cas 0 0x1FFFFF 1 2 (some 2)), Core.launch id2 0 0 0 0, (solo []).core,
      0x1FFFFF, by decide, rfl, rfl, rfl, rfl, rfl, by decide, by decide⟩,
    ⟨flying .none (.amo .cas 3 0x1000000 1 2 none), job5 .none (.amo .cas 3 0x1000000 1 2 none), (solo []).core, rfl, rfl, rfl, rfl,
      by intro h; exact absurd h.1 (by decide)⟩,
    ⟨flying .none (.amo .cas 3 0xFFFFF 1 2 none), job5 .none (.amo .cas 3 0xFFFFF 1 2 none), (solo []).core, (solo []).core, 0xFFFFF, rfl, rfl, rfl, rfl,
      by decide, by decide +kernel, rfl⟩,
    ⟨flying (capOf .int32) (.vamo 3 0xFFFFC 4), job5 (capOf .int32) (.vamo 3 0xFFFFC 4), rfl, rfl, rfl, rfl, rfl, by decide, by decide +kernel,
      by decide, by decide, by decide +kernel, by decide⟩⟩

theorem witness_RemoteAccessesLand :
    (∃ (s : State) (j : Job) (c : Core), s.memOk = true ∧ s.job? 5 = some j ∧ j.work = .remote .load 3 0x100000 ∧ j.cut = none ∧
      j.cap.ty ∈ typesF ++ typesI ∧ s.core? j.core = some c ∧ (0, j.core) ∉ j.bad) ∧
    (∃ (s : State) (j : Job), s.memOk = true ∧ s.job? 5 = some j ∧ j.work = .remote (.multi 0xFFF) 3 0xFFFFC ∧ j.cut = none ∧
      j.cap.ty ∈ typesF ++ typesI ∧ id1 ∈ remoteTargets (s.extOf j.core.folio) j.core (.multi 0xFFF) 0xFFFFC ∧
      id2 ∉ remoteTargets (s.extOf j.core.folio) j.core (.multi 0xFFF) 0xFFFFC) :=
  ⟨⟨duo (capOf .fp32) (.remote .load 3 0x100000), job5 (capOf .fp32) (.remote .load 3 0x100000), (solo []).core, rfl, rfl, rfl, rfl, by decide, rfl,
      by decide⟩,
    ⟨duo (capOf .fp32) (.remote (.multi 0xFFF) 3 0xFFFFC), job5 (capOf .fp32) (.remote (.multi 0xFFF) 3 0xFFFFC), rfl, rfl, rfl, rfl, by decide,
      by decide +kernel, by decide +kernel⟩⟩

theorem witness_RackerAndPressWords :
    (∃ (s : State) (f : Folio), s.folio? s.core.id.folio = some f ∧ f.holds = true ∧ s.outstanding < 16 ∧ recPress f.record = true) ∧
    (∃ (s : State) (f : Folio), s.folio? s.core.id.folio = some f ∧ f.holds = false ∧ recPress f.record = false) ∧
    (∃ (s : State) (f : Folio), s.folio? s.core.id.folio = some f ∧ f.holds = true ∧ s.outstanding = 16) :=
  ⟨⟨solo [], soloFolio 1 0, rfl, rfl, by decide, by decide +kernel⟩,
    ⟨soloFol fun f => { f with holds := false, record := 0 }, { soloFolio 1 0 with holds := false, record := 0 }, rfl, rfl, by decide +kernel⟩,
    ⟨{ solo [] with jobs := List.replicate 16 (job5 .none (.racker gated)), pkgs := [{ pkg1 with scc := 1 }] }, soloFolio 1 0, rfl, rfl,
      by decide +kernel⟩⟩

/-- A transfer that errors 6 and 3 have met, one whose target core is outside the quire, and each place a beat may go to. -/
theorem witness_RackerLands :
    (∃ (s : State) (j : Job) (c : Core) (p : Package) (r : Racker), s.memOk = true ∧ s.job? 5 = some j ∧ j.work = .racker r ∧ j.cut = none ∧
      s.core? j.core = some c ∧ s.pkgs[c.phys]? = some p ∧ r.gate ≠ 0) ∧
    (∃ (s : State) (j : Job) (c : Core) (p : Package) (r : Racker), s.memOk = true ∧ s.job? 5 = some j ∧ j.work = .racker r ∧ j.cut = none ∧
      s.core? j.core = some c ∧ s.pkgs[c.phys]? = some p ∧ r.gate = 0 ∧ (r.targets j.core (s.extOf j.core.folio)).2 = false ∧ r.errs = [6, 3] ∧
      (3 ∈ r.errs ∧ ∀ e ∈ r.errs, e ≠ 0 → 3 ≤ e) ∧ r.tid < 2 ^ 16 ∧ r.mode ≠ 1 ∧ r.mode ≠ 3 ∧ r.dHbm = false ∧
      j.core ∈ r.reachedTargets j.core (s.extOf j.core.folio)) ∧
    (∃ r : Racker, r.gate = 0 ∧ r.fromCellar = false ∧ 1 < r.count ∧ r.sHbm = true ∧ 511 ∈ r.beatElems 0) ∧
    (∃ r : Racker, r.gate = 0 ∧ r.dHbm = false ∧ r.mode ≠ 3 ∧
      (r.targets id1 ⟨1, 1, 1, 1, 1, 0⟩).2 = true) ∧
    (∃ r : Racker, r.gate = 0 ∧ r.mode = 1) ∧ (∃ r : Racker, r.gate = 0 ∧ r.mode ≠ 1 ∧ r.dHbm = true) ∧
    (∃ r : Racker, r.gate = 0 ∧ r.mode = 3 ∧ r.dHbm = false ∧ r.fromCellar = false) :=
  ⟨⟨flying .none (.racker gated), job5 .none (.racker gated), (solo []).core, pkg1, gated, rfl, rfl, rfl, rfl, rfl, rfl, by decide⟩,
    ⟨flying .none (.racker { clean with errs := [6, 3] }), job5 .none (.racker { clean with errs := [6, 3] }), (solo []).core, pkg1,
      { clean with errs := [6, 3] }, rfl, rfl, rfl, rfl, rfl, rfl, by decide, by decide +kernel, rfl, by decide, by decide, by decide, by decide,
      by decide, by decide +kernel⟩,
    ⟨{ clean with sh := ((Vector.replicate 8 0).set 0 4).set 5 2, vl := 512, src := ⟨1, 3 <<< 64, 0⟩, dst := ⟨1, 3 <<< 64, 0⟩, srcRaw := 3 <<< 64, dstRaw := 3 <<< 64 },
      by decide +kernel, by decide, by decide +kernel, by decide, by decide +kernel⟩,
    ⟨{ clean with sh := (Vector.replicate 8 0).set 7 2 }, by decide, by decide, by decide, by decide +kernel⟩,
    ⟨{ clean with sh := (Vector.replicate 8 0).set 0 5, src := ⟨1, 0xD <<< 64, 0⟩, dst := ⟨1, 0xD <<< 64, 0⟩ }, by decide, by decide⟩,
    ⟨{ clean with sh := (Vector.replicate 8 0).set 0 8 }, by decide, by decide, by decide⟩,
    ⟨{ clean with sh := (Vector.replicate 8 0).set 0 7 }, by decide, by decide, by decide, by decide⟩⟩

/-- A card of one expert with one slot, held by core 0, and a word of one row under it. -/
def card1 : BitVec 512 := 1 + 2 ^ 16 + 2 ^ 64 + 2 ^ 80 + 2 ^ 96
def pressed (op : PressOp) : Press := { op := op, sa := 0, sb := 1, card := some card1 }

theorem witness_PressLands :
    (∀ op, ∃ (s : State) (j : Job) (p : Press), s.memOk = true ∧ s.job? 5 = some j ∧ j.work = .press p ∧ j.cut = none ∧
      p.op = op ∧ (p.govern (s.extOf j.core.folio) j.core).isSome) ∧
    (∀ op, ∃ p : Press, p.op = op ∧ p.govern ⟨1, 1, 1, 1, 1, 0⟩ id1 = none) ∧
    ((pressed .disp).govern ⟨1, 1, 1, 1, 1, 0⟩ id1).any (fun g => decide (0 < g.2 * g.1.k ∧ 0 < g.1.br ∧ 0 < g.1.bo ∧ 0 < g.1.bl g.2) &&
      g.1.expert 0 == some 0 && g.1.expert 1 == none) = true ∧
    (∃ (s : State) (j : Job) (p : Press) (f : Folio), s.job? 5 = some j ∧ j.work = .press p ∧ p.op = .card ∧ s.cardGoverns j = true ∧
      s.folio? j.core.folio = some f ∧ (s.cardClears j).isSome) ∧
    (∃ (s : State) (j : Job) (p : Press), s.job? 5 = some j ∧ j.work = .press p ∧ p.op = .disp ∧ s.arrivals j 0 = [(j, 0)] ∧
      (p.govern (s.extOf j.core.folio) j.core).any (fun g => g.1.expert (entryOf p.entries 0) == some 0 && g.1.owner j.core 0 == j.core)) :=
  ⟨fun op => ⟨flying .none (.press (pressed op)), job5 .none (.press (pressed op)), pressed op, rfl, rfl, rfl, rfl, rfl,
      by cases op <;> decide +kernel⟩,
    fun op => ⟨{ pressed op with card := none }, rfl, rfl⟩, by decide +kernel,
    ⟨flying .none (.press (pressed .card)), job5 .none (.press (pressed .card)), pressed .card, soloFolio 1 0, rfl, rfl, rfl, by decide +kernel, rfl,
      by decide +kernel⟩,
    ⟨{ flying .none (.press { pressed .disp with entries := [(0, 0)] }) with pkgs := [{ pkg1 with scc := 48 }] },
      job5 .none (.press { pressed .disp with entries := [(0, 0)] }), { pressed .disp with entries := [(0, 0)] }, rfl, rfl, rfl, by decide +kernel,
      by decide +kernel⟩⟩

/-- R282, R286: of two rows that land on a window in one cycle, the one whose card gives room for two takes slot 1. -/
theorem test_capacity_of_own_card : (let row (n : Nat) (card : BitVec 512) : Job :=
      { job5 .none (.press { pressed .disp with card := some card, entries := [(0, 0)] }) with seq := n }
    let s : State := { solo [] with jobs := [row 5 card1, row 6 (card1 + 2 ^ 80)] }
    ((s.assignSlots 0 [(row 5 card1, 0), (row 6 (card1 + 2 ^ 80), 0)]).jobs.map fun j => match j.work with | .press p => p.slots | _ => []) =
      [[(0, 0)], [(0, 1)]]) := by decide +kernel

theorem witness_StreamAndLaunchWordsIssue :
    (∃ (s : State) (f : Folio), s.folio? s.core.id.folio = some f ∧ f.holds = true ∧ f.launches < recBudget f.record) ∧
    (∃ (s : State) (f : Folio), s.folio? s.core.id.folio = some f ∧ f.holds = false ∧ f.launches = recBudget f.record) :=
  ⟨⟨soloFol fun f => { f with launches := 63 }, { soloFolio 1 0 with launches := 63 }, rfl, rfl, by decide +kernel⟩,
    ⟨soloFol fun f => { f with launches := 64, holds := false }, { soloFolio 1 0 with launches := 64, holds := false }, rfl, rfl, by decide +kernel⟩⟩

/-- A stream that scatters one byte, with its block at an address. -/
def scatter (a : DWord) : Stream := { op := .scat, sa := a, sb := 0, block := some (2 ^ 64) }

/-- One that gathers two bytes by an index array in HBM, to the last byte of the scratchpad and beyond. -/
def gather : Stream := { op := .gath, sa := 0, sb := 0xFFFFF, block := some (2 ^ 65 + 2 ^ 96) }

/-- R323: of two gathered bytes the one in range lands, and the other offers its address. -/
theorem test_gather_lands :
    after (exec (.storeLanding 5 0) (flying .none (.stream { gather with data := [(0, [7, 9])] })))
      (fun t => (t.core.spad, t.core.oob)) = some ([(0xFFFFF, 7)], 0x100000) := by decide +kernel

/-- A package whose first page holds the header of an image of one core. -/
def imaged : Package := { pkg1 with trans := [(0, 3)], hbm := pkg1.hbm.set 0 [(8, 1), (10, 1), (11, 1), (12, 1), (14, 1)] }
def hostState (p : Package) : State := { solo [] with pkgs := [p], folios := [] }

/-- A `flaunch` whose block, as read, holds a record: the empty one, which is rejected, and that of one core. -/
def launching (r : BitVec 2048) : Job := { job5 .none (.flaunch 0 0) with smp := { mem := r.setWidth 16384 } }
def launchState (r : BitVec 2048) : State := { solo [] with pkgs := [imaged], jobs := [launching r] }

theorem witness_StreamsLand :
    (∃ (s : State) (j : Job) (c : Core) (p : Package), s.job? 5 = some j ∧ j.cut = none ∧ s.core? j.core = some c ∧ j.work = .preq 0x200000 ∧
      s.pkgs[c.phys]? = some p ∧ p.requests.length = 256) ∧
    (∃ (s : State) (j : Job) (c : Core) (r : Stream) (p : Package), s.job? 5 = some j ∧ j.cut = none ∧ s.core? j.core = some c ∧ j.work = .stream r ∧
      s.pkgs[c.phys]? = some p ∧ s.memOk = true ∧ r.addr + 64 = 2 ^ 20 ∧ r.valid j.core.die = true ∧ r.n = 1 ∧ r.listHbm = false ∧
      r.judge (r.va (r.index 0) 0) r.z = 0 ∧ p.openWrites = [] ∧ (p.translate (r.va (r.index 0) 0).toNat true).isSome) ∧
    (∀ late ∈ [[], [1]], ∃ (s : State) (j : Job) (c : Core) (r : Stream), s.job? 5 = some j ∧ j.cut = none ∧ s.core? j.core = some c ∧ j.work = .stream r ∧
      s.memOk = true ∧ r.op = .gath ∧ j.late = late ∧ r.block = some (2 ^ 65 + 2 ^ 96) ∧ r.valid j.core.die = true ∧ r.n = 2 ∧ r.listHbm = true ∧
      r.sb.toNat + 512 * 0 = 2 ^ 20 - 1) ∧
    (∀ r, ∃ (c : Core) (f : Folio) (p : Package), (launchState r).job? 5 = some (launching r) ∧ (launching r).cut = none ∧
      (launchState r).core? (launching r).core = some c ∧ (launching r).work = .flaunch 0 0 ∧ (launchState r).folio? (launching r).core.folio = some f ∧
      f.owner = 0 ∧ (launchState r).pkgs[f.owner]? = some p ∧ ∀ x ∈ (launchState r).folios, x.id = f.id → x = f) ∧
    (launchState 0).reject 0 (BitVec.ofNat 2048 ((launching 0).smp.mem.toNat % 2 ^ 2048)) false ≠ 0 ∧
    BitVec.ofNat 2048 ((launching soloRecord).smp.mem.toNat % 2 ^ 2048) = soloRecord ∧ (launchState soloRecord).reject 0 soloRecord false = 0 ∧
    recTimed soloRecord = false ∧ recRestore soloRecord = false ∧ (extents (recShape soloRecord)).p = 1 :=
  ⟨⟨{ flying .none (.preq 0x200000) with pkgs := [{ pkg1 with requests := List.replicate 256 0 }] }, job5 .none (.preq 0x200000), (solo []).core,
      { pkg1 with requests := List.replicate 256 0 }, rfl, rfl, rfl, rfl, rfl, by decide +kernel⟩,
    ⟨{ flying .none (.stream (scatter 0xFFFC0)) with pkgs := [imaged] }, job5 .none (.stream (scatter 0xFFFC0)), (solo []).core, scatter 0xFFFC0,
      imaged, rfl, rfl, rfl, rfl, rfl, by decide, by decide, by decide +kernel, by decide +kernel, by decide +kernel, by decide +kernel, rfl,
      by decide +kernel⟩,
    fun late _ => ⟨{ solo [] with jobs := [{ job5 .none (.stream gather) with late := late }] }, { job5 .none (.stream gather) with late := late },
      (solo []).core, gather, rfl, rfl, rfl, rfl, rfl, rfl, rfl, rfl, (by decide +kernel : gather.valid 0 = true), by decide +kernel, by decide +kernel,
      by decide⟩,
    fun r => ⟨(solo []).core, soloFolio 1 0, imaged, rfl, rfl, rfl, rfl, rfl, rfl, rfl, by intro x hx _; exact List.mem_singleton.1 hx⟩,
    by decide +kernel, by decide +kernel, by decide +kernel, by decide +kernel⟩

theorem witness_Sends :
    (∃ (s : State) (a : SReg), (s.sreg a).toNat / 2 ^ 30 % 2 ^ 8 = s.core.id.pkg ∧ s.core.id.die < 4 ∧ (s.sreg a).toNat / 2 ^ 28 % 4 = 3) ∧
    (∃ (s : State) (a : SReg) (p : Package), s.pkgs[s.core.phys]? = some p ∧ (s.sreg a).toNat / 2 ^ 30 % 2 ^ 8 = 1 ∧ s.core.id.pkg ≠ 1 ∧
      tableEntry p.links p.group.length p.num s.core.id.die 1 0 = 24 + 100 + 24 + 8) ∧
    (∃ (s : State) (p : Package), s.pkgs[s.core.phys]? = some p ∧ tableEntry p.links p.group.length p.num s.core.id.die 1 0 = 0) ∧
    (∃ (j : Job) (s : State) (c : Core), j.work = .sendv 3 0xFFFFC 0 ∧ j.cut = none ∧ s.core? j.core = some c ∧ j.cap.ty ∈ typesF ++ typesI) ∧
    (∃ (s : State) (j : Job) (a : DWord) (c : Core), s.memOk = true ∧ s.job? 5 = some j ∧ j.cut = none ∧ j.work = .send a 7 20 ∧
      a.toNat < 2 ^ 38 ∧ a.toNat % 2 ^ 20 / 8 * 8 = 2 ^ 20 - 8 ∧ inQuire (s.extOf j.core.folio) ⟨1, 0, 0, 0, 0⟩ = true ∧
      s.core? ⟨1, 0, 0, 0, 0⟩ = some c) ∧
    (∃ (s : State) (j : Job) (a : DWord) (c : Core), s.memOk = true ∧ s.job? 5 = some j ∧ j.cut = none ∧ j.work = .send a 7 20 ∧
      2 ^ 38 ≤ a.toNat ∧ s.core? j.core = some c) ∧
    (∃ (s : State) (j : Job), s.memOk = true ∧ s.job? 5 = some j ∧ j.cut = none ∧ j.work = .sendv 3 0xFFFFC 20 ∧ j.cap.ty ∈ typesF ++ typesI ∧
      inQuire (s.extOf j.core.folio) ⟨1, 0, 0, 0, 0⟩ = true ∧ (0xFFFFC : DWord).toNat % 2 ^ 20 + 0 * 4 + 32 / 8 ≤ 2 ^ 20) :=
  ⟨⟨regs 0x30000000 0, 1, by decide, by decide, by decide⟩,
    ⟨{ regs 0x40000000 0 with pkgs := [{ pkg1 with group := [0, 1], links := [⟨0, 0, 1, 0, 100, 90, true⟩] }] }, 1, _, rfl, by decide, by decide,
      by decide +kernel⟩,
    ⟨solo [], pkg1, rfl, by decide +kernel⟩,
    ⟨job5 (capOf .fp32) (.sendv 3 0xFFFFC 0), solo [], (solo []).core, rfl, rfl, rfl, by decide⟩,
    ⟨flying .none (.send 0xFFFFF 7 20), job5 .none (.send 0xFFFFF 7 20), 0xFFFFF, (solo []).core, by decide, rfl, rfl, rfl, by decide, by decide,
      by decide +kernel, rfl⟩,
    ⟨flying .none (.send 0x4000000000 7 20), job5 .none (.send 0x4000000000 7 20), 0x4000000000, (solo []).core, by decide, rfl, rfl, rfl,
      by decide, rfl⟩,
    ⟨flying (capOf .fp32) (.sendv 3 0xFFFFC 20), job5 (capOf .fp32) (.sendv 3 0xFFFFC 20), rfl, rfl, rfl, rfl, by decide, by decide +kernel,
      by decide⟩⟩

/-- A vote of the folio, and a seal that the folio holds. -/
def vote : Vote := ⟨1, 0, 0, true⟩
def sealed : State := soloPkg fun p => { p with seals := p.seals.set 63 { Seal.fresh with st := .folio 1 } }

/-- The second package of a group of two, joined by a link in either direction. -/
def second (links : List LinkSpec) : Package := { pkg1 with num := 1, group := [0, 1], links := links }
def linkTo1 : LinkSpec := ⟨0, 0, 1, 0, 100, 90, true⟩
def linkFrom1 : LinkSpec := ⟨1, 0, 0, 0, 100, 90, true⟩

/-- R344: in the tick in which a package joins a group, a drift commits by its phase; a second one of the tick keeps the smaller limit. -/
theorem test_drift_after_form : (let p : Package := { pkg1 with num := 1, phi := 1600, tick := 5, commitTick := 5, slewTick := none }
    (p.driftCommit 4295).slew = -100 ∧ ((p.driftCommit 4295).driftCommit 7).slew = -7) := by decide

theorem witness_DriftVotesAndReleases :
    (∃ (s : State) (p : Package), s.pkgs[s.core.phys]? = some p) ∧
    (∀ l ∈ [linkTo1, linkFrom1], ∃ (s : State) (p : Package), s.pkgs[1]? = some p ∧ p.num ≠ 0 ∧ p.links[0]? = some l ∧
      (l.pkgB = p.num ∨ l.pkgB ≠ p.num ∧ l.pkgA = p.num) ∧ s.linkUp p.group l = true ∧ treeLink p.links p.group.length p.num = some 0 ∧
      treeLink p.links p.group.length p.num ≠ some 1 ∧ p.linkPhi = []) ∧
    (∃ (s : State) (p : Package), s.pkgs[1]? = some p ∧ p.links[0]? = some linkTo1 ∧ s.linkUp p.group linkTo1 = false) ∧
    (∃ (s : State) (f : Folio) (p : Package), s.folio? s.core.id.folio = some f ∧ s.pkgs[s.core.phys]? = some p ∧ p.group.length ≤ f.ext.p ∧
      s.votes = []) ∧
    (∃ (s : State) (f : Folio) (p : Package) (v : Vote), s.folio? s.core.id.folio = some f ∧ s.pkgs[s.core.phys]? = some p ∧
      p.group.length ≤ f.ext.p ∧ s.votes = [v] ∧ v.folio = s.core.id.folio ∧ v.at_ = s.now) ∧
    (∃ (s : State) (f : Folio) (p : Package), s.folio? s.core.id.folio = some f ∧ s.pkgs[s.core.phys]? = some p ∧ f.ext.p < p.group.length) ∧
    (∃ (s : State) (v : Vote), s.votes = [v] ∧ v.at_ + 320 = s.sccOf v.pkg) ∧
    (∃ (s : State) (p : Package), s.pkgs[0]? = some p ∧
      ¬ (p.left = false ∧ 1 < p.group.length ∧ (8 * 2 ^ 16 < p.phi.natAbs ∨ 2 ^ 24 ≤ p.tick - p.commitTick))) ∧
    (∃ (s : State) (p : Package), s.pkgs[0]? = some p ∧ (∀ f ∈ s.folios, f.stop = none) ∧ p.left = false ∧ 1 < p.group.length ∧
      8 * 2 ^ 16 < p.phi.natAbs) ∧
    (∃ (s t : State) (p : Package), exec .tick s = .next t ∧ t.pkgs[0]? = some p ∧ p.powered = true ∧ p.left = false ∧ 1 < p.group.length ∧
      8 * 2 ^ 16 < p.phi.natAbs) ∧
    (∃ (s : State) (f : Folio) (p : Package), s.folio? s.core.id.folio = some f ∧ s.pkgs[s.core.phys]? = some p ∧
      p.seals[(63 : Fin 64)].st = .folio s.core.id.folio ∧ p.seals[(63 : Fin 64)].region = none ∧ p.seals[(62 : Fin 64)].st ≠ .folio s.core.id.folio) :=
  ⟨⟨solo [], pkg1, rfl⟩,
    fun l hl => ⟨{ solo [] with pkgs := [pkg1, second [l]] }, second [l], rfl, by revert l; decide +kernel, rfl, by revert l; decide +kernel,
      by revert l; decide +kernel, by revert l; decide +kernel, by revert l; decide +kernel, rfl⟩,
    ⟨{ solo [] with pkgs := [{ pkg1 with fenced := 1 }, second [linkTo1]] }, second [linkTo1], rfl, rfl, by decide +kernel⟩,
    ⟨solo [], soloFolio 1 0, pkg1, rfl, rfl, by decide +kernel, rfl⟩,
    ⟨{ solo [] with votes := [vote] }, soloFolio 1 0, pkg1, vote, rfl, rfl, by decide +kernel, rfl, rfl, rfl⟩,
    ⟨soloPkg fun p => { p with group := [0, 1] }, soloFolio 1 0, { pkg1 with group := [0, 1] }, rfl, rfl, by decide +kernel⟩,
    ⟨{ soloPkg (fun p => { p with scc := 320 }) with votes := [vote] }, vote, rfl, rfl⟩,
    ⟨solo [], pkg1, rfl, by decide⟩,
    ⟨soloPkg fun p => { p with group := [0, 1], phi := 8 * 2 ^ 16 + 1 }, { pkg1 with group := [0, 1], phi := 8 * 2 ^ 16 + 1 }, rfl,
      by intro f hf; simp only [soloPkg, solo, List.mem_singleton] at hf; rw [hf]; rfl, rfl, by decide, by decide⟩,
    ⟨soloPkg fun p => { p with group := [0, 1], phi := 8 * 2 ^ 16 + 1 }, _, _, rfl, rfl, by decide +kernel, by decide +kernel, by decide +kernel,
      by decide +kernel⟩,
    ⟨sealed, soloFolio 1 0, { pkg1 with seals := pkg1.seals.set 63 { Seal.fresh with st := .folio 1 } }, rfl, rfl, by decide, by decide, by decide⟩⟩

/-- R345: the fault of a phase that stamps have just formed is due before the clock moves on. -/
theorem test_fault_of_a_stamp : (soloPkg fun p => { p with group := [0, 1], phi := 8 * 2 ^ 16 + 1 }).lateEvent = some (.driftFault 0) := by
  decide +kernel

/-- Work of the third cycle of a folio, a stop that replays, and one that does not. -/
def late3 (w : Work) : State := { flying .none w with pkgs := [{ pkg1 with scc := 3 }] }
def slip : Stop := ⟨320, [⟨.timing, 0, 0, 9, 0, 0⟩]⟩
def halt : Stop := ⟨320, [⟨.timing, 0, 0, 9, 0, 0⟩, ⟨.illegal, 5, 0, 7, 0, 0⟩]⟩

theorem witness_TimingOccurrences :
    (∃ (s : State) (j : Job) (c : Core), s.job? 5 = some j ∧ s.core? j.core = some c ∧ (∀ f ∈ s.folios, f.id = j.core.folio → f.stop = none) ∧
      j.late = []) ∧
    (∃ (s : State) (id : CoreId) (c : Core) (f : Folio), s.core? id = some c ∧ s.folio? id.folio = some f) ∧
    (∃ (s : State) (j : Job), s.job? 5 = some j ∧ j.retryable (s.jobNow j) 0 = true ∧ j.inFabric (s.jobNow j) 0 = false) ∧
    (∃ (s : State) (j : Job), s.job? 5 = some j ∧ j.retryable (s.jobNow j) 0 = false ∧ j.inFabric (s.jobNow j) 0 = true) ∧
    (∃ (s : State) (j : Job), s.job? 5 = some j ∧ 0 ∈ j.failed ∧ 0 ∈ j.late ∧ s.jobNow j = j.cyc + j.lateLanding 0 + 64) ∧
    (∃ (s : State) (j : Job), s.job? 5 = some j ∧ s.inCluster j (s.jobNow j) 0 j.core = true) ∧
    (∃ (s : State) (j : Job) (r : Racker), s.memOk = true ∧ s.job? 5 = some j ∧ j.cut = none ∧ j.work = .racker r ∧ r.gate = 0 ∧ r.mode ≠ 1 ∧ r.mode ≠ 3 ∧
      r.dHbm = false ∧ r.dst.mx = false) ∧
    (∃ (s : State) (j : Job) (r : Stream), s.job? 5 = some j ∧ j.work = .stream r ∧ r.op = .scat) ∧
    (∃ (s : State) (j : Job) (r : Stream), s.job? 5 = some j ∧ j.work = .stream r ∧ r.op ≠ .scat) ∧
    (∀ y, ∃ (s : State) (j : Job), s.job? 5 = some j ∧ j.cut = some y ∧ s.jobNow j = 3) ∧
    (∃ (s : State) (j : Job) (ahead : Option State), j.cut = none ∧ j.cyc < 2 ∧ s.visits ahead j 2 ≠ []) ∧
    (∃ (v : Visit) (vs : List Visit), v ∈ vs ∧ v.overflows (vs.filter fun w => w.res == v.res) = true ∧
      (∀ w, w ∈ vs → w.overflows (vs.filter fun u => u.res == w.res) = true → w.seq ≤ v.seq) ∧ nameConflicts 3 vs = [v.seq]) ∧
    (∃ s t : State, exec .tick s = .next t ∧ s.due = [] ∧ (∀ j ∈ t.jobs, j.dispatching = false)) :=
  ⟨⟨flying .none (.scalar 1 7 34), job5 .none (.scalar 1 7 34), (solo []).core, rfl, rfl,
      by intro f hf _; simp only [flying, solo, List.mem_singleton] at hf; rw [hf]; rfl, rfl⟩,
    ⟨solo [], id1, (solo []).core, soloFolio 1 0, rfl, rfl⟩,
    ⟨late3 (.stream { scatter 0 with op := .gath }), job5 .none (.stream { scatter 0 with op := .gath }), rfl, by decide +kernel, by decide +kernel⟩,
    ⟨late3 (.send 0x40000000 7 200), job5 .none (.send 0x40000000 7 200), rfl, by decide, by decide⟩,
    ⟨{ solo [] with pkgs := [{ pkg1 with scc := 84 }], jobs := [{ job5 .none (.send 0 7 20) with late := [0], failed := [0] }] },
      { job5 .none (.send 0 7 20) with late := [0], failed := [0] }, rfl, by decide, by decide, by decide +kernel⟩,
    ⟨late3 (.remote .load 3 0), job5 .none (.remote .load 3 0), rfl, by decide +kernel⟩,
    ⟨flying .none (.racker clean), job5 .none (.racker clean), clean, rfl, rfl, rfl, rfl, by decide, by decide, by decide, by decide, by decide⟩,
    ⟨flying .none (.stream (scatter 0)), job5 .none (.stream (scatter 0)), scatter 0, rfl, rfl, rfl⟩,
    ⟨flying .none (.stream { scatter 0 with op := .gath }), job5 .none (.stream { scatter 0 with op := .gath }), { scatter 0 with op := .gath }, rfl,
      rfl, by decide⟩,
    fun y => ⟨{ late3 (.scalar 1 7 34) with jobs := [{ job5 .none (.scalar 1 7 34) with cut := some y }] },
      { job5 .none (.scalar 1 7 34) with cut := some y }, rfl, rfl, rfl⟩,
    ⟨solo [], job5 .none (.sstore 0 [7]), none, rfl, by decide, by decide +kernel⟩,
    ⟨⟨7, .bank id1 0, .write, 0, 0, false⟩, [5, 6, 7].map fun n => ⟨n, .bank id1 0, .write, 0, 0, false⟩, by decide, by decide,
      by decide, by decide⟩,
    ⟨flying .none (.scalar 1 7 34), _, rfl, rfl, by decide +kernel⟩⟩

/-- R211, R212, R301: of three stores to one bank that land in one cycle the latest is named, and its store is not made. -/
theorem test_third_store : (let s : State := { solo [] with
      pkgs := [{ pkg1 with scc := 1 }]
      jobs := [5, 6, 7].map fun n => { job5 .none (.sstore (BitVec.ofNat 64 n) [9]) with seq := n } }
    after (exec .tick s) (fun t => t.due) = some [.preciseTimingTrap 7, .storeLanding 5 0, .storeLanding 6 0, .storeLanding 7 0] ∧
    after (exec (.storeLanding 7 0) { s with pkgs := [{ pkg1 with scc := 2 }], jobs := s.jobs.map fun j => { j with cut := some 2 } })
      (fun t => t.core.spad) = some []) := by decide +kernel

/-- R330: what a transfer had landed in the cellar when a rollback discards it is covered by no later release. -/
theorem test_discarded_transfer : (let x : Racker := { clean with sh := (Vector.replicate 8 0).set 0 7 }
    let s := { flying .none (.racker x) with pkgs := [{ pkg1 with seals := pkg1.seals.set 63 { Seal.fresh with held := [⟨7, 1, .transfer 1 5⟩] } }] }
    ((s.discard s.jobs).pkgs.map fun p => p.seals[(63 : Fin 64)].held) = [[⟨7, 1, .discarded⟩]]) := by decide +kernel
/-- R353: the code whose `stepinc` a rollback restores may have been filled over since the line. -/
theorem test_votes_of_the_line : ({ (solo []).core with imem := [], imemLine := some [(3, 0xF4000001)] } : Core).votes = true := by decide

/-- A folio in the last tick of its restore, and another's vote that lands in the next. -/
def resuming : State := { solo [] with
  folios := [{ soloFolio 1 0 with phase := .restoring, stop := some ⟨320, []⟩ }]
  pkgs := [{ pkg1 with scc := 384 }]
  votes := [⟨2, 0, 65, false⟩] }

/-- R29, R303: the votes of the resume cycle come after the restore. -/
theorem test_votes_after_resume : after (exec .tick resuming) (fun t => t.due) = some [.replayResume 1, .stepVote 2] := by decide +kernel

theorem witness_ReplayRestores :
    (∃ (s : State) (f : Folio) (y : Stop), s.folio? 1 = some f ∧ f.stop = some y ∧ f.replaysAt = true) ∧
    (∃ (s : State) (f : Folio), s.folio? 1 = some f ∧ f.replaysAt = false) ∧
    (∃ (s t : State) (f : Folio) (y : Stop), exec .tick s = .next t ∧ s.due = [] ∧ f ∈ t.folios ∧ f.phase = .restoring ∧ f.stop = some y ∧
      s.sccOf f.owner < t.sccOf f.owner ∧ t.folioNow f = y.y + 65) ∧
    (∃ (s : State) (f : Folio) (y : Stop) (c : Core), s.folio? 1 = some f ∧ f.stop = some y ∧ s.core? id1 = some c ∧ c.fended = false ∧ c.tstate = true) ∧
    (∃ (s : State) (f : Folio) (y : Stop) (c : Core), s.folio? 1 = some f ∧ f.stop = some y ∧ s.core? id1 = some c ∧ c.fended = true ∧ c.snap.line ≠ f.line) :=
  ⟨⟨soloFol fun f => { f with stop := some slip }, { soloFolio 1 0 with stop := some slip }, slip, rfl, rfl, by decide⟩,
    ⟨soloFol fun f => { f with stop := some halt }, { soloFolio 1 0 with stop := some halt }, rfl, by decide⟩,
    ⟨resuming, _, _, ⟨320, []⟩, rfl, rfl, List.mem_singleton.2 rfl, rfl, rfl, by decide +kernel, by decide +kernel⟩,
    ⟨{ soloCore (fun c => { c with tstate := true }) with folios := [{ soloFolio 1 0 with stop := some slip }] },
      { soloFolio 1 0 with stop := some slip }, slip, { (solo []).core with tstate := true }, rfl, rfl, rfl, rfl, rfl⟩,
    ⟨{ soloCore (fun c => { c with fended := true }) with folios := [{ soloFolio 1 0 with stop := some slip, line := 9 }] },
      { soloFolio 1 0 with stop := some slip, line := 9 }, slip, { (solo []).core with fended := true }, rfl, rfl, rfl, rfl, by decide⟩⟩

/-- The illegal word is named before the earlier timing trap. -/
theorem witness_FoliosEnd :
    (∃ (s : State) (f : Folio) (p : Package), s.folio? 1 = some f ∧ s.pkgs[f.owner]? = some p ∧ f.stop = some halt ∧
      namedTrap halt.traps = some ⟨.illegal, 5, 0, 7, 0, 0⟩) ∧
    (∃ (s : State) (f : Folio) (p : Package), s.folio? 1 = some f ∧ s.pkgs[f.owner]? = some p ∧ f.preempt = some (0x200000, none)) :=
  ⟨⟨soloFol fun f => { f with stop := some halt }, { soloFolio 1 0 with stop := some halt }, pkg1, rfl, rfl, rfl, by decide⟩,
    ⟨soloFol fun f => { f with preempt := some (0x200000, none) }, { soloFolio 1 0 with preempt := some (0x200000, none) }, pkg1, rfl, rfl, rfl⟩⟩

/-- The record of a one-core folio waits on a package in stage 5 on which nothing is bound. -/
def waiting : Waiting := ⟨7, soloRecord, true, 0, 0, 0, 0⟩
def queued : State := { soloPkg (fun p => { p with queue := [waiting] }) with folios := [] }
def queuedPkg : Package := { pkg1 with queue := [waiting] }

/-- The context of a folio at its line of cycle 9, and a record that restores it. -/
def restoring : Folio := { soloFolio 2 4096 with record := soloRecord + 16 * 2 ^ (8 * 25) + 0x200000 * 2 ^ (8 * 80), phase := .agreed }
def context9 : Context := ⟨0, 0x200000, [(0, 7, 0)], { soloFolio 1 0 with line := 9, marked := true }, [(solo []).core], []⟩

/-- R309: on a package at scc 4 a folio saved at its line of cycle 9 goes on at cycle 10. -/
theorem test_restore_at_early_scc :
    after (exec (.folioStart 2) { solo [] with pkgs := [{ pkg1 with scc := 4 }], folios := [{ restoring with start := 4 }], contexts := [context9] })
      (fun t => (t.folio? 2).map fun g => (g.start, g.lead, t.cycleOf g)) = some (some (0, 6, 10)) := by decide +kernel
/-- R345: a drift fault reported before a restored folio starts still stops it. -/
theorem test_fault_before_restore :
    after (exec (.folioStart 2) { solo [] with folios := [{ restoring with stop := some ⟨4100, [⟨.drift, 0, 0, 0, 0, 0⟩]⟩ }], contexts := [context9] })
      (fun t => (t.folio? 2).map fun g => g.stop.map (·.y)) = some (some (some 4100)) := by decide +kernel
/-- R227: a rollback drops the words filled after the line, also of a core that had ended before it. -/
theorem test_rollback_drops_fills : ({ (solo []).core with fended := true, fill := [(5, 7)] }.restore 9 100).fill = [] := by decide

/-- A record of two dies, and a package whose die 0 runs another firmware than its other dies. -/
def wide : Waiting := { waiting with record := soloRecord + 2 ^ (8 * 10) }
def mixedPkg : Package := { pkg1 with firmware := pkg1.firmware.set 0 (some ⟨[], 1⟩) }
def mixed : State := { solo [] with pkgs := [mixedPkg], folios := [] }

/-- R395: where the first dies found run two firmwares, a quire is bound on dies of one. -/
theorem test_quire_of_one_firmware : (mixed.readyQuire 0 mixedPkg wide).map (fun b =>
    (mixed.oneFirmware b, b.map fun x => (x.dies.length, x.dies.any (·.die == 0)))) = some (true, [(2, false)]) := by decide +kernel

theorem witness_DispatchAndStart :
    (∃ (s : State) (p : Package) (w : Waiting) (b : List PkgBind), s.folios = [] ∧ (s.beforeScan 0).pkgs[0]? = some p ∧ p.boot = .ready ∧
      p.queue = [w] ∧ p.draining = [] ∧ w.prio < 4 ∧ p.records.length < 1024 ∧ recTimed w.record = false ∧ s.due = [] ∧
      s.folio? (0 * 2 ^ 64 + w.id) = none ∧
      (let q := p.commit 4295
       let s1 := { s.beforeScan 0 with pkgs := (s.beforeScan 0).pkgs.set 0 q }
       s1.couldStart 0 q w = true ∧ s1.readyQuire 0 q w = some b)) ∧
    (∃ (s : State) (b : List PkgBind), s.freeQuire 0 mixedPkg wide (fun _ _ => true) = some b ∧ s.oneFirmware b = false ∧ 0 ∈ s.named 0 wide.record ∧
      (s.freeQuire 0 mixedPkg wide fun q d => s.firmwareOf q d == s.firmwareOf 0 2).isSome) ∧
    (∃ (s : State) (f : Folio), s.folio? 1 = some f ∧ s.savedFor f = none ∧ f.stopsAtStart = false) ∧
    (∃ (s : State) (f : Folio) (p : Package), s.folio? 1 = some f ∧ s.savedFor f = none ∧ f.listed 0 = false ∧ f.stop = none ∧ f.preempt = some (0x200000, some 0) ∧
      s.pkgs[f.owner]? = some p) ∧
    (∃ (s : State) (f : Folio), s.folio? 2 = some f ∧ recRestore f.record = true ∧ s.contexts = []) ∧
    (∃ (s : State) (f : Folio) (x : Context), s.folio? 2 = some f ∧ s.savedFor f = some x ∧ recRestore f.record = true ∧ s.contexts = [] ++ x :: []) ∧
    (∃ (f : Folio) (c : Core), c ∈ f.startCores) :=
  ⟨⟨queued, queuedPkg, waiting, [⟨0, [⟨0, [0]⟩]⟩], rfl, by decide +kernel, rfl, rfl, rfl, by decide, by decide, by decide +kernel, rfl, rfl,
      by decide +kernel⟩,
    ⟨mixed, [⟨0, [⟨0, [0]⟩, ⟨1, [0]⟩]⟩], by decide +kernel, by decide +kernel, by decide +kernel, by decide +kernel⟩,
    ⟨solo [], soloFolio 1 0, rfl, by decide +kernel, by decide⟩,
    ⟨soloFol fun f => { f with preempt := some (0x200000, some 0) }, { soloFolio 1 0 with preempt := some (0x200000, some 0) }, pkg1, rfl,
      by decide +kernel, by decide, rfl, rfl, rfl⟩,
    ⟨{ solo [] with folios := [restoring] }, restoring, by decide +kernel, by decide +kernel, rfl⟩,
    ⟨{ solo [] with folios := [restoring], contexts := [context9] }, restoring, context9, by decide +kernel, by decide +kernel, by decide +kernel, rfl⟩,
    ⟨soloFolio 1 0, (soloFolio 1 0).startCore id1, List.mem_map.2 ⟨id1, by decide +kernel, rfl⟩⟩⟩

theorem witness_RestsAndHolds :
    (∃ (s : State) (p : Package) (start n : Nat), s.pkgs[0]? = some p ∧ p.num = 0 ∧ 0 ∈ s.members 0 ∧ 1 ≤ n ∧ n ≤ 2 ^ 24 ∧ n = 2 ^ 24 ∧
      p.scc + 4096 = start ∧ (∀ r ∈ p.rests, r.at_ ≠ start) ∧ (∀ h ∈ p.holds, h.member ≠ 0) ∧ p.restLeft ≠ 1 ∧ p.powered = true ∧ p.tripped = false ∧
      ∃ t0 t1 t2 t3 : DieSensors, ∃ (d : Fin 4) (k : Fin 16), 920 ≤ (#v[t0, t1, t2, t3] : Sensors)[d][k].toNat) ∧
    (∃ (s : State) (p : Package), s.pkgs[0]? = some p ∧ p.rests = [⟨5, 1⟩] ∧ 5 = p.scc) ∧
    (∃ (s : State) (p : Package), s.pkgs[0]? = some p ∧ p.restLeft = 1) ∧
    (∃ (s : State) (p : Package), s.pkgs[0]? = some p ∧ ∃ h ∈ p.holds, h.from_ = p.tick) ∧
    (∃ (s : State) (p : Package), s.pkgs[1]? = some p ∧ 0 ∉ s.members 1 ∧ p.num ≠ 0) :=
  ⟨⟨solo [], pkg1, 4096, 2 ^ 24, rfl, rfl, by decide, by decide, by decide, rfl, rfl, (by intro r h; cases h), (by intro r h; cases h), by decide,
      rfl, rfl, Vector.replicate 16 0, Vector.replicate 16 0, Vector.replicate 16 0, Vector.replicate 16 920, 3, 15, by decide⟩,
    ⟨soloPkg fun p => { p with scc := 5, rests := [⟨5, 1⟩] }, { pkg1 with scc := 5, rests := [⟨5, 1⟩] }, rfl, rfl, rfl⟩,
    ⟨soloPkg fun p => { p with restLeft := 1 }, { pkg1 with restLeft := 1 }, rfl, rfl⟩,
    ⟨soloPkg fun p => { p with holds := [⟨0, 0, none⟩] }, { pkg1 with holds := [⟨0, 0, none⟩] }, rfl, ⟨0, 0, none⟩, List.mem_singleton.2 rfl, rfl⟩,
    ⟨{ solo [] with pkgs := [pkg1, { pkg1 with group := [1], num := 1 }] }, { pkg1 with group := [1], num := 1 }, rfl, by decide, by decide⟩⟩

/-- A bundle with one component of each type, each empty, and one with Binder firmware alone. -/
def bundle3 : List Byte :=
  [64, 0, 0, 0, 1, 0, 0, 0, 3, 0, 0, 0, 0, 0, 0, 0] ++ [1, 0, 0, 0, 64, 0, 0, 0, 0, 0, 0, 0, 0, 0, 0, 0] ++
    [2, 0, 0, 0, 64, 0, 0, 0, 0, 0, 0, 0, 0, 0, 0, 0] ++ [3, 0, 0, 0, 64, 0, 0, 0, 0, 0, 0, 0, 0, 0, 0, 0]
def bundle2 : List Byte := [32, 0, 0, 0, 1, 0, 0, 0, 1, 0, 0, 0, 0, 0, 0, 0] ++ [2, 0, 0, 0, 32, 0, 0, 0, 0, 0, 0, 0, 0, 0, 0, 0]

/-- A package that trusts the key of a bundle. -/
def trusts (b : List Byte) (boot : Boot) : Package :=
  { pkg1 with boot := boot, bundle := some b, fuses := { Fuses.default with roots := [(sha3 (bundleKey b), false)] } }

theorem verifies (b : List Byte) (running : Bool) (boot : Boot) (h : bundleFormOk b running = true)
    (hs : Config.mldsaVerify (bundleKey b) (sha3 (bundleSigned b)) (bundleSig b) = true) : (trusts b boot).bundleReason b running = 0 := by
  simp [Package.bundleReason, trusts, Fuses.default, pkg1, Package.atPower, h, hs]

/-- Whether a signature verifies is not the spec's to say (log 8): the first two clauses are met wherever these signatures do. -/
theorem witness_PowerAndFirmware :
    (Config.mldsaVerify (bundleKey bundle3) (sha3 (bundleSigned bundle3)) (bundleSig bundle3) = true →
      ∃ (s : State) (p : Package), s.pkgs[0]? = some p ∧ p.powered = true ∧ p.boot = .verifying ∧ p.bundle = some bundle3 ∧
        p.bundleReason bundle3 false = 0) ∧
    (Config.mldsaVerify (bundleKey bundle2) (sha3 (bundleSigned bundle2)) (bundleSig bundle2) = true →
      ∃ (s : State) (p : Package), s.pkgs[0]? = some p ∧ p.powered = true ∧ p.boot = .ready ∧ p.bundleReason bundle2 true = 0) ∧
    (∃ (s : State) (p : Package), s.pkgs[0]? = some p ∧ p.powered = true ∧ p.boot = .verifying ∧ p.bundle = some [] ∧ p.bundleReason [] false ≠ 0) ∧
    (∃ (s : State) (p : Package), s.pkgs[0]? = some p ∧ p.powered = true ∧ p.boot = .ready ∧ p.bundleReason [] true ≠ 0) ∧
    (∀ b, ∃ (s : State) (p : Package), s.pkgs[0]? = some p ∧ p.powered = true ∧ p.boot = b) ∧
    (∃ (s : State) (p : Package), s.pkgs[0]? = some p ∧ p.powered = false) ∧
    (∃ (s : State) (p : Package) (f : Firmware), s.pkgs[0]? = some p ∧ p.pendingFw = [f] ∧ 3 ∈ p.switching ∧ (∃ d ∈ p.switching, d ≠ 3) ∧
      s.dieInUse 0 3 = false ∧ s.dieInUse 0 0 = true) ∧
    (∃ (s : State) (p : Package) (f : Firmware), s.pkgs[0]? = some p ∧ p.pendingFw = [f] ∧ p.switching = [3] ∧ s.dieInUse 0 3 = false) :=
  ⟨fun h => ⟨soloPkg fun _ => trusts bundle3 .verifying, trusts bundle3 .verifying, rfl, rfl, rfl, rfl, verifies _ _ _ (by decide +kernel) h⟩,
    fun h => ⟨soloPkg fun _ => trusts bundle2 .ready, trusts bundle2 .ready, rfl, rfl, rfl, verifies _ _ _ (by decide +kernel) h⟩,
    ⟨soloPkg fun p => { p with boot := .verifying, bundle := some [], fuses := { p.fuses with roots := [] } },
      { pkg1 with boot := .verifying, bundle := some [], fuses := { pkg1.fuses with roots := [] } }, rfl, rfl, rfl, rfl, by simp [Package.bundleReason]⟩,
    ⟨soloPkg fun p => { p with fuses := { p.fuses with roots := [] } }, { pkg1 with fuses := { pkg1.fuses with roots := [] } }, rfl, rfl, rfl,
      by simp [Package.bundleReason]⟩,
    fun b => ⟨soloPkg fun p => { p with boot := b }, { pkg1 with boot := b }, rfl, rfl, rfl⟩,
    ⟨soloPkg fun p => { p with powered := false }, { pkg1 with powered := false }, rfl, rfl⟩,
    ⟨soloPkg fun p => { p with pendingFw := [⟨[], 1⟩], switching := [0, 3] }, { pkg1 with pendingFw := [⟨[], 1⟩], switching := [0, 3] }, ⟨[], 1⟩,
      rfl, rfl, by decide, by decide, by decide, by decide⟩,
    ⟨soloPkg fun p => { p with pendingFw := [⟨[], 1⟩], switching := [3] }, { pkg1 with pendingFw := [⟨[], 1⟩], switching := [3] }, ⟨[], 1⟩,
      rfl, rfl, rfl, by decide⟩⟩

/-- A waiting change to the last entry of the last stack. -/
def change : Change := ⟨7, 32767, 1, false, none⟩

theorem witness_Translation :
    let mine (c : Change) : Bool := decide (c.stack = 7 ∧ c.index = 32767)
    (∃ (s : State) (p : Package), s.pkgs[0]? = some p ∧ p.powered = true ∧ p.boot = .ready ∧ Cells.wf p.trans = true ∧ p.trans ≠ [] ∧
      s.holder 0 = none ∧ ∀ c ∈ p.changes, mine c = false) ∧
    (∃ (s : State) (p : Package), s.pkgs[0]? = some p ∧ p.powered = true ∧ p.boot = .ready ∧ Cells.wf p.trans = true ∧ s.holder 0 ≠ none) ∧
    (∃ (s : State) (p : Package) (c : Change), s.pkgs[0]? = some p ∧ p.powered = true ∧ p.boot = .ready ∧ Cells.wf p.trans = true ∧
      s.holder 0 = none ∧ p.changes.find? mine = some c) ∧
    (∃ (s : State) (p : Package) (c : Change) (f : Folio), s.pkgs[0]? = some p ∧ p.powered = true ∧ p.boot = .ready ∧ Cells.wf p.trans = true ∧
      p.changes.find? mine = some c ∧ s.holder 0 = some f ∧ f.phase ≠ .restoring ∧ f.stop = none ∧ c.line = some 9 ∧ f.start + 9 = s.folioNow f) ∧
    (∃ (s : State) (p : Package) (c : Change) (f : Folio), s.pkgs[0]? = some p ∧ p.powered = true ∧ p.boot = .ready ∧ Cells.wf p.trans = true ∧
      p.changes.find? mine = some c ∧ s.holder 0 = some f ∧ ∀ l, c.line = some l → f.start + l ≠ s.folioNow f) :=
  ⟨⟨{ soloPkg (fun p => { p with trans := [(262143, 5)] }) with folios := [] }, { pkg1 with trans := [(262143, 5)] }, rfl, rfl, rfl, by decide,
      by decide, rfl, by intro c h; cases h⟩,
    ⟨solo [], pkg1, rfl, rfl, rfl, by decide, by decide⟩,
    ⟨{ soloPkg (fun p => { p with changes := [change] }) with folios := [] }, { pkg1 with changes := [change] }, change, rfl, rfl, rfl, by decide, rfl,
      by decide⟩,
    ⟨soloPkg fun p => { p with scc := 9, changes := [{ change with line := some 9 }] }, { pkg1 with scc := 9, changes := [{ change with line := some 9 }] },
      { change with line := some 9 }, soloFolio 1 0, rfl, rfl, rfl, by decide, by decide, rfl, by decide, rfl, rfl, rfl⟩,
    ⟨soloPkg fun p => { p with changes := [change] }, { pkg1 with changes := [change] }, change, soloFolio 1 0, rfl, rfl, rfl, by decide, by decide,
      rfl, by intro l h; cases h⟩⟩

theorem witness_HostQueueAndSeals :
    (∃ (s : State) (p : Package) (r : BitVec 2048), s.pkgs[0]? = some p ∧ p.powered = true ∧ p.boot = .ready ∧
      s.reject 0 r (64 ≤ (p.queue.filter fun w => w.host && w.prio == recPrio r).length) = 0) ∧
    (∃ (s : State) (p : Package) (r : BitVec 2048), s.pkgs[0]? = some p ∧ p.powered = true ∧ p.boot = .ready ∧
      s.reject 0 r (64 ≤ (p.queue.filter fun w => w.host && w.prio == recPrio r).length) ≠ 0) ∧
    (∃ (s : State) (p : Package), s.pkgs[0]? = some p ∧ s.notEnded 0 p.queue 2 = false) ∧
    (∃ (s : State) (p : Package), s.pkgs[0]? = some p ∧ s.notEnded 0 p.queue 7 = true ∧ s.folio? (0 * 2 ^ 64 + 7) = none) ∧
    (∃ (s : State) (p : Package) (f : Folio), s.pkgs[0]? = some p ∧ s.folio? (0 * 2 ^ 64 + 1) = some f ∧ f.owner = 0 ∧ f.preempt = none ∧
      ∀ a ∈ p.asks, a.1 ≠ 1) ∧
    (∃ (p : Package) (x : Completion) (xs : List Completion), p.records = x :: xs) ∧
    (∃ (s : State) (p : Package), s.pkgs[0]? = some p ∧ p.powered = true ∧ p.boot = .ready ∧ p.seals[(63 : Fin 64)].st = .host ∧ p.openWrites = [] ∧
      ¬ ∃ j r x, j ≠ (63 : Fin 64) ∧ p.seals[j].region = some r ∧ r.cellar = true ∧ r.base ≤ x ∧ x < r.base + r.len ∧ 0 ≤ x ∧ x < 0 + 64) ∧
    (∃ p : Package, ∃ j r x, j ≠ (63 : Fin 64) ∧ p.seals[j].region = some r ∧ r.cellar = true ∧ r.base ≤ x ∧ x < r.base + r.len ∧ 0 ≤ x ∧
      x < 0 + 64) ∧
    (∃ (s : State) (p : Package), s.pkgs[0]? = some p ∧ p.powered = true ∧ p.boot = .ready ∧ p.seals[(63 : Fin 64)].st = .opened ∧ 63 ∈ p.acquires) ∧
    (∃ (p : Package) (w : OpenWrite) (r : Region), p.memOk = true ∧ p.openWrites = [w] ∧ p.seals[(63 : Fin 64)] = { Seal.fresh with region := some r } ∧
      r.contains w.cellar w.va = true ∧ w.covered = false) :=
  ⟨⟨hostState imaged, imaged, soloRecord, rfl, rfl, rfl, by decide +kernel⟩, ⟨hostState pkg1, pkg1, 0, rfl, rfl, rfl, by decide +kernel⟩,
    ⟨solo [], pkg1, rfl, by decide⟩, ⟨queued, queuedPkg, rfl, by decide, rfl⟩,
    ⟨solo [], pkg1, soloFolio 1 0, rfl, rfl, rfl, rfl, by intro a h; cases h⟩,
    ⟨{ pkg1 with records := [⟨1, 0, 9, 9, 0, 0, 0, 0, 0, 0, 0, []⟩] }, _, _, rfl⟩,
    ⟨solo [], pkg1, rfl, rfl, rfl, by decide, rfl, by
      rintro ⟨j, r, x, -, h, -⟩
      have : ∀ j : Fin 64, pkg1.seals[j].region = none := by decide
      rw [this j] at h
      cases h⟩,
    ⟨{ pkg1 with seals := pkg1.seals.set 62 { Seal.fresh with region := some ⟨true, 63, 1⟩ } }, 62, ⟨true, 63, 1⟩, 63, by decide, rfl, rfl, by decide, by decide,
      by decide, by decide⟩,
    ⟨soloPkg fun p => { p with seals := p.seals.set 63 { Seal.fresh with st := .opened }, acquires := [63] },
      { pkg1 with seals := pkg1.seals.set 63 { Seal.fresh with st := .opened }, acquires := [63] }, rfl, rfl, rfl, by decide, by decide⟩,
    ⟨{ pkg1 with seals := pkg1.seals.set 63 { Seal.fresh with region := some ⟨true, 0, 64⟩ }, openWrites := [⟨true, 0, 63, 63, 5, false, []⟩] },
      ⟨true, 0, 63, 63, 5, false, []⟩, ⟨true, 0, 64⟩, by decide, rfl, by decide, by decide, rfl⟩⟩

theorem witness_HostAccesses :
    (∀ b ∈ [Boot.awaiting, Boot.verifying], ∃ (s : State) (p : Package), s.pkgs[0]? = some p ∧ p.powered = true ∧ p.boot = b) ∧
    (∃ (s : State) (p : Package), s.pkgs[0]? = some p ∧ p.powered = true ∧ p.boot = .ready ∧ p.memOk = true ∧ p.translate 2097151 true = some (0, 0, 2097151) ∧
      p.translate 2097151 false = some (0, 0, 2097151) ∧ p.openWrites = [] ∧ (∀ k : Fin 64, p.seals[k].held = [] ∧ p.seals[k].stray = none) ∧
      (∀ k : Fin 64, p.seals[k].region = none) ∧ (s.folios.filter fun f => f.boundOn 0) = [] ∧ p.translate 2097152 true = none ∧ p.translate 2097152 false = none) ∧
    (∃ (p : Package) (w : OpenWrite), p.openWrites = [w] ∧ w.covered = false ∧ ∀ k : Fin 64, p.seals[k].st = .host) ∧
    (∃ (p : Package) (r : Region), p.seals[(63 : Fin 64)] = { Seal.fresh with st := .opened, region := some r, held := [⟨7, 5, .device 1⟩] } ∧ r.contains true 7 = true ∧
      ∀ n : Fin 64, n ≠ 63 → p.seals[n].region = none) ∧
    (∃ (p : Package) (r : Region) (y : Stray), p.openWrites = [] ∧ p.seals[(63 : Fin 64)] = { Seal.fresh with region := some r, stray := some y } ∧
      r.contains true 7 = true ∧ y.held = [⟨7, 5, .device 1⟩] ∧ y.kept = [(8, 6)] ∧ p.scc ≤ y.upto ∧ p.memOk = true ∧
      ∀ n : Fin 64, n ≠ 63 → p.seals[n].region = none) ∧
    (∃ (s : State) (p : Package), s.pkgs[0]? = some p ∧ p.powered = true ∧ p.boot = .ready ∧ (s.folios.filter fun f => f.boundOn 0) ≠ []) ∧
    (let x : DWord := 4500; 1000 ≤ x.toNat ∧ x.toNat ≤ 4500) :=
  ⟨fun b _ => ⟨soloPkg fun p => { p with boot := b }, { pkg1 with boot := b }, rfl, rfl, rfl⟩,
    ⟨hostState imaged, imaged, rfl, rfl, rfl, by decide, by decide, by decide, rfl, by decide, by decide, rfl, by decide, by decide⟩,
    ⟨{ pkg1 with openWrites := [⟨true, 0, 63, 63, 5, false, []⟩] }, ⟨true, 0, 63, 63, 5, false, []⟩, rfl, rfl, by decide⟩,
    ⟨{ pkg1 with seals := pkg1.seals.set 63 { Seal.fresh with st := .opened, region := some ⟨true, 0, 64⟩, held := [⟨7, 5, .device 1⟩] } }, ⟨true, 0, 64⟩,
      by decide, by decide, by decide⟩,
    ⟨{ pkg1 with seals := pkg1.seals.set 63 { Seal.fresh with region := some ⟨true, 0, 64⟩, stray := some ⟨1, 9, [⟨7, 5, .device 1⟩], [(8, 6)]⟩ } }, ⟨true, 0, 64⟩,
      ⟨1, 9, [⟨7, 5, .device 1⟩], [(8, 6)]⟩, rfl, by decide, by decide, rfl, rfl, by decide, by decide, by decide⟩,
    ⟨solo [], pkg1, rfl, rfl, rfl, by decide +kernel⟩, by decide⟩

/-- R330: a replay that lands 1 and then 2 again on a byte that was 2 at the release leaves the host's view at 2 all along; another
folio that lands 1 leaves it open. -/
theorem test_replay_keeps_view : (let p : Package := { pkg1 with
      cellar := [(7, 2)], seals := pkg1.seals.set 63 { Seal.fresh with region := some ⟨true, 0, 64⟩, stray := some ⟨1, 9, [], []⟩ } }
    let lands (p : Package) (b : Byte) (f : Nat) : Package := p.put true 0 7 7 b (.device f)
    let sees (p : Package) : List Byte := p.hostSees true 7 0 7
    sees (lands p 1 1) = [2] ∧ sees (lands (lands p 1 1) 2 1) = [2] ∧ sees (lands { p with scc := 10 } 1 1) = [1, 2, 1] ∧
      sees (lands p 1 2) = [1, 2, 1]) := by decide +kernel
/-- R337: a Dissolve beside one that waits, with no timed folio, answers both. -/
theorem test_two_dissolves : after (exec (.dissolve 0) { soloPkg (fun p => { p with dissolving := 1 }) with folios := [] })
    (fun t => t.pkgs.map fun p => (p.dissolving, p.responses)) = some [(0, [⟨0x11, 0, []⟩, ⟨0x11, 0, []⟩])] := by decide +kernel

theorem witness_Groups :
    (∃ (s : State) (p : Package), s.pkgs[0]? = some p ∧ p.powered = true ∧ p.boot = .ready ∧ [0, 1].head? = some 0 ∧ [0, 1].Nodup ∧
      (∀ q ∈ [0, 1], s.canJoin q = true) ∧ s.formReason [0, 1] [⟨0, 0, 1, 0, 100, 90, true⟩] = 0 ∧ s.formReason [0, 1] [] ≠ 0) ∧
    (∃ (s : State) (p : Package), s.pkgs[0]? = some p ∧ p.powered = true ∧ p.boot = .ready ∧ p.dissolving = 2 ∧ 0 ∈ s.members 0 ∧ p.num = 0) ∧
    (∃ (s : State) (p : Package) (f : Folio), s.pkgs[0]? = some p ∧ p.powered = true ∧ p.boot = .ready ∧ p.num = 0 ∧ f ∈ s.folios ∧
      recTimed f.record = true ∧ 0 ∈ s.members 0 ∧ f.boundOn 0 = true) ∧
    (∃ (s : State) (p : Package), s.pkgs[0]? = some p ∧ p.powered = true ∧ p.boot = .ready ∧ p.num = 1 ∧ p.dissolving = 0) ∧
    (∃ (p : Package) (formation other : DWord), formation.toNat = p.formation ∧ other.toNat ≠ p.formation) :=
  ⟨⟨{ hostState pkg1 with pkgs := [pkg1, { pkg1 with group := [1] }] }, pkg1, rfl, rfl, rfl, rfl, by decide, by decide, by decide +kernel,
      by decide +kernel⟩,
    ⟨{ soloPkg (fun p => { p with dissolving := 2 }) with folios := [] }, { pkg1 with dissolving := 2 }, rfl, rfl, rfl, rfl, by decide, rfl⟩,
    ⟨soloFol fun f => { f with record := f.record ||| 2 ^ 200 }, pkg1, { soloFolio 1 0 with record := soloRecord ||| 2 ^ 200 }, rfl, rfl, rfl, rfl,
      List.mem_singleton.2 rfl, by decide +kernel, by decide, by decide +kernel⟩,
    ⟨soloPkg fun p => { p with num := 1 }, { pkg1 with num := 1 }, rfl, rfl, rfl, rfl, rfl⟩,
    ⟨{ pkg1 with formation := 3 }, 3, 4, rfl, by decide⟩⟩

theorem witness_Fences :
    (∃ (s : State) (p : Package), s.pkgs[0]? = some p ∧ p.powered = true ∧ p.boot = .ready ∧ p.fenced.getLsbD 3 = false ∧
      (∃ x ∈ p.dies, x ≠ (3 : Fin 4) ∧ x ∉ p.fencing) ∧ (3 : Fin 4) ∉ p.fencing) ∧
    (∃ (s : State) (p : Package), s.pkgs[0]? = some p ∧ p.powered = true ∧ p.boot = .ready ∧ p.fenced.getLsbD 3 = false ∧
      (∀ x ∈ p.dies, x = (3 : Fin 4) ∨ x ∈ p.fencing) ∧ 0 ∈ p.fencing ∧ 2 ∈ p.fencing ∧ s.dieInUse 0 2 = false ∧ s.dieInUse 0 0 = true) ∧
    (∃ (s : State) (p : Package), s.pkgs[0]? = some p ∧ p.powered = true ∧ p.boot = .ready ∧ p.fenced.getLsbD 3 = true ∧ Cells.wf p.trans = true) :=
  ⟨⟨solo [], pkg1, rfl, rfl, rfl, by decide, by decide +kernel, by decide⟩,
    ⟨soloPkg fun p => { p with fencing := [0, 1, 2] }, { pkg1 with fencing := [0, 1, 2] }, rfl, rfl, rfl, by decide, by decide +kernel, by decide,
      by decide, by decide, by decide⟩,
    ⟨soloPkg fun p => { p with fenced := 8 }, { pkg1 with fenced := 8 }, rfl, rfl, rfl, by decide, by decide⟩⟩

theorem witness_TickAdvances :
    (∃ s : State, ∀ p ∈ s.pkgs, p.powered = false) ∧
    (∃ (s : State) (p : Package), s.pkgs[0]? = some p ∧ p.powered = true ∧ p.restLeft = 0 ∧ p.stalled = false) ∧
    (∃ (s : State) (p : Package), s.pkgs[0]? = some p ∧ p.powered = true ∧ 1 < p.restLeft) ∧
    (∃ (s : State) (p : Package), s.pkgs[0]? = some p ∧ p.powered = true ∧ p.restLeft = 0 ∧ p.stalled = true) ∧
    (∃ (s : State) (p : Package) (h : Hold), s.pkgs[0]? = some p ∧ p.powered = true ∧ p.restLeft = 1 ∧ h ∈ p.holds ∧ h.from_ ≤ p.tick ∧ h.until_ = none) ∧
    (∃ (s : State) (p : Package), s.pkgs[0]? = some p ∧ p.powered = true ∧ p.restLeft = 1 ∧ p.holds = []) ∧
    (∃ (s : State) (p : Package), (∃ q ∈ s.pkgs, q.powered = true) ∧ s.pkgs[1]? = some p ∧ p.powered = false) :=
  ⟨⟨soloPkg fun p => { p with powered := false }, by intro p h; simp only [soloPkg, List.mem_singleton] at h; rw [h]⟩,
    ⟨solo [], pkg1, rfl, rfl, rfl, rfl⟩,
    ⟨soloPkg fun p => { p with restLeft := 2 }, { pkg1 with restLeft := 2 }, rfl, rfl, by decide⟩,
    ⟨soloPkg fun p => { p with stalled := true }, { pkg1 with stalled := true }, rfl, rfl, rfl, rfl⟩,
    ⟨soloPkg fun p => { p with restLeft := 1, holds := [⟨0, 0, none⟩] }, { pkg1 with restLeft := 1, holds := [⟨0, 0, none⟩] }, ⟨0, 0, none⟩, rfl, rfl, rfl,
      by simp, by decide, rfl⟩,
    ⟨soloPkg fun p => { p with restLeft := 1 }, { pkg1 with restLeft := 1 }, rfl, rfl, rfl, rfl⟩,
    ⟨{ solo [] with pkgs := [pkg1, { pkg1 with powered := false }] }, { pkg1 with powered := false }, ⟨pkg1, by simp, rfl⟩, rfl, rfl⟩⟩

/-- A state with a core, a memory and a stop, which meets both invariants and takes a step. -/
theorem witness_invariants : ∃ s t : State, s.memOk = true ∧ s.legal = true ∧ s.core.spad ≠ [] ∧ step s = .next t :=
  ⟨soloCore fun c => { c with spad := [(0xFFFFF, 7)], vl := 4096, cons := List.replicate 4 (.arm 5 0) }, _, by decide, by decide, by decide,
    rfl⟩

end Sys2Proof.Tests
end

section
/-! SUPPORT. Elements of wide registers, lane words that work element by element, and the bitwise words, shifts and counts of R128
and R129. -/

namespace Sys2Proof.Machine

/-! ### An element read after elements are written (R78) -/

theorem testBit_elem {n : Nat} (x : BitVec n) (w e i : Nat) :
    (elem x w e).testBit i = (decide (i < w) && x.getLsbD (w * e + i)) := by
  rw [elem, BitVec.testBit_toNat, BitVec.getLsbD_extractLsb']

theorem elem_lt {n : Nat} (x : BitVec n) (w e : Nat) : elem x w e < 2 ^ w := BitVec.isLt _

theorem getLsbD_setElem {n : Nat} (x : BitVec n) (w e c p : Nat) (hp : p < n) :
    (setElem x w e c).getLsbD p =
      if w * e ≤ p ∧ p < w * e + w then c.testBit (p - w * e) else x.getLsbD p := by
  simp only [setElem, BitVec.getLsbD_or, BitVec.getLsbD_and, BitVec.getLsbD_not, BitVec.getLsbD_shiftLeft, BitVec.getLsbD_ofNat,
    Nat.testBit_two_pow_sub_one, Nat.testBit_mod_two_pow]
  have hd : p - w * e < n := by omega
  have inside : w * e ≤ p ∧ p < w * e + w ↔ ¬ p < w * e ∧ p - w * e < w := by omega
  by_cases lo : p < w * e
  · simp [hp, inside, lo]
  · by_cases hi : p - w * e < w <;> simp [hp, hd, inside, lo, hi]

/-- Two elements of one width share a bit only when they are the same element. -/
theorem elem_bit_inside_iff {w e d i : Nat} (hi : i < w) : w * e ≤ w * d + i ∧ w * d + i < w * e + w ↔ d = e := by
  constructor
  · rintro ⟨lo, hi'⟩
    have h1 : w * d < w * (e + 1) := by rw [Nat.mul_succ]; omega
    have h2 : w * e < w * (d + 1) := by rw [Nat.mul_succ]; omega
    have := Nat.lt_of_mul_lt_mul_left h1
    have := Nat.lt_of_mul_lt_mul_left h2
    omega
  · rintro rfl; omega

theorem elem_setElem {n : Nat} (x : BitVec n) {w e d : Nat} (c : Nat) (hd : w * d + w ≤ n) :
    elem (setElem x w e c) w d = if d = e then c % 2 ^ w else elem x w d := by
  refine Nat.eq_of_testBit_eq fun i => ?_
  rw [testBit_elem]
  by_cases hi : i < w
  · rw [getLsbD_setElem _ _ _ _ _ (by omega)]
    simp only [elem_bit_inside_iff hi]
    split
    · subst d; simp [hi]
    · simp [testBit_elem]
  · split <;> simp [testBit_elem, hi]

/-- An element number below the count of a register lies inside the register. -/
theorem elem_fits {w e : Nat} (he : e < 16384 / w) : w * e + w ≤ 16384 := by
  have := Nat.mul_le_of_le_div w (e + 1) 16384 he
  rwa [Nat.mul_comm, Nat.mul_succ] at this

/-- What a list of element writes leaves in an element, when the code of each depends on its element alone. -/
theorem elem_writeElems_map (x : VecBits) {w d : Nat} (es : List Nat) (g : Nat → Nat) (hd : d < 16384 / w) :
    elem (writeElems x w (es.map fun e => (e, g e))) w d = if d ∈ es then g d % 2 ^ w else elem x w d := by
  induction es generalizing x with
  | nil => simp [writeElems]
  | cons e r ih =>
    rw [List.map_cons, writeElems, ih]
    have step : elem (if e < 16384 / w then setElem x w e (g e) else x) w d = if d = e then g d % 2 ^ w else elem x w d := by
      by_cases he : d = e
      · subst he; simp [hd, elem_setElem _ _ (elem_fits hd)]
      · split <;> simp [he, elem_setElem _ _ (elem_fits hd)]
    rw [step]
    by_cases hr : d ∈ r <;> simp [hr]

/-! ### Widths and slots by the statements' terms (R78, R118, R119) -/

theorem bitsOf_eq_width (t : ETy) : bitsOf t = width t := by cases t <;> decide

theorem active_iff_isActive (cap : Cap) (n : Nat) (g : WeightBits) (e : Nat) : active cap n g e = true ↔ isActive cap n g e := by
  simp [active, admits, weightPos, isActive]

theorem Job.mem_slotElems (j : Job) (len body k e : Nat) : e ∈ j.slotElems len body k ↔ j.lands len body k e := by
  have range : (∃ i < len, i + k * len = e) ↔ len * k ≤ e ∧ e < len * (k + 1) := by
    rw [Nat.mul_succ, Nat.mul_comm k]
    exact ⟨by rintro ⟨i, hi, rfl⟩; omega, fun h => ⟨e - len * k, by omega, by omega⟩⟩
  simp [Job.slotElems, Job.lands, active_iff_isActive, range, and_assoc]

/-! ### Lane words that compute each element of a vector register from its own operands (R121 to R130) -/

/-- Whether a word writes elements of the governing type, each from the operands at its own place. -/
def LaneOp.elementwise : LaneOp → Bool
  | .add | .sub | .mul | .fma | .fms | .nfma | .min | .max | .abs | .neg | .rcp | .rsq | .sqrt | .popc | .clz | .and | .or | .xor
  | .shl | .shr | .sra | .mulh => true
  | _ => false

theorem slotType_elementwise (t : ETy) {op : LaneOp} (h : op.elementwise = true) : slotType t op = t := by
  unfold slotType
  split
  · nomatch h
  · rfl

theorem destWidth_elementwise (t : ETy) {op : LaneOp} (h : op.elementwise = true) : destWidth t op = width t := by
  unfold destWidth
  split
  · nomatch h
  · rfl

theorem bodyLen_elementwise (cap : Cap) {op : LaneOp} (h : op.elementwise = true) : bodyLen cap op = min cap.vl (vlmax cap.ty) := by
  unfold bodyLen
  split
  · nomatch h
  · rw [slotType_elementwise _ h]

theorem LaneOp.ne_of_elementwise {op op' : LaneOp} (h : op.elementwise = true) (h' : op'.elementwise = false) : op ≠ op' := by
  rintro rfl; simp [h] at h'

/-- The result of a lane word at element `e`, with its flags, from the operands that the work has read. -/
def Job.elemValue (j : Job) (l : Lane) (e : Nat) : Rounded :=
  let w := width j.cap.ty
  let p := weightPos j.cap.ty e
  elemResult j.cap l j.smp e (elem j.smp.a w e) (l.imm.getD (elem j.smp.b w e)) (elem j.smp.d w e) (weightAt j.smp.wa p)
    (weightAt j.smp.wb p)

/-- The elements that slot `k` of a word on elements of the governing type lands. -/
def Job.ownSlot (j : Job) (k : Nat) : List Nat := j.slotElems (epg j.cap.ty) (min j.cap.vl (vlmax j.cap.ty)) k

theorem laneResult_elementwise (j : Job) {l : Lane} (k : Nat) (h : l.op.elementwise = true) :
    laneResult j.cap l j.smp k =
      { main := (j.ownSlot k).map fun e => (e, (j.elemValue l e).1), second := []
        hits := (j.ownSlot k).flatMap fun e => hitsAt (j.elemValue l e).2 e } := by
  have slot : laneResult j.cap l j.smp k = slotResult j.cap l j.smp k := by
    unfold laneResult
    -- every case but the last, which is the slot's own result, is a word that moves, reduces or packs elements
    split
    case h_15 => rfl
    all_goals exact absurd ‹l.op = _› (LaneOp.ne_of_elementwise h rfl)
  have once : l.op ≠ .bacc := LaneOp.ne_of_elementwise h rfl
  rw [slot]
  simp [slotResult, bodyLen_elementwise _ h, slotLen, slotType_elementwise _ h, Job.ownSlot, Job.slotElems, Job.elemValue,
    List.flatMap_map, Function.comp_def]

theorem laneLand_elementwise (t : Stamp) (j : Job) {l : Lane} {r : VReg} (k : Nat) (c : Core) (h : l.op.elementwise = true)
    (hr : l.dst = .v r) :
    laneLand t j.cap l j.smp k c =
      (c.setV r (writeElems c.v[r] (width j.cap.ty) ((j.ownSlot k).map fun e => (e, (j.elemValue l e).1)))).raiseAt t
        ((j.ownSlot k).flatMap fun e => hitsAt (j.elemValue l e).2 e) := by
  simp [laneLand, laneResult_elementwise j k h, hr, destWidth_elementwise _ h]

theorem exec_resultLanding (n k : Nat) (s : State) : exec (.resultLanding n k) s = execResultLanding n k s := rfl

/-- Work that no conflict has cut lands every slot (R157). -/
theorem exec_resultLanding_lane {s : State} {n : Nat} {j : Job} {l : Lane} (k : Nat) (hj : s.job? n = some j) (hw : j.work = .lane l)
    (hc : j.cut = none) :
    exec (.resultLanding n k) s = .next (s.updCore j.core (laneLand (s.stampOf j) j.cap l j.smp k)) := by
  have kept : j.laneKept l k (s.stampOf j).now = true := by
    unfold Job.laneKept; split <;> simp [Job.keeps, Job.lives, hc]
  rw [exec_resultLanding, execResultLanding, State.withJob_of hj, hw]
  simp [State.judgeRecord, State.landResult, hw, kept]

/-- A lane word without flags lands a slot of its destination alone. -/
theorem onlyCore_elementwise {s : State} {j : Job} {c : Core} {l : Lane} {r : VReg} (k : Nat) (hc : s.core? j.core = some c)
    (h : l.op.elementwise = true) (hr : l.dst = .v r) (hf : ∀ e, (j.elemValue l e).2 = {}) :
    s.onlyCore (s.updCore j.core (laneLand (s.stampOf j) j.cap l j.smp k)) j.core { c with
      v := c.v.set r (writeElems c.v[r] (width j.cap.ty) ((j.ownSlot k).map fun e => (e, (j.elemValue l e).1))) } := by
  have land (d : Core) : laneLand (s.stampOf j) j.cap l j.smp k d =
      d.setV r (writeElems d.v[r] (width j.cap.ty) ((j.ownSlot k).map fun e => (e, (j.elemValue l e).1))) := by
    have quiet : ((j.ownSlot k).flatMap fun e => hitsAt (j.elemValue l e).2 e) = [] := by simp [hf, hitsAt]
    rw [laneLand_elementwise _ _ _ _ h hr, quiet]
    rfl
  have only := State.onlyCore_updCore (f := laneLand (s.stampOf j) j.cap l j.smp k) hc fun d hd => by rw [land, Core.setV_id, hd]
  rwa [land c] at only

/-! ### Bitwise words, shifts and counts (R128, R129) -/

/-- The words of R128 and R129, each with its result on codes of `w` bits. -/
def BitwiseWord (op : LaneOp) (f : Nat → Nat → Nat → Nat) : Prop :=
  op = .and ∧ f = (fun _ a b => a &&& b) ∨ op = .or ∧ f = (fun _ a b => a ||| b) ∨ op = .xor ∧ f = (fun _ a b => a ^^^ b) ∨
    op = .shl ∧ f = (fun w a b => a * 2 ^ b % 2 ^ w) ∨ op = .shr ∧ f = (fun _ a b => a / 2 ^ b) ∨
    op = .sra ∧ f = (fun w a b => (((if 2 ^ (w - 1) ≤ a then (a : Int) - 2 ^ w else a) / 2 ^ b) % 2 ^ w).toNat) ∨
    op = .popc ∧ f = (fun w a _ => ((List.range w).filter fun i => a.testBit i).length) ∨
    op = .clz ∧ f = (fun w a _ => if a = 0 then w else w - 1 - a.log2)

/-- A shift by the width or more leaves nothing of the code. -/
theorem shlC_eq (w a b : Nat) : shlC w a b = a * 2 ^ b % 2 ^ w := by
  unfold shlC
  split
  · exact (Nat.mod_eq_zero_of_dvd ((Nat.pow_dvd_pow 2 ‹_›).trans (Nat.dvd_mul_left _ _))).symm
  · rw [Nat.shiftLeft_eq]

theorem shrC_eq {w a : Nat} (b : Nat) (ha : a < 2 ^ w) : shrC w a b = a / 2 ^ b := by
  unfold shrC
  split
  · exact (Nat.div_eq_of_lt (ha.trans_le (Nat.pow_le_pow_right (by decide) ‹_›))).symm
  · rw [Nat.mod_eq_of_lt ha, Nat.shiftRight_eq_div_pow]

theorem testBit_top {w a : Nat} (hw : 0 < w) (ha : a < 2 ^ w) : a.testBit (w - 1) = decide (2 ^ (w - 1) ≤ a) := by
  have hlt : a / 2 ^ (w - 1) < 2 := Nat.div_lt_of_lt_mul (by rwa [← Nat.pow_succ, Nat.succ_eq_add_one, Nat.sub_add_cancel hw])
  have hle : 2 ^ (w - 1) ≤ a ↔ 1 ≤ a / 2 ^ (w - 1) := by rw [Nat.le_div_iff_mul_le (Nat.two_pow_pos _), Nat.one_mul]
  rw [Nat.testBit_eq_decide_div_mod_eq, decide_eq_decide, hle]
  generalize a / 2 ^ (w - 1) = q at hlt ⊢
  omega

/-- Below zero a shift to the right rounds down: what is shifted is the complement of the code. -/
theorem sraC_eq {w a : Nat} (b : Nat) (hw : 0 < w) (ha : a < 2 ^ w) :
    sraC w a b = (((if 2 ^ (w - 1) ≤ a then (a : Int) - 2 ^ w else a) / 2 ^ b) % 2 ^ w).toNat := by
  have pow (i : Nat) : (2 : Int) ^ i = ((2 ^ i : Nat) : Int) := by push_cast; rfl
  simp only [sraC, Nat.mod_eq_of_lt ha, testBit_top hw ha, decide_eq_true_eq]
  split
  · have hm : 2 ^ w - 1 - a < 2 ^ w := by omega
    have hs := shrC_eq b hm
    rw [shrC, Nat.mod_eq_of_lt hm] at hs
    have hq : (2 ^ w - 1 - a) / 2 ^ b < 2 ^ w := (Nat.div_le_self _ _).trans_lt hm
    have neg : (a : Int) - (2 ^ w : Nat) = Int.negSucc (2 ^ w - 1 - a) := by rw [Int.negSucc_eq]; omega
    have quotient : Int.negSucc (2 ^ w - 1 - a) / ((2 ^ b : Nat) : Int) = -(((2 ^ w - 1 - a) / 2 ^ b : Nat) + 1) :=
      Int.negSucc_ediv _ (by exact_mod_cast Nat.two_pow_pos b)
    rw [hs, pow, neg, pow, quotient, ← Int.add_emod_right, Int.emod_eq_of_lt (by omega) (by omega)]
    omega
  · rw [shrC_eq b ha, pow, pow, ← Int.natCast_ediv, ← Int.natCast_emod, Int.toNat_natCast,
      Nat.mod_eq_of_lt ((Nat.div_le_self _ _).trans_lt ha)]

theorem clz_eq {w a : Nat} (ha : a < 2 ^ w) : clz w a = if a = 0 then w else w - 1 - a.log2 := by
  simp [clz, Nat.mod_eq_of_lt ha]

/-- A bitwise word gives its result on codes, raises no flag, and its result is a code of the width. -/
theorem elemResult_bitwise (cap : Cap) {l : Lane} (sm : Samples) (e : Nat) {a b : Nat} (d wa wb : Nat) {f : Nat → Nat → Nat → Nat}
    (h : BitwiseWord l.op f) (ha : a < 2 ^ width cap.ty) (hb : b < 2 ^ width cap.ty) :
    elemResult cap l sm e a b d wa wb = (f (width cap.ty) a b, {}) ∧ f (width cap.ty) a b < 2 ^ width cap.ty := by
  have hw : 0 < width cap.ty := by cases cap.ty <;> decide
  have small {n : Nat} (hn : n ≤ width cap.ty) : n < 2 ^ width cap.ty := hn.trans_lt Nat.lt_two_pow_self
  rcases h with ⟨op, rfl⟩ | ⟨op, rfl⟩ | ⟨op, rfl⟩ | ⟨op, rfl⟩ | ⟨op, rfl⟩ | ⟨op, rfl⟩ | ⟨op, rfl⟩ | ⟨op, rfl⟩ <;>
    simp only [elemResult, op]
  · exact ⟨trivial, Nat.and_lt_two_pow _ hb⟩
  · exact ⟨trivial, Nat.or_lt_two_pow ha hb⟩
  · exact ⟨trivial, Nat.xor_lt_two_pow ha hb⟩
  · exact ⟨by rw [shlC_eq], Nat.mod_lt _ (Nat.two_pow_pos _)⟩
  · exact ⟨by rw [shrC_eq b ha], (Nat.div_le_self _ _).trans_lt ha⟩
  · refine ⟨by rw [sraC_eq b hw ha], ?_⟩
    have := Int.emod_lt_of_pos ((if 2 ^ (width cap.ty - 1) ≤ a then (a : Int) - 2 ^ width cap.ty else a) / 2 ^ b)
      (b := 2 ^ width cap.ty) (by positivity)
    rw [Int.toNat_lt (Int.emod_nonneg _ (by positivity))]
    exact_mod_cast this
  · exact ⟨rfl, small ((List.length_filter_le _ _).trans (by simp))⟩
  · exact ⟨by rw [clz_eq ha], small (by split <;> omega)⟩

theorem BitwiseWord.elementwise {op : LaneOp} {f : Nat → Nat → Nat → Nat} (h : BitwiseWord op f) : op.elementwise = true := by
  rcases h with ⟨rfl, -⟩ | ⟨rfl, -⟩ | ⟨rfl, -⟩ | ⟨rfl, -⟩ | ⟨rfl, -⟩ | ⟨rfl, -⟩ | ⟨rfl, -⟩ | ⟨rfl, -⟩ <;> rfl

/-- What a bitwise word computes of element `e`, by its captured second operand or by the register that it has read. -/
theorem elemValue_bitwise {j : Job} {l : Lane} {f : Nat → Nat → Nat → Nat} (h : BitwiseWord l.op f)
    (imm : ∀ x, l.imm = some x → x < 2 ^ width j.cap.ty) (e : Nat) :
    j.elemValue l e = (f (width j.cap.ty) (elem j.smp.a (width j.cap.ty) e) (l.imm.getD (elem j.smp.b (width j.cap.ty) e)), {}) ∧
      (j.elemValue l e).1 < 2 ^ width j.cap.ty := by
  have hb : l.imm.getD (elem j.smp.b (width j.cap.ty) e) < 2 ^ width j.cap.ty := by
    cases hi : l.imm with
    | none => exact elem_lt _ _ _
    | some x => exact imm x hi
  obtain ⟨value, code⟩ := elemResult_bitwise j.cap j.smp e (elem j.smp.d (width j.cap.ty) e)
    (weightAt j.smp.wa (weightPos j.cap.ty e)) (weightAt j.smp.wb (weightPos j.cap.ty e)) h (elem_lt _ _ _) hb
  exact ⟨value, by rw [Job.elemValue, value]; exact code⟩

end Sys2Proof.Machine

section
open Sys2Proof Sys2Proof.Machine

/-- Settles O28: the slot lands what `elemValue_bitwise` gives, the codes of the width, and the words raise no flag. -/
theorem bitwiseResultsLand : Obligations.BitwiseResultsLand := by
  intro s n k j c l r f hj hw hr _ hcut hc _ hop imm
  simp only [bitsOf_eq_width] at imm ⊢
  have op := BitwiseWord.elementwise hop
  have value (e : Nat) := elemValue_bitwise (j := j) hop imm e
  have slot (e : Nat) : e ∈ j.ownSlot k ↔ j.lands (1024 / width j.cap.ty) (min j.cap.vl (16384 / width j.cap.ty)) k e :=
    j.mem_slotElems _ _ k e
  refine ⟨_, _, exec_resultLanding_lane k hj hw hcut, onlyCore_elementwise k hc op hr fun e => by rw [(value e).1], ?_, ?_⟩
  · intro e he
    have ⟨_, _, hbody, _⟩ := he
    rw [elem_writeElems_map _ _ _ (hbody.trans_le (Nat.min_le_right _ _)), if_pos ((slot e).2 he), Nat.mod_eq_of_lt (value e).2,
      (value e).1]
  · intro e he hn
    rw [elem_writeElems_map _ _ _ he, if_neg fun h => hn ((slot e).1 h)]

end
end

section
/-! SUPPORT. Scalar arithmetic by its words (R159 to R163, R181): what each operation on 64-bit values computes, as integers or
as naturals, and the state that a word with one scalar result leaves. -/

namespace Sys2Proof.Machine

/-! ### Operations on words as operations on integers and naturals (R160) -/

section
variable {w : Nat} (x y : BitVec w)

/-- A word is the low bits of every integer congruent to its value. -/
theorem eq_ofInt_iff {x : BitVec w} {z : Int} : x = BitVec.ofInt w z ↔ x.toInt = z.bmod (2 ^ w) := by
  rw [← BitVec.toInt_inj, BitVec.toInt_ofInt]

theorem add_eq_ofInt : x + y = BitVec.ofInt w (x.toInt + y.toInt) := eq_ofInt_iff.2 (BitVec.toInt_add x y)

theorem sub_eq_ofInt : x - y = BitVec.ofInt w (x.toInt - y.toInt) := eq_ofInt_iff.2 BitVec.toInt_sub

theorem mul_eq_ofInt : x * y = BitVec.ofInt w (x.toInt * y.toInt) := eq_ofInt_iff.2 (BitVec.toInt_mul x y)

theorem sdiv_eq_ofInt : x.sdiv y = BitVec.ofInt w (x.toInt.tdiv y.toInt) := eq_ofInt_iff.2 (BitVec.toInt_sdiv x y)

theorem srem_eq_ofInt : x.srem y = BitVec.ofInt w (x.toInt.tmod y.toInt) := by
  rw [← BitVec.toInt_srem, BitVec.ofInt_toInt]

theorem toInt_sshiftRight_eq_ediv (n : Nat) : (x.sshiftRight n).toInt = x.toInt / 2 ^ n := by
  rw [BitVec.toInt_sshiftRight, Int.shiftRight_eq_div_pow, Nat.cast_pow, Nat.cast_ofNat]

theorem sshiftRight_eq_ofInt (n : Nat) : x.sshiftRight n = BitVec.ofInt w (x.toInt / 2 ^ n) := by
  rw [← toInt_sshiftRight_eq_ediv, BitVec.ofInt_toInt]

theorem udiv_eq_ofNat : x / y = BitVec.ofNat w (x.toNat / y.toNat) := by
  rw [← BitVec.toNat_udiv, BitVec.ofNat_toNat, BitVec.setWidth_eq]

theorem ushiftRight_eq_ofNat (n : Nat) : x >>> n = BitVec.ofNat w (x.toNat / 2 ^ n) := by
  rw [← Nat.shiftRight_eq_div_pow, ← BitVec.toNat_ushiftRight, BitVec.ofNat_toNat, BitVec.setWidth_eq]

theorem shiftLeft_eq_ofNat (n : Nat) : x <<< n = BitVec.ofNat w (x.toNat * 2 ^ n) := by
  rw [← BitVec.toNat_inj, BitVec.toNat_shiftLeft, Nat.shiftLeft_eq, BitVec.toNat_ofNat]

theorem and_eq_ofNat : x &&& y = BitVec.ofNat w (x.toNat &&& y.toNat) := by simp

theorem or_eq_ofNat : x ||| y = BitVec.ofNat w (x.toNat ||| y.toNat) := by simp

theorem xor_eq_ofNat : x ^^^ y = BitVec.ofNat w (x.toNat ^^^ y.toNat) := by simp

/-- A strict and a weak comparison choose alike between results that agree on equal words. -/
theorem ite_slt_eq_ite_le {α : Type} {p q : α} (agree : x = y → p = q) :
    (if x.slt y then p else q) = if x.toInt ≤ y.toInt then p else q := by
  rcases lt_trichotomy x.toInt y.toInt with h | h | h
  · simp [BitVec.slt, h, h.le]
  · simp [agree (BitVec.toInt_inj.1 h)]
  · simp [BitVec.slt, h.not_gt, h.not_ge]

/-- Bits of a word, read from its signed value: no bit that is read lies above the sign. -/
theorem ofInt_toInt_ediv {lo len : Nat} (h : lo + len ≤ w) :
    BitVec.ofInt len (x.toInt / 2 ^ lo) = x.extractLsb' lo len := by
  have shifted : BitVec.ofInt len (x.toInt / 2 ^ lo) = (x.sshiftRight lo).signExtend len := by
    rw [BitVec.signExtend, toInt_sshiftRight_eq_ediv]
  rw [shifted, BitVec.signExtend_eq_setWidth_of_le _ (by omega)]
  ext i hi
  simp [BitVec.getElem_sshiftRight, show i < w by omega, show lo + i < w by omega]

end

/-- Operands extended to twice their width leave room for the whole product. -/
theorem toInt_mul_signExtend (x y : DWord) : (x.signExtend 128 * y.signExtend 128).toInt = x.toInt * y.toInt := by
  have least : -2 ^ 126 ≤ x.toInt * y.toInt := BitVec.le_toInt_mul_toInt
  have most : x.toInt * y.toInt ≤ 2 ^ 126 := BitVec.toInt_mul_toInt_le
  rw [BitVec.toInt_mul, BitVec.toInt_signExtend_of_le (by decide), BitVec.toInt_signExtend_of_le (by decide)]
  exact Int.bmod_eq_of_le (by omega) (by omega)

theorem toNat_mul_setWidth (x y : DWord) : (x.setWidth 128 * y.setWidth 128).toNat = x.toNat * y.toNat := by
  have fits : x.toNat * y.toNat < 2 ^ 128 := BitVec.toNat_mul_toNat_lt
  rw [BitVec.toNat_mul, BitVec.toNat_setWidth_of_le (by decide), BitVec.toNat_setWidth_of_le (by decide), Nat.mod_eq_of_lt fits]

theorem mulh_eq_extract (x y : DWord) :
    BitVec.ofInt 64 (x.toInt * y.toInt / 2 ^ 64) = (x.signExtend 128 * y.signExtend 128).extractLsb' 64 64 := by
  rw [← toInt_mul_signExtend, ofInt_toInt_ediv _ (by decide)]

theorem mulhu_eq_extract (x y : DWord) :
    BitVec.ofNat 64 (x.toNat * y.toNat / 2 ^ 64) = (x.setWidth 128 * y.setWidth 128).extractLsb' 64 64 := by
  rw [← toNat_mul_setWidth, ← Nat.shiftRight_eq_div_pow, BitVec.extractLsb']

theorem truth_slt (x y : DWord) : truth (x.slt y) = if x.toInt < y.toInt then 1 else 0 := by
  simp [truth, BitVec.slt]

theorem truth_ult (x y : DWord) : truth (x.ult y) = if x.toNat < y.toNat then 1 else 0 := by
  simp [truth, BitVec.ult]

/-! ### Constants (R162, R163) -/

theorem imm64_eq_ofInt (i : BitVec 15) : imm64 i = BitVec.ofInt 64 i.toInt := rfl

@[simp] theorem imm64_toInt (i : BitVec 15) : (imm64 i).toInt = i.toInt := BitVec.toInt_signExtend_of_le (by decide)

theorem signExtend_append_zero (u : BitVec 20) :
    (u ++ (0 : BitVec 12)).signExtend 64 = BitVec.ofInt 64 (u.toInt * 2 ^ 12) := by
  have value : (u ++ (0 : BitVec 12)).toInt = u.toInt * 2 ^ 12 := BitVec.toInt_append_zero.trans (Int.mul_comm _ _)
  rw [BitVec.signExtend, value]

theorem add_imm64 (x : DWord) (i : BitVec 15) : x + imm64 i = BitVec.ofInt 64 (x.toInt + i.toInt) := by
  rw [add_eq_ofInt, imm64_toInt]

theorem truth_slt_imm64 (x : DWord) (i : BitVec 15) : truth (x.slt (imm64 i)) = if x.toInt < i.toInt then 1 else 0 := by
  rw [truth_slt, imm64_toInt]

/-! ### Words with one scalar result -/

/-- A word that leaves a scalar result puts one piece of work in flight, and nothing else changes but the next word (R151, R159);
`value` spells the result as the rule of the word does. -/
theorem exec_issues {s : State} {i : Instr} {d : SReg} {v v' : DWord} {lat : Nat} (word : exec i s = .next (s.result d v lat))
    (value : v = v') : exec i s = .next (s.issued .none (.scalar d v' lat)) := by
  rw [word, State.result_eq, value]

end Sys2Proof.Machine

section
open Sys2Proof Sys2Proof.Machine

/-- Settles O8: each word leaves one scalar result, and the result of the model's operation is the one that its rule names. -/
theorem scalarArithmetic : Obligations.ScalarArithmetic := by
  refine ⟨fun s d a b => ?_, fun s d a i h u n => ?_⟩
  · exact ⟨exec_issues rfl (add_eq_ofInt _ _),
      exec_issues rfl (sub_eq_ofInt _ _),
      exec_issues rfl (and_eq_ofNat _ _),
      exec_issues rfl (or_eq_ofNat _ _),
      exec_issues rfl (xor_eq_ofNat _ _),
      exec_issues rfl (shiftLeft_eq_ofNat _ _),
      exec_issues rfl (ushiftRight_eq_ofNat _ _),
      exec_issues rfl (sshiftRight_eq_ofInt _ _),
      exec_issues rfl (truth_slt _ _),
      exec_issues rfl (truth_ult _ _),
      exec_issues rfl (mul_eq_ofInt _ _),
      exec_issues rfl (mulh_eq_extract _ _),
      exec_issues rfl (mulhu_eq_extract _ _),
      exec_issues rfl (if_congr Iff.rfl BitVec.neg_one_eq_allOnes (sdiv_eq_ofInt _ _)),
      exec_issues rfl (if_congr Iff.rfl BitVec.neg_one_eq_allOnes (udiv_eq_ofNat _ _)),
      exec_issues rfl (if_congr Iff.rfl rfl (srem_eq_ofInt _ _)),
      exec_issues rfl (ite_slt_eq_ite_le _ _ id),
      exec_issues rfl (ite_slt_eq_ite_le _ _ Eq.symm)⟩
  · exact ⟨exec_issues rfl (add_imm64 _ _),
      exec_issues rfl (congrArg _ (imm64_eq_ofInt _)),
      exec_issues rfl (congrArg _ (imm64_eq_ofInt _)),
      exec_issues rfl (congrArg _ (imm64_eq_ofInt _)),
      exec_issues rfl (truth_slt_imm64 _ _),
      exec_issues rfl (shiftLeft_eq_ofNat _ _),
      exec_issues rfl (ushiftRight_eq_ofNat _ _),
      exec_issues rfl (sshiftRight_eq_ofInt _ _),
      exec_issues rfl (signExtend_append_zero _),
      exec_issues rfl rfl⟩

end
end
